-- ==== Sys2Proof/Word.lean ====
section
/-! DEFINITION. The machine's units: words, half-words and bytes (00_scope.md R5, 20_memory.md R100). -/

namespace Sys2Proof

/-- A 32-bit value: a general register, an address, a word of memory (R5). -/
abbrev Word := BitVec 32

/-- A 16-bit value: a half-word of memory, an instruction half-word (R5). -/
abbrev Half := BitVec 16

/-- An 8-bit value: a byte of memory (R5). -/
abbrev Byte := BitVec 8

end Sys2Proof
end

