-- ==== Sys2Proof/Syntax.lean ====
section
/-! DEFINITION. The instructions: one constructor for each of the 85 rows of spec/opcode_table.json (30_encoding.md R160).
Immediates are the encoded fields; the meanings scale and bias them (R155). -/

namespace Sys2Proof

/-- The sixteen register numbers an instruction can name (10_state.md R20; r9 to r12 are named but not implemented). -/
inductive Reg where
  | r0 | r1 | r2 | r3 | r4 | r5 | r6 | r7 | r8 | r9 | r10 | r11 | r12 | r13 | r14 | r15
deriving DecidableEq, Repr

/-- The E801's instructions. -/
inductive Instr where
  -- 40_arith.md
  | addu16 (rz rx : Reg)
  | addu16r3 (rz rx ry : Reg)
  | addc16 (rz rx : Reg)
  | addi16 (rz : Reg) (imm8 : BitVec 8)
  | addi16r3 (rz rx : Reg) (imm3 : BitVec 3)
  | addi16rsp (rz : Reg) (imm8 : BitVec 8)
  | addi16sp (imm7 : BitVec 7)
  | subu16 (rz rx : Reg)
  | subu16r3 (rz rx ry : Reg)
  | subc16 (rz rx : Reg)
  | subi16 (rz : Reg) (imm8 : BitVec 8)
  | subi16r3 (rz rx : Reg) (imm3 : BitVec 3)
  | subi16sp (imm7 : BitVec 7)
  | mult16 (rz rx : Reg)
  -- 41_logic_shift.md
  | and16 (rz rx : Reg)
  | andn16 (rz rx : Reg)
  | or16 (rz rx : Reg)
  | xor16 (rz rx : Reg)
  | nor16 (rz rx : Reg)
  | lsl16 (rz rx : Reg)
  | lsr16 (rz rx : Reg)
  | asr16 (rz rx : Reg)
  | rotl16 (rz rx : Reg)
  | lsli16 (rz rx : Reg) (imm5 : BitVec 5)
  | lsri16 (rz rx : Reg) (imm5 : BitVec 5)
  | asri16 (rz rx : Reg) (imm5 : BitVec 5)
  | zextb16 (rz rx : Reg)
  | zexth16 (rz rx : Reg)
  | sextb16 (rz rx : Reg)
  | sexth16 (rz rx : Reg)
  -- 42_compare_move_bit.md
  | cmpne16 (rx ry : Reg)
  | cmpnei16 (rx : Reg) (imm5 : BitVec 5)
  | cmphs16 (rx ry : Reg)
  | cmphsi16 (rx : Reg) (imm5 : BitVec 5)
  | cmplt16 (rx ry : Reg)
  | cmplti16 (rx : Reg) (imm5 : BitVec 5)
  | tst16 (rx ry : Reg)
  | tstnbz16 (rx : Reg)
  | mov16 (rz rx : Reg)
  | movi16 (rz : Reg) (imm8 : BitVec 8)
  | mvcv16 (rz : Reg)
  | bclri16 (rz : Reg) (imm5 : BitVec 5)
  | bseti16 (rz : Reg) (imm5 : BitVec 5)
  | btsti16 (rx : Reg) (imm5 : BitVec 5)
  | lrw16 (rz : Reg) (offset7 : BitVec 7)
  | lrw32 (rz : Reg) (offset16 : BitVec 16)
  -- 43_branch.md
  | br16 (offset10 : BitVec 10)
  | br32 (offset16 : BitVec 16)
  | bt16 (offset10 : BitVec 10)
  | bf16 (offset10 : BitVec 10)
  | bsr32 (offset26 : BitVec 26)
  | jmp16 (rx : Reg)
  | jsr16 (rx : Reg)
  -- 44_load_store.md
  | ld16b (rz rx : Reg) (offset5 : BitVec 5)
  | ld32b (rz rx : Reg) (offset12 : BitVec 12)
  | ld16h (rz rx : Reg) (offset5 : BitVec 5)
  | ld32h (rz rx : Reg) (offset12 : BitVec 12)
  | ld16w (rz rx : Reg) (offset5 : BitVec 5)
  | ld16wsp (rz : Reg) (offset8 : BitVec 8)
  | ld32w (rz rx : Reg) (offset12 : BitVec 12)
  | st16b (rz rx : Reg) (offset5 : BitVec 5)
  | st32b (rz rx : Reg) (offset12 : BitVec 12)
  | st16h (rz rx : Reg) (offset5 : BitVec 5)
  | st32h (rz rx : Reg) (offset12 : BitVec 12)
  | st16w (rz rx : Reg) (offset5 : BitVec 5)
  | st16wsp (rz : Reg) (offset8 : BitVec 8)
  | st32w (rz rx : Reg) (offset12 : BitVec 12)
  -- 45_stack_multi.md
  | push16 (r15 : Bool) (list1 : BitVec 4)
  | pop16 (r15 : Bool) (list1 : BitVec 4)
  | ipush16
  | ipop16
  | nie16
  | nir16
  -- 46_system.md
  | mfcr32 (rz : Reg) (crx sel : BitVec 5)
  | mtcr32 (rx : Reg) (crz sel : BitVec 5)
  | psrset32 (imm5 : BitVec 5)
  | psrclr32 (imm5 : BitVec 5)
  | rte32
  | trap32 (n : BitVec 2)
  | bkpt16
  | sync32 (sBit iBit : Bool)
  | wait32
  | doze32
  | stop32
  | idly32 (imm5 : BitVec 5)
deriving DecidableEq, Repr

end Sys2Proof
end

