-- ==== Sys2Proof/WellFormed.lean ====
section
/-! DEFINITION. Which terms of Instr are instructions of the E801: what the encodings can express (30_encoding.md R153, R154, R160). -/

namespace Sys2Proof

/-- r0 to r7, the registers a three-bit field names (30_encoding.md R153: "寄存器的范围为 r0-r7"). -/
def Reg.isLow : Reg → Bool
  | .r0 | .r1 | .r2 | .r3 | .r4 | .r5 | .r6 | .r7 => true
  | .r8 | .r9 | .r10 | .r11 | .r12 | .r13 | .r14 | .r15 => false

/-- An instruction that has an encoding: three-bit register fields hold r0 to r7 (R153), and LIST1 of PUSH16 and POP16 is at most
8 (45_stack_multi.md R360). -/
def Instr.wellFormed : Instr → Bool
  | .addu16 _ _ => true
  | .addu16r3 rz rx ry => rz.isLow && rx.isLow && ry.isLow
  | .addc16 _ _ => true
  | .addi16 rz _ => rz.isLow
  | .addi16r3 rz rx _ => rz.isLow && rx.isLow
  | .addi16rsp rz _ => rz.isLow
  | .addi16sp _ => true
  | .subu16 _ _ => true
  | .subu16r3 rz rx ry => rz.isLow && rx.isLow && ry.isLow
  | .subc16 _ _ => true
  | .subi16 rz _ => rz.isLow
  | .subi16r3 rz rx _ => rz.isLow && rx.isLow
  | .subi16sp _ => true
  | .mult16 _ _ => true
  | .and16 _ _ => true
  | .andn16 _ _ => true
  | .or16 _ _ => true
  | .xor16 _ _ => true
  | .nor16 _ _ => true
  | .lsl16 _ _ => true
  | .lsr16 _ _ => true
  | .asr16 _ _ => true
  | .rotl16 _ _ => true
  | .lsli16 rz rx _ => rz.isLow && rx.isLow
  | .lsri16 rz rx _ => rz.isLow && rx.isLow
  | .asri16 rz rx _ => rz.isLow && rx.isLow
  | .zextb16 _ _ => true
  | .zexth16 _ _ => true
  | .sextb16 _ _ => true
  | .sexth16 _ _ => true
  | .cmpne16 _ _ => true
  | .cmpnei16 rx _ => rx.isLow
  | .cmphs16 _ _ => true
  | .cmphsi16 rx _ => rx.isLow
  | .cmplt16 _ _ => true
  | .cmplti16 rx _ => rx.isLow
  | .tst16 _ _ => true
  | .tstnbz16 _ => true
  | .mov16 _ _ => true
  | .movi16 rz _ => rz.isLow
  | .mvcv16 _ => true
  | .bclri16 rz _ => rz.isLow
  | .bseti16 rz _ => rz.isLow
  | .btsti16 rx _ => rx.isLow
  | .lrw16 rz _ => rz.isLow
  | .lrw32 _ _ => true
  | .br16 _ => true
  | .br32 _ => true
  | .bt16 _ => true
  | .bf16 _ => true
  | .bsr32 _ => true
  | .jmp16 _ => true
  | .jsr16 _ => true
  | .ld16b rz rx _ => rz.isLow && rx.isLow
  | .ld32b _ _ _ => true
  | .ld16h rz rx _ => rz.isLow && rx.isLow
  | .ld32h _ _ _ => true
  | .ld16w rz rx _ => rz.isLow && rx.isLow
  | .ld16wsp rz _ => rz.isLow
  | .ld32w _ _ _ => true
  | .st16b rz rx _ => rz.isLow && rx.isLow
  | .st32b _ _ _ => true
  | .st16h rz rx _ => rz.isLow && rx.isLow
  | .st32h _ _ _ => true
  | .st16w rz rx _ => rz.isLow && rx.isLow
  | .st16wsp rz _ => rz.isLow
  | .st32w _ _ _ => true
  | .push16 _ list1 => list1 ≤ 8#4
  | .pop16 _ list1 => list1 ≤ 8#4
  | .ipush16 => true
  | .ipop16 => true
  | .nie16 => true
  | .nir16 => true
  | .mfcr32 _ _ _ => true
  | .mtcr32 _ _ _ => true
  | .psrset32 _ => true
  | .psrclr32 _ => true
  | .rte32 => true
  | .trap32 _ => true
  | .bkpt16 => true
  | .sync32 _ _ => true
  | .wait32 => true
  | .doze32 => true
  | .stop32 => true
  | .idly32 _ => true

end Sys2Proof
end

