-- ==== Sys2Proof/Decode.lean ====
section
/-! DEFINITION. Decoding (30_encoding.md R151, R153, R154, R160, R190, R191) and the encoder beside it. All bit positions are the
spec's, which marks them "from general knowledge" (PRESUMED, assumption log 12). -/

namespace Sys2Proof

/-- Why a word is not an instruction of the E801. Every one of them is the IllegalInstruction exception when it is executed (R190). -/
inductive DecodeError where
  /-- fewer bytes than the instruction needs -/
  | truncated
  /-- no row of R160 matches -/
  | noRow
  /-- a five-bit register field holds 16 to 31 (R154, decision D17) -/
  | absentRegister
  /-- LIST1 of PUSH16 or POP16 holds 9 to 15 (R360, decision D18) -/
  | badList
deriving DecidableEq, Repr

/-! ### Register fields -/

/-- The register a four-bit field names (R153). -/
def Reg.ofNum (n : BitVec 4) : Reg :=
  match n with
  | 0#4 => .r0 | 1#4 => .r1 | 2#4 => .r2 | 3#4 => .r3
  | 4#4 => .r4 | 5#4 => .r5 | 6#4 => .r6 | 7#4 => .r7
  | 8#4 => .r8 | 9#4 => .r9 | 10#4 => .r10 | 11#4 => .r11
  | 12#4 => .r12 | 13#4 => .r13 | 14#4 => .r14 | _ => .r15

/-- The number of a register. -/
def Reg.num : Reg → BitVec 4
  | .r0 => 0 | .r1 => 1 | .r2 => 2 | .r3 => 3
  | .r4 => 4 | .r5 => 5 | .r6 => 6 | .r7 => 7
  | .r8 => 8 | .r9 => 9 | .r10 => 10 | .r11 => 11
  | .r12 => 12 | .r13 => 13 | .r14 => 14 | .r15 => 15

/-- The three bits that name a low register. -/
def Reg.num3 (r : Reg) : BitVec 3 := r.num.extractLsb' 0 3

/-- The five bits that name a register in a 32-bit instruction. -/
def Reg.num5 (r : Reg) : BitVec 5 := 0#1 ++ r.num

/-- `len` bits of a word from bit `lo` up. -/
def bitsAt {n : Nat} (lo len : Nat) (w : BitVec n) : BitVec len := w.extractLsb' lo len

/-- The register of a three-bit field at bit `lo`. -/
def lowRegAt {n : Nat} (lo : Nat) (w : BitVec n) : Reg := Reg.ofNum (0#1 ++ bitsAt lo 3 w)

/-- The register of a four-bit field at bit `lo`. -/
def regAt {n : Nat} (lo : Nat) (w : BitVec n) : Reg := Reg.ofNum (bitsAt lo 4 w)

/-- The register of a five-bit field at bit `lo`: 16 to 31 name none (R154, D17). -/
def wideRegAt {n : Nat} (lo : Nat) (w : BitVec n) : Except DecodeError Reg :=
  if w.getLsbD (lo + 4) then .error .absentRegister else .ok (regAt lo w)

/-! ### The rows of R160 -/

/-- A row of the instruction list: a word is this instruction when `word & mask = pat`, and then `build` reads its fields. -/
structure Row (n : Nat) where
  mask : BitVec n
  pat : BitVec n
  build : BitVec n → Except DecodeError Instr

/-- Format R2: rz (or ry) in bits 9:6, rx in bits 5:2. -/
def rowR2 (pat : Half) (f : Reg → Reg → Instr) : Row 16 :=
  ⟨0xFC03, pat, fun w => .ok (f (regAt 6 w) (regAt 2 w))⟩

/-- Format R3 with three registers: rx in bits 10:8, rz in bits 7:5, ry in bits 4:2. -/
def rowR3 (pat : Half) (f : Reg → Reg → Reg → Instr) : Row 16 :=
  ⟨0xF803, pat, fun w => .ok (f (lowRegAt 5 w) (lowRegAt 8 w) (lowRegAt 2 w))⟩

/-- Format R3 with an immediate: rx in bits 10:8, rz in bits 7:5, imm3 in bits 4:2. -/
def rowR3i (pat : Half) (f : Reg → Reg → BitVec 3 → Instr) : Row 16 :=
  ⟨0xF803, pat, fun w => .ok (f (lowRegAt 5 w) (lowRegAt 8 w) (bitsAt 2 3 w))⟩

/-- Format I8: rz in bits 10:8, imm8 in bits 7:0. -/
def rowI8 (pat : Half) (f : Reg → BitVec 8 → Instr) : Row 16 :=
  ⟨0xF800, pat, fun w => .ok (f (lowRegAt 8 w) (bitsAt 0 8 w))⟩

/-- Format SP7: imm7 = {bits 9:8, bits 4:0}. -/
def rowSP7 (pat : Half) (f : BitVec 7 → Instr) : Row 16 :=
  ⟨0xFCE0, pat, fun w => .ok (f (bitsAt 8 2 w ++ bitsAt 0 5 w))⟩

/-- Format XI5: the register in bits 10:8, imm5 in bits 4:0. -/
def rowXI5 (pat : Half) (f : Reg → BitVec 5 → Instr) : Row 16 :=
  ⟨0xF8E0, pat, fun w => .ok (f (lowRegAt 8 w) (bitsAt 0 5 w))⟩

/-- Format XZI5: rx in bits 10:8, rz in bits 7:5, imm5 in bits 4:0. -/
def rowXZI5 (pat : Half) (f : Reg → Reg → BitVec 5 → Instr) : Row 16 :=
  ⟨0xF800, pat, fun w => .ok (f (lowRegAt 5 w) (lowRegAt 8 w) (bitsAt 0 5 w))⟩

/-- Format SPZI8: imm8 = {bits 10:8, bits 4:0}, rz in bits 7:5. -/
def rowSPZI8 (pat : Half) (f : Reg → BitVec 8 → Instr) : Row 16 :=
  ⟨0xF800, pat, fun w => .ok (f (lowRegAt 5 w) (bitsAt 8 3 w ++ bitsAt 0 5 w))⟩

/-- Format B10: a signed offset in bits 9:0. -/
def rowB10 (pat : Half) (f : BitVec 10 → Instr) : Row 16 :=
  ⟨0xFC00, pat, fun w => .ok (f (bitsAt 0 10 w))⟩

/-- Format LIST16: R15 in bit 4, LIST1 in bits 3:0; LIST1 above 8 is illegal (R360). -/
def rowList (pat : Half) (f : Bool → BitVec 4 → Instr) : Row 16 :=
  ⟨0xFFE0, pat, fun w =>
    if 8#4 < bitsAt 0 4 w then .error .badList else .ok (f (w.getLsbD 4) (bitsAt 0 4 w))⟩

/-- A row with no operand. -/
def rowFixed {n : Nat} (pat : BitVec n) (i : Instr) : Row n := ⟨BitVec.allOnes n, pat, fun _ => .ok i⟩

/-- Arithmetic and logic rows of R160 with format R2. -/
def rows16R2 : List (Row 16) :=
  [rowR2 0x6000 .addu16, rowR2 0x6001 .addc16, rowR2 0x6002 .subu16, rowR2 0x6003 .subc16,
   rowR2 0x7C00 .mult16, rowR2 0x6800 .and16, rowR2 0x6801 .andn16, rowR2 0x6C00 .or16,
   rowR2 0x6C01 .xor16, rowR2 0x6C02 .nor16, rowR2 0x7000 .lsl16, rowR2 0x7001 .lsr16,
   rowR2 0x7002 .asr16, rowR2 0x7003 .rotl16, rowR2 0x7400 .zextb16, rowR2 0x7401 .zexth16,
   rowR2 0x7402 .sextb16, rowR2 0x7403 .sexth16, rowR2 0x6C03 .mov16,
   rowR2 0x6402 (fun ry rx => .cmpne16 rx ry), rowR2 0x6400 (fun ry rx => .cmphs16 rx ry),
   rowR2 0x6401 (fun ry rx => .cmplt16 rx ry), rowR2 0x6802 (fun ry rx => .tst16 rx ry),
   ⟨0xFFC3, 0x6803, fun w => .ok (.tstnbz16 (regAt 2 w))⟩,
   ⟨0xFC3F, 0x6403, fun w => .ok (.mvcv16 (regAt 6 w))⟩,
   ⟨0xFFC3, 0x7800, fun w => .ok (.jmp16 (regAt 2 w))⟩,
   ⟨0xFFC3, 0x7BC1, fun w => .ok (.jsr16 (regAt 2 w))⟩]

/-- Rows with immediates and offsets. -/
def rows16Imm : List (Row 16) :=
  [rowR3 0x5800 .addu16r3, rowR3 0x5801 .subu16r3, rowR3i 0x5802 .addi16r3, rowR3i 0x5803 .subi16r3,
   rowI8 0x2000 .addi16, rowI8 0x1800 .addi16rsp, rowI8 0x2800 .subi16, rowI8 0x3000 .movi16,
   rowSP7 0x1400 .addi16sp, rowSP7 0x1420 .subi16sp,
   rowXI5 0x3800 .cmphsi16, rowXI5 0x3820 .cmplti16, rowXI5 0x3840 .cmpnei16,
   rowXI5 0x3880 .bclri16, rowXI5 0x38A0 .bseti16, rowXI5 0x38C0 .btsti16,
   rowXZI5 0x4000 .lsli16, rowXZI5 0x4800 .lsri16, rowXZI5 0x5000 .asri16]

/-- Memory, branch and stack rows of 16 bits. -/
def rows16Mem : List (Row 16) :=
  [rowXZI5 0x8000 .ld16b, rowXZI5 0x8800 .ld16h, rowXZI5 0x9000 .ld16w, rowSPZI8 0x9800 .ld16wsp,
   rowXZI5 0xA000 .st16b, rowXZI5 0xA800 .st16h, rowXZI5 0xB000 .st16w, rowSPZI8 0xB800 .st16wsp,
   ⟨0xFC00, 0x1000, fun w => .ok (.lrw16 (lowRegAt 5 w) (bitsAt 8 2 w ++ bitsAt 0 5 w))⟩,
   rowB10 0x0400 .br16, rowB10 0x0800 .bt16, rowB10 0x0C00 .bf16,
   rowList 0x14C0 .push16, rowList 0x1480 .pop16,
   rowFixed 0x1460 .nie16, rowFixed 0x1461 .nir16, rowFixed 0x1462 .ipush16, rowFixed 0x1463 .ipop16,
   rowFixed 0x0000 .bkpt16]

/-- The 65 rows of 16 bits. -/
def rows16 : List (Row 16) := rows16R2 ++ rows16Imm ++ rows16Mem

/-- Format LS12: rz in bits 25:21, rx in bits 20:16, offset in bits 11:0. -/
def rowLS12 (pat : Word) (f : Reg → Reg → BitVec 12 → Instr) : Row 32 :=
  ⟨0xFC00F000, pat, fun w => do .ok (f (← wideRegAt 21 w) (← wideRegAt 16 w) (bitsAt 0 12 w))⟩

/-- Format SYS with an immediate in bits 25:21. -/
def rowSys5 (pat : Word) (f : BitVec 5 → Instr) : Row 32 :=
  ⟨0xFC1FFFFF, pat, fun w => .ok (f (bitsAt 21 5 w))⟩

/-- The 20 rows of 32 bits. -/
def rows32 : List (Row 32) :=
  [⟨0xFFE00000, 0xEA800000, fun w => do .ok (.lrw32 (← wideRegAt 16 w) (bitsAt 0 16 w))⟩,
   ⟨0xFFFF0000, 0xE8000000, fun w => .ok (.br32 (bitsAt 0 16 w))⟩,
   ⟨0xFC000000, 0xE0000000, fun w => .ok (.bsr32 (bitsAt 0 26 w))⟩,
   rowLS12 0xD8000000 .ld32b, rowLS12 0xD8001000 .ld32h, rowLS12 0xD8002000 .ld32w,
   rowLS12 0xDC000000 .st32b, rowLS12 0xDC001000 .st32h, rowLS12 0xDC002000 .st32w,
   ⟨0xFC00FFE0, 0xC0006020, fun w => do .ok (.mfcr32 (← wideRegAt 0 w) (bitsAt 16 5 w) (bitsAt 21 5 w))⟩,
   ⟨0xFC00FFE0, 0xC0006420, fun w => do .ok (.mtcr32 (← wideRegAt 16 w) (bitsAt 0 5 w) (bitsAt 21 5 w))⟩,
   rowSys5 0xC0007420 .psrset32, rowSys5 0xC0007020 .psrclr32, rowSys5 0xC0001C20 .idly32,
   ⟨0xFFFFF3FF, 0xC0002020, fun w => .ok (.trap32 (bitsAt 10 2 w))⟩,
   ⟨0xFDDFFFFF, 0xC0000420, fun w => .ok (.sync32 (w.getLsbD 25) (w.getLsbD 21))⟩,
   rowFixed 0xC0004020 .rte32, rowFixed 0xC0004C20 .wait32, rowFixed 0xC0005020 .doze32,
   rowFixed 0xC0004820 .stop32]

/-- The first row a word matches reads it (R160: "The rows are pairwise disjoint, so the order of tests does not matter"). -/
def decodeRows {n : Nat} (rows : List (Row n)) (w : BitVec n) : Except DecodeError Instr :=
  match rows.find? (fun r => w &&& r.mask == r.pat) with
  | some r => r.build w
  | none => .error .noRow

/-! ### Length, half-words and bytes -/

/-- R151: an instruction is 32 bits long exactly when bits 15:14 of its first half-word are 11. -/
def isLong (h0 : Half) : Bool := h0.extractLsb' 14 2 == 3#2

/-- The instruction in a first half-word and, for a 32-bit one, a second (R191). The second is not looked at otherwise. -/
def decodeHalves (h0 h1 : Half) : Except DecodeError Instr :=
  if isLong h0 then decodeRows rows32 (h0 ++ h1) else decodeRows rows16 h0

/-- The half-word in two bytes at ascending addresses (20_memory.md R101, R102). -/
def halfOfBytes (bigEndian : Bool) (b0 b1 : Byte) : Half := if bigEndian then b0 ++ b1 else b1 ++ b0

/-- The two bytes of a half-word at ascending addresses. -/
def bytesOfHalf (bigEndian : Bool) (h : Half) : List Byte :=
  let hi := h.extractLsb' 8 8
  let lo := h.extractLsb' 0 8
  if bigEndian then [hi, lo] else [lo, hi]

/-- Decode the instruction at the head of a list of bytes, and answer the bytes after it: total on any bytes. -/
def decodeBytes (bigEndian : Bool) : List Byte → Except DecodeError (Instr × List Byte)
  | b0 :: b1 :: rest =>
    let h0 := halfOfBytes bigEndian b0 b1
    if isLong h0 then
      match rest with
      | b2 :: b3 :: rest' => (decodeHalves h0 (halfOfBytes bigEndian b2 b3)).map (fun i => (i, rest'))
      | _ => .error .truncated
    else (decodeHalves h0 0).map (fun i => (i, rest))
  | _ => .error .truncated

/-- The two half-words of a table word: a 32-bit row is numbered as one number whose upper half is the first half-word (R151); a
16-bit row is the first half-word, and zeros stand after it. -/
def tableHalves (nbits w : Nat) : Half × Half :=
  if nbits ≤ 16 then (BitVec.ofNat 16 w, 0) else (BitVec.ofNat 16 (w / 65536), BitVec.ofNat 16 w)

/-- The bytes of a table word as the hardware stores them, first half-word at the lower address. -/
def tableBytes (bigEndian : Bool) (nbits w : Nat) : List Byte :=
  bytesOfHalf bigEndian (tableHalves nbits w).1 ++ bytesOfHalf bigEndian (tableHalves nbits w).2

/-- The instruction the decoder reads from a word of spec/opcode_table.json. -/
def decodeTableWord (nbits w : Nat) : Option Instr :=
  match decodeBytes false (tableBytes false nbits w) with
  | .ok (i, _) => some i
  | .error _ => none

/-! ### The encoder -/

/-- Format R2. -/
def encR2 (op : BitVec 6) (z x : Reg) (s : BitVec 2) : List Half := [op ++ z.num ++ x.num ++ s]

/-- Format R3 with three registers. -/
def encR3 (z x y : Reg) (s : BitVec 2) : List Half := [0b01011#5 ++ x.num3 ++ z.num3 ++ y.num3 ++ s]

/-- Format R3 with an immediate. -/
def encR3i (z x : Reg) (imm : BitVec 3) (s : BitVec 2) : List Half := [0b01011#5 ++ x.num3 ++ z.num3 ++ imm ++ s]

/-- Format I8. -/
def encI8 (op : BitVec 5) (z : Reg) (imm : BitVec 8) : List Half := [op ++ z.num3 ++ imm]

/-- Format SP7. -/
def encSP7 (sop : BitVec 3) (imm : BitVec 7) : List Half :=
  [0b000101#6 ++ imm.extractLsb' 5 2 ++ sop ++ imm.extractLsb' 0 5]

/-- Format XI5. -/
def encXI5 (r : Reg) (sop : BitVec 3) (imm : BitVec 5) : List Half := [0b00111#5 ++ r.num3 ++ sop ++ imm]

/-- Format XZI5. -/
def encXZI5 (op : BitVec 5) (z x : Reg) (imm : BitVec 5) : List Half := [op ++ x.num3 ++ z.num3 ++ imm]

/-- Format SPZI8. -/
def encSPZI8 (op : BitVec 5) (z : Reg) (imm : BitVec 8) : List Half :=
  [op ++ imm.extractLsb' 5 3 ++ z.num3 ++ imm.extractLsb' 0 5]

/-- Format B10. -/
def encB10 (op : BitVec 6) (o : BitVec 10) : List Half := [op ++ o]

/-- Format LIST16. -/
def encList (push : Bool) (r15 : Bool) (l : BitVec 4) : List Half :=
  [0b000101001#9 ++ BitVec.ofBool push ++ 0#1 ++ BitVec.ofBool r15 ++ l]

/-- The two half-words of a 32-bit instruction, first the upper one (R151). -/
def encWord (w : Word) : List Half := [w.extractLsb' 16 16, w.extractLsb' 0 16]

/-- Format LS12. -/
def encLS12 (store : Bool) (size : BitVec 4) (z x : Reg) (o : BitVec 12) : List Half :=
  encWord (0b11011#5 ++ BitVec.ofBool store ++ z.num5 ++ x.num5 ++ size ++ o)

/-- Format CR: sel, the field of bits 20:16, the sub-opcode, the field of bits 4:0. -/
def encCR (sel f : BitVec 5) (sop : BitVec 6) (g : BitVec 5) : List Half :=
  encWord (0b110000#6 ++ sel ++ f ++ sop ++ 0b00001#5 ++ g)

/-- Format SYS. -/
def encSys (imm : BitVec 5) (sop : BitVec 6) : List Half := encCR imm 0 sop 0

/-- The half-words of a well-formed instruction, first half-word first, from the encodings of R153 and R154. -/
def encode : Instr → List Half
  | .addu16 z x => encR2 0b011000 z x 0b00
  | .addu16r3 z x y => encR3 z x y 0b00
  | .addc16 z x => encR2 0b011000 z x 0b01
  | .addi16 z imm => encI8 0b00100 z imm
  | .addi16r3 z x imm => encR3i z x imm 0b10
  | .addi16rsp z imm => encI8 0b00011 z imm
  | .addi16sp imm => encSP7 0b000 imm
  | .subu16 z x => encR2 0b011000 z x 0b10
  | .subu16r3 z x y => encR3 z x y 0b01
  | .subc16 z x => encR2 0b011000 z x 0b11
  | .subi16 z imm => encI8 0b00101 z imm
  | .subi16r3 z x imm => encR3i z x imm 0b11
  | .subi16sp imm => encSP7 0b001 imm
  | .mult16 z x => encR2 0b011111 z x 0b00
  | .and16 z x => encR2 0b011010 z x 0b00
  | .andn16 z x => encR2 0b011010 z x 0b01
  | .or16 z x => encR2 0b011011 z x 0b00
  | .xor16 z x => encR2 0b011011 z x 0b01
  | .nor16 z x => encR2 0b011011 z x 0b10
  | .lsl16 z x => encR2 0b011100 z x 0b00
  | .lsr16 z x => encR2 0b011100 z x 0b01
  | .asr16 z x => encR2 0b011100 z x 0b10
  | .rotl16 z x => encR2 0b011100 z x 0b11
  | .lsli16 z x imm => encXZI5 0b01000 z x imm
  | .lsri16 z x imm => encXZI5 0b01001 z x imm
  | .asri16 z x imm => encXZI5 0b01010 z x imm
  | .zextb16 z x => encR2 0b011101 z x 0b00
  | .zexth16 z x => encR2 0b011101 z x 0b01
  | .sextb16 z x => encR2 0b011101 z x 0b10
  | .sexth16 z x => encR2 0b011101 z x 0b11
  | .cmpne16 x y => encR2 0b011001 y x 0b10
  | .cmpnei16 x imm => encXI5 x 0b010 imm
  | .cmphs16 x y => encR2 0b011001 y x 0b00
  | .cmphsi16 x imm => encXI5 x 0b000 imm
  | .cmplt16 x y => encR2 0b011001 y x 0b01
  | .cmplti16 x imm => encXI5 x 0b001 imm
  | .tst16 x y => encR2 0b011010 y x 0b10
  | .tstnbz16 x => encR2 0b011010 .r0 x 0b11
  | .mov16 z x => encR2 0b011011 z x 0b11
  | .movi16 z imm => encI8 0b00110 z imm
  | .mvcv16 z => encR2 0b011001 z .r0 0b11
  | .bclri16 z imm => encXI5 z 0b100 imm
  | .bseti16 z imm => encXI5 z 0b101 imm
  | .btsti16 x imm => encXI5 x 0b110 imm
  | .lrw16 z o => [0b000100#6 ++ o.extractLsb' 5 2 ++ z.num3 ++ o.extractLsb' 0 5]
  | .lrw32 z o => encWord (0b11101010100#11 ++ z.num5 ++ o)
  | .br16 o => encB10 0b000001 o
  | .br32 o => encWord (0b1110100000000000#16 ++ o)
  | .bt16 o => encB10 0b000010 o
  | .bf16 o => encB10 0b000011 o
  | .bsr32 o => encWord (0b111000#6 ++ o)
  | .jmp16 x => encR2 0b011110 .r0 x 0b00
  | .jsr16 x => encR2 0b011110 .r15 x 0b01
  | .ld16b z x o => encXZI5 0b10000 z x o
  | .ld32b z x o => encLS12 false 0 z x o
  | .ld16h z x o => encXZI5 0b10001 z x o
  | .ld32h z x o => encLS12 false 1 z x o
  | .ld16w z x o => encXZI5 0b10010 z x o
  | .ld16wsp z o => encSPZI8 0b10011 z o
  | .ld32w z x o => encLS12 false 2 z x o
  | .st16b z x o => encXZI5 0b10100 z x o
  | .st32b z x o => encLS12 true 0 z x o
  | .st16h z x o => encXZI5 0b10101 z x o
  | .st32h z x o => encLS12 true 1 z x o
  | .st16w z x o => encXZI5 0b10110 z x o
  | .st16wsp z o => encSPZI8 0b10111 z o
  | .st32w z x o => encLS12 true 2 z x o
  | .push16 r15 l => encList true r15 l
  | .pop16 r15 l => encList false r15 l
  | .ipush16 => [0x1462]
  | .ipop16 => [0x1463]
  | .nie16 => [0x1460]
  | .nir16 => [0x1461]
  | .mfcr32 z crx sel => encCR sel crx 0b011000 z.num5
  | .mtcr32 x crz sel => encCR sel x.num5 0b011001 crz
  | .psrset32 imm => encSys imm 0b011101
  | .psrclr32 imm => encSys imm 0b011100
  | .rte32 => encSys 0 0b010000
  | .trap32 n => encSys 0 (0b0010#4 ++ n)
  | .bkpt16 => [0x0000]
  | .sync32 s i => encSys (BitVec.ofBool s ++ 0#3 ++ BitVec.ofBool i) 0b000001
  | .wait32 => encSys 0 0b010011
  | .doze32 => encSys 0 0b010100
  | .stop32 => encSys 0 0b010010
  | .idly32 imm => encSys imm 0b000111

/-- The bytes of a well-formed instruction at ascending addresses (20_memory.md R102). -/
def encodeBytes (bigEndian : Bool) (i : Instr) : List Byte := (encode i).flatMap (bytesOfHalf bigEndian)

/-- The length of an instruction in bytes (R151). -/
def Instr.length (i : Instr) : Nat := 2 * (encode i).length

end Sys2Proof
end

