-- ==== Sys2Proof/Machine/Flags.lean ====
section
/-! DEFINITION. Every value the instructions give the C bit (10_state.md R36), and the results computed with it. -/

namespace Sys2Proof.Machine

/-- C as a number. -/
def bitNat (c : Bool) : Nat := if c then 1 else 0

/-- R202: the 33-bit sum of ADDC16. -/
def addSum (x y : Word) (c : Bool) : Nat := x.toNat + y.toNat + bitNat c

/-- R202: sum33[31:0]. -/
def addCResult (x y : Word) (c : Bool) : Word := BitVec.ofNat 32 (addSum x y c)

/-- R202: sum33[32]. -/
def addCCarry (x y : Word) (c : Bool) : Bool := decide (4294967296 ≤ addSum x y c)

/-- R209: the exact difference of SUBC16; C is the complement of the borrow. -/
def subDiff (x y : Word) (c : Bool) : Int := (x.toNat : Int) - (y.toNat : Int) - (1 - (bitNat c : Int))

/-- R209: d mod 2^32. -/
def subCResult (x y : Word) (c : Bool) : Word := BitVec.ofInt 32 (subDiff x y c)

/-- R209: C is 1 when there is no borrow. -/
def subCCarry (x y : Word) (c : Bool) : Bool := decide (0 ≤ subDiff x y c)

/-- R270, R271: not equal. -/
def flagNe (x y : Word) : Bool := x != y

/-- R272, R273: unsigned higher or same. -/
def flagHs (x y : Word) : Bool := decide (y.toNat ≤ x.toNat)

/-- R274, R275: signed less than. -/
def flagLt (x y : Word) : Bool := decide (x.toInt < y.toInt)

/-- R276: a bit in common. -/
def flagTst (x y : Word) : Bool := x &&& y != 0#32

/-- R277: no byte is zero. -/
def flagNoByteZero (x : Word) : Bool :=
  x.extractLsb' 24 8 != 0#8 && x.extractLsb' 16 8 != 0#8 && x.extractLsb' 8 8 != 0#8 && x.extractLsb' 0 8 != 0#8

/-- R287: one bit. -/
def flagBit (x : Word) (i : BitVec 5) : Bool := x.getLsbD i.toNat

end Sys2Proof.Machine
end

