-- ==== Sys2Proof/Config.lean ====
section
/-! DEFINITION. The parameters of 00_scope.md R6 and R7, and the free values (values the spec leaves open). -/

namespace Sys2Proof

/-- What answers on the system bus in one range of addresses (20_memory.md R110, R131, parameter PLATFORM_MAP). -/
inductive SlaveKind where
  /-- readable, writable and executable memory: every transfer is answered OKAY -/
  | memory
  /-- a platform device: each answer is open (`Config.deviceAnswer`) -/
  | device
  /-- every transfer is answered ERROR -/
  | busError
  /-- a slave that never answers: HREADY stays low and the core waits for ever (R131) -/
  | silent
deriving DecidableEq, Repr

/-- One range of the platform map: `size` bytes from address `base`. -/
structure PlatformRegion where
  base : Nat
  size : Nat
  kind : SlaveKind
deriving DecidableEq, Repr

/-- How many interrupt sources the VIC has (VIC_SOURCES, 00_scope.md R6, 60_exceptions.md R482). -/
inductive VicSize where
  | absent | int4 | int8 | int16 | int24 | int32
deriving DecidableEq, Repr

/-- VIC_SOURCES as a number. -/
def VicSize.count : VicSize → Nat
  | .absent => 0
  | .int4 => 4
  | .int8 => 8
  | .int16 => 16
  | .int24 => 24
  | .int32 => 32

/-- The hardware's configuration: the parameters of 00_scope.md R6 and R7. It is fixed for a machine; no step changes it. -/
structure Config where
  /-- HAS_FAST_MULT: changes the time MULT16 takes and nothing else -/
  hasFastMult : Bool
  /-- MPU_REGIONS, 0 to 8 -/
  mpuRegions : Fin 9
  /-- VIC_SOURCES -/
  vicSize : VicSize
  /-- HAS_CORETIM -/
  hasCoreTim : Bool
  /-- HAS_TCIP -/
  hasTcip : Bool
  /-- BIG_ENDIAN, which CCR.BE reports -/
  bigEndian : Bool
  /-- the pin that CCR.BE_V2 reports -/
  beV2 : Bool
  /-- the pins that CCR.SCK reports -/
  sck : BitVec 3
  /-- HAS_VBR -/
  hasVbr : Bool
  /-- HAS_NEST_ACCEL -/
  hasNestAccel : Bool
  /-- CPUID_VALUE -/
  cpuid : Word
  /-- SRST_MAGIC -/
  srstMagic : BitVec 16
  /-- the pins pad_ctim_calib[25:0]: no reference clock, inexact, TENMS (60_exceptions.md R476) -/
  calib : BitVec 26
  /-- HAS_DEBUG -/
  hasDebug : Bool
  /-- VIC_PULSE_MASK: bit n is 1 when source n is a pulse source -/
  pulseMask : Word
  /-- CORET_IRQ: the VIC source CoreTim drives -/
  coretIrq : Fin 32
  /-- PLATFORM_MAP: the first range that holds an address decides; an address in no range answers ERROR -/
  platform : List PlatformRegion
  /-- core-clock ticks that pass in a step for which no input is listed (the model's own) -/
  quietCoreTicks : Nat
  /-- reference-clock ticks that pass in a step for which no input is listed (the model's own) -/
  quietRefTicks : Nat
deriving DecidableEq, Repr

/-- CORET_HAS_REFCLK: an external reference clock exists exactly when the NOREF pin is 0 (60_exceptions.md R472, R476). -/
def Config.hasRefClk (c : Config) : Bool := !c.calib.getLsbD 25

/-- The configuration `State.reset` carries (assumption log 1, DESIGN CHOICE): every optional unit present, little endian, memory
at every address that is not the tightly coupled IP's. Statements hold for every configuration. -/
def Config.default : Config where
  hasFastMult := true
  mpuRegions := 8
  vicSize := .int32
  hasCoreTim := true
  hasTcip := true
  bigEndian := false
  beV2 := false
  sck := 0
  hasVbr := true
  hasNestAccel := true
  cpuid := 0
  srstMagic := 0xABCD
  calib := 0
  hasDebug := true
  pulseMask := 0
  coretIrq := 0
  platform := [{ base := 0, size := 4294967296, kind := .memory }]
  quietCoreTicks := 1
  quietRefTicks := 0

/-- One transfer on the system bus as a platform device sees it (20_memory.md R131, R140). -/
structure BusRequest where
  addr : Word
  /-- size in bytes: 1, 2 or 4 -/
  bytes : Nat
  write : Bool
  /-- the data written; 0 for a read -/
  data : Word
  /-- HPROT[0] = 0: an instruction fetch or a vector read -/
  fetch : Bool
  /-- HPROT[1] = 1: a supervisor access -/
  supervisor : Bool
  /-- TRANS PROT of a transfer that the debug unit makes (60_exceptions.md R531); none for the core's own, whose HPROT[3:2] are not stated (R140) -/
  ddma : Option (BitVec 4)
deriving DecidableEq, Repr

/-- FREE VALUE. A word the spec leaves open, at a fresh number each time (assumption logs 8, 9, 22, 42, 50, 51). -/
opaque Config.freeWord : Nat → Word

/-- FREE VALUE. What a platform device answers to a transfer, at a fresh number each time: `none` is ERROR, `some d` is OKAY
with data `d` (R131: "BusAccess(…) -> OKAY(data) | ERROR"; assumption log 15). -/
opaque Config.deviceAnswer : Nat → BusRequest → Option Word

/-- FREE VALUE. Where the debug unit's transfer of so many bytes goes when the low bits of DATR are these and it is not aligned: `none` is ERROR,
`some d` the aligned datum that holds DATR plus `d` (60_exceptions.md R534, N23; assumption log 50). -/
opaque Config.ddmaUnaligned : Nat → BitVec 2 → Option Word

/-- FREE VALUE. The code on sysio_pad_lpmd_b[1:0] in no low-power mode and in the three modes, numbered 0 to 3 (N24; assumption log 35). -/
opaque Config.lpmdCode : Fin 4 → BitVec 2

end Sys2Proof
end

