-- ==== Sys2Proof/Machine/State.lean ====
section
/-! DEFINITION. The machine's state: everything the spec gives the machine (INVENTORY.md, State), as plain data, and the state
after reset. Reserved bits of registers hold 0 and ignore writes (00_scope.md R8), so a register is held as its fields. -/

namespace Sys2Proof.Machine

/-- How the machine stops with a fault: in no way. Whatever the spec calls a fault is an exception that is taken (60_exceptions.md R410), the stuck
state of R413, or a core that waits on the bus until reset (R131); each of them is a next state. The type has no constructor, so no step faults: safe. -/
inductive Fault
deriving DecidableEq, Repr

/-- What the model has no next state for: the behaviours the spec itself refuses. All of them are safe: nothing can be proved of a run
that meets one. -/
inductive Refusal where
  /-- an instruction the model has no meaning for; raised only by the dispatch, for an arm that is still rejected by name. Safe. -/
  | notModelled (mnemonic : String)
  /-- a byte or half-word access to the tightly coupled IP range in supervisor mode (R113, U4); raised by loads and stores. Safe. -/
  | tcipSubword
  /-- an instruction fetch from the tightly coupled IP range in supervisor mode (R114, U6, D12); raised by the fetch. Safe. -/
  | tcipFetch
  /-- a store into the bytes PC + 2 to PC + 7 of the storing instruction (R148, U18, D16); raised by every store. Safe. -/
  | prefetchWindowStore
  /-- MTCR32 sets CCR.MP = 1 while its own address would be denied for fetch (R126, U7). Safe. -/
  | mpuEnableDenied
  /-- MTCR32 writes 2 or 3 to CCR.MP (R56, U9). Safe. -/
  | ccrMpReserved
  /-- MTCR32 writes a PACR with E = 1 and Size 0 to 5 (R122, U8). Safe. -/
  | pacrReservedSize
  /-- a store writes a 1 to VIC_IABR (R488, U11). Safe. -/
  | iabrWriteOne
  /-- an external interrupt request carries a vector below 32 (R430, U10); raised when the interrupt would be taken. Safe. -/
  | badInterruptVector
  /-- a store writes HCR or CSR bits whose effect the spec does not give (R525, U20). Safe. -/
  | hadEffectUnknown
  /-- a store writes a reserved TRANS MODE or TRANS SIZE to DACSR, or a transfer is started with one (R531, U20). Safe. -/
  | ddmaReserved
deriving DecidableEq, Repr

/-- The general registers that exist (10_state.md R20, R21): R9 to R12 do not, and R14 is SSP or USP. -/
structure Regs where
  r0 : Word
  r1 : Word
  r2 : Word
  r3 : Word
  r4 : Word
  r5 : Word
  r6 : Word
  r7 : Word
  r8 : Word
  r13 : Word
  r15 : Word
  /-- R14 of supervisor mode -/
  ssp : Word
  /-- R14 of user mode, also CR<14,1> (R65) -/
  usp : Word
deriving DecidableEq, Repr

/-- The fields of PSR and of EPSR (10_state.md R42, R43, R48); reserved bits hold 0. -/
structure Psr where
  /-- supervisor mode -/
  s : Bool
  /-- vector of the exception being handled -/
  vec : BitVec 8
  /-- misaligned accesses clear the low address bits and do not raise -/
  mm : Bool
  /-- exceptions enabled -/
  ee : Bool
  /-- multi-cycle instructions may be interrupted -/
  ic : Bool
  /-- interrupts enabled -/
  ie : Bool
  /-- condition / carry -/
  c : Bool
deriving DecidableEq, Repr

/-- One protection region's PACR (10_state.md R59). -/
structure Pacr where
  /-- bits 31:7 -/
  base : BitVec 25
  /-- bits 5:1 -/
  size : BitVec 5
  /-- bit 0, E -/
  enable : Bool
deriving DecidableEq, Repr

/-- Low-power modes (60_exceptions.md R540). -/
inductive LowPower where
  | none | wait | doze | stop
deriving DecidableEq, Repr

/-- The vector interrupt controller (60_exceptions.md R483 to R495). Bit n, or entry n, belongs to source n. -/
structure Vic where
  enable : Word
  wakeup : Word
  pending : Word
  active : Word
  prio : Vector (BitVec 2) 32
  thrEn : Bool
  thrVec : BitVec 9
  thrPrio : BitVec 2
  /-- the lines at the previous sample (R490, the pulse latches) -/
  lastLines : Word
deriving DecidableEq, Repr

/-- The system timer (60_exceptions.md R470 to R475). -/
structure CoreTim where
  countflag : Bool
  clksource : Bool
  tickint : Bool
  enable : Bool
  reload : BitVec 24
  current : BitVec 24
deriving DecidableEq, Repr

/-- The debug unit's registers that the map of 60_exceptions.md R525 makes accessible. -/
structure Had where
  /-- HCR; bit 29 is DDAE -/
  hcr : Word
  hsr : Word
  csr : Word
  /-- CSR.FDB, whose bit place is not in the source (R525) -/
  fdb : Bool
  /-- DACSR.TRANS MODE -/
  mode : BitVec 3
  /-- DACSR.TRANS SIZE -/
  size : BitVec 3
  /-- DACSR.TRANS PROT: {cacheable, secu, super, instruction/data} -/
  prot : BitVec 4
  /-- DACSR.TRANS BUSY -/
  busy : Bool
  /-- DACSR.TRANS ERROR -/
  error : Bool
  /-- DACSR.DATA PHASE -/
  dataPhase : Bool
  datr : Word
  darwr : Word
deriving DecidableEq, Repr

/-- The platform's signals into the core (60_exceptions.md R433, R482, 70_reset_and_hazards.md R550), as levels with 1 active. -/
structure Pins where
  /-- the interrupt lines IRQ[31:0]; for a pulse source, 1 also when a pulse came and went since the last sample -/
  irq : Word
  /-- request of an external interrupt controller (pad_cpu_int_b low) -/
  extInt : Bool
  /-- its vector -/
  extVec : BitVec 8
  /-- its wake-up request (pad_cpu_intraw_b low) -/
  intRaw : Bool
  /-- the reset input (cpurst_b low) -/
  reset : Bool
deriving DecidableEq, Repr

/-- What the outside does before one step (assumption log 24). -/
structure Input where
  pins : Pins
  /-- core-clock ticks that pass -/
  coreTicks : Nat
  /-- reference-clock ticks that pass -/
  refTicks : Nat
  /-- bytes that other bus masters write before the step, in order (20_memory.md R108, R150) -/
  busWrites : List (Word × Byte)
  /-- bytes that they write between the bus transfers of the step's own instruction: one entry for each gap (R150) -/
  between : List (List (Word × Byte))
  /-- new contents of the debug unit's registers, written over JTAG (60_exceptions.md R520) -/
  hadWrite : Option Had
  /-- a debug request: HCR.ADR, HCR.DR, the request pin, the trace counter or a memory breakpoint (R522) -/
  debugRequest : Bool
  /-- the exit command of R522 -/
  debugGo : Bool
  /-- the two half-words of an instruction the debugger feeds to a core in debug mode; the second one counts for a 32-bit instruction only (R522) -/
  debugInstr : Option (Half × Half)
deriving DecidableEq, Repr

/-- Memory: the bytes that differ from what an unlisted address reads as, by strictly rising address. -/
abbrev Memory := List Host.Cell

/-- The machine. -/
structure State where
  /-- the configuration; no step changes it -/
  cfg : Config
  regs : Regs
  /-- R30: bit 0 is always 0 -/
  pc : Word
  /-- CR<0,0> -/
  psr : Psr
  /-- CR<1,0>: bits 31:10 (R46) -/
  vbr : BitVec 22
  /-- CR<2,0> -/
  epsr : Psr
  /-- CR<4,0> -/
  epc : Word
  /-- CCR.MP: the MPU is enabled (R55) -/
  mpuOn : Bool
  /-- CR<19,0> -/
  capr : Word
  /-- PACR[0..7], seen through CR<20,0> -/
  pacr : Vector Pacr 8
  /-- CR<21,0>: RID -/
  prsr : BitVec 3
  /-- CHR.IAE (R62) -/
  iae : Bool
  /-- what is left of an IDLY32 sequence (R385) -/
  idlyCount : Nat
  lowPower : LowPower
  debugMode : Bool
  /-- the stuck state vector_fault_lockup of R413 -/
  lockup : Bool
  /-- the core waits for ever on a bus transfer that no slave answers (R131, N29) -/
  hung : Bool
  /-- reset has set the registers and the reset vector has not been read yet (R550) -/
  inReset : Bool
  /-- NIE16 has just retired: no interrupt is taken at its retirement (R359, R432) -/
  nieShadow : Bool
  vic : Vic
  timer : CoreTim
  had : Had
  pins : Pins
  /-- what the outside does before each coming step; when empty, the pins hold -/
  inputs : List Input
  /-- what other bus masters still write between the bus transfers of the instruction in progress (R150) -/
  between : List (List (Word × Byte))
  mem : Memory
  /-- the model's own: the number of the next free value -/
  freeCount : Nat
deriving DecidableEq, Repr

/-- PSR after reset: S = 1, everything else 0 (R75). -/
def Psr.reset : Psr where
  s := true
  vec := 0
  mm := false
  ee := false
  ic := false
  ie := false
  c := false

/-- The VIC after reset: every register 0 (R483). What the pulse latches hold after reset is not stated; 0 is the model's choice, so that a pulse
line that is already high counts as a rising edge at the next sample (assumption log 48, DESIGN CHOICE). -/
def Vic.reset : Vic where
  enable := 0
  wakeup := 0
  pending := 0
  active := 0
  prio := Vector.replicate 32 0
  thrEn := false
  thrVec := 0
  thrPrio := 0
  lastLines := 0

/-- The MPU registers at State.reset: every PACR has E = 0 (R75, D8); base and size 0 (assumption log 4). -/
def Pacr.reset : Pacr where
  base := 0
  size := 0
  enable := false

/-- The debug unit after its reset: HCR, HSR, CSR 0 (R525); the DDMA registers 0 (assumption log 5). -/
def Had.reset : Had where
  hcr := 0
  hsr := 0
  csr := 0
  fdb := false
  mode := 0
  size := 0
  prot := 0
  busy := false
  error := false
  dataPhase := false
  datr := 0
  darwr := 0

/-- Pins with nothing asserted (60_exceptions.md R433, R482: their reset levels). -/
def Pins.quiet : Pins where
  irq := 0
  extInt := false
  extVec := 0
  intRaw := false
  reset := false

/-- The machine right after reset (10_state.md R75). Registers without a stated value hold 0 (assumption logs 2 to 5); the next step reads the
reset vector at address 0 (R415, R550; assumption log 7). -/
def State.reset : State where
  cfg := Config.default
  regs := { r0 := 0, r1 := 0, r2 := 0, r3 := 0, r4 := 0, r5 := 0, r6 := 0, r7 := 0, r8 := 0, r13 := 0, r15 := 0, ssp := 0, usp := 0 }
  pc := 0
  psr := Psr.reset
  vbr := 0
  epsr := { s := false, vec := 0, mm := false, ee := false, ic := false, ie := false, c := false }
  epc := 0
  mpuOn := false
  capr := 0
  pacr := Vector.replicate 8 Pacr.reset
  prsr := 0
  iae := false
  idlyCount := 0
  lowPower := .none
  debugMode := false
  lockup := false
  hung := false
  inReset := true
  nieShadow := false
  vic := Vic.reset
  timer := { countflag := false, clksource := true, tickint := false, enable := false, reload := 0, current := 0 }
  had := Had.reset
  pins := Pins.quiet
  inputs := []
  between := []
  mem := []
  freeCount := 0

/-- What one operation inside an instruction answers: a value and the state it leaves, an exception with the state at that moment, a bus transfer
that is never answered with the state at that moment, or a refusal. -/
inductive Access (α : Type) where
  | ok (value : α) (s : State)
  | raise (vec : BitVec 8) (s : State)
  | hang (s : State)
  | refuse (r : Refusal)
deriving DecidableEq, Repr

/-- The outcome of a step or of an instruction. -/
abbrev Result := Host.Outcome State Fault Refusal

end Sys2Proof.Machine
end

