-- ==== Sys2Proof/Machine/Memory.lean ====
section
/-! DEFINITION. Bytes of memory, and the byte order that makes half-words and words of them (20_memory.md R100, R101). -/

namespace Sys2Proof.Machine

/-- What a byte that is not listed reads as: memory that nothing has written reads 0 (assumption log 6, DESIGN CHOICE). -/
def unlistedByte : Byte := 0#8

/-- The byte at an address. -/
def Memory.read : Memory → Nat → Byte
  | [], _ => unlistedByte
  | (k, b) :: rest, a => if a = k then b else if a < k then unlistedByte else Memory.read rest a

/-- A byte in front of the cells above its address; a byte that unlisted addresses read anyway is not listed. -/
def Memory.place (a : Nat) (b : Byte) (above : Memory) : Memory :=
  if b = unlistedByte then above else (a, b) :: above

/-- Write one byte; the canonical form is kept. -/
def Memory.write : Memory → Nat → Byte → Memory
  | [], a, b => Memory.place a b []
  | (k, c) :: rest, a, b =>
    if k < a then (k, c) :: Memory.write rest a b
    else Memory.place a b (((k, c) :: rest).dropWhile (fun cell => decide (cell.1 ≤ a)))

/-- Addresses strictly rising from `lo`, below 2^32, and no byte listed that an unlisted address reads anyway. -/
def Memory.wfFrom (lo : Nat) : Memory → Bool
  | [] => true
  | (k, b) :: rest =>
    decide (lo ≤ k) && decide (k < 4294967296) && decide (b ≠ unlistedByte) && Memory.wfFrom (k + 1) rest

/-- The canonical form. -/
def Memory.wf (m : Memory) : Bool := Memory.wfFrom 0 m

/-- Write bytes at ascending addresses, modulo 2^32 (R33). -/
def Memory.writeList (m : Memory) (a : Word) : List Byte → Memory
  | [] => m
  | b :: bs => Memory.writeList (m.write a.toNat b) (a + 1#32) bs

/-- The sizes of an access (R100). -/
inductive Size where
  | byte | half | word
deriving DecidableEq, Repr

/-- The size in bytes. -/
def sizeBytes : Size → Nat
  | .byte => 1
  | .half => 2
  | .word => 4

/-- The low bits of an address that an aligned access of this size has 0. -/
def sizeLowBits : Size → Word
  | .byte => 0#32
  | .half => 1#32
  | .word => 3#32

/-- The low `8 * n` bits of a word, the rest 0. -/
def truncateTo (z : Size) (v : Word) : Word :=
  match z with
  | .byte => v &&& 0xFF#32
  | .half => v &&& 0xFFFF#32
  | .word => v

/-- The datum of `z` bytes at an address, zero-extended, in the configured byte order (R101). -/
def memLoad (bigEndian : Bool) (z : Size) (a : Word) (m : Memory) : Word :=
  let b0 := m.read a.toNat
  let b1 := m.read (a + 1#32).toNat
  let b2 := m.read (a + 2#32).toNat
  let b3 := m.read (a + 3#32).toNat
  match z with
  | .byte => 0#24 ++ b0
  | .half => 0#16 ++ halfOfBytes bigEndian b0 b1
  | .word => if bigEndian then b0 ++ b1 ++ b2 ++ b3 else b3 ++ b2 ++ b1 ++ b0

/-- The bytes of the low bits of a word at ascending addresses, in the configured byte order (R101). -/
def dataBytes (bigEndian : Bool) (z : Size) (v : Word) : List Byte :=
  let byte (i : Nat) : Byte := v.extractLsb' (8 * i) 8
  match z with
  | .byte => [byte 0]
  | .half => if bigEndian then [byte 1, byte 0] else [byte 0, byte 1]
  | .word => if bigEndian then [byte 3, byte 2, byte 1, byte 0] else [byte 0, byte 1, byte 2, byte 3]

/-- Memory after a datum of `z` bytes is stored at an address. -/
def memStore (bigEndian : Bool) (z : Size) (a v : Word) (m : Memory) : Memory :=
  m.writeList a (dataBytes bigEndian z v)

/-- Do one operation, then another on its value and the state it leaves; an exception or a stop ends the sequence. -/
def Access.bind {α β : Type} (x : Access α) (f : α → State → Access β) : Access β :=
  match x with
  | .ok v s => f v s
  | .raise vec s => .raise vec s
  | .hang s => .hang s
  | .refuse r => .refuse r

end Sys2Proof.Machine
end

