-- ==== Sys2Proof/Machine/Bus.lean ====
section
/-! DEFINITION. One transfer on the system bus (20_memory.md R107, R110, R131, R140; assumption logs 15, 18, 44). -/

namespace Sys2Proof.Machine

/-- What answers at an address: the first range of the platform map that holds it; no range answers ERROR (R110, D11). -/
def slaveAt (c : Config) (a : Word) : SlaveKind :=
  match c.platform.find? (fun r => decide (r.base ≤ a.toNat) && decide (a.toNat < r.base + r.size)) with
  | some r => r.kind
  | none => .busError

/-- A device has answered: the next answer is another one. -/
def nextFree (s : State) : State := { s with freeCount := s.freeCount + 1 }

/-- A read of `z` bytes at an aligned address from a slave (R131, R140); ERROR is the access error of R417. -/
def slaveRead (k : SlaveKind) (fetch sup : Bool) (ddma : Option (BitVec 4)) (z : Size) (a : Word) (s : State) : Access Word :=
  match k with
  | .memory => .ok (memLoad s.cfg.bigEndian z a s.mem) s
  | .device =>
    match Config.deviceAnswer s.freeCount { addr := a, bytes := sizeBytes z, write := false, data := 0, fetch := fetch, supervisor := sup, ddma := ddma } with
    | some d => .ok (truncateTo z d) (nextFree s)
    | none => .raise 2 (nextFree s)
  | .busError => .raise 2 s
  | .silent => .hang s

/-- A write of `z` bytes at an aligned address to a slave (R131, R140). -/
def slaveWrite (k : SlaveKind) (fetch sup : Bool) (ddma : Option (BitVec 4)) (z : Size) (a v : Word) (s : State) : Access Unit :=
  match k with
  | .memory => .ok () { s with mem := memStore s.cfg.bigEndian z a v s.mem }
  | .device =>
    match Config.deviceAnswer s.freeCount { addr := a, bytes := sizeBytes z, write := true, data := truncateTo z v, fetch := fetch, supervisor := sup, ddma := ddma } with
    | some _ => .ok () (nextFree s)
    | none => .raise 2 (nextFree s)
  | .busError => .raise 2 s
  | .silent => .hang s

/-- A read by the core: one transfer on the system bus (R131). -/
def busRead (fetch sup : Bool) (z : Size) (a : Word) (s : State) : Access Word := slaveRead (slaveAt s.cfg a) fetch sup none z a s

/-- A write by the core. -/
def busWrite (sup : Bool) (z : Size) (a v : Word) (s : State) : Access Unit := slaveWrite (slaveAt s.cfg a) false sup none z a v s

/-- Bytes written by other bus masters, in order (R150). -/
def writeBytes : List (Word × Byte) → Memory → Memory
  | [], m => m
  | (a, b) :: rest, m => writeBytes rest (m.write a.toNat b)

/-- The gap between two bus transfers of one instruction: what other bus masters write there lands (R150, assumption log 49). -/
def interleave (s : State) : State :=
  { s with mem := writeBytes (s.between.headD []) s.mem, between := s.between.tail }

/-- R148: whether a store of `z` bytes at `a` by the instruction at `pc` reaches one of the bytes `pc + 2` to `pc + 7`. For a 32-bit store these take in its own
second half-word and end four bytes after it, where D16 and U18 say the six bytes after the store; the model takes R148's bytes for both lengths (assumption
log 18, DESIGN CHOICE). -/
def inPrefetchWindow (pc a : Word) (z : Size) : Bool :=
  decide ((a - (pc + 2#32)).toNat < 6) || decide (((a + BitVec.ofNat 32 (sizeBytes z - 1)) - (pc + 2#32)).toNat < 6)

end Sys2Proof.Machine
end

