-- ==== Sys2Proof/Machine/ControlRegs.lean ====
section
/-! DEFINITION. The control registers as words: the places of their fields and what a read answers (10_state.md R40 to R65). Bit places
marked "from general knowledge" in the spec are assumption log 12. -/

namespace Sys2Proof.Machine

/-- R42: PSR as a word. -/
def psrWord (p : Psr) : Word :=
  BitVec.ofBool p.s ++ 0#7 ++ p.vec ++ 0#6 ++ BitVec.ofBool p.mm ++ BitVec.ofBool p.ee ++ BitVec.ofBool p.ic ++
  BitVec.ofBool p.ie ++ 0#5 ++ BitVec.ofBool p.c

/-- R42: the fields of a word written to PSR or EPSR; the reserved bits are ignored. -/
def psrOfWord (w : Word) : Psr where
  s := w.getLsbD 31
  vec := w.extractLsb' 16 8
  mm := w.getLsbD 9
  ee := w.getLsbD 8
  ic := w.getLsbD 7
  ie := w.getLsbD 6
  c := w.getLsbD 0

/-- R46: VBR as a word. -/
def vbrWord (v : BitVec 22) : Word := v ++ 0#10

/-- R59: PACR as a word. -/
def pacrWord (p : Pacr) : Word := p.base ++ 0#1 ++ p.size ++ BitVec.ofBool p.enable

/-- R59: the fields of a word written to PACR. -/
def pacrOfWord (w : Word) : Pacr where
  base := w.extractLsb' 7 25
  size := w.extractLsb' 1 5
  enable := w.getLsbD 0

/-- R57, D9: the bits of CAPR that belong to the regions that exist: NX 7:0, AP 23:8, S 31:24. -/
def caprMask (regions : Nat) : Word :=
  let ones (n : Nat) : Word := ~~~(BitVec.allOnes 32 <<< n)
  ones regions ||| (ones (2 * regions) <<< 8) ||| (ones regions <<< 24)

/-- R55: CCR as a word: BE_V2 13, SCK 10:8, BE 7, MP 1:0. -/
def ccrWord (s : State) : Word :=
  0#18 ++ BitVec.ofBool s.cfg.beV2 ++ 0#2 ++ s.cfg.sck ++ BitVec.ofBool s.cfg.bigEndian ++ 0#5 ++ 0#1 ++ BitVec.ofBool s.mpuOn

/-- R62: CHR as a word: IAE 4; SRST_VAL reads 0 (R60). -/
def chrWord (iae : Bool) : Word := 0#27 ++ BitVec.ofBool iae ++ 0#4

/-- The control registers that are implemented in some configuration (R40). -/
inductive ControlReg where
  | psr | vbr | epsr | epc | cpuidr | ccr | capr | pacr | prsr | chr | usp
deriving DecidableEq, Repr

/-- R40, R41: the control register that CR<n,sel> names; `none` for one that is not implemented or configured out. -/
def controlReg (c : Config) (n sel : BitVec 5) : Option ControlReg :=
  let mpu := decide (0 < c.mpuRegions.val)
  match sel.toNat, n.toNat with
  | 0, 0 => some .psr
  | 0, 1 => if c.hasVbr then some .vbr else none
  | 0, 2 => some .epsr
  | 0, 4 => some .epc
  | 0, 13 => some .cpuidr
  | 0, 18 => some .ccr
  | 0, 19 => if mpu then some .capr else none
  | 0, 20 => if mpu then some .pacr else none
  | 0, 21 => if mpu then some .prsr else none
  | 0, 31 => some .chr
  | 1, 14 => some .usp
  | _, _ => none

/-- R58: the region that PRSR selects, as an index. -/
def selectedRegion (s : State) : Fin 8 := s.prsr.toFin

/-- R58, D9: whether the selected region exists. -/
def selectedExists (s : State) : Bool := decide (s.prsr.toNat < s.cfg.mpuRegions.val)

/-- What MFCR32 reads from an implemented control register (R40 to R65). -/
def readControlReg (r : ControlReg) (s : State) : Word :=
  match r with
  | .psr => psrWord s.psr
  | .vbr => vbrWord s.vbr
  | .epsr => psrWord s.epsr
  | .epc => s.epc
  | .cpuidr => s.cfg.cpuid
  | .ccr => ccrWord s
  | .capr => s.capr
  | .pacr => if selectedExists s then pacrWord (s.pacr.get (selectedRegion s)) else 0#32
  | .prsr => 0#29 ++ s.prsr
  | .chr => chrWord s.iae
  | .usp => s.regs.usp

/-- R370, R41: what MFCR32 reads from CR<n,sel>; 0 when it is not implemented. -/
def readControl (n sel : BitVec 5) (s : State) : Word :=
  match controlReg s.cfg n sel with
  | some r => readControlReg r s
  | none => 0#32

end Sys2Proof.Machine
end

