-- ==== Sys2Proof/Machine/Mpu.lean ====
section
/-! DEFINITION. The memory protection unit (20_memory.md R120 to R126, 10_state.md R55 to R59; the readings of decision D13 are
assumption log 21). -/

namespace Sys2Proof.Machine

/-- What an access does (R124). -/
inductive AccessKind where
  | read | write | fetch
deriving DecidableEq, Repr

/-- R121: the MPU checks accesses when it is present and CCR.MP = 1. -/
def mpuEnabled (s : State) : Bool := decide (0 < s.cfg.mpuRegions.val) && s.mpuOn

/-- CAPR.NXn (R57): bit n. -/
def caprNx (capr : Word) (n : Nat) : Bool := capr.getLsbD n

/-- CAPR.APn (R57): bits 9+2n and 8+2n. -/
def caprAp (capr : Word) (n : Nat) : BitVec 2 := capr.extractLsb' (8 + 2 * n) 2

/-- R122: the address bits that a region of size 2^(Size+1) compares; none for 4 GB. -/
def regionMask (size : BitVec 5) : Word := BitVec.allOnes 32 <<< (size.toNat + 1)

/-- R122: region match, for E = 1 and Size 6 to 31. -/
def regionMatches (p : Pacr) (a : Word) : Bool :=
  p.enable && decide (6 ≤ p.size.toNat) && (a &&& regionMask p.size == (p.base ++ 0#7) &&& regionMask p.size)

/-- R123: the regions from the highest index down. -/
def regionOrder : List (Fin 8) := [7, 6, 5, 4, 3, 2, 1, 0]

/-- R123: the enabled matching region of the highest index. -/
def controllingRegion (s : State) (a : Word) : Option (Fin 8) :=
  regionOrder.find? (fun n => decide (n.val < s.cfg.mpuRegions.val) && regionMatches (s.pacr.get n) a)

/-- R124: what the AP field allows. -/
def apAllows (ap : BitVec 2) (k : AccessKind) (sup : Bool) : Bool :=
  match ap, k, sup with
  | 0#2, _, _ => false
  | 1#2, _, sup => sup
  | 2#2, .write, sup => sup
  | 2#2, _, _ => true
  | _, _, _ => true

/-- R123, R124: whether the MPU lets an access through; a fetch also needs NX = 0. -/
def mpuAllows (k : AccessKind) (sup : Bool) (a : Word) (s : State) : Bool :=
  if mpuEnabled s then
    match controllingRegion s a with
    | none => false
    | some n => apAllows (caprAp s.capr n.val) k sup && !(decide (k = .fetch) && caprNx s.capr n.val)
  else true

end Sys2Proof.Machine
end

