-- ==== Sys2Proof/Machine/Debug.lean ====
section
/-! DEFINITION. The debug unit's registers as a program sees them, and the DDMA engine (60_exceptions.md R520 to R535; what the spec
does not give is assumption logs 22, 23, 50, 51, 53 and 56). -/

namespace Sys2Proof.Machine

/-- HCR.DDAE, bit 29 (R525). -/
def ddae (h : Had) : Bool := h.hcr.getLsbD 29

/-- The address range of the tightly coupled IP (R112). -/
def isTcipAddr (a : Word) : Bool := a.extractLsb' 28 4 == 0xE#4

/-- R531: the access size of TRANS SIZE; the other values are reserved. -/
def ddmaSize (size : BitVec 3) : Option Size :=
  match size with
  | 0#3 => some .byte
  | 1#3 => some .half
  | 2#3 => some .word
  | _ => none

/-- The size of the transfer that DACSR asks for; a reserved mode or size is refused (R531, U20). -/
def ddmaPlan (h : Had) : Except Refusal Size :=
  match ddmaSize h.size with
  | none => .error .ddmaReserved
  | some z => if 2 ≤ h.mode.toNat then .error .ddmaReserved else .ok z

/-- The address of a transfer: DATR (R532). Where DATR is not a multiple of the size it is a free value: what the debug unit does then is not stated
(R534; assumption log 50, DESIGN CHOICE). `none` is ERROR. -/
def ddmaAddr (datr : Word) (z : Size) : Option Word :=
  if datr &&& sizeLowBits z = 0#32 then some datr
  else (Config.ddmaUnaligned (sizeBytes z) (datr.extractLsb' 0 2)).map (fun d => (datr + d) &&& ~~~(sizeLowBits z))

/-- What answers a transfer: the system bus, to which the debug unit goes past the core (R530). A transfer to the tightly coupled IP range gets a free
answer and reaches no register: what it does there is not stated (R534; assumption log 50, DESIGN CHOICE). -/
def ddmaSlave (c : Config) (a : Word) : SlaveKind :=
  if c.hasTcip && isTcipAddr a then .device else slaveAt c a

/-- Whether a transfer that is started while the previous one has not finished (TRANS BUSY) is dropped: a free value, since it is not stated
(assumption log 50, DESIGN CHOICE). -/
def ddmaDropped (s : State) : Bool := s.had.busy && (Config.freeWord s.freeCount).getLsbD 0

/-- R532: the address after a completed transfer; it advances in increase mode. -/
def ddmaNextAddr (h : Had) (z : Size) : Word :=
  if h.mode = 1#3 then h.datr + BitVec.ofNat 32 (sizeBytes z) else h.datr

/-- A transfer that the bus answered with ERROR (R531, TRANS ERROR). -/
def ddmaFailed (s : State) : State := { s with had := { s.had with error := true, busy := false } }

/-- A transfer that the bus never answers (R531, TRANS BUSY). -/
def ddmaHangs (s : State) : State := { s with had := { s.had with busy := true } }

/-- How a transfer ends for the program's access that started it: the access goes on whatever the bus answers. -/
def ddmaDone {α : Type} (x : Access α) (k : α → State → State) : Access Unit :=
  match x with
  | .ok v s => .ok () (k v s)
  | .raise _ s => .ok () (ddmaFailed s)
  | .hang s => .ok () (ddmaHangs s)
  | .refuse r => .refuse r

/-- Start a transfer of the size DACSR gives at the address DATR gives, with TRANS PROT as the protection: HPROT[0] and HPROT[1] are its bits 0 and 1
(R531, R533). -/
def ddmaStart (s : State) (transfer : Size → Word → State → Access Unit) : Access Unit :=
  match ddmaPlan s.had with
  | .error r => .refuse r
  | .ok z =>
    if ddmaDropped s then .ok () (nextFree s)
    else
      match ddmaAddr s.had.datr z with
      | none => .ok () (ddmaFailed (nextFree s))
      | some a => transfer z a (nextFree s)

/-- What DARWR holds after a read transfer of the datum `d`: the datum in its low bits, and above a byte or a half-word the bits of the free value `f`, since
the spec does not say what stands there (R533; assumption log 56, DESIGN CHOICE). -/
def ddmaDatum (z : Size) (d f : Word) : Word :=
  match z with
  | .byte => f.extractLsb' 8 24 ++ d.extractLsb' 0 8
  | .half => f.extractLsb' 16 16 ++ d.extractLsb' 0 16
  | .word => d

/-- The state after a read transfer completes. Hardware sets DATA PHASE when a single read completes (R533). -/
def ddmaReadDone (z : Size) (d : Word) (s : State) : State :=
  nextFree { s with had := { s.had with
    darwr := ddmaDatum z d (Config.freeWord s.freeCount), error := false, busy := false, datr := ddmaNextAddr s.had z
    dataPhase := s.had.dataPhase || s.had.mode == 0#3 } }

/-- The state after a write transfer completes. -/
def ddmaWriteDone (z : Size) (s : State) : State :=
  { s with had := { s.had with error := false, busy := false, datr := ddmaNextAddr s.had z } }

/-- The bus read that a read of DARWR starts (R533). -/
def ddmaRead (s : State) : Access Unit :=
  ddmaStart s (fun z a s' =>
    ddmaDone (slaveRead (ddmaSlave s'.cfg a) (!s'.had.prot.getLsbD 0) (s'.had.prot.getLsbD 1) (some s'.had.prot) z a s') (ddmaReadDone z))

/-- The bus write that a write of DARWR starts (R533). It is no store of the core, so the window of R148 does not apply (assumption log 18). A byte or a
half-word is taken from the low bits of the written value, which R533 does not say (assumption log 56, DESIGN CHOICE). -/
def ddmaWrite (s : State) : Access Unit :=
  ddmaStart s (fun z a s' =>
    ddmaDone (slaveWrite (ddmaSlave s'.cfg a) (!s'.had.prot.getLsbD 0) (s'.had.prot.getLsbD 1) (some s'.had.prot) z a s'.had.darwr s')
      (fun _ t => ddmaWriteDone z t))

/-- A read of DARWR (R533): it answers the data register's content, which the last read transfer or the last write of DARWR put there (assumption log 53,
DESIGN CHOICE); with DATA PHASE = 1 it clears DATA PHASE, otherwise it starts
a bus read when DDAE is set (R530). -/
def readDarwr (s : State) : Access Word :=
  if s.had.dataPhase then .ok s.had.darwr { s with had := { s.had with dataPhase := false } }
  else if ddae s.had then (ddmaRead s).bind (fun _ s' => .ok s.had.darwr s')
  else .ok s.had.darwr s

/-- A write of DARWR (R533). The written value and the result of a read transfer share the one data register, so a later read answers the value written where
no read transfer comes between; R533 does not say so (assumption log 53, DESIGN CHOICE). -/
def writeDarwr (v : Word) (s : State) : Access Unit :=
  let s' := { s with had := { s.had with darwr := v } }
  if ddae s.had then ddmaWrite s' else .ok () s'

/-- The bits of DACSR whose places the source fixes: TRANS MODE 2:0 and TRANS SIZE 6:4 (R531). -/
def dacsrKnown : Word := 0x77

/-- A read of DACSR. The places of PROT, BUSY, ERROR and DATA PHASE are not in the source (N23): while any of them is not 0 the other bits
of the word are a free value. -/
def readDacsr (s : State) : Access Word :=
  let known : Word := 0#25 ++ s.had.size ++ 0#1 ++ s.had.mode
  if s.had.prot = 0#4 && !s.had.busy && !s.had.error && !s.had.dataPhase then .ok known s
  else .ok (known ||| (Config.freeWord s.freeCount &&& ~~~dacsrKnown)) (nextFree s)

/-- A write of DACSR (R531): a reserved mode or size is refused (U20). PROT and DATA PHASE are written too, but their places are not in the source: a word
that is 0 outside mode and size clears both, any other leaves them free values (N23; assumption log 51, DESIGN CHOICE). The trusted bit of PROT is free among them: R531 lets only the highest debug
privilege write it and makes it 0 for any other, but which of the two a store of the program is, is not given, and the model holds no debug
privilege (assumption log 51, DESIGN CHOICE). BUSY and ERROR are read only. -/
def writeDacsr (v : Word) (s : State) : Access Unit :=
  if 2 ≤ (v.extractLsb' 0 3).toNat || 3 ≤ (v.extractLsb' 4 3).toNat then .refuse .ddmaReserved
  else
    let h := { s.had with mode := v.extractLsb' 0 3, size := v.extractLsb' 4 3 }
    if v &&& ~~~dacsrKnown = 0#32 then .ok () { s with had := { h with prot := 0, dataPhase := false } }
    else
      let f := Config.freeWord s.freeCount
      .ok () (nextFree { s with had := { h with prot := f.extractLsb' 0 4, dataPhase := f.getLsbD 4 } })

/-- A write of HCR: only DDAE's place is in the source (R525, U20). -/
def writeHcr (v : Word) (s : State) : Access Unit :=
  if (v ^^^ s.had.hcr) &&& ~~~(1#32 <<< 29) != 0#32 then .refuse .hadEffectUnknown
  else .ok () { s with had := { s.had with hcr := v } }

/-- A write of CSR: FDB's place is not in the source, so only a write of 0, which clears FDB wherever it stands, and a write of the content have a known
effect (R525, U20; assumption log 22). -/
def writeHadCsr (v : Word) (s : State) : Access Unit :=
  if v = 0#32 then .ok () { s with had := { s.had with csr := 0, fdb := false } }
  else if v = s.had.csr then .ok () s
  else .refuse .hadEffectUnknown

end Sys2Proof.Machine
end

