-- ==== Sys2Proof/Machine/Timer.lean ====
section
/-! DEFINITION. The system timer CoreTim (60_exceptions.md R470 to R477). -/

namespace Sys2Proof.Machine

/-- R472: CLKSOURCE; without a reference clock it is the constant 1. -/
def clkSource (c : Config) (t : CoreTim) : Bool := t.clksource || !c.hasRefClk

/-- R473: one tick of the selected clock. -/
def timerTick (t : CoreTim) : CoreTim :=
  if t.enable then
    if t.current = 0 then { t with current := t.reload }
    else { t with current := t.current - 1, countflag := t.countflag || t.current - 1 == 0#24 }
  else t

/-- `n` ticks. -/
def timerTicks : Nat → CoreTim → CoreTim
  | 0, t => t
  | n + 1, t => timerTicks n (timerTick t)

/-- The ticks of the selected clock that pass (R472). -/
def timerAdvance (c : Config) (coreTicks refTicks : Nat) (t : CoreTim) : CoreTim :=
  timerTicks (if clkSource c t then coreTicks else refTicks) t

/-- R477, D24: the interrupt request is COUNTFLAG and TICKINT. -/
def timerRequest (t : CoreTim) : Bool := t.countflag && t.tickint

/-- R471: the value of CORET_CSR. -/
def coretCsr (c : Config) (t : CoreTim) : Word :=
  0#15 ++ BitVec.ofBool t.countflag ++ 0#13 ++ BitVec.ofBool (clkSource c t) ++ BitVec.ofBool t.tickint ++ BitVec.ofBool t.enable

/-- R471: a write to CORET_CSR; COUNTFLAG is read only, and CLKSOURCE ignores writes without a reference clock (R472). -/
def coretWriteCsr (c : Config) (w : Word) (t : CoreTim) : CoreTim :=
  { t with
    clksource := if c.hasRefClk then w.getLsbD 2 else t.clksource
    tickint := w.getLsbD 1
    enable := w.getLsbD 0 }

/-- R475: a write of any value to CORET_CVR. -/
def coretWriteCvr (t : CoreTim) : CoreTim := { t with current := 0, countflag := false }

/-- R476: CORET_CALIB. -/
def coretCalib (c : Config) : Word := c.calib.extractLsb' 24 2 ++ 0#6 ++ c.calib.extractLsb' 0 24

end Sys2Proof.Machine
end

