-- ==== Sys2Proof/Machine/Vic.lean ====
section
/-! DEFINITION. The vector interrupt controller: sampling, arbitration, acknowledge and exit, and its registers
(60_exceptions.md R482 to R495; the readings of decision D25 are assumption log 29). -/

namespace Sys2Proof.Machine

/-- The bits of the sources that exist: those of other sources read 0 and ignore writes (R482). -/
def vicMask (c : Config) : Word := ~~~(BitVec.allOnes 32 <<< c.vicSize.count)

/-- The 32 source numbers in rising order. -/
def sources : List (Fin 32) :=
  [0, 1, 2, 3, 4, 5, 6, 7, 8, 9, 10, 11, 12, 13, 14, 15,
   16, 17, 18, 19, 20, 21, 22, 23, 24, 25, 26, 27, 28, 29, 30, 31]

/-- One source's bit. -/
def sourceBit (n : Nat) : Word := 1#32 <<< n

/-- R490: one sample of the lines. A level source that is not active, and a pulse source whose line has risen, become pending. -/
def vicSample (mask pulse lines : Word) (v : Vic) : Vic :=
  { v with
    pending := v.pending ||| (((lines &&& ~~~pulse &&& ~~~v.active) ||| (lines &&& pulse &&& ~~~v.lastLines)) &&& mask)
    lastLines := lines &&& mask }

/-- R495: of a set of sources, the one with the smallest (priority number, source number). -/
def bestSource (v : Vic) (set : Word) : Option (Fin 32) :=
  [0#2, 1#2, 2#2, 3#2].findSome? (fun p => sources.find? (fun n => set.getLsbD n.val && v.prio.get n == p))

/-- R495: the sources that may be requested. -/
def vicCandidates (v : Vic) : Word := v.pending &&& v.enable &&& ~~~v.active

/-- R495: the priority number of the most urgent active interrupt, 4 when none is active. -/
def currentPrio (v : Vic) : Nat :=
  match bestSource v v.active with
  | some n => (v.prio.get n).toNat
  | none => 4

/-- The vector of a source: 32 + n (R482). -/
def sourceVector (n : Fin 32) : BitVec 8 := BitVec.ofNat 8 (32 + n.val)

/-- R495: the request to the core and its vector. -/
def vicRequest (v : Vic) : Option (BitVec 8) :=
  match bestSource v (vicCandidates v) with
  | none => none
  | some n =>
    if decide ((v.prio.get n).toNat < currentPrio v) && (!v.thrEn || decide (v.prio.get n < v.thrPrio)) then
      some (sourceVector n)
    else none

/-- R491: the core acknowledges Interrupt(vec). -/
def vicAcknowledge (vec : BitVec 8) (v : Vic) : Vic :=
  { v with
    pending := v.pending &&& ~~~(sourceBit (vec.toNat - 32))
    active := v.active ||| sourceBit (vec.toNat - 32) }

/-- R491: the core leaves the handler of vector `vec`; a vector below 32 is no interrupt handler and signals nothing. -/
def vicExit (vec : BitVec 8) (v : Vic) : Vic :=
  if vec.toNat < 32 then v
  else { v with
    active := v.active &&& ~~~(sourceBit (vec.toNat - 32))
    thrEn := v.thrEn && !(v.thrVec == 0#1 ++ vec) }

/-- R486: the wake-up request. -/
def vicWake (v : Vic) : Bool := v.pending &&& v.wakeup != 0#32

/-- R492: VECTPENDING. -/
def vectPending (v : Vic) : BitVec 9 :=
  match bestSource v (v.pending &&& v.enable) with
  | some n => BitVec.ofNat 9 (32 + n.val)
  | none => 0

/-- R492: VIC_ISR, with VECTACTIVE = PSR.VEC. -/
def vicIsr (active : BitVec 8) (v : Vic) : Word := 0#11 ++ vectPending v ++ 0#3 ++ (0#1 ++ active)

/-- The source whose priority is field `j` of VIC_IPRk (R489). -/
def iprSource (k : Fin 8) (j : Fin 4) : Fin 32 := ⟨4 * k.val + j.val, by omega⟩

/-- R489: VIC_IPRk. -/
def vicIpr (k : Fin 8) (v : Vic) : Word :=
  v.prio.get (iprSource k 3) ++ 0#6 ++ v.prio.get (iprSource k 2) ++ 0#6 ++
  v.prio.get (iprSource k 1) ++ 0#6 ++ v.prio.get (iprSource k 0) ++ 0#6

/-- The priority of one source set; nothing for a source that does not exist (R482). -/
def setPrio (count : Nat) (n : Fin 32) (p : BitVec 2) (v : Vic) : Vic :=
  if n.val < count then { v with prio := v.prio.set n.val p n.isLt } else v

/-- R489: a write to VIC_IPRk. -/
def vicWriteIpr (count : Nat) (k : Fin 8) (w : Word) (v : Vic) : Vic :=
  setPrio count (iprSource k 3) (w.extractLsb' 30 2)
    (setPrio count (iprSource k 2) (w.extractLsb' 22 2)
      (setPrio count (iprSource k 1) (w.extractLsb' 14 2)
        (setPrio count (iprSource k 0) (w.extractLsb' 6 2) v)))

/-- R493: VIC_IPTR. -/
def vicIptr (v : Vic) : Word := BitVec.ofBool v.thrEn ++ 0#14 ++ v.thrVec ++ v.thrPrio ++ 0#6

/-- R493: a write to VIC_IPTR. -/
def vicWriteIptr (w : Word) (v : Vic) : Vic :=
  { v with thrEn := w.getLsbD 31, thrVec := w.extractLsb' 8 9, thrPrio := w.extractLsb' 6 2 }

end Sys2Proof.Machine
end

