-- ==== Sys2Proof/Machine/Tcip.lean ====
section
/-! DEFINITION. The registers of the tightly coupled IP (20_memory.md R112 to R114; 60_exceptions.md R470, R483, R525). -/

namespace Sys2Proof.Machine

/-- The registers of the range 0xE0000000 to 0xEFFFFFFF. -/
inductive TcipReg where
  | coretCsr | coretRvr | coretCvr | coretCalib
  | vicIser | vicIwer | vicIcer | vicIwdr | vicIspr | vicIcpr | vicIabr
  | vicIpr (k : Fin 8)
  | vicIsr | vicIptr
  | hcr | hsr | hadCsr | dacsr | datr | darwr
deriving DecidableEq, Repr

/-- R470. -/
def timerMap : List (Word × TcipReg) :=
  [(0xE000E010, .coretCsr), (0xE000E014, .coretRvr), (0xE000E018, .coretCvr), (0xE000E01C, .coretCalib)]

/-- R483. -/
def vicMap : List (Word × TcipReg) :=
  [(0xE000E100, .vicIser), (0xE000E140, .vicIwer), (0xE000E180, .vicIcer), (0xE000E1C0, .vicIwdr),
   (0xE000E200, .vicIspr), (0xE000E280, .vicIcpr), (0xE000E300, .vicIabr),
   (0xE000E400, .vicIpr 0), (0xE000E404, .vicIpr 1), (0xE000E408, .vicIpr 2), (0xE000E40C, .vicIpr 3),
   (0xE000E410, .vicIpr 4), (0xE000E414, .vicIpr 5), (0xE000E418, .vicIpr 6), (0xE000E41C, .vicIpr 7),
   (0xE000EC00, .vicIsr), (0xE000EC04, .vicIptr)]

/-- R525. -/
def debugMap : List (Word × TcipReg) :=
  [(0xE0011034, .hcr), (0xE0011038, .hsr), (0xE0011054, .hadCsr),
   (0xE00110E0, .dacsr), (0xE00110E4, .datr), (0xE00110E8, .darwr)]

/-- The register at an address: `none` for a hole and for a device that is configured out (R114, D12). -/
def tcipReg (c : Config) (a : Word) : Option TcipReg :=
  (if c.hasCoreTim then timerMap.lookup a else none)
    <|> (if 0 < c.vicSize.count then vicMap.lookup a else none)
    <|> (if c.hasDebug then debugMap.lookup a else none)

/-- A supervisor word read of a register (R471 to R476, R484 to R493, R525 to R533). -/
def readTcipReg (r : TcipReg) (s : State) : Access Word :=
  match r with
  | .coretCsr => .ok (coretCsr s.cfg s.timer) { s with timer := { s.timer with countflag := false } }
  | .coretRvr => .ok (0#8 ++ s.timer.reload) s
  | .coretCvr => .ok (0#8 ++ s.timer.current) s
  | .coretCalib => .ok (coretCalib s.cfg) s
  | .vicIser => .ok s.vic.enable s
  | .vicIcer => .ok s.vic.enable s
  | .vicIwer => .ok s.vic.wakeup s
  | .vicIwdr => .ok s.vic.wakeup s
  | .vicIspr => .ok s.vic.pending s
  | .vicIcpr => .ok s.vic.pending s
  | .vicIabr => .ok s.vic.active s
  | .vicIpr k => .ok (vicIpr k s.vic) s
  | .vicIsr => .ok (vicIsr s.psr.vec s.vic) s
  | .vicIptr => .ok (vicIptr s.vic) s
  | .hcr => .ok s.had.hcr s
  | .hsr => .ok s.had.hsr s
  | .hadCsr => .ok s.had.csr s
  | .dacsr => readDacsr s
  | .datr => .ok s.had.datr s
  | .darwr => readDarwr s

/-- A supervisor word write of a register. Read-only registers ignore it. -/
def writeTcipReg (r : TcipReg) (v : Word) (s : State) : Access Unit :=
  let m := vicMask s.cfg
  match r with
  | .coretCsr => .ok () { s with timer := coretWriteCsr s.cfg v s.timer }
  | .coretRvr => .ok () { s with timer := { s.timer with reload := v.extractLsb' 0 24 } }
  | .coretCvr => .ok () { s with timer := coretWriteCvr s.timer }
  | .coretCalib => .ok () s
  | .vicIser => .ok () { s with vic := { s.vic with enable := s.vic.enable ||| (v &&& m) } }
  | .vicIcer => .ok () { s with vic := { s.vic with enable := s.vic.enable &&& ~~~v } }
  | .vicIwer => .ok () { s with vic := { s.vic with wakeup := s.vic.wakeup ||| (v &&& m) } }
  | .vicIwdr => .ok () { s with vic := { s.vic with wakeup := s.vic.wakeup &&& ~~~v } }
  | .vicIspr => .ok () { s with vic := { s.vic with pending := s.vic.pending ||| (v &&& m) } }
  | .vicIcpr => .ok () { s with vic := { s.vic with pending := s.vic.pending &&& ~~~v } }
  | .vicIabr => if v &&& m = 0#32 then .ok () { s with vic := { s.vic with active := s.vic.active &&& v } } else .refuse .iabrWriteOne
  | .vicIpr k => .ok () { s with vic := vicWriteIpr s.cfg.vicSize.count k v s.vic }
  | .vicIsr => .ok () s
  | .vicIptr => .ok () { s with vic := vicWriteIptr v s.vic }
  | .hcr => writeHcr v s
  | .hsr => .ok () s
  | .hadCsr => writeHadCsr v s
  | .dacsr => writeDacsr v s
  | .datr => .ok () { s with had := { s.had with datr := v } }
  | .darwr => writeDarwr v s

/-- A supervisor word read in the range: a hole reads 0 (R113, R114). -/
def tcipRead (a : Word) (s : State) : Access Word :=
  match tcipReg s.cfg a with
  | some r => readTcipReg r s
  | none => .ok 0 s

/-- A supervisor word write in the range: a hole ignores it (R113, R114). -/
def tcipWrite (a v : Word) (s : State) : Access Unit :=
  match tcipReg s.cfg a with
  | some r => writeTcipReg r v s
  | none => .ok () s

end Sys2Proof.Machine
end

