-- ==== Sys2Proof/Machine/Ops.lean ====
section
/-! DEFINITION. The named operations over registers and memory, fetching an instruction, taking an exception and returning from
one. -/

namespace Sys2Proof.Machine

/-! ### General registers -/

/-- R21: read of a general register: R9 to R12 read 0, R14 is the stack pointer of the current mode. -/
def readReg (r : Reg) (s : State) : Word :=
  match r with
  | .r0 => s.regs.r0
  | .r1 => s.regs.r1
  | .r2 => s.regs.r2
  | .r3 => s.regs.r3
  | .r4 => s.regs.r4
  | .r5 => s.regs.r5
  | .r6 => s.regs.r6
  | .r7 => s.regs.r7
  | .r8 => s.regs.r8
  | .r9 => 0#32
  | .r10 => 0#32
  | .r11 => 0#32
  | .r12 => 0#32
  | .r13 => s.regs.r13
  | .r14 => if s.psr.s then s.regs.ssp else s.regs.usp
  | .r15 => s.regs.r15

/-- R21: the register file after a write of a general register in a mode: a write of R9 to R12 is discarded. -/
def setReg (sup : Bool) (r : Reg) (v : Word) (g : Regs) : Regs :=
  match r with
  | .r0 => { g with r0 := v }
  | .r1 => { g with r1 := v }
  | .r2 => { g with r2 := v }
  | .r3 => { g with r3 := v }
  | .r4 => { g with r4 := v }
  | .r5 => { g with r5 := v }
  | .r6 => { g with r6 := v }
  | .r7 => { g with r7 := v }
  | .r8 => { g with r8 := v }
  | .r9 => g
  | .r10 => g
  | .r11 => g
  | .r12 => g
  | .r13 => { g with r13 := v }
  | .r14 => if sup then { g with ssp := v } else { g with usp := v }
  | .r15 => { g with r15 := v }

/-- R21: write of a general register. -/
def writeReg (r : Reg) (v : Word) (s : State) : State := { s with regs := setReg s.psr.s r v s.regs }

/-- Write values to registers, in order. -/
def writeRegs : List (Reg × Word) → State → State
  | [], s => s
  | (r, v) :: rest, s => writeRegs rest (writeReg r v s)

/-- The C bit (R35). -/
def setC (b : Bool) (s : State) : State := { s with psr := { s.psr with c := b } }

/-- The PC after an instruction of `n` bytes that ends in sequence (R31); addresses are modulo 2^32 (R33). An instruction that the debugger feeds is not
in the program, so it leaves the PC where it is (60_exceptions.md R522; assumption log 36, DESIGN CHOICE). -/
def nextPc (n : Word) (s : State) : Word := if s.debugMode then s.pc else s.pc + n

/-- An instruction ends in sequence. -/
def advance (n : Word) (s : State) : State := { s with pc := nextPc n s }

/-- R385: a new value of the IDLY32 count. It does not move while the debugger feeds instructions. -/
def nextIdly (n : Nat) (s : State) : Nat := if s.debugMode then s.idlyCount else n

/-- Bit 0 of every address that is loaded into the PC is dropped (R32). -/
def evenAddr (a : Word) : Word := a &&& 0xFFFFFFFE#32

/-- A transfer of control (R32). -/
def jumpTo (a : Word) (s : State) : State := { s with pc := evenAddr a }

/-! ### Vectors (R400) -/

/-- R416. -/
def vecMisaligned : BitVec 8 := 1#8
/-- R417. -/
def vecAccess : BitVec 8 := 2#8
/-- R418. -/
def vecIllegal : BitVec 8 := 4#8
/-- R419. -/
def vecPrivilege : BitVec 8 := 5#8
/-- R420. -/
def vecBreakpoint : BitVec 8 := 7#8
/-- R421. -/
def vecUnrecoverable : BitVec 8 := 8#8
/-- R422: 16 + n. -/
def vecTrap (n : BitVec 2) : BitVec 8 := 16#8 + (0#6 ++ n)

/-! ### Data accesses -/

/-- Whether an address is the tightly coupled IP's in this configuration (R112). -/
def inTcip (s : State) (a : Word) : Bool := s.cfg.hasTcip && isTcipAddr a

/-- A data read of `z` bytes at an aligned address, as a supervisor or a user access: the MPU (R120 to R125), then the tightly coupled
IP (R113) or the bus (R131). -/
def dataRead (fetch sup : Bool) (z : Size) (a : Word) (s : State) : Access Word :=
  if !mpuAllows .read sup a s then .raise vecAccess s
  else if inTcip s a then
    if !sup then .raise vecAccess s
    else if z = .word then tcipRead a s
    else .refuse .tcipSubword
  else busRead fetch sup z a s

/-- R148, D16: a store of the core into the six bytes after the storing instruction. A store that the debugger feeds stands at no address, so it has no
such bytes (assumption log 18, DESIGN CHOICE). -/
def hitsPrefetch (s : State) (z : Size) (a : Word) : Bool := !s.debugMode && inPrefetchWindow s.pc a z

/-- A data write of `z` bytes at an aligned address (R113, R120 to R125, R131); a store into the next six bytes of the instruction
stream is refused (R148). -/
def dataWrite (z : Size) (a v : Word) (s : State) : Access Unit :=
  if !mpuAllows .write s.psr.s a s then .raise vecAccess s
  else if inTcip s a then
    if !s.psr.s then .raise vecAccess s
    else if z = .word then tcipWrite a v s
    else .refuse .tcipSubword
  else if hitsPrefetch s z a then .refuse .prefetchWindowStore
  else busWrite s.psr.s z a v s

/-- R104: whether an address has a low bit that an aligned access of this size has 0. -/
def misaligned (z : Size) (a : Word) : Bool := a &&& sizeLowBits z != 0#32

/-- R104: the address with the low bits forced to 0. -/
def alignDown (z : Size) (a : Word) : Word := a &&& ~~~(sizeLowBits z)

/-- R104: the address an access goes to, or `none` for MisalignedAccess: with PSR.MM = 1 the low bits are forced to 0. -/
def accessAddr (z : Size) (a : Word) (s : State) : Option Word :=
  if misaligned z a then if s.psr.mm then some (alignDown z a) else none
  else some a

/-- MemRead of a load instruction: R104, then the access. -/
def load (z : Size) (a : Word) (s : State) : Access Word :=
  match accessAddr z a s with
  | none => .raise vecMisaligned s
  | some a' => dataRead false s.psr.s z a' s

/-- MemWrite of a store instruction: R104, then the access. -/
def store (z : Size) (a v : Word) (s : State) : Access Unit :=
  match accessAddr z a s with
  | none => .raise vecMisaligned s
  | some a' => dataWrite z a' v s

/-- The gap after a word transfer of a multi-word instruction that `more` words follow (R150). -/
def wordGap (more : Nat) (s : State) : State := if more = 0 then s else interleave s

/-- `n` words at ascending addresses (R358, D20). -/
def loadWords : Nat → Word → State → Access (List Word)
  | 0, _, s => .ok [] s
  | n + 1, a, s =>
    (dataRead false s.psr.s .word a s).bind (fun v s' =>
      (loadWords n (a + 4#32) (wordGap n s')).bind (fun vs s'' => .ok (v :: vs) s''))

/-- Words stored at ascending addresses; those before a failing one stay stored (R358, D20). -/
def storeWords : List Word → Word → State → Access Unit
  | [], _, s => .ok () s
  | v :: vs, a, s => (dataWrite .word a v s).bind (fun _ s' => storeWords vs (a + 4#32) (wordGap vs.length s'))

/-! ### Fetch (R106) -/

/-- Fetch16. A supervisor fetch from the tightly coupled IP range is refused (R114, D12); a user-mode fetch there, for which R114 and R132 (c) say
different things, raises AccessError like every user-mode access to it (assumption log 16, DESIGN CHOICE). -/
def fetchHalf (a : Word) (s : State) : Access Half :=
  if !mpuAllows .fetch s.psr.s a s then .raise vecAccess s
  else if inTcip s a then if s.psr.s then .refuse .tcipFetch else .raise vecAccess s
  else (busRead true s.psr.s .half a s).bind (fun v s' => .ok (v.extractLsb' 0 16) s')

/-- R106, R191: the instruction at the PC; the second half-word is fetched only when the first one asks for it. -/
def fetchInstr (s : State) : Access (Except DecodeError Instr) :=
  (fetchHalf s.pc s).bind (fun h0 s1 =>
    if isLong h0 then (fetchHalf (s.pc + 2#32) (interleave s1)).bind (fun h1 s2 => .ok (decodeHalves h0 h1) s2)
    else .ok (decodeHalves h0 0#16) s1)

/-! ### Taking an exception (R410 to R413) -/

/-- R412: the base of the vector table. -/
def tableBase (s : State) : Word := if s.cfg.hasVbr then vbrWord s.vbr else 0#32

/-- R412: the address of a table entry. -/
def vectorAddr (vec : BitVec 8) (s : State) : Word := tableBase s + ((0#24 ++ vec) <<< 2)

/-- R410, first line, and R385: an IDLY32 sequence is broken off, and C says so. An exception of an instruction that the debugger feeds leaves the
sequence alone, since its count does not move then. -/
def breakIdly (s : State) : State :=
  if 0 < s.idlyCount && !s.debugMode then { s with psr := { s.psr with c := true }, idlyCount := 0 } else s

/-- R410, second line, and R421: while EE = 0 everything but an interrupt is UnrecoverableError. -/
def effectiveVector (vec : BitVec 8) (s : State) : BitVec 8 :=
  if decide (vec.toNat < 32) && !s.psr.ee then vecUnrecoverable else vec

/-- R410, steps 1 to 5: EPSR and EPC are saved, then S, VEC, EE and IE change together; everything else keeps its value. -/
def saveAndSwitch (vec : BitVec 8) (ret : Word) (s : State) : State :=
  { s with
    epsr := s.psr
    epc := ret
    psr := { s.psr with s := true, vec := vec, ee := false, ie := false } }

/-- R410, step 6: the vector table word, read as a supervisor (R111); NX does not apply (R124). A gap between bus transfers comes before it (R150). -/
def readVector (vec : BitVec 8) (s : State) : Access Word := dataRead true true .word (vectorAddr vec s) (interleave s)

/-- R131, N29: the core waits for ever on a transfer that no slave answers; only reset ends it (R550). -/
def hangs (s : State) : Result := .next { s with hung := true }

/-- R413, D23: UnrecoverableError's own vector; when that read fails too the machine is stuck until reset. -/
def enterUnrecoverable (s : State) : Result :=
  match readVector vecUnrecoverable s with
  | .ok w s' => .next (jumpTo w s')
  | .raise _ s' => .next { s' with lockup := true }
  | .hang s' => hangs s'
  | .refuse r => .refused r

/-- R410: take an exception or interrupt with vector `vec` and return address `ret` (R411). A fault on the vector read is taken as
UnrecoverableError with the EPC already saved (R413). -/
def takeException (vec : BitVec 8) (ret : Word) (s : State) : Result :=
  let s0 := breakIdly s
  let v := effectiveVector vec s0
  match readVector v (saveAndSwitch v ret s0) with
  | .ok w s' => .next (jumpTo w s')
  | .raise _ s' => enterUnrecoverable (saveAndSwitch vecUnrecoverable s'.epc s')
  | .hang s' => hangs s'
  | .refuse r => .refused r

/-- R376, R428: return from exception: PSR from EPSR, PC from EPC with bit 0 cleared; an IDLY32 sequence ends (R385), and leaving an interrupt
handler is signalled to the VIC (R491). -/
def returnFromException (s : State) : State :=
  { s with
    psr := s.epsr
    pc := evenAddr s.epc
    idlyCount := nextIdly 0 s
    vic := vicExit s.psr.vec s.vic }

/-! ### How an instruction ends -/

/-- Go on with the value of an operation; an exception it raises is taken with EPC = the address of the instruction (R411). -/
def complete {α : Type} (ret : Word) (x : Access α) (k : α → State → Result) : Result :=
  match x with
  | .ok v s => k v s
  | .raise vec s => takeException vec ret s
  | .hang s' => hangs s'
  | .refuse r => .refused r

/-- R388, R419: a privileged instruction in user mode raises PrivilegeViolation and has no effect. -/
def privileged (s : State) (k : Result) : Result := if s.psr.s then k else takeException vecPrivilege s.pc s

/-- R190: NIE16, NIR16, IPUSH16 and IPOP16 are illegal instructions without HAS_NEST_ACCEL (assumption log 13). -/
def needsNestAccel (s : State) (k : Result) : Result :=
  if s.cfg.hasNestAccel then k else takeException vecIllegal s.pc s

/-- A 16-bit instruction that writes one register. -/
def finish16 (r : Reg) (v : Word) (s : State) : Result := .next (advance 2#32 (writeReg r v s))

/-- A 16-bit instruction that writes C. -/
def finishC16 (b : Bool) (s : State) : Result := .next (advance 2#32 (setC b s))

end Sys2Proof.Machine
end

