-- ==== Sys2Proof/Machine/Operands.lean ====
section
/-! DEFINITION. Operand forms: immediates, scaled offsets, effective addresses, branch targets, register lists (30_encoding.md R155;
44_load_store.md R320; 45_stack_multi.md R360). -/

namespace Sys2Proof.Machine

/-- IMMn: the field, zero-extended (R155 a). -/
def immU {n : Nat} (f : BitVec n) : Word := f.setWidth 32

/-- OIMMn: the field plus 1 (R155 b). -/
def immO {n : Nat} (f : BitVec n) : Word := f.setWidth 32 + 1#32

/-- A scaled unsigned field: the field shifted left by `k` (R155 c). -/
def immS {n : Nat} (k : Nat) (f : BitVec n) : Word := f.setWidth 32 <<< k

/-- A branch offset: the field shifted left 1, sign-extended from its top bit (R155 d). -/
def branchOffset {n : Nat} (f : BitVec n) : Word := (f ++ 0#1).signExtend 32

/-- The target of a PC-relative branch (43_branch.md). -/
def branchTarget {n : Nat} (f : BitVec n) (s : State) : Word := s.pc + branchOffset f

/-- How far a load or store offset is shifted (R320). -/
def sizeShift : Size → Nat
  | .byte => 0
  | .half => 1
  | .word => 2

/-- R320: the effective address, base plus scaled unsigned offset, modulo 2^32. -/
def effAddr {n : Nat} (z : Size) (base : Reg) (offset : BitVec n) (s : State) : Word :=
  readReg base s + immS (sizeShift z) offset

/-- R290, R291: the address LRW reads, word aligned by force. -/
def literalAddr {n : Nat} (offset : BitVec n) (s : State) : Word := (s.pc + immS 2 offset) &&& 0xFFFFFFFC#32

/-- R360: r4 to r11 in order. -/
def listRegs : List Reg := [.r4, .r5, .r6, .r7, .r8, .r9, .r10, .r11]

/-- R360: the register list {r4 .. r(3 + LIST1)}, then r15. -/
def regList (r15 : Bool) (list1 : BitVec 4) : List Reg :=
  listRegs.take list1.toNat ++ (if r15 then [.r15] else [])

/-- R354, R355: the registers of IPUSH16 and IPOP16, from the lowest address up. -/
def contextRegs : List Reg := [.r0, .r1, .r2, .r3, .r12, .r13]

/-- The size of `n` words in bytes. -/
def wordsBytes (n : Nat) : Word := BitVec.ofNat 32 (4 * n)

end Sys2Proof.Machine
end

