-- ==== Sys2Proof/Machine/Arith.lean ====
section
/-! DEFINITION. Add, subtract and multiply (40_arith.md). -/

namespace Sys2Proof.Machine

/-- R200. -/
def execAddu16 (rz rx : Reg) (s : State) : Result := finish16 rz (readReg rz s + readReg rx s) s

/-- R201. -/
def execAddu16r3 (rz rx ry : Reg) (s : State) : Result := finish16 rz (readReg rx s + readReg ry s) s

/-- R202: C is written whether or not the register is one that exists. -/
def execAddc16 (rz rx : Reg) (s : State) : Result :=
  finish16 rz (addCResult (readReg rz s) (readReg rx s) s.psr.c)
    (setC (addCCarry (readReg rz s) (readReg rx s) s.psr.c) s)

/-- R203. -/
def execAddi16 (rz : Reg) (imm8 : BitVec 8) (s : State) : Result := finish16 rz (readReg rz s + immO imm8) s

/-- R204. -/
def execAddi16r3 (rz rx : Reg) (imm3 : BitVec 3) (s : State) : Result := finish16 rz (readReg rx s + immO imm3) s

/-- R205. -/
def execAddi16rsp (rz : Reg) (imm8 : BitVec 8) (s : State) : Result := finish16 rz (readReg .r14 s + immS 2 imm8) s

/-- R206. -/
def execAddi16sp (imm7 : BitVec 7) (s : State) : Result := finish16 .r14 (readReg .r14 s + immS 2 imm7) s

/-- R207. -/
def execSubu16 (rz rx : Reg) (s : State) : Result := finish16 rz (readReg rz s - readReg rx s) s

/-- R208. -/
def execSubu16r3 (rz rx ry : Reg) (s : State) : Result := finish16 rz (readReg rx s - readReg ry s) s

/-- R209: C is written whether or not the register is one that exists. -/
def execSubc16 (rz rx : Reg) (s : State) : Result :=
  finish16 rz (subCResult (readReg rz s) (readReg rx s) s.psr.c)
    (setC (subCCarry (readReg rz s) (readReg rx s) s.psr.c) s)

/-- R210. -/
def execSubi16 (rz : Reg) (imm8 : BitVec 8) (s : State) : Result := finish16 rz (readReg rz s - immO imm8) s

/-- R211. -/
def execSubi16r3 (rz rx : Reg) (imm3 : BitVec 3) (s : State) : Result := finish16 rz (readReg rx s - immO imm3) s

/-- R212. -/
def execSubi16sp (imm7 : BitVec 7) (s : State) : Result := finish16 .r14 (readReg .r14 s - immS 2 imm7) s

/-- R215: the low 32 bits of the product. -/
def execMult16 (rz rx : Reg) (s : State) : Result := finish16 rz (readReg rx s * readReg rz s) s

end Sys2Proof.Machine
end

