-- ==== Sys2Proof/Machine/Branch.lean ====
section
/-! DEFINITION. Branches, jumps and calls (43_branch.md). -/

namespace Sys2Proof.Machine

/-- Go to a PC-relative target; it is even because the offset is (R32). -/
def branchTo {n : Nat} (f : BitVec n) (s : State) : State := { s with pc := branchTarget f s }

/-- R300. -/
def execBr16 (offset10 : BitVec 10) (s : State) : Result := .next (branchTo offset10 s)

/-- R301. -/
def execBr32 (offset16 : BitVec 16) (s : State) : Result := .next (branchTo offset16 s)

/-- R302. -/
def execBt16 (offset10 : BitVec 10) (s : State) : Result :=
  .next (if s.psr.c then branchTo offset10 s else advance 2#32 s)

/-- R303. -/
def execBf16 (offset10 : BitVec 10) (s : State) : Result :=
  .next (if s.psr.c then advance 2#32 s else branchTo offset10 s)

/-- R305: R15 holds the return address before the target is fetched. -/
def execBsr32 (offset26 : BitVec 26) (s : State) : Result :=
  .next (branchTo offset26 (writeReg .r15 (s.pc + 4#32) s))

/-- R306. -/
def execJmp16 (rx : Reg) (s : State) : Result := .next (jumpTo (readReg rx s) s)

/-- R307: the target is read before R15 is written. -/
def execJsr16 (rx : Reg) (s : State) : Result :=
  .next (jumpTo (readReg rx s) (writeReg .r15 (s.pc + 2#32) s))

end Sys2Proof.Machine
end

