-- ==== Sys2Proof/Machine/Compare.lean ====
section
/-! DEFINITION. Compares, tests, moves, single-bit operations and literal loads (42_compare_move_bit.md). -/

namespace Sys2Proof.Machine

/-- R270. -/
def execCmpne16 (rx ry : Reg) (s : State) : Result := finishC16 (flagNe (readReg rx s) (readReg ry s)) s

/-- R271. -/
def execCmpnei16 (rx : Reg) (imm5 : BitVec 5) (s : State) : Result := finishC16 (flagNe (readReg rx s) (immU imm5)) s

/-- R272. -/
def execCmphs16 (rx ry : Reg) (s : State) : Result := finishC16 (flagHs (readReg rx s) (readReg ry s)) s

/-- R273. -/
def execCmphsi16 (rx : Reg) (imm5 : BitVec 5) (s : State) : Result := finishC16 (flagHs (readReg rx s) (immO imm5)) s

/-- R274. -/
def execCmplt16 (rx ry : Reg) (s : State) : Result := finishC16 (flagLt (readReg rx s) (readReg ry s)) s

/-- R275. -/
def execCmplti16 (rx : Reg) (imm5 : BitVec 5) (s : State) : Result := finishC16 (flagLt (readReg rx s) (immO imm5)) s

/-- R276. -/
def execTst16 (rx ry : Reg) (s : State) : Result := finishC16 (flagTst (readReg rx s) (readReg ry s)) s

/-- R277. -/
def execTstnbz16 (rx : Reg) (s : State) : Result := finishC16 (flagNoByteZero (readReg rx s)) s

/-- R280. -/
def execMov16 (rz rx : Reg) (s : State) : Result := finish16 rz (readReg rx s) s

/-- R281. -/
def execMovi16 (rz : Reg) (imm8 : BitVec 8) (s : State) : Result := finish16 rz (immU imm8) s

/-- R282: C complemented. -/
def execMvcv16 (rz : Reg) (s : State) : Result := finish16 rz (if s.psr.c then 0#32 else 1#32) s

/-- R285. -/
def execBclri16 (rz : Reg) (imm5 : BitVec 5) (s : State) : Result :=
  finish16 rz (readReg rz s &&& ~~~(1#32 <<< imm5.toNat)) s

/-- R286. -/
def execBseti16 (rz : Reg) (imm5 : BitVec 5) (s : State) : Result :=
  finish16 rz (readReg rz s ||| (1#32 <<< imm5.toNat)) s

/-- R287. -/
def execBtsti16 (rx : Reg) (imm5 : BitVec 5) (s : State) : Result := finishC16 (flagBit (readReg rx s) imm5) s

/-- R290, R291: read the literal as data and write the register; the address is aligned by force (R105). -/
def loadLiteral (len : Word) (rz : Reg) (a : Word) (s : State) : Result :=
  complete s.pc (dataRead false s.psr.s .word a s) (fun v s' => .next (advance len (writeReg rz v s')))

/-- R290. -/
def execLrw16 (rz : Reg) (offset7 : BitVec 7) (s : State) : Result := loadLiteral 2#32 rz (literalAddr offset7 s) s

/-- R291. -/
def execLrw32 (rz : Reg) (offset16 : BitVec 16) (s : State) : Result := loadLiteral 4#32 rz (literalAddr offset16 s) s

end Sys2Proof.Machine
end

