-- ==== Sys2Proof/Machine/LoadStore.lean ====
section
/-! DEFINITION. Single-register loads and stores (44_load_store.md). -/

namespace Sys2Proof.Machine

/-- R320 to R322: one load of `z` bytes at an effective address into a register, zero-extended; an instruction of `len` bytes. -/
def loadTo (len : Word) (z : Size) (rz : Reg) (ea : Word) (s : State) : Result :=
  complete s.pc (load z ea s) (fun v s' => .next (advance len (writeReg rz v s')))

/-- R320 to R322: one store of the low `z` bytes of a register at an effective address; an instruction of `len` bytes. -/
def storeFrom (len : Word) (z : Size) (rz : Reg) (ea : Word) (s : State) : Result :=
  complete s.pc (store z ea (readReg rz s) s) (fun _ s' => .next (advance len s'))

/-- R325. -/
def execLd16b (rz rx : Reg) (offset5 : BitVec 5) (s : State) : Result := loadTo 2#32 .byte rz (effAddr .byte rx offset5 s) s

/-- R326. -/
def execLd32b (rz rx : Reg) (offset12 : BitVec 12) (s : State) : Result := loadTo 4#32 .byte rz (effAddr .byte rx offset12 s) s

/-- R327. -/
def execLd16h (rz rx : Reg) (offset5 : BitVec 5) (s : State) : Result := loadTo 2#32 .half rz (effAddr .half rx offset5 s) s

/-- R328. -/
def execLd32h (rz rx : Reg) (offset12 : BitVec 12) (s : State) : Result := loadTo 4#32 .half rz (effAddr .half rx offset12 s) s

/-- R329. -/
def execLd16w (rz rx : Reg) (offset5 : BitVec 5) (s : State) : Result := loadTo 2#32 .word rz (effAddr .word rx offset5 s) s

/-- R330. -/
def execLd16wsp (rz : Reg) (offset8 : BitVec 8) (s : State) : Result := loadTo 2#32 .word rz (effAddr .word .r14 offset8 s) s

/-- R331. -/
def execLd32w (rz rx : Reg) (offset12 : BitVec 12) (s : State) : Result := loadTo 4#32 .word rz (effAddr .word rx offset12 s) s

/-- R335. -/
def execSt16b (rz rx : Reg) (offset5 : BitVec 5) (s : State) : Result := storeFrom 2#32 .byte rz (effAddr .byte rx offset5 s) s

/-- R336. -/
def execSt32b (rz rx : Reg) (offset12 : BitVec 12) (s : State) : Result := storeFrom 4#32 .byte rz (effAddr .byte rx offset12 s) s

/-- R337. -/
def execSt16h (rz rx : Reg) (offset5 : BitVec 5) (s : State) : Result := storeFrom 2#32 .half rz (effAddr .half rx offset5 s) s

/-- R338. -/
def execSt32h (rz rx : Reg) (offset12 : BitVec 12) (s : State) : Result := storeFrom 4#32 .half rz (effAddr .half rx offset12 s) s

/-- R339. -/
def execSt16w (rz rx : Reg) (offset5 : BitVec 5) (s : State) : Result := storeFrom 2#32 .word rz (effAddr .word rx offset5 s) s

/-- R340. -/
def execSt16wsp (rz : Reg) (offset8 : BitVec 8) (s : State) : Result := storeFrom 2#32 .word rz (effAddr .word .r14 offset8 s) s

/-- R341. -/
def execSt32w (rz rx : Reg) (offset12 : BitVec 12) (s : State) : Result := storeFrom 4#32 .word rz (effAddr .word rx offset12 s) s

end Sys2Proof.Machine
end

