-- ==== Sys2Proof/Machine/Logic.lean ====
section
/-! DEFINITION. Logic, shifts, rotate and extensions (41_logic_shift.md). -/

namespace Sys2Proof.Machine

/-- R230. -/
def execAnd16 (rz rx : Reg) (s : State) : Result := finish16 rz (readReg rz s &&& readReg rx s) s

/-- R231. -/
def execAndn16 (rz rx : Reg) (s : State) : Result := finish16 rz (readReg rz s &&& ~~~(readReg rx s)) s

/-- R232. -/
def execOr16 (rz rx : Reg) (s : State) : Result := finish16 rz (readReg rz s ||| readReg rx s) s

/-- R233. -/
def execXor16 (rz rx : Reg) (s : State) : Result := finish16 rz (readReg rz s ^^^ readReg rx s) s

/-- R234. -/
def execNor16 (rz rx : Reg) (s : State) : Result := finish16 rz (~~~(readReg rz s ||| readReg rx s)) s

/-- R240 to R243: the amount of a shift by register is RX[5:0]. -/
def shiftAmount (x : Word) : Nat := (x.extractLsb' 0 6).toNat

/-- R240: an amount above 31 clears. -/
def shiftLeft (v : Word) (n : Nat) : Word := if n ≤ 31 then v <<< n else 0#32

/-- R241: an amount above 31 clears. -/
def shiftRight (v : Word) (n : Nat) : Word := if n ≤ 31 then v >>> n else 0#32

/-- R242: an amount above 31 leaves copies of the sign. -/
def shiftArith (v : Word) (n : Nat) : Word :=
  if n ≤ 31 then v.sshiftRight n else if v.getLsbD 31 then 0xFFFFFFFF#32 else 0#32

/-- R243: an amount above 31 clears; it does not wrap around. -/
def rotateLeft (v : Word) (n : Nat) : Word :=
  if n = 0 then v else if n ≤ 31 then (v <<< n) ||| (v >>> (32 - n)) else 0#32

/-- R240. -/
def execLsl16 (rz rx : Reg) (s : State) : Result := finish16 rz (shiftLeft (readReg rz s) (shiftAmount (readReg rx s))) s

/-- R241. -/
def execLsr16 (rz rx : Reg) (s : State) : Result := finish16 rz (shiftRight (readReg rz s) (shiftAmount (readReg rx s))) s

/-- R242. -/
def execAsr16 (rz rx : Reg) (s : State) : Result := finish16 rz (shiftArith (readReg rz s) (shiftAmount (readReg rx s))) s

/-- R243. -/
def execRotl16 (rz rx : Reg) (s : State) : Result := finish16 rz (rotateLeft (readReg rz s) (shiftAmount (readReg rx s))) s

/-- R245. -/
def execLsli16 (rz rx : Reg) (imm5 : BitVec 5) (s : State) : Result := finish16 rz (shiftLeft (readReg rx s) imm5.toNat) s

/-- R246. -/
def execLsri16 (rz rx : Reg) (imm5 : BitVec 5) (s : State) : Result := finish16 rz (shiftRight (readReg rx s) imm5.toNat) s

/-- R247. -/
def execAsri16 (rz rx : Reg) (imm5 : BitVec 5) (s : State) : Result := finish16 rz (shiftArith (readReg rx s) imm5.toNat) s

/-- R250. -/
def execZextb16 (rz rx : Reg) (s : State) : Result := finish16 rz (((readReg rx s).extractLsb' 0 8).setWidth 32) s

/-- R251. -/
def execZexth16 (rz rx : Reg) (s : State) : Result := finish16 rz (((readReg rx s).extractLsb' 0 16).setWidth 32) s

/-- R252. -/
def execSextb16 (rz rx : Reg) (s : State) : Result := finish16 rz (((readReg rx s).extractLsb' 0 8).signExtend 32) s

/-- R253. -/
def execSexth16 (rz rx : Reg) (s : State) : Result := finish16 rz (((readReg rx s).extractLsb' 0 16).signExtend 32) s

end Sys2Proof.Machine
end

