-- ==== Sys2Proof/Machine/Stack.lean ====
section
/-! DEFINITION. PUSH, POP, IPUSH, IPOP, NIE and NIR (45_stack_multi.md). -/

namespace Sys2Proof.Machine

/-- R358 (a), R104: a multi-word instruction raises MisalignedAccess when SP is not a multiple of 4, whatever PSR.MM is. -/
def multiAccess {α : Type} (s : State) (x : Access α) : Access α :=
  if misaligned .word (readReg .r14 s) then .raise vecMisaligned s else x

/-- Store words below SP, the first at the lowest address, and lower SP to it (R350, R354, R356, R358). -/
def pushWords (vs : List Word) (s : State) : Access Unit :=
  let base := readReg .r14 s - wordsBytes vs.length
  multiAccess s ((storeWords vs base s).bind (fun _ s' => .ok () (writeReg .r14 base s')))

/-- Read words from SP up, all of them before any register changes (R352, R355, R357, R358). -/
def popWords (n : Nat) (s : State) : Access (List Word) := multiAccess s (loadWords n (readReg .r14 s) s)

/-- R350. -/
def execPush16 (r15 : Bool) (list1 : BitVec 4) (s : State) : Result :=
  complete s.pc (pushWords ((regList r15 list1).map (fun r => readReg r s)) s) (fun _ s' => .next (advance 2#32 s'))

/-- The registers and SP after a pop of a register list. -/
def popRegs (regs : List Reg) (vs : List Word) (s : State) : State :=
  writeReg .r14 (readReg .r14 s + wordsBytes regs.length) (writeRegs (regs.zip vs) s)

/-- R352: the jump goes to the R15 just loaded when it is in the list, else to the current R15. -/
def execPop16 (r15 : Bool) (list1 : BitVec 4) (s : State) : Result :=
  let regs := regList r15 list1
  complete s.pc (popWords regs.length s) (fun vs s' =>
    let s'' := popRegs regs vs s'
    .next (jumpTo (readReg .r15 s'') s''))

/-- R354: the R12 slot holds 0. -/
def execIpush16 (s : State) : Result :=
  needsNestAccel s
    (complete s.pc (pushWords (contextRegs.map (fun r => readReg r s)) s) (fun _ s' => .next (advance 2#32 s')))

/-- R355: the R12 slot is read and discarded. -/
def execIpop16 (s : State) : Result :=
  needsNestAccel s
    (complete s.pc (popWords contextRegs.length s) (fun vs s' => .next (advance 2#32 (popRegs contextRegs vs s'))))

/-- R356, R359: EPSR and EPC are pushed, EE and IE are set, and no interrupt is taken at the retirement. -/
def execNie16 (s : State) : Result :=
  needsNestAccel s (privileged s
    (complete s.pc (pushWords [psrWord s.epsr, s.epc] s) (fun _ s' =>
      .next (advance 2#32 { s' with psr := { s'.psr with ee := true, ie := true }, nieShadow := true }))))

/-- R357: EPSR and EPC are popped and the exception return is made with them. -/
def execNir16 (s : State) : Result :=
  needsNestAccel s (privileged s
    (complete s.pc (popWords 2 s) (fun vs s' =>
      .next (returnFromException
        { writeReg .r14 (readReg .r14 s' + 8#32) s' with epsr := psrOfWord (vs.getD 0 0#32), epc := vs.getD 1 0#32 }))))

end Sys2Proof.Machine
end

