-- ==== Sys2Proof/Machine/Reset.lean ====
section
/-! DEFINITION. Reset in the middle of a run (60_exceptions.md R415; 70_reset_and_hazards.md R550 to R553). Registers whose reset value the spec does
not state become free values (U1, U2, U3; assumption log 8). -/

namespace Sys2Proof.Machine

/-- R24, R75: the general registers hold any value after reset. -/
def freeRegs (n : Nat) : Regs where
  r0 := Config.freeWord n
  r1 := Config.freeWord (n + 1)
  r2 := Config.freeWord (n + 2)
  r3 := Config.freeWord (n + 3)
  r4 := Config.freeWord (n + 4)
  r5 := Config.freeWord (n + 5)
  r6 := Config.freeWord (n + 6)
  r7 := Config.freeWord (n + 7)
  r8 := Config.freeWord (n + 8)
  r13 := Config.freeWord (n + 9)
  r15 := Config.freeWord (n + 10)
  ssp := Config.freeWord (n + 11)
  usp := Config.freeWord (n + 12)

/-- R75, D8: a region that exists holds any base and size after reset, and E = 0; a region that does not exist holds 0 (D9). -/
def freePacr (regions n k : Nat) : Pacr :=
  if k < regions then { pacrOfWord (Config.freeWord n) with enable := false } else Pacr.reset

/-- R75: the eight regions after reset. -/
def freePacrs (regions n : Nat) : Vector Pacr 8 :=
  #v[freePacr regions n 0, freePacr regions (n + 1) 1, freePacr regions (n + 2) 2, freePacr regions (n + 3) 3,
     freePacr regions (n + 4) 4, freePacr regions (n + 5) 5, freePacr regions (n + 6) 6, freePacr regions (n + 7) 7]

/-- How many free values one reset takes. -/
def resetFreeCount : Nat := 26

/-- R75, R550 step 1: the registers after a reset. EPSR and EPC hold no defined value (R550, U2): they are free, which takes in that nothing writes them
(R415). Memory and the platform keep what they hold (R75); a bus transfer in progress is dropped (R550). The debug unit's registers are kept, BUSY included:
whether a reset of the core resets them is not stated (R552, N36; assumption log 54, DESIGN CHOICE). -/
def resetRegisters (s : State) : State :=
  let n := s.freeCount
  { s with
    regs := freeRegs n
    psr := Psr.reset
    vbr := 0
    epsr := psrOfWord (Config.freeWord (n + 24))
    epc := Config.freeWord (n + 25)
    mpuOn := false
    capr := Config.freeWord (n + 13) &&& caprMask s.cfg.mpuRegions.val
    pacr := freePacrs s.cfg.mpuRegions.val (n + 14)
    prsr := 0
    iae := false
    idlyCount := 0
    lowPower := .none
    lockup := false
    hung := false
    nieShadow := false
    vic := Vic.reset
    timer := { countflag := false, clksource := true, tickint := false, enable := false,
               reload := (Config.freeWord (n + 22)).extractLsb' 0 24
               current := (Config.freeWord (n + 23)).extractLsb' 0 24 }
    freeCount := n + resetFreeCount }

/-- R550: the reset input is asserted: the registers are reset, nothing runs, and debug mode ends (R75). -/
def hardReset (s : State) : State := { resetRegisters s with debugMode := false, inReset := true }

/-- R551, R413, D23: a fault on the read of the reset vector is UnrecoverableError with EPSR and EPC receiving unspecified values (assumption log 9). -/
def resetVectorFault (s : State) : Result :=
  enterUnrecoverable
    { saveAndSwitch vecUnrecoverable (Config.freeWord (s.freeCount + 1)) s with
      epsr := psrOfWord (Config.freeWord s.freeCount)
      freeCount := s.freeCount + 2 }

/-- R415, R550 steps 2 and 3: read the word at address 0 as a supervisor and go there. -/
def readResetVector (s : State) : Result :=
  match dataRead true true .word 0 s with
  | .ok w s' => .next (jumpTo w s')
  | .raise _ s' => resetVectorFault s'
  | .hang s' => hangs s'
  | .refuse r => .refused r

/-- R553, D27: a software reset resets the core and its tightly coupled devices at the retirement of the MTCR32; a core in debug mode stays
in it. -/
def softwareReset (s : State) : Result := readResetVector (resetRegisters s)

/-- R550: the reset input has been released. -/
def releaseReset (s : State) : Result := readResetVector { s with inReset := false }

end Sys2Proof.Machine
end

