-- ==== Sys2Proof/Machine/System.lean ====
section
/-! DEFINITION. Control-register moves, exception return, trap, breakpoint, synchronisation, IDLY and low power (46_system.md). -/

namespace Sys2Proof.Machine

/-- A 32-bit instruction that ends in sequence. -/
def finish32 (s : State) : Result := .next (advance 4#32 s)

/-- R370. -/
def execMfcr32 (rz : Reg) (crx sel : BitVec 5) (s : State) : Result :=
  privileged s (finish32 (writeReg rz (readControl crx sel s) s))

/-- R55, R56, R121, R126: a write of CCR reaches MP only. An MTCR32 that the debugger feeds stands at no address, so R126 has nothing to judge
(assumption log 19, DESIGN CHOICE). -/
def writeCcr (v : Word) (s : State) : Result :=
  if s.cfg.mpuRegions.val = 0 then finish32 s
  else if v.getLsbD 1 then .refused .ccrMpReserved
  else
    let s' := { s with mpuOn := v.getLsbD 0 }
    if s.debugMode || mpuAllows .fetch true s.pc s' then finish32 s' else .refused .mpuEnableDenied

/-- R58, R59, R122: a write of PACR goes to the region PRSR selects; one that does not exist ignores it (D9). -/
def writePacr (v : Word) (s : State) : Result :=
  if selectedExists s then
    let p := pacrOfWord v
    if p.enable && decide (p.size.toNat < 6) then .refused .pacrReservedSize
    else finish32 { s with pacr := s.pacr.set (selectedRegion s).val p (selectedRegion s).isLt }
  else finish32 s

/-- R60, R62, R421, R553: SRST_MAGIC in SRST_VAL resets the core when EE = 1 and is UnrecoverableError when EE = 0; any other value of that
field does nothing, and IAE is written. -/
def writeChr (v : Word) (s : State) : Result :=
  if v.extractLsb' 16 16 = s.cfg.srstMagic then
    if s.psr.ee then softwareReset s else takeException vecUnrecoverable s.pc s
  else finish32 { s with iae := v.getLsbD 4 }

/-- R371: a write of an implemented control register, through its own write rule (R42 to R65). -/
def writeControlReg (r : ControlReg) (v : Word) (s : State) : Result :=
  match r with
  | .psr => finish32 { s with psr := psrOfWord v }
  | .vbr => finish32 { s with vbr := v.extractLsb' 10 22 }
  | .epsr => finish32 { s with epsr := psrOfWord v }
  | .epc => finish32 { s with epc := v }
  | .cpuidr => finish32 s
  | .ccr => writeCcr v s
  | .capr => finish32 { s with capr := v &&& caprMask s.cfg.mpuRegions.val }
  | .pacr => writePacr v s
  | .prsr => finish32 { s with prsr := v.extractLsb' 0 3 }
  | .chr => writeChr v s
  | .usp => finish32 { s with regs := { s.regs with usp := v } }

/-- R371, R41: a control register that is not implemented ignores the write. -/
def writeControl (n sel : BitVec 5) (v : Word) (s : State) : Result :=
  match controlReg s.cfg n sel with
  | some r => writeControlReg r v s
  | none => finish32 s

/-- R371. -/
def execMtcr32 (rx : Reg) (crz sel : BitVec 5) (s : State) : Result :=
  privileged s (writeControl crz sel (readReg rx s) s)

/-- R374: IMM5[3] sets EE, IMM5[2] sets IE; the other bits select nothing (D6). -/
def execPsrset32 (imm5 : BitVec 5) (s : State) : Result :=
  privileged s (finish32
    { s with psr := { s.psr with ee := s.psr.ee || imm5.getLsbD 3, ie := s.psr.ie || imm5.getLsbD 2 } })

/-- R375. -/
def execPsrclr32 (imm5 : BitVec 5) (s : State) : Result :=
  privileged s (finish32
    { s with psr := { s.psr with ee := s.psr.ee && !imm5.getLsbD 3, ie := s.psr.ie && !imm5.getLsbD 2 } })

/-- R376. -/
def execRte32 (s : State) : Result := privileged s (.next (returnFromException s))

/-- R378. -/
def execTrap32 (n : BitVec 2) (s : State) : Result := takeException (vecTrap n) s.pc s

/-- R379, R420: with the debug unit's CSR.FDB set the core enters debug mode and the PC stays at the BKPT16. -/
def execBkpt16 (s : State) : Result :=
  if s.cfg.hasDebug && s.had.fdb then .next { s with debugMode := true }
  else takeException vecBreakpoint s.pc s

/-- R380, R146: every access is complete already, so no architectural state changes, in all four forms: 00_scope.md section 3 and R146 count .s, .i and .is
among the absent ones, R160 and R380 encode them as no-operations (assumption log 52, DESIGN CHOICE). -/
def execSync32 (_sBit _iBit : Bool) (s : State) : Result := finish32 s

/-- R382 to R386: sleep at the next instruction; an IDLY32 sequence ends (R385). Fed by the debugger it records its mode, which takes effect when debug mode is
left, since the spec does not speak of it (assumption log 35, DESIGN CHOICE). -/
def sleep (m : LowPower) (s : State) : Result :=
  privileged s (finish32 { s with idlyCount := nextIdly 0 s, lowPower := m })

/-- R382. -/
def execWait32 (s : State) : Result := sleep .wait s

/-- R383. -/
def execDoze32 (s : State) : Result := sleep .doze s

/-- R384. -/
def execStop32 (s : State) : Result := sleep .stop s

/-- R385: N = IMM5 + 1; an IDLY32 inside a sequence has no effect of its own. -/
def execIdly32 (imm5 : BitVec 5) (s : State) : Result :=
  if s.idlyCount = 0 then finish32 { setC false s with idlyCount := nextIdly (imm5.toNat + 1) s } else finish32 s

end Sys2Proof.Machine
end

