-- ==== Sys2Proof/Machine/Dispatch.lean ====
section
/-! DEFINITION. One arm per instruction, each one call of its meaning. -/

namespace Sys2Proof.Machine

def exec (i : Instr) (s : State) : Host.Outcome State Fault Refusal :=
  match i with
  | .addu16 rz rx => Sys2Proof.Machine.execAddu16 rz rx s
  | .addu16r3 rz rx ry => Sys2Proof.Machine.execAddu16r3 rz rx ry s
  | .addc16 rz rx => Sys2Proof.Machine.execAddc16 rz rx s
  | .addi16 rz imm8 => Sys2Proof.Machine.execAddi16 rz imm8 s
  | .addi16r3 rz rx imm3 => Sys2Proof.Machine.execAddi16r3 rz rx imm3 s
  | .addi16rsp rz imm8 => Sys2Proof.Machine.execAddi16rsp rz imm8 s
  | .addi16sp imm7 => Sys2Proof.Machine.execAddi16sp imm7 s
  | .subu16 rz rx => Sys2Proof.Machine.execSubu16 rz rx s
  | .subu16r3 rz rx ry => Sys2Proof.Machine.execSubu16r3 rz rx ry s
  | .subc16 rz rx => Sys2Proof.Machine.execSubc16 rz rx s
  | .subi16 rz imm8 => Sys2Proof.Machine.execSubi16 rz imm8 s
  | .subi16r3 rz rx imm3 => Sys2Proof.Machine.execSubi16r3 rz rx imm3 s
  | .subi16sp imm7 => Sys2Proof.Machine.execSubi16sp imm7 s
  | .mult16 rz rx => Sys2Proof.Machine.execMult16 rz rx s
  | .and16 rz rx => Sys2Proof.Machine.execAnd16 rz rx s
  | .andn16 rz rx => Sys2Proof.Machine.execAndn16 rz rx s
  | .or16 rz rx => Sys2Proof.Machine.execOr16 rz rx s
  | .xor16 rz rx => Sys2Proof.Machine.execXor16 rz rx s
  | .nor16 rz rx => Sys2Proof.Machine.execNor16 rz rx s
  | .lsl16 rz rx => Sys2Proof.Machine.execLsl16 rz rx s
  | .lsr16 rz rx => Sys2Proof.Machine.execLsr16 rz rx s
  | .asr16 rz rx => Sys2Proof.Machine.execAsr16 rz rx s
  | .rotl16 rz rx => Sys2Proof.Machine.execRotl16 rz rx s
  | .lsli16 rz rx imm5 => Sys2Proof.Machine.execLsli16 rz rx imm5 s
  | .lsri16 rz rx imm5 => Sys2Proof.Machine.execLsri16 rz rx imm5 s
  | .asri16 rz rx imm5 => Sys2Proof.Machine.execAsri16 rz rx imm5 s
  | .zextb16 rz rx => Sys2Proof.Machine.execZextb16 rz rx s
  | .zexth16 rz rx => Sys2Proof.Machine.execZexth16 rz rx s
  | .sextb16 rz rx => Sys2Proof.Machine.execSextb16 rz rx s
  | .sexth16 rz rx => Sys2Proof.Machine.execSexth16 rz rx s
  | .cmpne16 rx ry => Sys2Proof.Machine.execCmpne16 rx ry s
  | .cmpnei16 rx imm5 => Sys2Proof.Machine.execCmpnei16 rx imm5 s
  | .cmphs16 rx ry => Sys2Proof.Machine.execCmphs16 rx ry s
  | .cmphsi16 rx imm5 => Sys2Proof.Machine.execCmphsi16 rx imm5 s
  | .cmplt16 rx ry => Sys2Proof.Machine.execCmplt16 rx ry s
  | .cmplti16 rx imm5 => Sys2Proof.Machine.execCmplti16 rx imm5 s
  | .tst16 rx ry => Sys2Proof.Machine.execTst16 rx ry s
  | .tstnbz16 rx => Sys2Proof.Machine.execTstnbz16 rx s
  | .mov16 rz rx => Sys2Proof.Machine.execMov16 rz rx s
  | .movi16 rz imm8 => Sys2Proof.Machine.execMovi16 rz imm8 s
  | .mvcv16 rz => Sys2Proof.Machine.execMvcv16 rz s
  | .bclri16 rz imm5 => Sys2Proof.Machine.execBclri16 rz imm5 s
  | .bseti16 rz imm5 => Sys2Proof.Machine.execBseti16 rz imm5 s
  | .btsti16 rx imm5 => Sys2Proof.Machine.execBtsti16 rx imm5 s
  | .lrw16 rz offset7 => Sys2Proof.Machine.execLrw16 rz offset7 s
  | .lrw32 rz offset16 => Sys2Proof.Machine.execLrw32 rz offset16 s
  | .br16 offset10 => Sys2Proof.Machine.execBr16 offset10 s
  | .br32 offset16 => Sys2Proof.Machine.execBr32 offset16 s
  | .bt16 offset10 => Sys2Proof.Machine.execBt16 offset10 s
  | .bf16 offset10 => Sys2Proof.Machine.execBf16 offset10 s
  | .bsr32 offset26 => Sys2Proof.Machine.execBsr32 offset26 s
  | .jmp16 rx => Sys2Proof.Machine.execJmp16 rx s
  | .jsr16 rx => Sys2Proof.Machine.execJsr16 rx s
  | .ld16b rz rx offset5 => Sys2Proof.Machine.execLd16b rz rx offset5 s
  | .ld32b rz rx offset12 => Sys2Proof.Machine.execLd32b rz rx offset12 s
  | .ld16h rz rx offset5 => Sys2Proof.Machine.execLd16h rz rx offset5 s
  | .ld32h rz rx offset12 => Sys2Proof.Machine.execLd32h rz rx offset12 s
  | .ld16w rz rx offset5 => Sys2Proof.Machine.execLd16w rz rx offset5 s
  | .ld16wsp rz offset8 => Sys2Proof.Machine.execLd16wsp rz offset8 s
  | .ld32w rz rx offset12 => Sys2Proof.Machine.execLd32w rz rx offset12 s
  | .st16b rz rx offset5 => Sys2Proof.Machine.execSt16b rz rx offset5 s
  | .st32b rz rx offset12 => Sys2Proof.Machine.execSt32b rz rx offset12 s
  | .st16h rz rx offset5 => Sys2Proof.Machine.execSt16h rz rx offset5 s
  | .st32h rz rx offset12 => Sys2Proof.Machine.execSt32h rz rx offset12 s
  | .st16w rz rx offset5 => Sys2Proof.Machine.execSt16w rz rx offset5 s
  | .st16wsp rz offset8 => Sys2Proof.Machine.execSt16wsp rz offset8 s
  | .st32w rz rx offset12 => Sys2Proof.Machine.execSt32w rz rx offset12 s
  | .push16 r15 list1 => Sys2Proof.Machine.execPush16 r15 list1 s
  | .pop16 r15 list1 => Sys2Proof.Machine.execPop16 r15 list1 s
  | .ipush16 => Sys2Proof.Machine.execIpush16 s
  | .ipop16 => Sys2Proof.Machine.execIpop16 s
  | .nie16 => Sys2Proof.Machine.execNie16 s
  | .nir16 => Sys2Proof.Machine.execNir16 s
  | .mfcr32 rz crx sel => Sys2Proof.Machine.execMfcr32 rz crx sel s
  | .mtcr32 rx crz sel => Sys2Proof.Machine.execMtcr32 rx crz sel s
  | .psrset32 imm5 => Sys2Proof.Machine.execPsrset32 imm5 s
  | .psrclr32 imm5 => Sys2Proof.Machine.execPsrclr32 imm5 s
  | .rte32 => Sys2Proof.Machine.execRte32 s
  | .trap32 n => Sys2Proof.Machine.execTrap32 n s
  | .bkpt16 => Sys2Proof.Machine.execBkpt16 s
  | .sync32 sBit iBit => Sys2Proof.Machine.execSync32 sBit iBit s
  | .wait32 => Sys2Proof.Machine.execWait32 s
  | .doze32 => Sys2Proof.Machine.execDoze32 s
  | .stop32 => Sys2Proof.Machine.execStop32 s
  | .idly32 imm5 => Sys2Proof.Machine.execIdly32 imm5 s

end Sys2Proof.Machine
end

