-- ==== Sys2Proof/Machine/Cycle.lean ====
section
/-! DEFINITION. What one step does around an instruction: the outside's input, reset, debug mode, low power, interrupts, the fetch and the
retirement (60_exceptions.md R425 to R432, R490, R522, R540; 46_system.md R385; assumption logs 24 to 28, 35, 36, 39, 45). -/

namespace Sys2Proof.Machine

/-! ### The outside -/

/-- What happens before this step: the next listed input, or, when none is listed, nothing but the passing of time. -/
def currentInput (s : State) : Input :=
  match s.inputs with
  | i :: _ => i
  | [] => { pins := s.pins, coreTicks := s.cfg.quietCoreTicks, refTicks := s.cfg.quietRefTicks, busWrites := [], between := [], hadWrite := none,
            debugRequest := false, debugGo := false, debugInstr := none }

/-- R482, R477: the lines the VIC samples: the pins, and CoreTim's request on its source. -/
def vicLines (s : State) : Word :=
  s.pins.irq ||| (if s.cfg.hasCoreTim && timerRequest s.timer then sourceBit s.cfg.coretIrq.val else 0)

/-- R473: CoreTim counts, except in debug mode. -/
def tickTimer (i : Input) (s : State) : State :=
  if s.cfg.hasCoreTim && !s.debugMode then { s with timer := timerAdvance s.cfg i.coreTicks i.refTicks s.timer } else s

/-- R490: the VIC samples its lines. -/
def sampleVic (s : State) : State := { s with vic := vicSample (vicMask s.cfg) s.cfg.pulseMask (vicLines s) s.vic }

/-- The pins, the other bus masters' writes and the debugger's register writes. -/
def takeInput (i : Input) (s : State) : State :=
  { s with
    inputs := s.inputs.tail
    pins := i.pins
    between := i.between
    mem := writeBytes i.busWrites s.mem
    had := if s.cfg.hasDebug then i.hadWrite.getD s.had else s.had }

/-- All that happens before the core acts: the input lands, time passes, the interrupt lines are sampled. -/
def absorb (s : State) : State :=
  let i := currentInput s
  sampleVic (tickTimer i (takeInput i s))

/-! ### Interrupts (R430 to R433) -/

/-- R430, R433: the interrupt request and its vector: the VIC's, or without it the external controller's. -/
def interruptRequest (s : State) : Option (BitVec 8) :=
  if s.cfg.vicSize = .absent then (if s.pins.extInt then some s.pins.extVec else none)
  else vicRequest s.vic

/-- R432, R359: the multi-cycle instructions that an interrupt may break into when PSR.IC = 1. -/
def isInterruptible : Instr → Bool
  | .push16 _ _ => true
  | .pop16 _ _ => true
  | .ipush16 => true
  | .ipop16 => true
  | _ => false

/-- Whether the instruction at the PC is one of them. -/
def atInterruptible (s : State) : Bool :=
  match fetchInstr s with
  | .ok (.ok i) _ => isInterruptible i
  | _ => false

/-- R430, R385, R359: whether an interrupt is recognised at this boundary. Right after NIE16 it is only while IC = 1 and the next instruction is one
that can be interrupted. -/
def interruptsOpen (s : State) : Bool :=
  s.psr.ie && s.psr.ee && decide (s.idlyCount = 0) && (!s.nieShadow || (s.psr.ic && atInterruptible s))

/-- The vector of the interrupt that is taken at this boundary. -/
def pendingInterrupt (s : State) : Option (BitVec 8) := if interruptsOpen s then interruptRequest s else none

/-- R430, R491: the controller is told, and the interrupt is entered with EPC = the next instruction's address. A vector below 32 is refused (U10). -/
def takeInterrupt (vec : BitVec 8) (s : State) : Result :=
  if vec.toNat < 32 then .refused .badInterruptVector
  else takeException vec s.pc
    { s with vic := if s.cfg.vicSize = .absent then s.vic else vicAcknowledge vec s.vic, nieShadow := false }

/-- R486, R433, R540: the wake-up request. -/
def wakeRequest (s : State) : Bool := if s.cfg.vicSize = .absent then s.pins.intRaw else vicWake s.vic

/-! ### Instructions -/

/-- R385: an instruction that retires inside an IDLY32 sequence counts; `before` is the count it started with. Entering debug mode is no
retirement, nor is waiting for ever on the bus. -/
def countIdly (before : Nat) (t : State) : State :=
  if 0 < before && !t.debugMode && !t.hung then { t with idlyCount := t.idlyCount - 1 } else t

/-- The retirement of an instruction. -/
def retire (before : Nat) (r : Result) : Result :=
  match r with
  | .next t => .next (countIdly before t)
  | .fault f => .fault f
  | .refused q => .refused q

/-- R191: fetch, decode, execute, with a gap between bus transfers after the fetch (R150). A word that is no instruction is IllegalInstruction, a failing fetch AccessError, both with EPC = the PC.
The hold-off after NIE16 ends here whatever the instruction does; that a BKPT16 that enters debug mode ends it too is the model's choice (assumption log 26,
DESIGN CHOICE). -/
def runInstruction (s0 : State) : Result :=
  let s := { s0 with nieShadow := false }
  match fetchInstr s with
  | .ok (.ok i) s' => retire s'.idlyCount (exec i (interleave s'))
  | .ok (.error _) s' => takeException vecIllegal s.pc s'
  | .raise vec s' => takeException vec s.pc s'
  | .hang s' => hangs s'
  | .refuse r => .refused r

/-! ### Debug mode (R522) -/

/-- A core in debug mode executes only what the debugger feeds it, and leaves on the exit command. A fed instruction stays in debug mode, leaves the PC when
it ends in sequence and the IDLY32 count always (`nextPc`, `nextIdly`), and neither is held off by nor ends the hold-off after NIE16. A fed word that is
no instruction enters IllegalInstruction with EPC = the PC, since the spec says nothing of it (assumption log 36, DESIGN CHOICE). R522 and R561 (g) ask the
debugger to hold PC, PSR and CSR at their entry values when it gives the exit command, and do not say what an exit with other values does: the core goes on
with the values it then holds (assumption log 57, DESIGN CHOICE). -/
def debugCycle (i : Input) (s : State) : Result :=
  if i.debugGo then .next { s with debugMode := false }
  else
    match i.debugInstr with
    | none => .next s
    | some (h0, h1) =>
      match decodeHalves h0 h1 with
      | .ok j => exec j s
      | .error _ => takeException vecIllegal s.pc s

/-! ### The step -/

/-- A core that is neither in reset nor stuck, nor in debug mode, nor asleep takes an interrupt or runs an instruction (R430). -/
def coreCycle (s : State) : Result :=
  match pendingInterrupt s with
  | some vec => takeInterrupt vec s
  | none => runInstruction s

/-- R540: a sleeping core wakes on a wake-up request, and otherwise time passes. -/
def sleepCycle (s : State) : Result := if wakeRequest s then .next { s with lowPower := .none } else .next s

/-- One step, on the state that the input has already reached. Reset comes first (R415), then a pending reset release, the stuck state (R413) and a bus that
never answers (R131), debug (R426), low power, and the core itself. The reset input is read here only: an asynchronous reset in the middle of an instruction,
between its word transfers too, is taken as before or after it (assumption log 55, DESIGN CHOICE). -/
def cycleWith (i : Input) (s : State) : Result :=
  if i.pins.reset then .next (hardReset s)
  else if s.inReset then releaseReset s
  else if s.lockup || s.hung then .next s
  else if s.debugMode then debugCycle i s
  else if i.debugRequest && s.cfg.hasDebug then .next { s with debugMode := true, lowPower := .none }
  else if s.lowPower ≠ .none then sleepCycle s
  else coreCycle s

/-- One step. -/
def cycle (s : State) : Result := cycleWith (currentInput s) (absorb s)

/-! ### The mode as the outside sees it (R522, R540, R541) -/

/-- had_pad_jdb_pm[1:0]: 10 in debug mode, 01 in a low-power mode, 00 otherwise (R522, R540, R541). -/
def padJdbPm (s : State) : BitVec 2 := if s.debugMode then 2#2 else if s.lowPower = .none then 0#2 else 1#2

/-- sysio_pad_dbg_b: low in debug mode (R522). -/
def padDbgB (s : State) : Bool := !s.debugMode

/-- The mode's place in the table of codes. -/
def lpmdIndex : LowPower → Fin 4
  | .none => 0
  | .wait => 1
  | .doze => 2
  | .stop => 3

/-- sysio_pad_lpmd_b[1:0]: its codes are free values (R386, R540, N24; assumption log 35). -/
def padLpmdB (s : State) : BitVec 2 := Config.lpmdCode (lpmdIndex s.lowPower)

end Sys2Proof.Machine
end

