-- ==== Sys2Proof/Machine/Step.lean ====
section
/-! DEFINITION. The step, and the placing of one instruction where the step fetches. -/

namespace Sys2Proof.Machine

/-- One step of the machine. -/
def step (s : State) : Host.Outcome State Fault Refusal := cycle s

/-- The instruction of a table word stored at the PC, in the machine's byte order, with reset released so that the very next step fetches it
(assumption log 7). -/
def State.withFetchWord (s : State) (nbits w : Nat) : State :=
  { s with inReset := false, mem := s.mem.writeList s.pc (tableBytes s.cfg.bigEndian nbits w) }

end Sys2Proof.Machine
end

