-- ==== Sys2Proof/Safety.lean ====
section
/-! DEFINITION. The words that statements use: what memory an access reaches, what stays the same, and the invariant of the machine. -/

namespace Sys2Proof.Machine

/-! ### Memory -/

/-- The byte of memory at an address. -/
def byteAt (s : State) (a : Word) : Byte := s.mem.read a.toNat

/-- Whether an address is one of the `z` bytes from `a` up, modulo 2^32. -/
def covers (z : Size) (a x : Word) : Prop := (x - a).toNat < sizeBytes z

/-- Whether an address is one of the `n` words from `a` up. -/
def coversWords (n : Nat) (a x : Word) : Prop := (x - a).toNat < 4 * n

/-- An address that is memory on the system bus: not the tightly coupled IP's, and answered by a memory (R112, R131). -/
def isMemory (s : State) (a : Word) : Prop := inTcip s a = false ∧ slaveAt s.cfg a = .memory

/-- A data read of the current mode at an address gets the memory's content: the MPU allows it (R124) and it is memory. -/
def readable (s : State) (a : Word) : Prop := mpuAllows .read s.psr.s a s = true ∧ isMemory s a

/-- A data write of `z` bytes of the current mode at an address reaches memory: the MPU allows it, it is memory, and it is not in the next six bytes
of the instruction stream (R148), of which an instruction that the debugger feeds has none. -/
def writable (s : State) (z : Size) (a : Word) : Prop :=
  mpuAllows .write s.psr.s a s = true ∧ isMemory s a ∧ (s.debugMode = true ∨ inPrefetchWindow s.pc a z = false)

/-- A data read of the current mode at an address raises AccessError: the MPU denies it, user mode reaches the tightly coupled IP (R113), or the bus answers
ERROR (R132). -/
def readFails (s : State) (a : Word) : Prop :=
  mpuAllows .read s.psr.s a s = false ∨ (s.psr.s = false ∧ inTcip s a = true) ∨ (inTcip s a = false ∧ slaveAt s.cfg a = .busError)

/-- A data write of `z` bytes raises AccessError. -/
def writeFails (s : State) (z : Size) (a : Word) : Prop :=
  mpuAllows .write s.psr.s a s = false ∨ (s.psr.s = false ∧ inTcip s a = true) ∨
  (inTcip s a = false ∧ (s.debugMode = true ∨ inPrefetchWindow s.pc a z = false) ∧ slaveAt s.cfg a = .busError)

/-- Some byte of a store of `z` bytes at `a` is one of the bytes PC + 2 to PC + 7 (R148). -/
def inStream (s : State) (z : Size) (a : Word) : Prop := ∃ k, k < sizeBytes z ∧ (a + BitVec.ofNat 32 k - (s.pc + 2#32)).toNat < 6

/-- A store of the program that the MPU allows goes to the bus into the bytes PC + 2 to PC + 7, which the spec refuses (R148, U18). -/
def streamStore (s : State) (z : Size) (a : Word) : Prop :=
  s.debugMode = false ∧ mpuAllows .write s.psr.s a s = true ∧ inTcip s a = false ∧ inStream s z a

/-- The datum at an address. -/
def datum (s : State) (z : Size) (a : Word) : Word := memLoad s.cfg.bigEndian z a s.mem

/-- A half-word of instruction can be fetched from memory at an address (R106). -/
def fetchable (s : State) (a : Word) : Prop := mpuAllows .fetch s.psr.s a s = true ∧ isMemory s a

/-- A fetch from an address raises AccessError: the MPU denies it or the bus answers ERROR (R106, R132). -/
def fetchFails (s : State) (a : Word) : Prop :=
  mpuAllows .fetch s.psr.s a s = false ∨ (inTcip s a = false ∧ slaveAt s.cfg a = .busError)

/-- A fetch that the MPU allows goes to the tightly coupled IP range (R114). -/
def tcipFetched (s : State) (a : Word) : Prop := mpuAllows .fetch s.psr.s a s = true ∧ inTcip s a = true

/-- The low `z` bytes of a value, zero-extended. -/
def lowData (z : Size) (v : Word) : Word := BitVec.ofNat 32 (v.toNat % 2 ^ (8 * sizeBytes z))

/-- An address that a platform device answers on the system bus (R110, R131). -/
def isDevice (s : State) (a : Word) : Prop := inTcip s a = false ∧ slaveAt s.cfg a = .device

/-- What a platform device answers to a data transfer of the current mode: `none` is ERROR, `some d` is OKAY with data `d` (R131; it is a free value,
assumption log 15). -/
def deviceReply (s : State) (z : Size) (a : Word) (write : Bool) (v : Word) : Option Word :=
  Config.deviceAnswer s.freeCount
    { addr := a, bytes := sizeBytes z, write := write, data := v, fetch := false, supervisor := s.psr.s, ddma := none }

/-- A device's answer has been used: the next one is another free value. -/
def answered (s : State) : State := { s with freeCount := s.freeCount + 1 }

/-- The half-word of memory at an address. -/
def halfAt (s : State) (a : Word) : Half := halfOfBytes s.cfg.bigEndian (byteAt s a) (byteAt s (a + 1#32))

/-- What other bus masters write in the first `k` gaps between bus transfers has landed (R150). -/
def landed : Nat → State → State
  | 0, s => s
  | k + 1, s => landed k (interleave s)

/-- No byte that other bus masters write in the first `k` gaps is one of the `n` words from `a` up. -/
def gapsMiss (s : State) (k n : Nat) (a : Word) : Prop :=
  ∀ ws ∈ s.between.take k, ∀ p ∈ ws, ¬coversWords n a p.1

/-- No byte that other bus masters write in the first `k` gaps is the one at `x`. -/
def gapsSpare (s : State) (k : Nat) (x : Word) : Prop := ∀ ws ∈ s.between.take k, ∀ p ∈ ws, p.1 ≠ x

/-- The second half-word of the instruction at the PC, which is fetched after one gap; 0 for a 16-bit instruction. -/
def secondHalf (s : State) : Half := if isLong (halfAt s s.pc) then halfAt (landed 1 s) (s.pc + 2#32) else 0#16

/-- The half-words of the instruction at the PC can be fetched (R191). -/
def instrFetchable (s : State) : Prop := fetchable s s.pc ∧ (isLong (halfAt s s.pc) = true → fetchable s (s.pc + 2#32))

/-- The instruction at the PC is `i`: its half-words can be fetched, and they decode to it (R191). -/
def instrAt (s : State) (i : Instr) : Prop := instrFetchable s ∧ decodeHalves (halfAt s s.pc) (secondHalf s) = .ok i

/-- The state in which the instruction at the PC is executed: what other bus masters write during its fetch has landed (R150). -/
def atExec (s : State) : State := if isLong (halfAt s s.pc) then landed 2 s else landed 1 s

/-! ### Exceptions -/

/-- The vector table entry can be read as a supervisor (R410 step 6). -/
def vectorReadable (vec : BitVec 8) (s : State) : Prop :=
  mpuAllows .read true (vectorAddr vec s) s = true ∧ isMemory s (vectorAddr vec s)

/-- The read of the vector table entry fails: the MPU denies it or the bus answers ERROR (R413). -/
def vectorFails (vec : BitVec 8) (s : State) : Prop :=
  mpuAllows .read true (vectorAddr vec s) s = false ∨ (inTcip s (vectorAddr vec s) = false ∧ slaveAt s.cfg (vectorAddr vec s) = .busError)

/-- The word of the vector table entry. -/
def vectorWord (vec : BitVec 8) (s : State) : Word := datum s .word (vectorAddr vec s)

/-! ### What stays the same -/

/-- Everything but the general registers and the PC. -/
def sameButRegs (s t : State) : Prop := t = { s with regs := t.regs, pc := t.pc }

/-- Everything but the C bit and the PC. -/
def sameButC (s t : State) : Prop := t = { s with psr := { s.psr with c := t.psr.c }, pc := t.pc }

/-- Everything but memory and the PC. -/
def sameButMem (s t : State) : Prop := t = { s with mem := t.mem, pc := t.pc }

/-- Everything but the PC. -/
def sameButPc (s t : State) : Prop := t = { s with pc := t.pc }

/-- Every byte of memory. -/
def sameMemory (s t : State) : Prop := ∀ a, byteAt t a = byteAt s a

/-- A register that exists (10_state.md R20). -/
def implemented : Reg → Bool
  | .r9 | .r10 | .r11 | .r12 => false
  | .r0 | .r1 | .r2 | .r3 | .r4 | .r5 | .r6 | .r7 | .r8 | .r13 | .r14 | .r15 => true

/-- After writing `v` to register `r`: that register reads `v` when it exists, and every other register what it read before; the other mode's
stack pointer keeps its value. -/
def regWritten (r : Reg) (v : Word) (s t : State) : Prop :=
  (∀ q : Reg, readReg q t = if q = r ∧ implemented r = true then v else readReg q s) ∧
  (s.psr.s = true → t.regs.usp = s.regs.usp) ∧ (s.psr.s = false → t.regs.ssp = s.regs.ssp)

/-- The PC after an instruction of `len` bytes that ends in sequence; one that the debugger feeds leaves it (R522). -/
def pcAfter (s : State) (len : Word) : Word := if s.debugMode = true then s.pc else s.pc + len

/-- The IDLY32 count after an instruction that sets it to `n`; it does not move while the debugger feeds instructions (R385). -/
def idlyAfter (s : State) (n : Nat) : Nat := if s.debugMode = true then s.idlyCount else n

/-! ### What an instruction does, in the shapes that statements share -/

/-- The instruction completes, `len` bytes on: register `r` holds `v` and nothing else but the PC changes. -/
def writesReg (i : Instr) (len : Word) (r : Reg) (v : Word) (s : State) : Prop :=
  ∃ t, exec i s = .next t ∧ t.pc = pcAfter s len ∧ regWritten r v s t ∧ sameButRegs s t ∧ sameMemory s t

/-- The instruction completes like that, and the bits of what it writes are `f 31` to `f 0`. -/
def writesBits (i : Instr) (len : Word) (r : Reg) (f : Nat → Bool) (s : State) : Prop :=
  ∃ v : Word, (∀ k, k < 32 → v.getLsbD k = f k) ∧ writesReg i len r v s

/-- The 16-bit instruction completes: C is 1 exactly when `p` holds, and nothing else but the PC changes. -/
def setsC (i : Instr) (p : Prop) (s : State) : Prop :=
  ∃ t, exec i s = .next t ∧ t.pc = pcAfter s 2#32 ∧ (t.psr.c = true ↔ p) ∧ sameButC s t ∧ sameMemory s t

/-- The instruction completes and only the PC changes, to `a`. -/
def goesTo (i : Instr) (a : Word) (s : State) : Prop :=
  ∃ t, exec i s = .next t ∧ t.pc = a ∧ sameButPc s t ∧ sameMemory s t

/-- A load of `z` bytes at base plus displacement: whatever address the access goes to (R104), when memory can be read there the register holds the datum. -/
def loadsFrom (i : Instr) (len : Word) (z : Size) (rz base : Reg) (disp : Nat) (s : State) : Prop :=
  ∀ a, accessAddr z (readReg base s + BitVec.ofNat 32 disp) s = some a → readable s a → writesReg i len rz (datum s z a) s

/-- Byte `k` of the low `z` bytes of a value in the configured byte order (R101). -/
def orderedByte (bigEndian : Bool) (z : Size) (v : Word) (k : Nat) : Byte :=
  v.extractLsb' (8 * (if bigEndian then sizeBytes z - 1 - k else k)) 8

/-- A store of the low `z` bytes of a register at base plus displacement: whatever address the access goes to (R104), when memory can be written there it
holds the bytes, every other byte is as before, and nothing else but the PC changes. -/
def storesTo (i : Instr) (len : Word) (z : Size) (rz base : Reg) (disp : Nat) (s : State) : Prop :=
  ∀ a, accessAddr z (readReg base s + BitVec.ofNat 32 disp) s = some a → writable s z a →
    ∃ t, exec i s = .next t ∧ t.pc = pcAfter s len ∧ sameButMem s t ∧
      (∀ x, ¬covers z a x → byteAt t x = byteAt s x) ∧
      (∀ k, k < sizeBytes z → byteAt t (a + BitVec.ofNat 32 k) = orderedByte s.cfg.bigEndian z (readReg rz s) k)

/-- A read by a load from a platform device at an address: with OKAY the register holds the answer's low bytes and nothing else changes but the PC and the
number of the next free value, with ERROR the load raises AccessError (R131, R132). -/
def readsDevice (i : Instr) (len : Word) (z : Size) (rz : Reg) (a : Word) (s : State) : Prop :=
  match deviceReply s z a false 0#32 with
  | some d => ∃ t, exec i s = .next t ∧ regWritten rz (lowData z d) s t ∧ t = { answered s with regs := t.regs, pc := pcAfter s len }
  | none => exec i s = takeException 2#8 s.pc (answered s)

/-- A load of `z` bytes at base plus displacement from a platform device that the MPU lets it read. -/
def loadsFromDevice (i : Instr) (len : Word) (z : Size) (rz base : Reg) (disp : Nat) (s : State) : Prop :=
  ∀ a, accessAddr z (readReg base s + BitVec.ofNat 32 disp) s = some a → mpuAllows .read s.psr.s a s = true → isDevice s a → readsDevice i len z rz a s

/-- A store of the low `z` bytes of a register at base plus displacement to a platform device that the MPU lets it write: with OKAY no memory and nothing else
changes but the PC and the number of the next free value, with ERROR the store raises AccessError. -/
def storesToDevice (i : Instr) (len : Word) (z : Size) (rz base : Reg) (disp : Nat) (s : State) : Prop :=
  ∀ a, accessAddr z (readReg base s + BitVec.ofNat 32 disp) s = some a → mpuAllows .write s.psr.s a s = true → isDevice s a →
    (s.debugMode = true ∨ inPrefetchWindow s.pc a z = false) →
    match deviceReply s z a true (lowData z (readReg rz s)) with
    | some _ => exec i s = .next { answered s with pc := pcAfter s len }
    | none => exec i s = takeException 2#8 s.pc (answered s)

/-- An access by an instruction that a platform device answers: ERROR is AccessError with EPC = the instruction's address, with OKAY the instruction
completes; either way the next answer is another free value. -/
def faultsOnError (i : Instr) (reply : Option Word) (s : State) : Prop :=
  match reply with
  | some _ => ∃ t, exec i s = .next t ∧ t.freeCount = s.freeCount + 1 ∧ t.mem = s.mem
  | none => exec i s = takeException 2#8 s.pc (answered s)

/-- A load and a store at base plus displacement to a platform device that the MPU lets them reach. -/
def devicePair (ld st : Instr) (z : Size) (rz base : Reg) (disp : Nat) (s : State) : Prop :=
  ∀ a, accessAddr z (readReg base s + BitVec.ofNat 32 disp) s = some a → isDevice s a →
    (mpuAllows .read s.psr.s a s = true → faultsOnError ld (deviceReply s z a false 0#32) s) ∧
    (mpuAllows .write s.psr.s a s = true → (s.debugMode = true ∨ inPrefetchWindow s.pc a z = false) →
      faultsOnError st (deviceReply s z a true (lowData z (readReg rz s))) s)

/-- A store of `z` bytes at base plus displacement into the bytes PC + 2 to PC + 7 is refused, as the spec asks (R148, U18). -/
def refusedInStream (i : Instr) (z : Size) (base : Reg) (disp : Nat) (s : State) : Prop :=
  ∀ a, accessAddr z (readReg base s + BitVec.ofNat 32 disp) s = some a → streamStore s z a → exec i s = .refused .prefetchWindowStore

/-- A load and a store at base plus displacement, where the MPU or the user-mode rule of the tightly coupled IP denies the access or the bus answers ERROR
(R113, R124, R132): both raise AccessError with EPC = their own address, with nothing loaded and nothing stored. -/
def deniedPair (ld st : Instr) (z : Size) (base : Reg) (disp : Nat) (s : State) : Prop :=
  ∀ a, accessAddr z (readReg base s + BitVec.ofNat 32 disp) s = some a →
    (readFails s a → exec ld s = takeException 2#8 s.pc s) ∧ (writeFails s z a → exec st s = takeException 2#8 s.pc s)

/-- A word load and a word store at base plus displacement that reach the tightly coupled IP in supervisor mode are the register's own read and write (R113, R114). -/
def tcipPair (ld st : Instr) (len : Word) (rz base : Reg) (disp : Nat) (s : State) : Prop :=
  ∀ a, accessAddr .word (readReg base s + BitVec.ofNat 32 disp) s = some a → s.psr.s = true → inTcip s a = true →
    (∀ v t, mpuAllows .read true a s = true → tcipRead a s = .ok v t →
      exec ld s = .next { writeReg rz v t with pc := pcAfter t len }) ∧
    (∀ t, mpuAllows .write true a s = true → tcipWrite a (readReg rz s) s = .ok () t → exec st s = .next { t with pc := pcAfter t len })

/-- A load and a store at base plus displacement to a slave that never answers: the core waits for ever, with nothing loaded and nothing stored (R131). -/
def silentPair (ld st : Instr) (z : Size) (base : Reg) (disp : Nat) (s : State) : Prop :=
  ∀ a, accessAddr z (readReg base s + BitVec.ofNat 32 disp) s = some a → inTcip s a = false → slaveAt s.cfg a = .silent →
    (mpuAllows .read s.psr.s a s = true → exec ld s = .next { s with hung := true }) ∧
    (mpuAllows .write s.psr.s a s = true → (s.debugMode = true ∨ inPrefetchWindow s.pc a z = false) → exec st s = .next { s with hung := true })

/-- A byte or half-word load and store of a supervisor in the tightly coupled IP range are refused by the spec (R113, U4). -/
def subwordPair (ld st : Instr) (z : Size) (base : Reg) (disp : Nat) (s : State) : Prop :=
  ∀ a, accessAddr z (readReg base s + BitVec.ofNat 32 disp) s = some a → s.psr.s = true → inTcip s a = true →
    (mpuAllows .read true a s = true → exec ld s = .refused .tcipSubword) ∧
    (mpuAllows .write true a s = true → exec st s = .refused .tcipSubword)

/-- Every word of a list can be written from an address up. -/
def wordsWritable (s : State) (n : Nat) (a : Word) : Prop := ∀ k, k < n → writable s .word (a + BitVec.ofNat 32 (4 * k))

/-- Every one of `n` words from an address up can be read. -/
def wordsReadable (s : State) (n : Nat) (a : Word) : Prop := ∀ k, k < n → readable s (a + BitVec.ofNat 32 (4 * k))

/-- Word `k` from an address up. -/
def wordAt (s : State) (a : Word) (k : Nat) : Word := datum s .word (a + BitVec.ofNat 32 (4 * k))

/-- After a multi-word store with so many gaps the words stand in memory from the address up unless another bus master writes to them in a gap, and every
byte outside them is what the gaps leave: as before, unless another bus master writes it (R150, R358). -/
def wordsStored (gaps : Nat) (s t : State) (vs : List Word) (a : Word) : Prop :=
  (gapsMiss s gaps vs.length a → ∀ k, k < vs.length → wordAt t a k = vs.getD k 0#32) ∧
  (∀ x, ¬coversWords vs.length a x → byteAt t x = byteAt (landed gaps s) x ∧ (gapsSpare s gaps x → byteAt t x = byteAt s x))

/-- A pop of `n` words whose word `j` cannot be read: AccessError with EPC = the instruction, from a state in which no register has changed (R358). -/
def popFails (i : Instr) (n j : Nat) (s : State) : Prop :=
  j < n → wordsReadable s j (readReg .r14 s) → readFails s (readReg .r14 s + BitVec.ofNat 32 (4 * j)) →
    exec i s = takeException 2#8 s.pc (landed j s)

/-- A push of words whose word `j` cannot be written: AccessError with EPC = the instruction, from a state in which no register has changed and exactly the
words before it are stored (R358). -/
def pushFails (i : Instr) (vs : List Word) (j : Nat) (s : State) : Prop :=
  let base := readReg .r14 s - BitVec.ofNat 32 (4 * vs.length)
  j < vs.length → wordsWritable s j base → writeFails s .word (base + BitVec.ofNat 32 (4 * j)) →
    ∃ t, exec i s = takeException 2#8 s.pc t ∧ t = { s with mem := t.mem, between := s.between.drop j } ∧ wordsStored j s t (vs.take j) base

/-- A push of words whose word `j` goes into the bytes PC + 2 to PC + 7 is refused, as the spec asks (R148, U18). -/
def pushInStream (i : Instr) (vs : List Word) (j : Nat) (s : State) : Prop :=
  let base := readReg .r14 s - BitVec.ofNat 32 (4 * vs.length)
  j < vs.length → wordsWritable s j base → streamStore s .word (base + BitVec.ofNat 32 (4 * j)) → exec i s = .refused .prefetchWindowStore

/-- The fields of PSR and of EPSR that a word written there gives, bit by bit; its other bits are ignored (R42, R48). -/
def fieldsOf (w : Word) (p : Psr) : Prop :=
  p.s = w.getLsbD 31 ∧ p.vec = w.extractLsb' 16 8 ∧ p.mm = w.getLsbD 9 ∧ p.ee = w.getLsbD 8 ∧ p.ic = w.getLsbD 7 ∧ p.ie = w.getLsbD 6 ∧ p.c = w.getLsbD 0

/-- The C bit that an exception saves and keeps: a broken IDLY32 sequence sets it (R410, R385). -/
def entryC (s : State) : Bool := s.psr.c || (decide (0 < s.idlyCount) && !s.debugMode)

/-- The state after an exception is entered with vector `v` and return address `ret` (R410): everything else is as before, save what other bus masters
write before the read of the vector (R150). -/
def entered (v : BitVec 8) (ret : Word) (s t : State) : Prop :=
  let c := entryC s
  t = { landed 1 s with
    idlyCount := idlyAfter s 0
    epsr := { s.psr with c := c }
    epc := ret
    psr := { s.psr with s := true, vec := v, ee := false, ie := false, c := c }
    pc := vectorWord v (landed 1 s) &&& 0xFFFFFFFE#32 }

/-- After a reset: the registers hold the values that the spec states (R75, R415, R470, R483), and memory and the configuration are as
before (R75, R552); that the debug unit's registers are too is assumption log 54, and what the pulse latches of the VIC hold is assumption log 48. -/
def registersReset (s t : State) : Prop :=
  psrWord t.psr = 0x80000000#32 ∧ t.vbr = 0#22 ∧ t.mpuOn = false ∧ t.prsr = 0#3 ∧ (∀ n : Fin 8, (t.pacr.get n).enable = false) ∧ t.iae = false ∧
  t.idlyCount = 0 ∧ t.lowPower = .none ∧ t.lockup = false ∧ t.hung = false ∧ t.vic = Vic.reset ∧ coretCsr t.cfg t.timer = 0x00000004#32 ∧
  t.cfg = s.cfg ∧ t.mem = s.mem ∧ t.had = s.had

/-- The ten privileged instructions (R388). -/
def isPrivileged : Instr → Bool
  | .mfcr32 _ _ _ => true
  | .mtcr32 _ _ _ => true
  | .psrset32 _ => true
  | .psrclr32 _ => true
  | .rte32 => true
  | .stop32 => true
  | .wait32 => true
  | .doze32 => true
  | .nie16 => true
  | .nir16 => true
  | _ => false

/-- The four instructions of the nesting acceleration (R190). -/
def isNestAccel : Instr → Bool
  | .nie16 => true
  | .nir16 => true
  | .ipush16 => true
  | .ipop16 => true
  | _ => false

/-- A core that runs at its own next step: nothing stops it, nothing interrupts it (the conditions of R430 and R540). -/
def running (s : State) : Prop :=
  (currentInput s).pins.reset = false ∧ (absorb s).inReset = false ∧ (absorb s).lockup = false ∧ (absorb s).hung = false ∧ (absorb s).debugMode = false ∧
  ((currentInput s).debugRequest && (absorb s).cfg.hasDebug) = false ∧ (absorb s).lowPower = .none

/-- The instruction at the PC is one that an interrupt may break into while PSR.IC = 1 (R359). -/
def atMultiCycle (s : State) : Prop :=
  instrAt s .ipush16 ∨ instrAt s .ipop16 ∨ ∃ (r15 : Bool) (l : BitVec 4), instrAt s (.push16 r15 l) ∨ instrAt s (.pop16 r15 l)

/-- The hold-off after NIE16 does not stop an interrupt (R359, R432): there is none, or IC = 1 and such an instruction comes next. -/
def holdOffOpen (s : State) : Prop := s.nieShadow = false ∨ (s.psr.ic = true ∧ atMultiCycle s)

/-- The hold-off after NIE16 stops an interrupt: IC = 0, or another instruction comes next, or one that cannot be fetched. -/
def heldOff (s : State) : Prop :=
  s.nieShadow = true ∧ (s.psr.ic = false ∨ fetchFails s s.pc ∨ (instrFetchable s ∧ ¬atMultiCycle s))

/-! ### The invariant of the machine -/

/-- Bits above the sources that exist are 0 (60_exceptions.md R482). -/
def vicInv (c : Config) (v : Vic) : Prop :=
  v.enable &&& ~~~vicMask c = 0#32 ∧ v.wakeup &&& ~~~vicMask c = 0#32 ∧
  v.pending &&& ~~~vicMask c = 0#32 ∧ v.active &&& ~~~vicMask c = 0#32

/-- A region that does not exist holds 0 (D9), and an enabled region has a legal size (R59, R122). -/
def pacrInv (c : Config) (p : Vector Pacr 8) : Prop :=
  ∀ n : Fin 8, (c.mpuRegions.val ≤ n.val → p.get n = Pacr.reset) ∧ ((p.get n).enable = true → 6 ≤ (p.get n).size.toNat)

/-- What holds of every state the machine reaches: memory in canonical form, the PC even (R32), the reserved bits of CAPR and of the VIC's registers
0 (R8, R482), legal MPU regions (R59), the MPU off where there is none (R121), CLKSOURCE 1 without a reference clock (R472), and an IDLY32 count
of at most 32 (R70). -/
structure Inv (s : State) : Prop where
  mem_wf : s.mem.wf = true
  pc_even : s.pc.getLsbD 0 = false
  capr_mask : s.capr &&& ~~~caprMask s.cfg.mpuRegions.val = 0#32
  pacr_ok : pacrInv s.cfg s.pacr
  mpu_absent : s.cfg.mpuRegions.val = 0 → s.mpuOn = false
  vic_mask : vicInv s.cfg s.vic
  clksource : s.cfg.hasRefClk = false → s.timer.clksource = true
  idly_bound : s.idlyCount ≤ 32

end Sys2Proof.Machine
end

