-- ==== Sys2Proof/Certificates/Slice0/Obligations.lean ====
section
/-! DEFINITION. The statements. An instruction of the program and one that the debugger feeds to a core in debug mode are stated together: `pcAfter` and
`idlyAfter` say where the PC and the IDLY32 count of the two differ (R385, R522; that a fed instruction leaves the PC is the model's choice, assumption log
36). `landed`, `wordsStored` and `s.between` say what other bus masters write between the transfers of one instruction (R150; where the gaps are is assumption
log 49). -/

open Sys2Proof Sys2Proof.Machine

/-! ### General registers and the arithmetic, logic and move families -/

/-- R21: what every register number reads, and what a write of it changes: R9 to R12 read 0 and discard writes, R14 is the stack pointer of the current mode. -/
def Obligations.RegisterFileFollowsR21 : Prop :=
  ∀ (s : State) (v : Word),
    (readReg .r0 s = s.regs.r0 ∧ readReg .r1 s = s.regs.r1 ∧ readReg .r2 s = s.regs.r2 ∧ readReg .r3 s = s.regs.r3 ∧
     readReg .r4 s = s.regs.r4 ∧ readReg .r5 s = s.regs.r5 ∧ readReg .r6 s = s.regs.r6 ∧ readReg .r7 s = s.regs.r7 ∧
     readReg .r8 s = s.regs.r8 ∧ readReg .r13 s = s.regs.r13 ∧ readReg .r15 s = s.regs.r15) ∧
    (∀ r : Reg, r = .r9 ∨ r = .r10 ∨ r = .r11 ∨ r = .r12 → readReg r s = 0#32 ∧ writeReg r v s = s) ∧
    readReg .r14 s = (if s.psr.s = true then s.regs.ssp else s.regs.usp) ∧
    (∀ r : Reg, regWritten r v s (writeReg r v s) ∧ writeReg r v s = { s with regs := (writeReg r v s).regs })

/-- R200, R201, R207, R208, R215: sums, differences and products of registers modulo 2^32; nothing else changes, C included. -/
def Obligations.AddSubtractMultiplyResults : Prop :=
  ∀ (rz rx ry : Reg) (s : State),
    writesReg (.addu16 rz rx) 2#32 rz (BitVec.ofNat 32 ((readReg rz s).toNat + (readReg rx s).toNat)) s ∧
    writesReg (.addu16r3 rz rx ry) 2#32 rz (BitVec.ofNat 32 ((readReg rx s).toNat + (readReg ry s).toNat)) s ∧
    writesReg (.subu16 rz rx) 2#32 rz (BitVec.ofInt 32 ((readReg rz s).toNat - (readReg rx s).toNat)) s ∧
    writesReg (.subu16r3 rz rx ry) 2#32 rz (BitVec.ofInt 32 ((readReg rx s).toNat - (readReg ry s).toNat)) s ∧
    writesReg (.mult16 rz rx) 2#32 rz (BitVec.ofNat 32 ((readReg rx s).toNat * (readReg rz s).toNat)) s

/-- R203 to R206, R210 to R212, R155: immediates biased by 1 and immediates scaled by 4, added and subtracted modulo 2^32. -/
def Obligations.ImmediateAddSubtractResults : Prop :=
  ∀ (rz rx : Reg) (imm8 : BitVec 8) (imm7 : BitVec 7) (imm3 : BitVec 3) (s : State),
    writesReg (.addi16 rz imm8) 2#32 rz (BitVec.ofNat 32 ((readReg rz s).toNat + (imm8.toNat + 1))) s ∧
    writesReg (.addi16r3 rz rx imm3) 2#32 rz (BitVec.ofNat 32 ((readReg rx s).toNat + (imm3.toNat + 1))) s ∧
    writesReg (.addi16rsp rz imm8) 2#32 rz (BitVec.ofNat 32 ((readReg .r14 s).toNat + 4 * imm8.toNat)) s ∧
    writesReg (.addi16sp imm7) 2#32 .r14 (BitVec.ofNat 32 ((readReg .r14 s).toNat + 4 * imm7.toNat)) s ∧
    writesReg (.subi16 rz imm8) 2#32 rz (BitVec.ofInt 32 ((readReg rz s).toNat - (imm8.toNat + 1))) s ∧
    writesReg (.subi16r3 rz rx imm3) 2#32 rz (BitVec.ofInt 32 ((readReg rx s).toNat - (imm3.toNat + 1))) s ∧
    writesReg (.subi16sp imm7) 2#32 .r14 (BitVec.ofInt 32 ((readReg .r14 s).toNat - 4 * imm7.toNat)) s

/-- R202, R209: the result and the carry of ADDC16 make up the exact 33-bit sum, the result and the borrow (C complemented) of SUBC16 the exact
difference; C is written whether or not the destination exists, and only C, the destination and the PC change. -/
def Obligations.CarryChainResults : Prop :=
  ∀ (rz rx : Reg) (s : State),
    (∃ (v : Word) (t : State), exec (.addc16 rz rx) s = .next t ∧ t.pc = pcAfter s 2#32 ∧
      v.toNat + (if t.psr.c = true then 4294967296 else 0) =
        (readReg rz s).toNat + (readReg rx s).toNat + (if s.psr.c = true then 1 else 0) ∧
      regWritten rz v s t ∧ t = { s with regs := t.regs, psr := { s.psr with c := t.psr.c }, pc := t.pc } ∧ sameMemory s t) ∧
    (∃ (v : Word) (t : State), exec (.subc16 rz rx) s = .next t ∧ t.pc = pcAfter s 2#32 ∧
      (v.toNat : Int) - (if t.psr.c = true then 0 else 4294967296) =
        (readReg rz s).toNat - (readReg rx s).toNat - (if s.psr.c = true then 0 else 1) ∧
      regWritten rz v s t ∧ t = { s with regs := t.regs, psr := { s.psr with c := t.psr.c }, pc := t.pc } ∧ sameMemory s t)

/-- R230 to R234: the bitwise operations, bit by bit. -/
def Obligations.BitwiseResults : Prop :=
  ∀ (rz rx : Reg) (s : State),
    let z (k : Nat) := (readReg rz s).getLsbD k
    let x (k : Nat) := (readReg rx s).getLsbD k
    writesBits (.and16 rz rx) 2#32 rz (fun k => z k && x k) s ∧
    writesBits (.andn16 rz rx) 2#32 rz (fun k => z k && !x k) s ∧
    writesBits (.or16 rz rx) 2#32 rz (fun k => z k || x k) s ∧
    writesBits (.xor16 rz rx) 2#32 rz (fun k => z k != x k) s ∧
    writesBits (.nor16 rz rx) 2#32 rz (fun k => !(z k || x k)) s

/-- R240 to R243: shifts and rotate by the low six bits of a register, bit by bit; an amount of 32 to 63 clears, or leaves copies of the sign. -/
def Obligations.RegisterShiftResults : Prop :=
  ∀ (rz rx : Reg) (s : State),
    let z (k : Nat) := (readReg rz s).getLsbD k
    let n := (readReg rx s).toNat % 64
    writesBits (.lsl16 rz rx) 2#32 rz (fun k => decide (n ≤ k) && z (k - n)) s ∧
    writesBits (.lsr16 rz rx) 2#32 rz (fun k => decide (k + n < 32) && z (k + n)) s ∧
    writesBits (.asr16 rz rx) 2#32 rz (fun k => if k + n < 32 then z (k + n) else z 31) s ∧
    writesBits (.rotl16 rz rx) 2#32 rz (fun k => decide (n < 32) && z ((k + (32 - n)) % 32)) s

/-- R245 to R247: shifts by an immediate, bit by bit. -/
def Obligations.ImmediateShiftResults : Prop :=
  ∀ (rz rx : Reg) (imm5 : BitVec 5) (s : State),
    let x (k : Nat) := (readReg rx s).getLsbD k
    let n := imm5.toNat
    writesBits (.lsli16 rz rx imm5) 2#32 rz (fun k => decide (n ≤ k) && x (k - n)) s ∧
    writesBits (.lsri16 rz rx imm5) 2#32 rz (fun k => decide (k + n < 32) && x (k + n)) s ∧
    writesBits (.asri16 rz rx imm5) 2#32 rz (fun k => if k + n < 32 then x (k + n) else x 31) s

/-- R250 to R253: extensions of the low byte and the low half-word, bit by bit. -/
def Obligations.ExtensionResults : Prop :=
  ∀ (rz rx : Reg) (s : State),
    let x (k : Nat) := (readReg rx s).getLsbD k
    writesBits (.zextb16 rz rx) 2#32 rz (fun k => decide (k < 8) && x k) s ∧
    writesBits (.zexth16 rz rx) 2#32 rz (fun k => decide (k < 16) && x k) s ∧
    writesBits (.sextb16 rz rx) 2#32 rz (fun k => if k < 8 then x k else x 7) s ∧
    writesBits (.sexth16 rz rx) 2#32 rz (fun k => if k < 16 then x k else x 15) s

/-- R270 to R277, R287: what each compare and test gives C; no register changes. -/
def Obligations.CompareAndTestFlags : Prop :=
  ∀ (rx ry : Reg) (imm5 : BitVec 5) (s : State),
    let x := readReg rx s
    let y := readReg ry s
    setsC (.cmpne16 rx ry) (x ≠ y) s ∧
    setsC (.cmpnei16 rx imm5) (x.toNat ≠ imm5.toNat) s ∧
    setsC (.cmphs16 rx ry) (y.toNat ≤ x.toNat) s ∧
    setsC (.cmphsi16 rx imm5) (imm5.toNat + 1 ≤ x.toNat) s ∧
    setsC (.cmplt16 rx ry) (x.toInt < y.toInt) s ∧
    setsC (.cmplti16 rx imm5) (x.toInt < imm5.toNat + 1) s ∧
    setsC (.tst16 rx ry) (∃ k, k < 32 ∧ x.getLsbD k = true ∧ y.getLsbD k = true) s ∧
    setsC (.tstnbz16 rx) (∀ j, j < 4 → x.toNat / 256 ^ j % 256 ≠ 0) s ∧
    setsC (.btsti16 rx imm5) (x.getLsbD imm5.toNat = true) s

/-- R280 to R282, R285, R286: moves and single-bit operations. -/
def Obligations.MoveAndBitResults : Prop :=
  ∀ (rz rx : Reg) (imm8 : BitVec 8) (imm5 : BitVec 5) (s : State),
    writesReg (.mov16 rz rx) 2#32 rz (readReg rx s) s ∧
    writesReg (.movi16 rz imm8) 2#32 rz (BitVec.ofNat 32 imm8.toNat) s ∧
    writesReg (.mvcv16 rz) 2#32 rz (if s.psr.c = true then 0#32 else 1#32) s ∧
    writesBits (.bclri16 rz imm5) 2#32 rz (fun k => (readReg rz s).getLsbD k && decide (k ≠ imm5.toNat)) s ∧
    writesBits (.bseti16 rz imm5) 2#32 rz (fun k => (readReg rz s).getLsbD k || decide (k = imm5.toNat)) s

/-! ### Control flow -/

/-- R300 to R303: a branch goes to its own address plus twice its signed offset, modulo 2^32, or to the next instruction; nothing else changes. -/
def Obligations.BranchTargets : Prop :=
  ∀ (o10 : BitVec 10) (o16 : BitVec 16) (s : State),
    let t10 := s.pc + BitVec.ofInt 32 (2 * o10.toInt)
    let t16 := s.pc + BitVec.ofInt 32 (2 * o16.toInt)
    goesTo (.br16 o10) t10 s ∧
    goesTo (.br32 o16) t16 s ∧
    goesTo (.bt16 o10) (if s.psr.c = true then t10 else pcAfter s 2#32) s ∧
    goesTo (.bf16 o10) (if s.psr.c = true then pcAfter s 2#32 else t10) s

/-- R305 to R307: calls put the next instruction's address in R15, and a jump through a register drops bit 0 of the value the register had before. -/
def Obligations.CallsAndJumps : Prop :=
  ∀ (o26 : BitVec 26) (rx : Reg) (s : State),
    (∃ t, exec (.bsr32 o26) s = .next t ∧ t.pc = s.pc + BitVec.ofInt 32 (2 * o26.toInt) ∧
      regWritten .r15 (s.pc + 4#32) s t ∧ sameButRegs s t ∧ sameMemory s t) ∧
    goesTo (.jmp16 rx) (BitVec.ofNat 32 (2 * ((readReg rx s).toNat / 2))) s ∧
    (∃ t, exec (.jsr16 rx) s = .next t ∧ t.pc = BitVec.ofNat 32 (2 * ((readReg rx s).toNat / 2)) ∧
      regWritten .r15 (s.pc + 2#32) s t ∧ sameButRegs s t ∧ sameMemory s t)

/-! ### Memory -/

/-- R325 to R331: every load form reads the datum at base plus scaled unsigned displacement, zero-extended, when memory can be read there; registers 9 to 12
discard it; nothing else changes. From a platform device (R131) it gets the low bytes of the answer, a free value, or AccessError for ERROR (assumption log 15). -/
def Obligations.LoadResults : Prop :=
  ∀ (rz rx : Reg) (o5 : BitVec 5) (o8 : BitVec 8) (o12 : BitVec 12) (s : State),
    loadsFrom (.ld16b rz rx o5) 2#32 .byte rz rx o5.toNat s ∧
    loadsFrom (.ld32b rz rx o12) 4#32 .byte rz rx o12.toNat s ∧
    loadsFrom (.ld16h rz rx o5) 2#32 .half rz rx (2 * o5.toNat) s ∧
    loadsFrom (.ld32h rz rx o12) 4#32 .half rz rx (2 * o12.toNat) s ∧
    loadsFrom (.ld16w rz rx o5) 2#32 .word rz rx (4 * o5.toNat) s ∧
    loadsFrom (.ld16wsp rz o8) 2#32 .word rz .r14 (4 * o8.toNat) s ∧
    loadsFrom (.ld32w rz rx o12) 4#32 .word rz rx (4 * o12.toNat) s ∧
    loadsFromDevice (.ld16b rz rx o5) 2#32 .byte rz rx o5.toNat s ∧
    loadsFromDevice (.ld32b rz rx o12) 4#32 .byte rz rx o12.toNat s ∧
    loadsFromDevice (.ld16h rz rx o5) 2#32 .half rz rx (2 * o5.toNat) s ∧
    loadsFromDevice (.ld32h rz rx o12) 4#32 .half rz rx (2 * o12.toNat) s ∧
    loadsFromDevice (.ld16w rz rx o5) 2#32 .word rz rx (4 * o5.toNat) s ∧
    loadsFromDevice (.ld16wsp rz o8) 2#32 .word rz .r14 (4 * o8.toNat) s ∧
    loadsFromDevice (.ld32w rz rx o12) 4#32 .word rz rx (4 * o12.toNat) s

/-- R335 to R341: every store form writes the low bytes of its register at base plus scaled unsigned displacement, in the configured byte order, when memory
can be written there; every other byte and everything else but the PC is as before. A store of the program into the bytes PC + 2 to PC + 7 is refused (R148, U18;
that these are the bytes for a 32-bit store too is assumption log 18). A platform device (R131) answers OKAY, and no memory changes, or ERROR, and AccessError is raised
(assumption log 15). -/
def Obligations.StoreResults : Prop :=
  ∀ (rz rx : Reg) (o5 : BitVec 5) (o8 : BitVec 8) (o12 : BitVec 12) (s : State),
    storesTo (.st16b rz rx o5) 2#32 .byte rz rx o5.toNat s ∧
    storesTo (.st32b rz rx o12) 4#32 .byte rz rx o12.toNat s ∧
    storesTo (.st16h rz rx o5) 2#32 .half rz rx (2 * o5.toNat) s ∧
    storesTo (.st32h rz rx o12) 4#32 .half rz rx (2 * o12.toNat) s ∧
    storesTo (.st16w rz rx o5) 2#32 .word rz rx (4 * o5.toNat) s ∧
    storesTo (.st16wsp rz o8) 2#32 .word rz .r14 (4 * o8.toNat) s ∧
    storesTo (.st32w rz rx o12) 4#32 .word rz rx (4 * o12.toNat) s ∧
    refusedInStream (.st16b rz rx o5) .byte rx o5.toNat s ∧
    refusedInStream (.st32b rz rx o12) .byte rx o12.toNat s ∧
    refusedInStream (.st16h rz rx o5) .half rx (2 * o5.toNat) s ∧
    refusedInStream (.st32h rz rx o12) .half rx (2 * o12.toNat) s ∧
    refusedInStream (.st16w rz rx o5) .word rx (4 * o5.toNat) s ∧
    refusedInStream (.st16wsp rz o8) .word .r14 (4 * o8.toNat) s ∧
    refusedInStream (.st32w rz rx o12) .word rx (4 * o12.toNat) s ∧
    storesToDevice (.st16b rz rx o5) 2#32 .byte rz rx o5.toNat s ∧
    storesToDevice (.st32b rz rx o12) 4#32 .byte rz rx o12.toNat s ∧
    storesToDevice (.st16h rz rx o5) 2#32 .half rz rx (2 * o5.toNat) s ∧
    storesToDevice (.st32h rz rx o12) 4#32 .half rz rx (2 * o12.toNat) s ∧
    storesToDevice (.st16w rz rx o5) 2#32 .word rz rx (4 * o5.toNat) s ∧
    storesToDevice (.st16wsp rz o8) 2#32 .word rz .r14 (4 * o8.toNat) s ∧
    storesToDevice (.st32w rz rx o12) 4#32 .word rz rx (4 * o12.toNat) s

/-- R290, R291, R105: LRW reads the word at its own address plus four times its unsigned offset, with the two low bits cleared, when memory can be read there; a
platform device's answer, a free value, likewise, or AccessError for ERROR (R131, assumption log 15). -/
def Obligations.LiteralLoadResults : Prop :=
  ∀ (rz : Reg) (o7 : BitVec 7) (o16 : BitVec 16) (s : State),
    let a7 := BitVec.ofNat 32 (4 * ((s.pc + BitVec.ofNat 32 (4 * o7.toNat)).toNat / 4))
    let a16 := BitVec.ofNat 32 (4 * ((s.pc + BitVec.ofNat 32 (4 * o16.toNat)).toNat / 4))
    (readable s a7 → writesReg (.lrw16 rz o7) 2#32 rz (datum s .word a7) s) ∧
    (readable s a16 → writesReg (.lrw32 rz o16) 4#32 rz (datum s .word a16) s) ∧
    (mpuAllows .read s.psr.s a7 s = true → isDevice s a7 → readsDevice (.lrw16 rz o7) 2#32 .word rz a7 s) ∧
    (mpuAllows .read s.psr.s a16 s = true → isDevice s a16 → readsDevice (.lrw32 rz o16) 4#32 .word rz a16 s)

/-- R100, R101: the datum at an address is made of its bytes in the configured byte order and zero above them, and a store puts the bytes of its value there in
that order and touches no other byte. -/
def Obligations.ByteOrderOfData : Prop :=
  ∀ (be : Bool) (z : Size) (a v : Word) (m : Memory),
    (∀ k, k < sizeBytes z → orderedByte be z (memLoad be z a m) k = m.read (a + BitVec.ofNat 32 k).toNat) ∧
    (∀ j, 8 * sizeBytes z ≤ j → (memLoad be z a m).getLsbD j = false) ∧
    (∀ k, k < sizeBytes z → (memStore be z a v m).read (a + BitVec.ofNat 32 k).toNat = orderedByte be z v k) ∧
    (∀ x : Word, ¬covers z a x → (memStore be z a v m).read x.toNat = m.read x.toNat) ∧
    (m.wf = true → (memStore be z a v m).wf = true)

/-- R104: an access of n bytes is aligned when its address is a multiple of n; a misaligned load or store raises MisalignedAccess with EPC = its address when MM = 0,
and is performed at the address with the low bits forced to 0 when MM = 1; the multi-word instructions raise it whatever MM is. That EPC is the halted PC for an
instruction that the debugger feeds is the model's choice (assumption log 36). -/
def Obligations.AlignmentRule : Prop :=
  (∀ (z : Size) (a : Word) (s : State),
    (a.toNat % sizeBytes z = 0 → accessAddr z a s = some a) ∧
    (a.toNat % sizeBytes z ≠ 0 → s.psr.mm = false → accessAddr z a s = none) ∧
    (a.toNat % sizeBytes z ≠ 0 → s.psr.mm = true → accessAddr z a s = some (BitVec.ofNat 32 (a.toNat - a.toNat % sizeBytes z)))) ∧
  (∀ (rz rx : Reg) (o5 : BitVec 5) (o8 : BitVec 8) (o12 : BitVec 12) (s : State),
    let entry := takeException 1#8 s.pc s
    (accessAddr .half (readReg rx s + BitVec.ofNat 32 (2 * o5.toNat)) s = none →
      exec (.ld16h rz rx o5) s = entry ∧ exec (.st16h rz rx o5) s = entry) ∧
    (accessAddr .half (readReg rx s + BitVec.ofNat 32 (2 * o12.toNat)) s = none →
      exec (.ld32h rz rx o12) s = entry ∧ exec (.st32h rz rx o12) s = entry) ∧
    (accessAddr .word (readReg rx s + BitVec.ofNat 32 (4 * o5.toNat)) s = none →
      exec (.ld16w rz rx o5) s = entry ∧ exec (.st16w rz rx o5) s = entry) ∧
    (accessAddr .word (readReg .r14 s + BitVec.ofNat 32 (4 * o8.toNat)) s = none →
      exec (.ld16wsp rz o8) s = entry ∧ exec (.st16wsp rz o8) s = entry) ∧
    (accessAddr .word (readReg rx s + BitVec.ofNat 32 (4 * o12.toNat)) s = none →
      exec (.ld32w rz rx o12) s = entry ∧ exec (.st32w rz rx o12) s = entry) ∧
    (loadsFrom (.ld16h rz rx o5) 2#32 .half rz rx (2 * o5.toNat) s ∧ storesTo (.st16h rz rx o5) 2#32 .half rz rx (2 * o5.toNat) s ∧
    loadsFrom (.ld32h rz rx o12) 4#32 .half rz rx (2 * o12.toNat) s ∧ storesTo (.st32h rz rx o12) 4#32 .half rz rx (2 * o12.toNat) s ∧
    loadsFrom (.ld16w rz rx o5) 2#32 .word rz rx (4 * o5.toNat) s ∧ storesTo (.st16w rz rx o5) 2#32 .word rz rx (4 * o5.toNat) s ∧
    loadsFrom (.ld16wsp rz o8) 2#32 .word rz .r14 (4 * o8.toNat) s ∧ storesTo (.st16wsp rz o8) 2#32 .word rz .r14 (4 * o8.toNat) s ∧
    loadsFrom (.ld32w rz rx o12) 4#32 .word rz rx (4 * o12.toNat) s ∧ storesTo (.st32w rz rx o12) 4#32 .word rz rx (4 * o12.toNat) s)) ∧
  (∀ (r15 : Bool) (l : BitVec 4) (s : State), (readReg .r14 s).toNat % 4 ≠ 0 →
    let entry := takeException 1#8 s.pc s
    exec (.push16 r15 l) s = entry ∧ exec (.pop16 r15 l) s = entry ∧
    (s.cfg.hasNestAccel = true → exec .ipush16 s = entry ∧ exec .ipop16 s = entry) ∧
    (s.cfg.hasNestAccel = true → s.psr.s = true → exec .nie16 s = entry ∧ exec .nir16 s = entry))

/-- R113, R124, R131, R132, R321: a load, store or literal load that the MPU denies, that goes to the tightly coupled IP in user mode, or that the bus answers with ERROR raises AccessError with EPC = its
address; one that no slave answers waits for ever; nothing is loaded and nothing stored before that. A store of the program on the bus into PC + 2 to PC + 7, which
the spec refuses before it asks the slave, is in StoreResults (R148, assumption log 18). A platform device's ERROR raises AccessError too, and with its OKAY the
instruction completes (assumption log 15; which of the two is a free value).
That an instruction which the debugger feeds does so too, with EPC = the halted PC, is the model's choice (assumption log 36). -/
def Obligations.DeniedAccessesRaiseAccessError : Prop :=
  ∀ (rz rx : Reg) (o5 : BitVec 5) (o7 : BitVec 7) (o8 : BitVec 8) (o12 : BitVec 12) (o16 : BitVec 16) (s : State),
    let a7 := BitVec.ofNat 32 (4 * ((s.pc + BitVec.ofNat 32 (4 * o7.toNat)).toNat / 4))
    let a16 := BitVec.ofNat 32 (4 * ((s.pc + BitVec.ofNat 32 (4 * o16.toNat)).toNat / 4))
    let silent (a : Word) : Prop := mpuAllows .read s.psr.s a s = true ∧ inTcip s a = false ∧ slaveAt s.cfg a = .silent
    (deniedPair (.ld16b rz rx o5) (.st16b rz rx o5) .byte rx o5.toNat s ∧
     deniedPair (.ld32b rz rx o12) (.st32b rz rx o12) .byte rx o12.toNat s ∧
     deniedPair (.ld16h rz rx o5) (.st16h rz rx o5) .half rx (2 * o5.toNat) s ∧
     deniedPair (.ld32h rz rx o12) (.st32h rz rx o12) .half rx (2 * o12.toNat) s ∧
     deniedPair (.ld16w rz rx o5) (.st16w rz rx o5) .word rx (4 * o5.toNat) s ∧
     deniedPair (.ld16wsp rz o8) (.st16wsp rz o8) .word .r14 (4 * o8.toNat) s ∧
     deniedPair (.ld32w rz rx o12) (.st32w rz rx o12) .word rx (4 * o12.toNat) s ∧
     (readFails s a7 → exec (.lrw16 rz o7) s = takeException 2#8 s.pc s) ∧
     (readFails s a16 → exec (.lrw32 rz o16) s = takeException 2#8 s.pc s)) ∧
    (silentPair (.ld16b rz rx o5) (.st16b rz rx o5) .byte rx o5.toNat s ∧
     silentPair (.ld32b rz rx o12) (.st32b rz rx o12) .byte rx o12.toNat s ∧
     silentPair (.ld16h rz rx o5) (.st16h rz rx o5) .half rx (2 * o5.toNat) s ∧
     silentPair (.ld32h rz rx o12) (.st32h rz rx o12) .half rx (2 * o12.toNat) s ∧
     silentPair (.ld16w rz rx o5) (.st16w rz rx o5) .word rx (4 * o5.toNat) s ∧
     silentPair (.ld16wsp rz o8) (.st16wsp rz o8) .word .r14 (4 * o8.toNat) s ∧
     silentPair (.ld32w rz rx o12) (.st32w rz rx o12) .word rx (4 * o12.toNat) s ∧
     (silent a7 → exec (.lrw16 rz o7) s = .next { s with hung := true }) ∧
     (silent a16 → exec (.lrw32 rz o16) s = .next { s with hung := true })) ∧
    (devicePair (.ld16b rz rx o5) (.st16b rz rx o5) .byte rz rx o5.toNat s ∧
     devicePair (.ld32b rz rx o12) (.st32b rz rx o12) .byte rz rx o12.toNat s ∧
     devicePair (.ld16h rz rx o5) (.st16h rz rx o5) .half rz rx (2 * o5.toNat) s ∧
     devicePair (.ld32h rz rx o12) (.st32h rz rx o12) .half rz rx (2 * o12.toNat) s ∧
     devicePair (.ld16w rz rx o5) (.st16w rz rx o5) .word rz rx (4 * o5.toNat) s ∧
     devicePair (.ld16wsp rz o8) (.st16wsp rz o8) .word rz .r14 (4 * o8.toNat) s ∧
     devicePair (.ld32w rz rx o12) (.st32w rz rx o12) .word rz rx (4 * o12.toNat) s ∧
     (mpuAllows .read s.psr.s a7 s = true → isDevice s a7 → faultsOnError (.lrw16 rz o7) (deviceReply s .word a7 false 0#32) s) ∧
     (mpuAllows .read s.psr.s a16 s = true → isDevice s a16 → faultsOnError (.lrw32 rz o16) (deviceReply s .word a16 false 0#32) s))

/-- R121 to R124: the MPU lets an access through exactly when it is absent or off, or the highest-numbered enabled region that holds the address allows it: address and base agree above
the region's size, the access permission table allows the access, and a fetch needs NX = 0. -/
def Obligations.MpuDecision : Prop :=
  ∀ (k : AccessKind) (sup : Bool) (a : Word) (s : State),
    let holds (n : Fin 8) : Prop :=
      n.val < s.cfg.mpuRegions.val ∧ (s.pacr.get n).enable = true ∧ 6 ≤ (s.pacr.get n).size.toNat ∧
      a.toNat / 2 ^ ((s.pacr.get n).size.toNat + 1) = 128 * (s.pacr.get n).base.toNat / 2 ^ ((s.pacr.get n).size.toNat + 1)
    mpuAllows k sup a s = true ↔
      s.cfg.mpuRegions.val = 0 ∨ s.mpuOn = false ∨
      ∃ n : Fin 8, holds n ∧ (∀ m : Fin 8, n < m → ¬holds m) ∧
        (match (caprAp s.capr n.val).toNat with
          | 0 => False
          | 1 => sup = true
          | 2 => sup = true ∨ k ≠ .write
          | _ => True) ∧
        (k = .fetch → s.capr.getLsbD n.val = false)

/-! ### Stack and multi-word instructions -/

/-- R350, R358, R360, R150: PUSH16 stores the listed registers below SP, the lowest register at the lowest address, 0 for R9 to R11, and lowers SP by four times their number, when all the words can be
written; every other byte is as before, save what other bus masters write in the gaps between the words (assumption log 49). A word of it in the bytes PC + 2 to PC + 7 is refused
(R148, U18). -/
def Obligations.PushStoresTheList : Prop :=
  ∀ (r15 : Bool) (l : BitVec 4) (s : State),
    let regs := [Reg.r4, .r5, .r6, .r7, .r8, .r9, .r10, .r11].take l.toNat ++ (if r15 = true then [Reg.r15] else [])
    let base := readReg .r14 s - BitVec.ofNat 32 (4 * regs.length)
    (readReg .r14 s).toNat % 4 = 0 →
    (wordsWritable s regs.length base →
      ∃ t, exec (.push16 r15 l) s = .next t ∧ t.pc = pcAfter s 2#32 ∧ regWritten .r14 base s t ∧
        t = { s with regs := t.regs, mem := t.mem, between := s.between.drop (regs.length - 1), pc := t.pc } ∧
        wordsStored (regs.length - 1) s t (regs.map (fun r => readReg r s)) base) ∧
    (∀ j, pushInStream (.push16 r15 l) (regs.map (fun r => readReg r s)) j s)

/-- R352, R358, R360, R150: POP16 loads the listed registers from SP up, the lowest register from the lowest address (words for R9 to R11 are discarded), raises SP and returns through R15: the one just
loaded when it is in the list, else the one it had. Word k is read after the first k gaps between the words, in which other bus masters may write (assumption log 49).
That one which the debugger feeds moves the PC like this too is the model's choice (assumption log 36). -/
def Obligations.PopLoadsTheListAndReturns : Prop :=
  ∀ (r15 : Bool) (l : BitVec 4) (s : State),
    let regs := [Reg.r4, .r5, .r6, .r7, .r8, .r9, .r10, .r11].take l.toNat ++ (if r15 = true then [Reg.r15] else [])
    (readReg .r14 s).toNat % 4 = 0 → wordsReadable s regs.length (readReg .r14 s) →
    ∃ t, exec (.pop16 r15 l) s = .next t ∧
      (∀ k, k < regs.length → ∀ q, regs[k]? = some q →
        readReg q t = if implemented q = true then wordAt (landed k s) (readReg .r14 s) k else 0#32) ∧
      readReg .r14 t = readReg .r14 s + BitVec.ofNat 32 (4 * regs.length) ∧
      (∀ q : Reg, q ∉ regs → q ≠ .r14 → readReg q t = readReg q s) ∧
      (s.psr.s = true → t.regs.usp = s.regs.usp) ∧ (s.psr.s = false → t.regs.ssp = s.regs.ssp) ∧
      t.pc = readReg .r15 t &&& 0xFFFFFFFE#32 ∧ t = { landed (regs.length - 1) s with regs := t.regs, pc := t.pc } ∧
      (∀ x, gapsSpare s (regs.length - 1) x → byteAt t x = byteAt s x)

/-- R358, R113, R132: when a later word of a multi-word instruction is denied by the MPU, lies in the tightly coupled IP range in user mode, or is answered with ERROR by the bus, AccessError is raised with EPC = the
instruction: no register has changed, SP included, and the words stored before the failing one stay stored.
That an instruction which the debugger feeds does so too, with EPC = the halted PC, is the model's choice (assumption log 36). -/
def Obligations.MultiWordAccessError : Prop :=
  ∀ (r15 : Bool) (l : BitVec 4) (j : Nat) (s : State),
    (readReg .r14 s).toNat % 4 = 0 →
    pushFails (.push16 r15 l) ((regList r15 l).map (fun r => readReg r s)) j s ∧ popFails (.pop16 r15 l) (regList r15 l).length j s ∧
    (s.cfg.hasNestAccel = true →
      pushFails .ipush16 [s.regs.r0, s.regs.r1, s.regs.r2, s.regs.r3, 0#32, s.regs.r13] j s ∧ popFails .ipop16 6 j s ∧
      (s.psr.s = true → pushFails .nie16 [psrWord s.epsr, s.epc] j s ∧ popFails .nir16 2 j s))

/-- R354, R355, R150: IPUSH16 stores R0 to R3, 0 for R12, and R13 in a frame of 24 bytes below SP; IPOP16 loads them back from SP up and discards the word for R12. Other
bus masters may write in the five gaps between the words (assumption log 49). A word that IPUSH16 would store into PC + 2 to PC + 7 is refused (R148, U18). -/
def Obligations.InterruptContextSaveRestore : Prop :=
  ∀ (s : State), s.cfg.hasNestAccel = true → (readReg .r14 s).toNat % 4 = 0 →
    (wordsWritable s 6 (readReg .r14 s - 24#32) →
      ∃ t, exec .ipush16 s = .next t ∧ t.pc = pcAfter s 2#32 ∧ regWritten .r14 (readReg .r14 s - 24#32) s t ∧
        t = { s with regs := t.regs, mem := t.mem, between := s.between.drop 5, pc := t.pc } ∧
        wordsStored 5 s t [s.regs.r0, s.regs.r1, s.regs.r2, s.regs.r3, 0#32, s.regs.r13] (readReg .r14 s - 24#32)) ∧
    (∀ j, pushInStream .ipush16 [s.regs.r0, s.regs.r1, s.regs.r2, s.regs.r3, 0#32, s.regs.r13] j s) ∧
    (wordsReadable s 6 (readReg .r14 s) →
      ∃ t, exec .ipop16 s = .next t ∧ t.pc = pcAfter s 2#32 ∧ (∀ x, gapsSpare s 5 x → byteAt t x = byteAt s x) ∧
        t = { landed 5 s with
          regs := { t.regs with
            r4 := s.regs.r4, r5 := s.regs.r5, r6 := s.regs.r6, r7 := s.regs.r7, r8 := s.regs.r8, r15 := s.regs.r15 }
          pc := t.pc } ∧
        (s.psr.s = true → t.regs.usp = s.regs.usp) ∧ (s.psr.s = false → t.regs.ssp = s.regs.ssp) ∧
        t.regs.r0 = wordAt s (readReg .r14 s) 0 ∧ t.regs.r1 = wordAt (landed 1 s) (readReg .r14 s) 1 ∧
        t.regs.r2 = wordAt (landed 2 s) (readReg .r14 s) 2 ∧ t.regs.r3 = wordAt (landed 3 s) (readReg .r14 s) 3 ∧
        t.regs.r13 = wordAt (landed 5 s) (readReg .r14 s) 5 ∧ readReg .r14 t = readReg .r14 s + 24#32)

/-- R356: NIE16 in supervisor mode stores EPSR and EPC below SSP, lowers SSP by 8 and sets EE and IE. The interrupt hold-off at its retirement is the model's field `nieShadow` (assumption log 26). A word that
it would store into PC + 2 to PC + 7 is refused (R148, U18). -/
def Obligations.NestingEntry : Prop :=
  ∀ (s : State), s.cfg.hasNestAccel = true → s.psr.s = true → s.regs.ssp.toNat % 4 = 0 →
    (wordsWritable s 2 (s.regs.ssp - 8#32) →
      ∃ t, exec .nie16 s = .next t ∧ wordsStored 1 s t [psrWord s.epsr, s.epc] (s.regs.ssp - 8#32) ∧
        t = { s with
          regs := { s.regs with ssp := s.regs.ssp - 8#32 }
          mem := t.mem, between := s.between.drop 1
          psr := { s.psr with ee := true, ie := true }
          nieShadow := true
          pc := pcAfter s 2#32 }) ∧
    (∀ j, pushInStream .nie16 [psrWord s.epsr, s.epc] j s)

/-- R357, R42, R385, R491: NIR16 in supervisor mode loads EPSR and EPC from SSP up, raises SSP by 8, restores PSR from the EPSR loaded and goes to the EPC loaded with bit 0 cleared; an IDLY32 sequence ends (R385) and the VIC hears of
the exit. That EPSR keeps PSR's bits only and EPC all 32 bits is decision D7 (assumption log 32); how the VIC is told is decision D25 (assumption log 29).
That one which the debugger feeds moves the PC like this too is the model's choice (assumption log 36). -/
def Obligations.NestingReturn : Prop :=
  ∀ (s : State), s.cfg.hasNestAccel = true → s.psr.s = true → s.regs.ssp.toNat % 4 = 0 → wordsReadable s 2 s.regs.ssp →
    exec .nir16 s = .next { landed 1 s with
      regs := { s.regs with ssp := s.regs.ssp + 8#32 }
      epsr := psrOfWord (wordAt s s.regs.ssp 0)
      epc := wordAt (landed 1 s) s.regs.ssp 1
      psr := psrOfWord (wordAt s s.regs.ssp 0)
      pc := wordAt (landed 1 s) s.regs.ssp 1 &&& 0xFFFFFFFE#32
      idlyCount := idlyAfter s 0
      vic := vicExit s.psr.vec s.vic } ∧
    fieldsOf (wordAt s s.regs.ssp 0) (psrOfWord (wordAt s s.regs.ssp 0))

/-- R350, R352: POP16 undoes PUSH16: after a push that completes, a pop of the same list completes, and every general register, SP and R15 among them, is what it was before the push, when no other bus
master writes to the frame in the gaps between the words of the two.
That one which the debugger feeds moves the PC like this too is the model's choice (assumption log 36). -/
def Obligations.PopUndoesPush : Prop :=
  ∀ (r15 : Bool) (l : BitVec 4) (s t : State),
    let n := (regList r15 l).length
    let base := readReg .r14 s - BitVec.ofNat 32 (4 * n)
    (readReg .r14 s).toNat % 4 = 0 → wordsWritable s n base → wordsReadable s n base → gapsMiss s (2 * (n - 1)) n base →
    exec (.push16 r15 l) s = .next t →
    ∃ u, exec (.pop16 r15 l) t = .next u ∧ u.regs = s.regs ∧ u.pc = s.regs.r15 &&& 0xFFFFFFFE#32 ∧
      u = { landed (n - 1) t with regs := u.regs, pc := u.pc }

/-! ### System instructions -/

/-- R370, R41, R42 to R65: MFCR32 in supervisor mode writes the control register's value to its register, for every control register of R40 with its fields in their places; one that is not implemented
reads 0. What EPSR and EPC read back is decision D7 (assumption log 32), reserved bits read 0 by decision D3 (assumption log 33), the bit places are
assumption log 12. -/
def Obligations.ControlRegisterReads : Prop :=
  ∀ (rz : Reg) (s : State), s.psr.s = true →
    (∀ n sel, writesReg (.mfcr32 rz n sel) 4#32 rz (readControl n sel s) s) ∧
    (let w := readControl 0 0 s
     (w.getLsbD 31 = s.psr.s ∧ w.extractLsb' 16 8 = s.psr.vec ∧ w.getLsbD 9 = s.psr.mm ∧ w.getLsbD 8 = s.psr.ee ∧
      w.getLsbD 7 = s.psr.ic ∧ w.getLsbD 6 = s.psr.ie ∧ w.getLsbD 0 = s.psr.c ∧ w &&& 0x7F00FC3E#32 = 0#32)) ∧
    (s.cfg.hasVbr = true → readControl 1 0 s = s.vbr ++ 0#10) ∧
    readControl 2 0 s = psrWord s.epsr ∧
    (let w := readControl 2 0 s
     (w.getLsbD 31 = s.epsr.s ∧ w.extractLsb' 16 8 = s.epsr.vec ∧ w.getLsbD 9 = s.epsr.mm ∧ w.getLsbD 8 = s.epsr.ee ∧
      w.getLsbD 7 = s.epsr.ic ∧ w.getLsbD 6 = s.epsr.ie ∧ w.getLsbD 0 = s.epsr.c ∧ w &&& 0x7F00FC3E#32 = 0#32)) ∧
    readControl 4 0 s = s.epc ∧ readControl 13 0 s = s.cfg.cpuid ∧
    (let w := readControl 18 0 s
     (w.getLsbD 0 = s.mpuOn ∧ w.getLsbD 7 = s.cfg.bigEndian ∧ w.extractLsb' 8 3 = s.cfg.sck ∧ w.getLsbD 13 = s.cfg.beV2 ∧
      w &&& 0xFFFFD87E#32 = 0#32)) ∧
    (0 < s.cfg.mpuRegions.val → readControl 19 0 s = s.capr ∧ readControl 21 0 s = s.prsr.setWidth 32 ∧
      (s.prsr.toNat < s.cfg.mpuRegions.val → ∀ k : Fin 8, k.val = s.prsr.toNat →
        readControl 20 0 s = (s.pacr.get k).base ++ 0#1 ++ (s.pacr.get k).size ++ BitVec.ofBool (s.pacr.get k).enable) ∧
      (s.cfg.mpuRegions.val ≤ s.prsr.toNat → readControl 20 0 s = 0#32)) ∧
    (let w := readControl 31 0 s
     (w.getLsbD 4 = s.iae ∧ w &&& 0xFFFFFFEF#32 = 0#32)) ∧
    readControl 14 1 s = s.regs.usp ∧
    (∀ n sel, controlReg s.cfg n sel = none → readControl n sel s = 0#32)

/-- R371, R41 to R48, R52, R57, R58, R65: MTCR32 in supervisor mode to every control register whose write only stores: each writes its implemented bits, CPUIDR and a register that is not implemented
ignore it, and nothing else but the PC changes. PSR and EPSR take S from bit 31, VEC from 23 to 16, MM 9, EE 8, IC 7, IE 6 and C 0 (bit places: assumption log 12). That EPSR keeps PSR's bits only and EPC all 32 bits is decision D7 (assumption log 32). -/
def Obligations.ControlRegisterWrites : Prop :=
  ∀ (rx : Reg) (s : State), s.psr.s = true →
    let v := readReg rx s
    let done (t : State) : Host.Outcome State Fault Refusal := .next { t with pc := pcAfter s 4#32 }
    fieldsOf v (psrOfWord v) ∧
    exec (.mtcr32 rx 0 0) s = done { s with psr := psrOfWord v } ∧
    (s.cfg.hasVbr = true → exec (.mtcr32 rx 1 0) s = done { s with vbr := v.extractLsb' 10 22 }) ∧
    exec (.mtcr32 rx 2 0) s = done { s with epsr := psrOfWord v } ∧
    exec (.mtcr32 rx 4 0) s = done { s with epc := v } ∧
    exec (.mtcr32 rx 13 0) s = done s ∧
    (0 < s.cfg.mpuRegions.val →
      (∃ t, exec (.mtcr32 rx 19 0) s = done t ∧ t = { s with capr := t.capr } ∧
        ∀ j, j < 32 → t.capr.getLsbD j =
          (v.getLsbD j && decide ((if j < 8 then j else if j < 24 then (j - 8) / 2 else j - 24) < s.cfg.mpuRegions.val))) ∧
      exec (.mtcr32 rx 21 0) s = done { s with prsr := v.extractLsb' 0 3 }) ∧
    exec (.mtcr32 rx 14 1) s = done { s with regs := { s.regs with usp := v } } ∧
    (∀ n sel, controlReg s.cfg n sel = none → exec (.mtcr32 rx n sel) s = done s)

/-- R65: CR<14,1> is the user stack pointer: MFCR32 reads it and MTCR32 writes it in supervisor mode, both fault in user mode, and no control register reads or writes the
supervisor stack pointer (the software reset that a write of CHR may start apart). What is said of the PC and of EPC is of instructions of the program; the fault of one
that the debugger feeds is in PrivilegeAndPresence (assumption log 36). -/
def Obligations.UserStackPointerRegister : Prop :=
  ∀ (r : Reg) (n : BitVec 5) (sel : BitVec 5) (s : State),
    (s.psr.s = true →
      (∃ t, exec (.mfcr32 r 14 1) s = .next t ∧ regWritten r s.regs.usp s t ∧ sameButRegs s t ∧ sameMemory s t ∧
        (s.debugMode = false → t.pc = s.pc + 4#32)) ∧
      (∃ t, exec (.mtcr32 r 14 1) s = .next t ∧ t = { s with regs := { s.regs with usp := readReg r s }, pc := t.pc } ∧
        (s.debugMode = false → t.pc = s.pc + 4#32))) ∧
    (s.psr.s = false → s.debugMode = false → exec (.mfcr32 r 14 1) s = takeException 5#8 s.pc s ∧ exec (.mtcr32 r 14 1) s = takeException 5#8 s.pc s) ∧
    (∀ v : Word, readControl n sel { s with regs := { s.regs with ssp := v } } = readControl n sel s) ∧
    (∀ t, s.psr.s = true → n ≠ 31 → exec (.mtcr32 r n sel) s = .next t → t.regs.ssp = s.regs.ssp)

/-- R55, R56, R58, R59, R121, R122, R126: MTCR32 to CCR does nothing where there is no MPU; else it turns the MPU off, or on when its own address stays executable (one that the debugger feeds has no address
of its own and is not judged: assumption log 19); to PACR it writes the region PRSR selects, with a legal size or disabled, and a region that does not exist ignores
the write. MP = 2 or 3 (U9), MP = 1 where the MTCR32's own address is denied then (U7) and E = 1 with a size of 0 to 5 (U8) are refused, as the spec asks
(assumption logs 19 and 20). -/
def Obligations.ProtectionRegisterWrites : Prop :=
  ∀ (rx : Reg) (s : State), s.psr.s = true →
    let v := readReg rx s
    let done (t : State) : Host.Outcome State Fault Refusal := .next { t with pc := pcAfter s 4#32 }
    (s.cfg.mpuRegions.val = 0 → exec (.mtcr32 rx 18 0) s = done s) ∧
    (0 < s.cfg.mpuRegions.val → 2 ≤ (v.extractLsb' 0 2).toNat → exec (.mtcr32 rx 18 0) s = .refused .ccrMpReserved) ∧
    (0 < s.cfg.mpuRegions.val → v.extractLsb' 0 2 = 1#2 → s.debugMode = false → mpuAllows .fetch true s.pc { s with mpuOn := true } = false →
      exec (.mtcr32 rx 18 0) s = .refused .mpuEnableDenied) ∧
    (s.prsr.toNat < s.cfg.mpuRegions.val → v.getLsbD 0 = true → (v.extractLsb' 1 5).toNat < 6 →
      exec (.mtcr32 rx 20 0) s = .refused .pacrReservedSize) ∧
    (0 < s.cfg.mpuRegions.val → v.extractLsb' 0 2 = 0#2 → exec (.mtcr32 rx 18 0) s = done { s with mpuOn := false }) ∧
    (0 < s.cfg.mpuRegions.val → v.extractLsb' 0 2 = 1#2 → (s.debugMode = true ∨ mpuAllows .fetch true s.pc { s with mpuOn := true } = true) →
      exec (.mtcr32 rx 18 0) s = done { s with mpuOn := true }) ∧
    (s.prsr.toNat < s.cfg.mpuRegions.val → (v.getLsbD 0 = false ∨ 6 ≤ (v.extractLsb' 1 5).toNat) →
      ∃ t, exec (.mtcr32 rx 20 0) s = done t ∧ t = { s with pacr := t.pacr } ∧
        ∀ n : Fin 8, t.pacr.get n =
          if n.val = s.prsr.toNat then { base := v.extractLsb' 7 25, size := v.extractLsb' 1 5, enable := v.getLsbD 0 } else s.pacr.get n) ∧
    (s.cfg.mpuRegions.val ≤ s.prsr.toNat → exec (.mtcr32 rx 20 0) s = done s)

/-- R60, R62, R421, R553: MTCR32 to CHR with any value but SRST_MAGIC in its upper half stores IAE and does nothing else; SRST_MAGIC with EE = 0 is UnrecoverableError with EPC = the MTCR32; SRST_MAGIC with EE = 1 resets the
core and its tightly coupled devices and goes to the word at address 0, a core in debug mode staying in it (decision D27, assumption log 34; the registers that R75 gives no value are free, assumption log 8; that
the debug unit's registers are kept is assumption log 54). -/
def Obligations.ImplicitOperationRegisterWrites : Prop :=
  ∀ (rx : Reg) (s : State), s.psr.s = true →
    let v := readReg rx s
    (v.extractLsb' 16 16 ≠ s.cfg.srstMagic →
      exec (.mtcr32 rx 31 0) s = .next { s with iae := v.getLsbD 4, pc := pcAfter s 4#32 }) ∧
    (v.extractLsb' 16 16 = s.cfg.srstMagic → s.psr.ee = false → vectorReadable 8#8 s →
      ∃ t, exec (.mtcr32 rx 31 0) s = .next t ∧ entered 8#8 s.pc s t) ∧
    (v.extractLsb' 16 16 = s.cfg.srstMagic → s.psr.ee = true → isMemory s 0#32 →
      ∃ t, exec (.mtcr32 rx 31 0) s = .next t ∧ registersReset s t ∧ t.pc = datum s .word 0#32 &&& 0xFFFFFFFE#32 ∧
        t.debugMode = s.debugMode ∧ t.inReset = s.inReset ∧ t.nieShadow = false ∧ t.pins = s.pins ∧ t.inputs = s.inputs ∧ t.between = s.between)

/-- R374, R375: PSRSET32 and PSRCLR32 in supervisor mode set or clear EE (operand bit 3) and IE (operand bit 2); the other operand bits select nothing. -/
def Obligations.PsrBitOperations : Prop :=
  ∀ (imm5 : BitVec 5) (s : State), s.psr.s = true →
    exec (.psrset32 imm5) s = .next { s with
      psr := { s.psr with ee := if imm5.getLsbD 3 = true then true else s.psr.ee, ie := if imm5.getLsbD 2 = true then true else s.psr.ie }
      pc := pcAfter s 4#32 } ∧
    exec (.psrclr32 imm5) s = .next { s with
      psr := { s.psr with ee := if imm5.getLsbD 3 = true then false else s.psr.ee, ie := if imm5.getLsbD 2 = true then false else s.psr.ie }
      pc := pcAfter s 4#32 }

/-- R376, R428, R491: RTE32 in supervisor mode: PSR from EPSR, PC from EPC with bit 0 cleared, the IDLY32 sequence ended; leaving the handler of interrupt 32 + n clears n's active bit and, when the threshold names that vector,
the threshold's enable; leaving any other handler leaves the VIC as it is.
That one which the debugger feeds moves the PC like this too is the model's choice (assumption log 36). -/
def Obligations.ReturnFromException : Prop :=
  ∀ (s : State), s.psr.s = true →
    ∃ t, exec .rte32 s = .next t ∧
      t = { s with psr := s.epsr, pc := s.epc &&& 0xFFFFFFFE#32, idlyCount := idlyAfter s 0, vic := t.vic } ∧
      (s.psr.vec.toNat < 32 → t.vic = s.vic) ∧
      (32 ≤ s.psr.vec.toNat →
        t.vic = { s.vic with active := t.vic.active, thrEn := t.vic.thrEn } ∧
        (∀ k, k < 32 → t.vic.active.getLsbD k = (s.vic.active.getLsbD k && decide (k ≠ s.psr.vec.toNat - 32))) ∧
        (t.vic.thrEn = true ↔ s.vic.thrEn = true ∧ s.vic.thrVec.toNat ≠ s.psr.vec.toNat))

/-- R378, R379, R411, R420, R422: with exceptions enabled and a readable vector, TRAP32 n enters vector 16 + n and BKPT16 vector 7, with EPC = their own address; with CSR.FDB set BKPT16 enters debug mode instead and changes nothing
else.
That an instruction which the debugger feeds does so too, with EPC = the halted PC, is the model's choice (assumption log 36). -/
def Obligations.TrapAndBreakpointEntry : Prop :=
  ∀ (n : BitVec 2) (s : State),
    (s.psr.ee = true → ∀ v : BitVec 8, v.toNat = 16 + n.toNat → vectorReadable v s →
      ∃ t, exec (.trap32 n) s = .next t ∧ entered v s.pc s t) ∧
    ((s.cfg.hasDebug && s.had.fdb) = false → s.psr.ee = true → vectorReadable 7#8 s →
      ∃ t, exec .bkpt16 s = .next t ∧ entered 7#8 s.pc s t) ∧
    ((s.cfg.hasDebug && s.had.fdb) = true → exec .bkpt16 s = .next { s with debugMode := true })

/-- R380, R385: SYNC32 changes only the PC, in all its forms (assumption log 52); IDLY32 clears C and starts a sequence of IMM5 + 1 instructions, or changes only the PC inside a sequence. -/
def Obligations.SyncAndIdly : Prop :=
  ∀ (sBit iBit : Bool) (imm5 : BitVec 5) (s : State),
    goesTo (.sync32 sBit iBit) (pcAfter s 4#32) s ∧
    (s.idlyCount = 0 → exec (.idly32 imm5) s = .next { s with
      psr := { s.psr with c := false }, idlyCount := idlyAfter s (imm5.toNat + 1), pc := pcAfter s 4#32 }) ∧
    (s.idlyCount ≠ 0 → goesTo (.idly32 imm5) (pcAfter s 4#32) s)

/-- R382 to R386: WAIT32, DOZE32 and STOP32 in supervisor mode put the core to sleep at the next instruction and end an IDLY32 sequence. That one
which the debugger feeds records its mode, which takes effect when debug mode is left (assumption log 35), and leaves the PC (assumption log 36) is the model's
choice, since the spec does not speak of it; it does not move the IDLY32 count (R385, R522; assumption log 28). -/
def Obligations.LowPowerEntry : Prop :=
  ∀ (s : State), s.psr.s = true →
    exec .wait32 s = .next { s with idlyCount := idlyAfter s 0, lowPower := .wait, pc := pcAfter s 4#32 } ∧
    exec .doze32 s = .next { s with idlyCount := idlyAfter s 0, lowPower := .doze, pc := pcAfter s 4#32 } ∧
    exec .stop32 s = .next { s with idlyCount := idlyAfter s 0, lowPower := .stop, pc := pcAfter s 4#32 }

/-- R388, R419, R190: every privileged instruction in user mode raises PrivilegeViolation (vector 5) with EPC = its address; the four nesting instructions without HAS_NEST_ACCEL raise IllegalInstruction (vector 4) in
either mode.
That an instruction which the debugger feeds does so too, with EPC = the halted PC, is the model's choice (assumption log 36). -/
def Obligations.PrivilegeAndPresence : Prop :=
  ∀ (i : Instr) (s : State),
    (isPrivileged i = true → s.psr.s = false → (isNestAccel i = true → s.cfg.hasNestAccel = true) → exec i s = takeException 5#8 s.pc s) ∧
    (isNestAccel i = true → s.cfg.hasNestAccel = false → exec i s = takeException 4#8 s.pc s)

/-! ### Exceptions -/

/-- R410, R411, R421: taking an exception with a readable vector: EPSR and EPC are saved, S = 1, VEC, EE = 0, IE = 0, the PC is the vector's word with bit 0 cleared, a broken IDLY32 sequence sets C first, and nothing else changes;
while EE = 0 every vector below 32 becomes 8. Other bus masters may write before the vector is read (R150, assumption log 49), and an exception of an instruction that the debugger feeds breaks no IDLY32 sequence (assumption log 28). -/
def Obligations.ExceptionEntry : Prop :=
  ∀ (vec : BitVec 8) (ret : Word) (s : State),
    let v := if vec.toNat < 32 ∧ s.psr.ee = false then 8#8 else vec
    vectorReadable v s → ∃ t, takeException vec ret s = .next t ∧ entered v ret s t

/-- R412: the entry of vector v stands at VBR plus 4 v, with VBR's low ten bits 0, or at 4 v without VBR. -/
def Obligations.VectorTableAddress : Prop :=
  ∀ (vec : BitVec 8) (s : State),
    (vectorAddr vec s).toNat = (if s.cfg.hasVbr = true then 1024 * s.vbr.toNat else 0) + 4 * vec.toNat

/-- R413: when the MPU denies the read of the vector or the bus answers it with ERROR, UnrecoverableError is entered with the EPC already saved and the EPSR of the first entry; when vector 8 cannot be read either, the core is in the stuck
state. A gap, in which other bus masters may write, comes before each of the two reads (R150, assumption log 49). -/
def Obligations.VectorFault : Prop :=
  ∀ (vec : BitVec 8) (ret : Word) (s : State),
    let v := if vec.toNat < 32 ∧ s.psr.ee = false then 8#8 else vec
    let c := entryC s
    let first : Psr := { s.psr with s := true, vec := v, ee := false, ie := false, c := c }
    vectorFails v s →
    (vectorReadable 8#8 s → takeException vec ret s = .next { landed 2 s with
      idlyCount := idlyAfter s 0, epsr := first, epc := ret, psr := { first with vec := 8#8 }
      pc := vectorWord 8#8 (landed 2 s) &&& 0xFFFFFFFE#32 }) ∧
    (vectorFails 8#8 s → takeException vec ret s = .next { landed 2 s with
      idlyCount := idlyAfter s 0, epsr := first, epc := ret, psr := { first with vec := 8#8 }, lockup := true })

/-- R191, R106, R132, R411, R418: at a core that runs, a word that is no instruction enters IllegalInstruction, and a fetch that the MPU denies or the bus answers with ERROR enters AccessError, both with EPC = the PC. The second half-word
is fetched after a gap, in which other bus masters may write (R150, assumption log 49). A supervisor fetch from the tightly coupled IP range is refused (R114, D12);
a user-mode one enters AccessError by the model's choice (assumption log 16). -/
def Obligations.IllegalWordsAndFetchFaults : Prop :=
  ∀ (s : State),
    let u := { s with nieShadow := false }
    (instrFetchable s → (∀ i, decodeHalves (halfAt s s.pc) (secondHalf s) ≠ .ok i) →
      runInstruction s = takeException 4#8 s.pc (if isLong (halfAt s s.pc) = true then landed 1 u else u)) ∧
    (fetchFails s s.pc → runInstruction s = takeException 2#8 s.pc u) ∧
    (fetchable s s.pc → isLong (halfAt s s.pc) = true → fetchFails s (s.pc + 2#32) →
      runInstruction s = takeException 2#8 s.pc (landed 1 u)) ∧
    (tcipFetched s s.pc →
      (s.psr.s = true → runInstruction s = .refused .tcipFetch) ∧ (s.psr.s = false → runInstruction s = takeException 2#8 s.pc u)) ∧
    (fetchable s s.pc → isLong (halfAt s s.pc) = true → tcipFetched s (s.pc + 2#32) →
      (s.psr.s = true → runInstruction s = .refused .tcipFetch) ∧ (s.psr.s = false → runInstruction s = takeException 2#8 s.pc (landed 1 u)))

/-! ### Interrupts, the VIC and the timer -/

/-- R430, R432, R433, R359, R385, R491: a running core with IE = EE = 1, no IDLY32 sequence and no NIE16 just retired (or one with IC = 1 and PUSH16, POP16, IPUSH16 or
IPOP16 at the PC: assumption log 26) takes the VIC's request: the source is acknowledged and the interrupt entered with EPC = the next instruction's address;
without the VIC it takes the external controller's request at the vector that controller gives, and a vector below 32 is refused (U10). With IE = 0, EE = 0, a sequence in progress, NIE16 just retired and IC = 0 or another
instruction next, or no request, nothing is taken. -/
def Obligations.InterruptEntry : Prop :=
  ∀ (s : State) (vec : BitVec 8), running s →
    let a := absorb s
    (a.psr.ie = true → a.psr.ee = true → a.idlyCount = 0 → holdOffOpen a → a.cfg.vicSize ≠ .absent → vicRequest a.vic = some vec →
      vectorReadable vec a →
      ∃ t v, step s = .next t ∧ entered vec a.pc { a with vic := v, nieShadow := false } t ∧
        v = { a.vic with pending := v.pending, active := v.active } ∧
        (∀ k, k < 32 → v.pending.getLsbD k = (a.vic.pending.getLsbD k && decide (k ≠ vec.toNat - 32)) ∧
          v.active.getLsbD k = (a.vic.active.getLsbD k || decide (k = vec.toNat - 32)))) ∧
    (a.psr.ie = true → a.psr.ee = true → a.idlyCount = 0 → holdOffOpen a → a.cfg.vicSize = .absent → a.pins.extInt = true →
      (32 ≤ a.pins.extVec.toNat → vectorReadable a.pins.extVec a → ∃ t, step s = .next t ∧ entered a.pins.extVec a.pc { a with nieShadow := false } t) ∧
      (a.pins.extVec.toNat < 32 → step s = .refused .badInterruptVector)) ∧
    ((a.psr.ie = false ∨ a.psr.ee = false ∨ a.idlyCount ≠ 0 ∨ heldOff a ∨
      (a.cfg.vicSize ≠ .absent ∧ vicRequest a.vic = none) ∨ (a.cfg.vicSize = .absent ∧ a.pins.extInt = false)) → step s = runInstruction a)

/-- R495: the VIC requests vector 32 + n exactly for the pending, enabled, not active source n of the smallest (priority number, source number), when its priority is strictly above that of every active source and, with the threshold enabled, strictly
above the threshold. -/
def Obligations.VicArbitration : Prop :=
  ∀ (v : Vic) (vec : BitVec 8),
    let cand (n : Fin 32) : Prop := v.pending.getLsbD n.val = true ∧ v.enable.getLsbD n.val = true ∧ v.active.getLsbD n.val = false
    let prio (n : Fin 32) : Nat := (v.prio.get n).toNat
    vicRequest v = some vec ↔
      ∃ n : Fin 32, vec.toNat = 32 + n.val ∧ cand n ∧
        (∀ m, cand m → prio n < prio m ∨ (prio n = prio m ∧ n.val ≤ m.val)) ∧
        (∀ m : Fin 32, v.active.getLsbD m.val = true → prio n < prio m) ∧
        (v.thrEn = false ∨ prio n < v.thrPrio.toNat)

/-- R490, R482, R477: one sample of the lines, a line being its pin or, on the source the configuration names, CoreTim's COUNTFLAG and TICKINT (decisions D24 and D26, assumption log 30): a level source becomes pending while its line is 1 and it is not active, a pulse source on a rising edge; nothing is cleared, sources that do not exist stay 0,
and nothing else changes. That a step takes one such sample is in StepRunsTheInstruction. -/
def Obligations.VicSampling : Prop :=
  ∀ (s : State) (n : Nat), n < 32 →
    let line := s.pins.irq.getLsbD n || (s.cfg.hasCoreTim && s.timer.countflag && s.timer.tickint && decide (n = s.cfg.coretIrq.val))
    let pulse := s.cfg.pulseMask.getLsbD n
    let here := decide (n < s.cfg.vicSize.count)
    (sampleVic s).vic.pending.getLsbD n =
      (s.vic.pending.getLsbD n ||
        (here && line && (if pulse = true then !s.vic.lastLines.getLsbD n else !s.vic.active.getLsbD n))) ∧
    (sampleVic s).vic.lastLines.getLsbD n = (here && line) ∧
    sampleVic s = { s with vic := { s.vic with pending := (sampleVic s).vic.pending, lastLines := (sampleVic s).vic.lastLines } }

/-- R470 to R476, R482 to R493, R525 to R533: what a supervisor word read and write of every register of the tightly coupled IP range does: the set and clear registers of the VIC (a 1 sets or clears its bit, a 0 changes nothing; bits of sources
that do not exist ignore writes, decision D3, assumption log 33), VIC_IABR, VIC_IPRn, VIC_IPTR, VIC_ISR (decision D25, assumption log 29), the four registers of the timer, and the debug unit's registers with the bus transfers they start. Writes of
HCR and CSR bits whose places the source does not give, and reserved DDMA modes and sizes, are refused (U20); PROT and DATA PHASE after a write of DACSR are free values (assumption log 51). The model's choices: a DARWR access makes its transfer at once,
whatever the MPU is set to (assumption log 23), in the six bytes after the PC too (assumption log 18); a 0 written to CSR clears FDB (assumption log 22); a write of DARWR replaces
what a later read answers (assumption log 53). After a read transfer of a byte or a half-word only that many low bits of DARWR are given; that the datum is there, and that a write transfer takes it from there, is assumption log 56. -/
def Obligations.DeviceRegisterAccess : Prop :=
  ∀ (s : State) (w : Word),
    (s.cfg.vicSize ≠ .absent →
      let ok (a : Word) (v : Vic) : Prop := tcipWrite a w s = .ok () { s with vic := v }
      let here (k : Nat) : Bool := decide (k < s.cfg.vicSize.count)
      (∃ e, ok 0xE000E100#32 { s.vic with enable := e } ∧ ∀ k, k < 32 → e.getLsbD k = (s.vic.enable.getLsbD k || (w.getLsbD k && here k))) ∧
      (∃ e, ok 0xE000E180#32 { s.vic with enable := e } ∧ ∀ k, k < 32 → e.getLsbD k = (s.vic.enable.getLsbD k && !w.getLsbD k)) ∧
      (∃ e, ok 0xE000E140#32 { s.vic with wakeup := e } ∧ ∀ k, k < 32 → e.getLsbD k = (s.vic.wakeup.getLsbD k || (w.getLsbD k && here k))) ∧
      (∃ e, ok 0xE000E1C0#32 { s.vic with wakeup := e } ∧ ∀ k, k < 32 → e.getLsbD k = (s.vic.wakeup.getLsbD k && !w.getLsbD k)) ∧
      (∃ e, ok 0xE000E200#32 { s.vic with pending := e } ∧ ∀ k, k < 32 → e.getLsbD k = (s.vic.pending.getLsbD k || (w.getLsbD k && here k))) ∧
      (∃ e, ok 0xE000E280#32 { s.vic with pending := e } ∧ ∀ k, k < 32 → e.getLsbD k = (s.vic.pending.getLsbD k && !w.getLsbD k)) ∧
      ((∀ k, k < 32 → here k = true → w.getLsbD k = false) →
        ∃ e, ok 0xE000E300#32 { s.vic with active := e } ∧ ∀ k, k < 32 → here k = true → e.getLsbD k = false) ∧
      ((∃ k, k < 32 ∧ here k = true ∧ w.getLsbD k = true) → tcipWrite 0xE000E300#32 w s = .refuse .iabrWriteOne) ∧
      (∀ k : Fin 8, ∃ p, ok (0xE000E400#32 + BitVec.ofNat 32 (4 * k.val)) { s.vic with prio := p } ∧
        ∀ n : Fin 32, p.get n = if n.val / 4 = k.val ∧ here n.val = true then w.extractLsb' (8 * (n.val % 4) + 6) 2 else s.vic.prio.get n) ∧
      (∀ k : Fin 8, ∃ r, tcipRead (0xE000E400#32 + BitVec.ofNat 32 (4 * k.val)) s = .ok r s ∧ r &&& 0x3F3F3F3F#32 = 0#32 ∧
        ∀ n : Fin 32, n.val / 4 = k.val → r.extractLsb' (8 * (n.val % 4) + 6) 2 = s.vic.prio.get n) ∧
      ok 0xE000EC04#32 { s.vic with thrEn := w.getLsbD 31, thrVec := w.extractLsb' 8 9, thrPrio := w.extractLsb' 6 2 } ∧
      (∃ r, tcipRead 0xE000EC04#32 s = .ok r s ∧ r.getLsbD 31 = s.vic.thrEn ∧ r.extractLsb' 8 9 = s.vic.thrVec ∧ r.extractLsb' 6 2 = s.vic.thrPrio ∧
        r &&& 0x7FFE003F#32 = 0#32) ∧
      (∃ r, tcipRead 0xE000EC00#32 s = .ok r s ∧ r.extractLsb' 0 9 = s.psr.vec.setWidth 9 ∧ r &&& 0xFFE00E00#32 = 0#32 ∧
        (∀ n : Fin 32, s.vic.pending.getLsbD n.val = true → s.vic.enable.getLsbD n.val = true →
          (∀ m : Fin 32, s.vic.pending.getLsbD m.val = true → s.vic.enable.getLsbD m.val = true →
            s.vic.prio.get n < s.vic.prio.get m ∨ (s.vic.prio.get n = s.vic.prio.get m ∧ n.val ≤ m.val)) →
          (r.extractLsb' 12 9).toNat = 32 + n.val) ∧
        ((∀ n : Fin 32, s.vic.pending.getLsbD n.val = true → s.vic.enable.getLsbD n.val = false) → r.extractLsb' 12 9 = 0#9)) ∧
      tcipWrite 0xE000EC00#32 w s = .ok () s ∧
      tcipRead 0xE000E100#32 s = .ok s.vic.enable s ∧ tcipRead 0xE000E180#32 s = .ok s.vic.enable s ∧
      tcipRead 0xE000E140#32 s = .ok s.vic.wakeup s ∧ tcipRead 0xE000E1C0#32 s = .ok s.vic.wakeup s ∧
      tcipRead 0xE000E200#32 s = .ok s.vic.pending s ∧ tcipRead 0xE000E280#32 s = .ok s.vic.pending s ∧
      tcipRead 0xE000E300#32 s = .ok s.vic.active s) ∧
    (s.cfg.hasCoreTim = true →
      (∃ r, tcipRead 0xE000E010#32 s = .ok r { s with timer := { s.timer with countflag := false } } ∧ r.getLsbD 16 = s.timer.countflag ∧
        r.getLsbD 2 = (s.timer.clksource || !s.cfg.hasRefClk) ∧ r.getLsbD 1 = s.timer.tickint ∧ r.getLsbD 0 = s.timer.enable ∧ r &&& 0xFFFEFFF8#32 = 0#32) ∧
      tcipWrite 0xE000E010#32 w s = .ok () { s with timer := { s.timer with
        clksource := if s.cfg.hasRefClk = true then w.getLsbD 2 else s.timer.clksource, tickint := w.getLsbD 1, enable := w.getLsbD 0 } } ∧
      tcipRead 0xE000E014#32 s = .ok (s.timer.reload.setWidth 32) s ∧
      tcipWrite 0xE000E014#32 w s = .ok () { s with timer := { s.timer with reload := w.extractLsb' 0 24 } } ∧
      tcipRead 0xE000E018#32 s = .ok (s.timer.current.setWidth 32) s ∧
      tcipWrite 0xE000E018#32 w s = .ok () { s with timer := { s.timer with current := 0, countflag := false } } ∧
      (∃ r, tcipRead 0xE000E01C#32 s = .ok r s ∧ r.getLsbD 31 = s.cfg.calib.getLsbD 25 ∧ r.getLsbD 30 = s.cfg.calib.getLsbD 24 ∧
        r.extractLsb' 0 24 = s.cfg.calib.extractLsb' 0 24 ∧ r &&& 0x3F000000#32 = 0#32) ∧
      tcipWrite 0xE000E01C#32 w s = .ok () s) ∧
    (s.cfg.hasDebug = true →
      let ok (h : Had) : Prop := ∃ f, tcipWrite 0xE00110E8#32 w s = .ok () { s with had := h, freeCount := f }
      let start : Prop := s.had.hcr.getLsbD 29 = true ∧ s.had.busy = false ∧ s.had.mode.toNat < 2
      let size (z : Size) : Prop := s.had.size = (match z with | .byte => 0#3 | .half => 1#3 | .word => 2#3)
      let next (z : Size) : Word := if s.had.mode = 1#3 then s.had.datr + BitVec.ofNat 32 (sizeBytes z) else s.had.datr
      tcipRead 0xE0011034#32 s = .ok s.had.hcr s ∧ tcipRead 0xE0011038#32 s = .ok s.had.hsr s ∧ tcipWrite 0xE0011038#32 w s = .ok () s ∧
      tcipRead 0xE0011054#32 s = .ok s.had.csr s ∧
      ((∀ k, k < 32 → k ≠ 29 → w.getLsbD k = s.had.hcr.getLsbD k) → tcipWrite 0xE0011034#32 w s = .ok () { s with had := { s.had with hcr := w } }) ∧
      ((∃ k, k < 32 ∧ k ≠ 29 ∧ w.getLsbD k ≠ s.had.hcr.getLsbD k) → tcipWrite 0xE0011034#32 w s = .refuse .hadEffectUnknown) ∧
      (w = s.had.csr → w ≠ 0#32 → tcipWrite 0xE0011054#32 w s = .ok () s) ∧
      (w = 0#32 → tcipWrite 0xE0011054#32 w s = .ok () { s with had := { s.had with csr := 0, fdb := false } }) ∧
      (w ≠ s.had.csr → w ≠ 0#32 → tcipWrite 0xE0011054#32 w s = .refuse .hadEffectUnknown) ∧
      tcipRead 0xE00110E4#32 s = .ok s.had.datr s ∧ tcipWrite 0xE00110E4#32 w s = .ok () { s with had := { s.had with datr := w } } ∧
      (∃ r f, tcipRead 0xE00110E0#32 s = .ok r { s with freeCount := f } ∧ r.extractLsb' 0 3 = s.had.mode ∧ r.extractLsb' 4 3 = s.had.size) ∧
      ((w.extractLsb' 0 3).toNat < 2 → (w.extractLsb' 4 3).toNat < 3 → ∃ p d f, tcipWrite 0xE00110E0#32 w s =
        .ok () { s with had := { s.had with mode := w.extractLsb' 0 3, size := w.extractLsb' 4 3, prot := p, dataPhase := d }, freeCount := f }) ∧
      ((2 ≤ (w.extractLsb' 0 3).toNat ∨ 3 ≤ (w.extractLsb' 4 3).toNat) → tcipWrite 0xE00110E0#32 w s = .refuse .ddmaReserved) ∧
      (s.had.hcr.getLsbD 29 = false → tcipWrite 0xE00110E8#32 w s = .ok () { s with had := { s.had with darwr := w } } ∧
        (s.had.dataPhase = false → tcipRead 0xE00110E8#32 s = .ok s.had.darwr s)) ∧
      (s.had.dataPhase = true → tcipRead 0xE00110E8#32 s = .ok s.had.darwr { s with had := { s.had with dataPhase := false } }) ∧
      (∀ z, size z → start → s.had.datr.toNat % sizeBytes z = 0 →
        (isMemory s s.had.datr →
          (∃ f, tcipWrite 0xE00110E8#32 w s = .ok () { s with
            mem := memStore s.cfg.bigEndian z s.had.datr w s.mem, freeCount := f
            had := { s.had with darwr := w, error := false, datr := next z } }) ∧
          (s.had.dataPhase = false → ∃ d f, (∀ k, k < 8 * sizeBytes z → d.getLsbD k = (datum s z s.had.datr).getLsbD k) ∧
            tcipRead 0xE00110E8#32 s = .ok s.had.darwr { s with
              freeCount := f
              had := { s.had with darwr := d, error := false, datr := next z, dataPhase := decide (s.had.mode = 0#3) } })) ∧
        (inTcip s s.had.datr = false → slaveAt s.cfg s.had.datr = .busError →
          ok { s.had with darwr := w, error := true } ∧
          (s.had.dataPhase = false → ∃ f, tcipRead 0xE00110E8#32 s = .ok s.had.darwr { s with freeCount := f, had := { s.had with error := true } }))) ∧
      (s.had.hcr.getLsbD 29 = true → (2 ≤ s.had.mode.toNat ∨ 3 ≤ s.had.size.toNat) → tcipWrite 0xE00110E8#32 w s = .refuse .ddmaReserved))

/-- R113, R114, U4: a supervisor word load, literal load or store in the tightly coupled IP range that the MPU allows is the register's own read or write; a hole reads 0 and ignores writes; byte and half-word accesses of a supervisor there
are refused by the spec. -/
def Obligations.TcipWordAccess : Prop :=
  (∀ (rz rx : Reg) (o5 : BitVec 5) (o7 : BitVec 7) (o8 : BitVec 8) (o12 : BitVec 12) (o16 : BitVec 16) (s : State),
    let a7 := BitVec.ofNat 32 (4 * ((s.pc + BitVec.ofNat 32 (4 * o7.toNat)).toNat / 4))
    let a16 := BitVec.ofNat 32 (4 * ((s.pc + BitVec.ofNat 32 (4 * o16.toNat)).toNat / 4))
    tcipPair (.ld16w rz rx o5) (.st16w rz rx o5) 2#32 rz rx (4 * o5.toNat) s ∧
    tcipPair (.ld16wsp rz o8) (.st16wsp rz o8) 2#32 rz .r14 (4 * o8.toNat) s ∧
    tcipPair (.ld32w rz rx o12) (.st32w rz rx o12) 4#32 rz rx (4 * o12.toNat) s ∧
    (∀ v t, s.psr.s = true → inTcip s a7 = true → mpuAllows .read true a7 s = true → tcipRead a7 s = .ok v t →
      exec (.lrw16 rz o7) s = .next { writeReg rz v t with pc := pcAfter t 2#32 }) ∧
    (∀ v t, s.psr.s = true → inTcip s a16 = true → mpuAllows .read true a16 s = true → tcipRead a16 s = .ok v t →
      exec (.lrw32 rz o16) s = .next { writeReg rz v t with pc := pcAfter t 4#32 }) ∧
    subwordPair (.ld16b rz rx o5) (.st16b rz rx o5) .byte rx o5.toNat s ∧
    subwordPair (.ld32b rz rx o12) (.st32b rz rx o12) .byte rx o12.toNat s ∧
    subwordPair (.ld16h rz rx o5) (.st16h rz rx o5) .half rx (2 * o5.toNat) s ∧
    subwordPair (.ld32h rz rx o12) (.st32h rz rx o12) .half rx (2 * o12.toNat) s) ∧
  (∀ (a v : Word) (s : State), tcipReg s.cfg a = none → tcipRead a s = .ok 0#32 s ∧ tcipWrite a v s = .ok () s)

/-- R473: one tick of the timer, by the spec's own reading of the source's prose (assumption log 30), and R473's consequence that a round lasts RELOAD + 1 ticks: from CURRENT = 0 with RELOAD = n > 0, after k + 1 ticks (k ≤ n) CURRENT is n - k, and COUNTFLAG is set at the last of them. How many ticks
a step takes is in StepRunsTheInstruction. -/
def Obligations.TimerRound : Prop :=
  (∀ (n : Nat) (t : CoreTim), timerTicks 0 t = t ∧ timerTicks (n + 1) t = timerTicks n (timerTick t)) ∧
  (∀ t : CoreTim, t.enable = false → timerTick t = t) ∧
  (∀ t : CoreTim, t.enable = true → t.current = 0#24 → timerTick t = { t with current := t.reload }) ∧
  (∀ t : CoreTim, t.enable = true → t.current ≠ 0#24 →
    timerTick t = { t with current := t.current - 1#24, countflag := t.countflag || decide (t.current = 1#24) }) ∧
  (∀ t : CoreTim, t.enable = true → t.current = 0#24 → t.reload ≠ 0#24 →
    (∀ k, k ≤ t.reload.toNat → (timerTicks (k + 1) t).current.toNat = t.reload.toNat - k) ∧
    (∀ k, k < t.reload.toNat → (timerTicks (k + 1) t).countflag = t.countflag) ∧
    timerTicks (t.reload.toNat + 1) t = { t with countflag := true })

/-- R486, R433, R540, R541, R522: a sleeping core stays asleep with all its state until a source is pending and enabled for wake-up (whatever VIC_ISER, IE and EE say) or, without the VIC, the raw wake-up pin is active, and then goes on at the
PC; a debug request takes it into debug mode. had_pad_jdb_pm is 01 while it sleeps, 10 in debug mode with sysio_pad_dbg_b low, and 00 otherwise. -/
def Obligations.SleepAndWake : Prop :=
  ∀ (s : State),
    let a := absorb s
    (currentInput s).pins.reset = false → a.inReset = false → a.lockup = false → a.hung = false → a.debugMode = false → a.lowPower ≠ .none →
    ((currentInput s).debugRequest && s.cfg.hasDebug) = false →
    (s.cfg.vicSize ≠ .absent →
      ((∃ k, k < 32 ∧ a.vic.pending.getLsbD k = true ∧ a.vic.wakeup.getLsbD k = true) → step s = .next { a with lowPower := .none }) ∧
      ((∀ k, k < 32 → a.vic.pending.getLsbD k = true → a.vic.wakeup.getLsbD k = false) → step s = .next a)) ∧
    (s.cfg.vicSize = .absent →
      (a.pins.intRaw = true → step s = .next { a with lowPower := .none }) ∧ (a.pins.intRaw = false → step s = .next a)) ∧
    (a.pc = s.pc ∧ a.regs = s.regs ∧ a.psr = s.psr ∧ padJdbPm a = 1#2 ∧ padDbgB a = true ∧ padJdbPm { a with lowPower := .none } = 0#2)

/-! ### Reset, stuck state and the step -/

/-- R75, R470, R483: the reset values the spec states, at State.reset (those of CCR.MP, PACR.E, PRSR and CHR.IAE are its decision D8, assumption log 4). -/
def Obligations.ResetValues : Prop :=
  psrWord State.reset.psr = 0x80000000#32 ∧ vbrWord State.reset.vbr = 0#32 ∧ State.reset.mpuOn = false ∧ State.reset.prsr = 0#3 ∧
  (∀ n : Fin 8, (State.reset.pacr.get n).enable = false) ∧ State.reset.iae = false ∧ State.reset.idlyCount = 0 ∧
  State.reset.lowPower = .none ∧ State.reset.debugMode = false ∧ State.reset.lockup = false ∧ State.reset.hung = false ∧ coretCsr State.reset.cfg State.reset.timer = 0x00000004#32 ∧
  State.reset.vic.enable = 0#32 ∧ State.reset.vic.wakeup = 0#32 ∧ State.reset.vic.pending = 0#32 ∧ State.reset.vic.active = 0#32 ∧
  (∀ k : Fin 8, vicIpr k State.reset.vic = 0#32) ∧ vicIptr State.reset.vic = 0#32 ∧ vicIsr State.reset.psr.vec State.reset.vic = 0#32

/-- R415, R550, R551: while the reset input is asserted a step resets the registers to the values the spec states and leaves memory as the input left it, whatever the core was doing; the first step after it is released reads the word at address 0 and
goes there. When that read fails, UnrecoverableError is entered with unspecified EPSR and EPC, or the core is stuck. EPSR and EPC hold no defined value after reset and are free values (U2, assumption log 8); CCR.MP, PACR.E, PRSR and CHR.IAE = 0 are decision D8
(assumption log 4), the pulse latches assumption log 48, the debug unit's registers, which are kept, assumption log 54, the two steps assumption log 7. -/
def Obligations.ResetSequence : Prop :=
  ∀ (s : State),
    let a := absorb s
    let failed (t : State) : Prop := t = { landed 1 a with
      inReset := false, epsr := t.epsr, epc := t.epc, freeCount := t.freeCount, pc := t.pc, lockup := t.lockup
      psr := { s.psr with s := true, vec := 8#8, ee := false, ie := false } }
    ((currentInput s).pins.reset = true →
      ∃ t, step s = .next t ∧ registersReset a t ∧ t.debugMode = false ∧ t.nieShadow = false ∧ t.inReset = true) ∧
    ((currentInput s).pins.reset = false → a.inReset = true →
      (mpuAllows .read true 0#32 a = true → isMemory a 0#32 →
        step s = .next { a with inReset := false, pc := datum a .word 0#32 &&& 0xFFFFFFFE#32 }) ∧
      ((mpuAllows .read true 0#32 a = false ∨ (inTcip a 0#32 = false ∧ slaveAt a.cfg 0#32 = .busError)) →
        (vectorReadable 8#8 a → ∃ t, step s = .next t ∧ failed t ∧ t.lockup = a.lockup ∧ t.pc = vectorWord 8#8 (landed 1 a) &&& 0xFFFFFFFE#32) ∧
        (vectorFails 8#8 a → ∃ t, step s = .next t ∧ failed t ∧ t.lockup = true ∧ t.pc = a.pc)))

/-- R413, R131: in the stuck state, and while a slave never answers, only time passes until reset: the step answers the state with the input absorbed, still stuck or waiting. -/
def Obligations.StuckUntilReset : Prop :=
  ∀ (s : State), s.lockup = true ∨ s.hung = true → s.inReset = false → (currentInput s).pins.reset = false →
    step s = .next (absorb s) ∧ (absorb s).lockup = s.lockup ∧ (absorb s).hung = s.hung ∧ (absorb s).pc = s.pc ∧ (absorb s).regs = s.regs ∧
    (absorb s).psr = s.psr

/-- R191, R385, R150, R522: a core that runs and takes no interrupt executes the well-formed instruction its PC points at: the step is `exec` of it on the state that the input and the gaps of its fetch leave, and then one instruction of a running
IDLY32 sequence is counted. A core in debug mode executes by `exec`, with no more around it, the instruction whose half-words the debugger feeds, enters IllegalInstruction when they are no instruction, stays as it is when it is fed nothing, and leaves on the exit command (what is
done with a fed word, and with one that is no instruction, is assumption log 36; that it leaves with whatever PC, PSR and CSR it then holds is assumption log 57). The input, the next one listed, reaches no more than the pins, memory that other masters write, the timer, which
takes the ticks that pass of the clock CLKSOURCE selects and none in debug mode (R472, R473), the VIC, which takes one sample of the lines (R490, assumption log 24), and the debug
unit's registers that the debugger writes. -/
def Obligations.StepRunsTheInstruction : Prop :=
  (∀ (s : State) (i : Instr), running s → pendingInterrupt (absorb s) = none → instrAt (absorb s) i → i.wellFormed = true →
    let u := atExec { absorb s with nieShadow := false }
    (∀ t, exec i u = .next t →
      step s = .next (if 0 < s.idlyCount ∧ t.debugMode = false ∧ t.hung = false then { t with idlyCount := t.idlyCount - 1 } else t)) ∧
    (∀ r, exec i u = .refused r → step s = .refused r)) ∧
  (∀ (s : State), (currentInput s).pins.reset = false → (absorb s).inReset = false → (absorb s).lockup = false → (absorb s).hung = false →
    (absorb s).debugMode = true →
    ((currentInput s).debugGo = true → step s = .next { absorb s with debugMode := false }) ∧
    ((currentInput s).debugGo = false → (currentInput s).debugInstr = none → step s = .next (absorb s)) ∧
    (∀ h0 h1, (currentInput s).debugGo = false → (currentInput s).debugInstr = some (h0, h1) →
      (∀ i, decodeHalves h0 h1 = .ok i → step s = exec i (absorb s)) ∧
      ((∀ i, decodeHalves h0 h1 ≠ .ok i) → step s = takeException 4#8 s.pc (absorb s)))) ∧
  (∀ (s : State), (currentInput s).pins.reset = false → (absorb s).inReset = false → (absorb s).lockup = false → (absorb s).hung = false →
    (absorb s).debugMode = false → (currentInput s).debugRequest = true → s.cfg.hasDebug = true →
    step s = .next { absorb s with debugMode := true, lowPower := .none } ∧
    padJdbPm { absorb s with debugMode := true, lowPower := .none } = 2#2 ∧ padDbgB { absorb s with debugMode := true, lowPower := .none } = false) ∧
  (∀ (s : State), (∀ i rest, s.inputs = i :: rest → currentInput s = i) ∧ absorb s = { s with
    inputs := s.inputs.tail, pins := (currentInput s).pins, between := (currentInput s).between
    mem := writeBytes (currentInput s).busWrites s.mem
    had := if s.cfg.hasDebug = true then (currentInput s).hadWrite.getD s.had else s.had
    timer :=
      if s.cfg.hasCoreTim = true ∧ s.debugMode = false then
        timerTicks (if s.timer.clksource = true ∨ s.cfg.hasRefClk = false then (currentInput s).coreTicks else (currentInput s).refTicks) s.timer
      else s.timer
    vic := (sampleVic { s with pins := (currentInput s).pins, timer := (absorb s).timer }).vic })

/-! ### Encoding -/

/-- R160 with the examples of the instruction rules: words of every family written out from their encodings decode to the instruction they stand for. -/
def Obligations.SpecExampleWordsDecode : Prop :=
  decodeHalves 0x6048 0 = .ok (.addu16 .r1 .r2) ∧ decodeHalves 0x5A2D 0 = .ok (.subu16r3 .r1 .r2 .r3) ∧
  decodeHalves 0x171F 0 = .ok (.addi16sp 0x7F) ∧ decodeHalves 0x4224 0 = .ok (.lsli16 .r1 .r2 4) ∧
  decodeHalves 0x6486 0 = .ok (.cmpne16 .r1 .r2) ∧ decodeHalves 0x7BCD 0 = .ok (.jsr16 .r3) ∧
  decodeHalves 0x07FF 0 = .ok (.br16 0x3FF) ∧ decodeHalves 0x9F3F 0 = .ok (.ld16wsp .r1 0xFF) ∧
  decodeHalves 0xDC22 0x2004 = .ok (.st32w .r1 .r2 4) ∧ decodeHalves 0x14D8 0 = .ok (.push16 true 8) ∧
  decodeHalves 0xC02E 0x6023 = .ok (.mfcr32 .r3 14 1) ∧ decodeHalves 0xC060 0x1C20 = .ok (.idly32 3) ∧
  decodeHalves 0xEA81 0x0001 = .ok (.lrw32 .r1 1)

/-- R151, R153, R154, R160: decoding the bytes of a well-formed instruction, followed by any bytes, gives the instruction back and leaves those bytes, in either byte order. -/
def Obligations.DecodeUndoesEncode : Prop :=
  ∀ (i : Instr) (be : Bool) (rest : List Byte), i.wellFormed = true →
    decodeBytes be (encodeBytes be i ++ rest) = .ok (i, rest)

/-- R160: the other direction: half-words that decode give a well-formed instruction whose encoding is those half-words, so that no two words mean one instruction. -/
def Obligations.EncodeUndoesDecode : Prop :=
  ∀ (h0 h1 : Half) (i : Instr), decodeHalves h0 h1 = .ok i →
    i.wellFormed = true ∧ encode i = if isLong h0 = true then [h0, h1] else [h0]

/-! ### The whole machine -/

/-- The machine's invariant holds at reset. -/
def Obligations.InvariantAtReset : Prop := Inv State.reset

/-- R8, R32, R57, R59, R70, R121, R472, R482: every step keeps the invariant: memory in canonical form, an even PC, reserved bits 0, legal protection regions, an IDLY32 count of at most 32. -/
def Obligations.StepKeepsInvariant : Prop :=
  ∀ s t : State, Inv s → step s = .next t → Inv t

/-- R101, R552: byte order, clock ratio and every other parameter of the configuration are constants of a run. -/
def Obligations.ConfigurationIsConstant : Prop :=
  ∀ s t : State, step s = .next t → t.cfg = s.cfg

/-- R440, R441: an instruction executed in user mode either enters an exception (supervisor mode, EE = IE = 0) or leaves every control register, every PSR bit but C, the supervisor stack pointer, the tightly coupled IP's registers and everything else that is not user state as it was;
in both cases VBR, the MPU's registers, CHR and the supervisor stack pointer are unchanged. -/
def Obligations.UserModeConfinement : Prop :=
  ∀ (i : Instr) (s t : State), s.psr.s = false → exec i s = .next t →
    (t.vbr = s.vbr ∧ t.mpuOn = s.mpuOn ∧ t.capr = s.capr ∧ t.pacr = s.pacr ∧ t.prsr = s.prsr ∧ t.iae = s.iae ∧ t.regs.ssp = s.regs.ssp) ∧
    ((t.psr.s = true ∧ t.psr.ee = false ∧ t.psr.ie = false) ∨
     (t = { s with
        regs := t.regs, pc := t.pc, psr := { s.psr with c := t.psr.c }, mem := t.mem, between := t.between
        idlyCount := t.idlyCount, debugMode := t.debugMode, hung := t.hung, freeCount := t.freeCount }))

/-- R124, R417: an instruction executed in user mode, whatever it ends in, changes no byte of memory that the MPU denies to a user write, and none in the tightly coupled IP range; other bus masters may change a byte in its gaps (R150, assumption log 49). -/
def Obligations.UserWritesStayWithinMpu : Prop :=
  ∀ (i : Instr) (s t : State), s.psr.s = false → exec i s = .next t →
    ∀ a : Word, byteAt t a ≠ byteAt s a → (mpuAllows .write false a s = true ∧ inTcip s a = false) ∨ ∃ ws ∈ s.between, ∃ p ∈ ws, p.1 = a
end

