-- ==== Sys2Proof/Laws/Decode.lean ====
section
/-! SUPPORT. The laws of the decoder: its rows are disjoint (30_encoding.md R160), so the row a word matches reads it; register fields and byte order
read back what the encoder wrote. -/

namespace Sys2Proof

/-- No word matches both rows. -/
def rowsApart {n : Nat} (r q : Row n) : Prop := r.pat &&& (r.mask &&& q.mask) ≠ q.pat &&& (r.mask &&& q.mask)

theorem rows16_apart : (rows16.map (fun r => (r.mask, r.pat))).Pairwise
    (fun r q => r.2 &&& (r.1 &&& q.1) ≠ q.2 &&& (r.1 &&& q.1)) := by decide +kernel

theorem rows32_apart : (rows32.map (fun r => (r.mask, r.pat))).Pairwise
    (fun r q => r.2 &&& (r.1 &&& q.1) ≠ q.2 &&& (r.1 &&& q.1)) := by decide +kernel

/-- Two rows that a word matches are not apart. -/
theorem not_rowsApart {n : Nat} {r q : Row n} {w : BitVec n} (hr : w &&& r.mask = r.pat) (hq : w &&& q.mask = q.pat) :
    ¬rowsApart r q := by
  intro h
  apply h
  rw [← hr, ← hq]
  ext i hi
  simp
  cases w[i] <;> cases r.mask[i] <;> cases q.mask[i] <;> rfl

/-- In a list of rows that are apart, the row a word matches reads it. -/
theorem decodeRows_of_mem {n : Nat} {rows : List (Row n)}
    (hp : (rows.map (fun r => (r.mask, r.pat))).Pairwise (fun r q => r.2 &&& (r.1 &&& q.1) ≠ q.2 &&& (r.1 &&& q.1)))
    {r : Row n} (hr : r ∈ rows) {w : BitVec n} (hw : w &&& r.mask = r.pat) : decodeRows rows w = r.build w := by
  have key : rows.find? (fun r => w &&& r.mask == r.pat) = some r := by
    induction rows with
    | nil => cases hr
    | cons q rows ih =>
      rw [List.map_cons, List.pairwise_cons] at hp
      rcases List.mem_cons.mp hr with rfl | hm
      · rw [List.find?_cons_of_pos]
        simpa using hw
      · rw [List.find?_cons_of_neg, ih hp.2 hm]
        intro hq
        exact not_rowsApart (by simpa using hq) hw (hp.1 _ (List.mem_map_of_mem hm))
  simp [decodeRows, key]

/-- A four-bit register field reads back. -/
@[simp] theorem Reg.ofNum_num (r : Reg) : Reg.ofNum r.num = r := by cases r <;> rfl

/-- A three-bit register field reads back a low register. -/
theorem Reg.ofNum_num3 (r : Reg) (h : r.isLow = true) : Reg.ofNum (0#1 ++ r.num3) = r := by
  cases r <;> first | rfl | exact absurd h (by decide)

/-- The bytes of a half-word read back. -/
theorem halfOfBytes_bytes (be : Bool) (h : Half) :
    (if be then halfOfBytes be (h.extractLsb' 8 8) (h.extractLsb' 0 8) else halfOfBytes be (h.extractLsb' 0 8) (h.extractLsb' 8 8)) = h := by
  have e : h.extractLsb' 8 8 ++ h.extractLsb' 0 8 = h := by
    apply BitVec.eq_of_getLsbD_eq
    intro i hi
    rw [BitVec.getLsbD_append, BitVec.getLsbD_extractLsb', BitVec.getLsbD_extractLsb']
    interval_cases i <;> simp
  cases be <;> simpa [halfOfBytes] using e

/-- Whether a half-word starts a 32-bit instruction, by its bits (R151). -/
theorem isLong_eq (h : Half) : isLong h = (h.getLsbD 15 && h.getLsbD 14) := by
  have key : h.extractLsb' 14 2 = BitVec.ofBool (h.getLsbD 15) ++ BitVec.ofBool (h.getLsbD 14) := by
    apply BitVec.eq_of_getLsbD_eq
    intro i hi
    rw [BitVec.getLsbD_append, BitVec.getLsbD_extractLsb']
    interval_cases i <;> simp
  rw [isLong, key]
  cases h.getLsbD 15 <;> cases h.getLsbD 14 <;> rfl

end Sys2Proof
end

