-- ==== Sys2Proof/Laws/Memory.lean ====
section
/-! SUPPORT. The laws of memory: reading back what was written, the canonical form, and a datum read back after it was stored. -/

namespace Sys2Proof.Machine

theorem Memory.read_nil (a : Nat) : Memory.read [] a = unlistedByte := rfl

theorem Memory.read_cons (k : Nat) (b : Byte) (m : Memory) (a : Nat) :
    Memory.read ((k, b) :: m) a = if a = k then b else if a < k then unlistedByte else m.read a := rfl

/-- Cells at or below an address do not matter to the reads above it. -/
theorem Memory.read_dropWhile (m : Memory) (a x : Nat) (h : a < x) :
    Memory.read (m.dropWhile (fun cell => decide (cell.1 ≤ a))) x = m.read x := by
  induction m with
  | nil => rfl
  | cons cell m ih =>
    obtain ⟨k, b⟩ := cell
    by_cases hk : k ≤ a
    · rw [List.dropWhile_cons_of_pos (by simpa using hk), ih, Memory.read_cons, if_neg (by omega), if_neg (by omega)]
    · rw [List.dropWhile_cons_of_neg (by simpa using hk)]

/-- Nothing is read at an address when the cells at or below it are gone. -/
theorem Memory.read_dropWhile_self (m : Memory) (a : Nat) :
    Memory.read (m.dropWhile (fun cell => decide (cell.1 ≤ a))) a = unlistedByte := by
  induction m with
  | nil => rfl
  | cons cell m ih =>
    obtain ⟨k, b⟩ := cell
    by_cases hk : k ≤ a
    · rw [List.dropWhile_cons_of_pos (by simpa using hk), ih]
    · rw [List.dropWhile_cons_of_neg (by simpa using hk), Memory.read_cons, if_neg (by omega), if_pos (by omega)]

/-- Reads of a memory with one byte in front of the cells above it. -/
theorem Memory.read_place (a x : Nat) (b : Byte) (m : Memory) (below : m.read a = unlistedByte)
    (low : ∀ y, y < a → m.read y = unlistedByte) :
    Memory.read (Memory.place a b m) x = if x = a then b else m.read x := by
  unfold Memory.place
  split
  · next h => split
              · next hx => rw [hx, below, h]
              · rfl
  · rw [Memory.read_cons]
    split
    · rfl
    · split
      · next h => rw [low x h]
      · rfl

/-- Below every cell that is left, nothing is listed. -/
theorem Memory.read_dropWhile_low (m : Memory) (a x : Nat) (h : x < a) :
    Memory.read (m.dropWhile (fun cell => decide (cell.1 ≤ a))) x = unlistedByte := by
  induction m with
  | nil => rfl
  | cons cell m ih =>
    obtain ⟨k, b⟩ := cell
    by_cases hk : k ≤ a
    · rw [List.dropWhile_cons_of_pos (by simpa using hk), ih]
    · rw [List.dropWhile_cons_of_neg (by simpa using hk), Memory.read_cons, if_neg (by omega), if_pos (by omega)]

/-- A read after a write. -/
theorem Memory.read_write (m : Memory) (a x : Nat) (b : Byte) :
    (m.write a b).read x = if x = a then b else m.read x := by
  induction m with
  | nil => exact Memory.read_place a x b [] rfl (fun _ _ => rfl)
  | cons cell m ih =>
    obtain ⟨k, c⟩ := cell
    rw [Memory.write]
    split
    · next hk =>
      rw [Memory.read_cons, Memory.read_cons, ih]
      split
      · next h => rw [if_neg (by omega)]
      · split
        · next h => rw [if_neg (by omega)]
        · rfl
    · next hk =>
      rw [Memory.read_place a x b _ (Memory.read_dropWhile_self _ _) (fun y h => Memory.read_dropWhile_low _ _ _ h)]
      split
      · rfl
      · next hx =>
        by_cases hl : x < a
        · rw [Memory.read_dropWhile_low _ _ _ hl, Memory.read_cons, if_neg (by omega), if_pos (by omega)]
        · exact Memory.read_dropWhile _ _ _ (by omega)

theorem Memory.wfFrom_mono {lo lo' : Nat} (h : lo' ≤ lo) {m : Memory} (hw : m.wfFrom lo = true) : m.wfFrom lo' = true := by
  cases m with
  | nil => rfl
  | cons cell m =>
    obtain ⟨k, b⟩ := cell
    simp only [Memory.wfFrom, Bool.and_eq_true, decide_eq_true_eq] at hw ⊢
    exact ⟨⟨⟨by omega, hw.1.1.2⟩, hw.1.2⟩, hw.2⟩

theorem Memory.wfFrom_dropWhile {lo : Nat} (a : Nat) {m : Memory} (hw : m.wfFrom lo = true) :
    Memory.wfFrom (a + 1) (m.dropWhile (fun cell => decide (cell.1 ≤ a))) = true := by
  induction m generalizing lo with
  | nil => rfl
  | cons cell m ih =>
    obtain ⟨k, b⟩ := cell
    by_cases hk : k ≤ a
    · rw [List.dropWhile_cons_of_pos (by simpa using hk)]
      simp only [Memory.wfFrom, Bool.and_eq_true] at hw
      exact ih hw.2
    · rw [List.dropWhile_cons_of_neg (by simpa using hk)]
      simp only [Memory.wfFrom, Bool.and_eq_true, decide_eq_true_eq] at hw ⊢
      exact ⟨⟨⟨by omega, hw.1.1.2⟩, hw.1.2⟩, hw.2⟩

theorem Memory.wfFrom_place {lo a : Nat} (hlo : lo ≤ a) (ha : a < 4294967296) (b : Byte) {m : Memory}
    (hw : m.wfFrom (a + 1) = true) : (Memory.place a b m).wfFrom lo = true := by
  unfold Memory.place
  split
  · exact Memory.wfFrom_mono (by omega) hw
  · next h =>
    simp only [Memory.wfFrom, Bool.and_eq_true, decide_eq_true_eq]
    exact ⟨⟨⟨hlo, ha⟩, h⟩, hw⟩

theorem Memory.wfFrom_write {lo a : Nat} (hlo : lo ≤ a) (ha : a < 4294967296) (b : Byte) {m : Memory}
    (hw : m.wfFrom lo = true) : (m.write a b).wfFrom lo = true := by
  induction m generalizing lo with
  | nil => exact Memory.wfFrom_place hlo ha b rfl
  | cons cell m ih =>
    obtain ⟨k, c⟩ := cell
    rw [Memory.write]
    split
    · next hk =>
      simp only [Memory.wfFrom, Bool.and_eq_true, decide_eq_true_eq] at hw ⊢
      exact ⟨⟨⟨hw.1.1.1, hw.1.1.2⟩, hw.1.2⟩, ih (by omega) hw.2⟩
    · exact Memory.wfFrom_place hlo ha b (Memory.wfFrom_dropWhile a hw)

/-- A write of one byte keeps the canonical form. -/
theorem Memory.wf_write {m : Memory} (a : Word) (b : Byte) (hw : m.wf = true) : (m.write a.toNat b).wf = true :=
  Memory.wfFrom_write (Nat.zero_le _) a.isLt b hw

/-- A write of bytes keeps the canonical form. -/
theorem Memory.wf_writeList (bs : List Byte) {m : Memory} (a : Word) (hw : m.wf = true) : (m.writeList a bs).wf = true := by
  induction bs generalizing m a with
  | nil => exact hw
  | cons b bs ih => exact ih _ (Memory.wf_write a b hw)

/-- A store keeps the canonical form. -/
theorem memStore_wf (be : Bool) (z : Size) (a v : Word) {m : Memory} (hw : m.wf = true) : (memStore be z a v m).wf = true :=
  Memory.wf_writeList _ a hw

theorem toNat_ne_of_sub {x a : Word} {n : Nat} (h : n ≤ (x - a).toNat) (i : Nat) (hi : i < n) :
    x.toNat ≠ (a + BitVec.ofNat 32 i).toNat := by
  intro hx
  have : x = a + BitVec.ofNat 32 i := BitVec.eq_of_toNat_eq hx
  subst this
  have e : a + BitVec.ofNat 32 i - a = BitVec.ofNat 32 i := by
    rw [BitVec.add_comm, BitVec.add_sub_cancel]
  rw [e, BitVec.toNat_ofNat] at h
  exact absurd (Nat.le_trans h (Nat.mod_le i (2 ^ 32))) (by omega)

/-- Bytes that a write of a list does not reach keep their value. -/
theorem Memory.read_writeList_outside (bs : List Byte) (m : Memory) (a x : Word) (h : bs.length ≤ (x - a).toNat) :
    (m.writeList a bs).read x.toNat = m.read x.toNat := by
  induction bs generalizing m a with
  | nil => rfl
  | cons b bs ih =>
    have hne : x ≠ a := by
      rintro rfl
      simp at h
    have hlt : (x - (a + 1#32)).toNat = (x - a).toNat - 1 := by
      simp only [List.length_cons] at h
      have := x.isLt
      have := a.isLt
      simp only [BitVec.toNat_sub, BitVec.toNat_add, BitVec.toNat_ofNat] at h ⊢
      omega
    rw [Memory.writeList, ih (m.write a.toNat b) (a + 1#32) (by rw [hlt]; simp only [List.length_cons] at h; omega), Memory.read_write,
      if_neg (fun e => hne (BitVec.eq_of_toNat_eq e))]

theorem dataBytes_length (be : Bool) (z : Size) (v : Word) : (dataBytes be z v).length = sizeBytes z := by
  cases z <;> cases be <;> rfl

/-- Bytes that a store does not reach keep their value. -/
theorem memStore_outside (be : Bool) (z : Size) (a v x : Word) (m : Memory) (h : sizeBytes z ≤ (x - a).toNat) :
    (memStore be z a v m).read x.toNat = m.read x.toNat :=
  Memory.read_writeList_outside _ m a x (by rw [dataBytes_length]; exact h)

/-- The bytes of a list are read back after they are written. -/
theorem Memory.read_writeList_inside (bs : List Byte) (m : Memory) (a : Word) (i : Nat) (hi : i < bs.length)
    (small : bs.length ≤ 4294967296) :
    (m.writeList a bs).read (a + BitVec.ofNat 32 i).toNat = bs[i] := by
  induction bs generalizing m a i with
  | nil => simp at hi
  | cons b bs ih =>
    cases i with
    | zero =>
      rw [Memory.writeList, Memory.read_writeList_outside]
      · simp [Memory.read_write]
      · have := a.isLt
        simp only [List.length_cons, BitVec.toNat_sub, BitVec.toNat_add, BitVec.toNat_ofNat] at small ⊢
        omega
    | succ i =>
      have e : a + BitVec.ofNat 32 (i + 1) = a + 1#32 + BitVec.ofNat 32 i := by
        rw [BitVec.add_assoc]
        congr 1
        apply BitVec.eq_of_toNat_eq
        simp [BitVec.toNat_add, Nat.add_comm]
      simp at hi small
      rw [Memory.writeList, e, ih (m.write a.toNat b) (a + 1#32) i hi (by omega)]
      simp

/-- The bytes of a datum are read back after it is stored. -/
theorem memStore_inside (be : Bool) (z : Size) (a v : Word) (m : Memory) (k : Nat) (hk : k < (dataBytes be z v).length) :
    (memStore be z a v m).read (a + BitVec.ofNat 32 k).toNat = (dataBytes be z v)[k] :=
  Memory.read_writeList_inside _ m a k hk (by rw [dataBytes_length]; cases z <;> decide)

theorem word_of_bytes (v : Word) :
    v.extractLsb' 24 8 ++ v.extractLsb' 16 8 ++ v.extractLsb' 8 8 ++ v.extractLsb' 0 8 = v := by
  ext i hi
  simp only [BitVec.getElem_append, BitVec.getElem_extractLsb']
  split
  · simp only [Nat.zero_add]; exact BitVec.getLsbD_eq_getElem hi
  · split
    · rw [← BitVec.getLsbD_eq_getElem hi]; congr 1; omega
    · split
      · rw [← BitVec.getLsbD_eq_getElem hi]; congr 1; omega
      · rw [← BitVec.getLsbD_eq_getElem hi]; congr 1; omega

theorem half_of_bytes (v : Word) : 0#16 ++ (v.extractLsb' 8 8 ++ v.extractLsb' 0 8) = v &&& 0xFFFF := by
  apply BitVec.eq_of_getLsbD_eq
  intro i hi
  simp only [BitVec.getLsbD_append, BitVec.getLsbD_extractLsb', BitVec.getLsbD_and]
  interval_cases i <;> simp

theorem byte_of_bytes (v : Word) : 0#24 ++ v.extractLsb' 0 8 = v &&& 0xFF := by
  apply BitVec.eq_of_getLsbD_eq
  intro i hi
  simp only [BitVec.getLsbD_append, BitVec.getLsbD_extractLsb', BitVec.getLsbD_and]
  interval_cases i <;> simp

/-- A datum is read back after it is stored. -/
theorem memLoad_memStore (be : Bool) (z : Size) (a v : Word) (m : Memory) :
    memLoad be z a (memStore be z a v m) = truncateTo z v := by
  have h (i : Nat) (hi : i < (dataBytes be z v).length) :
      (memStore be z a v m).read (a + BitVec.ofNat 32 i).toNat = (dataBytes be z v)[i] :=
    Memory.read_writeList_inside _ m a i hi (by rw [dataBytes_length]; cases z <;> decide)
  have h0 := h 0 (by rw [dataBytes_length]; cases z <;> decide)
  rw [BitVec.add_zero] at h0
  cases z with
  | byte =>
    simp only [memLoad, h0, truncateTo]
    exact byte_of_bytes v
  | half =>
    have h1 := h 1 (by rw [dataBytes_length]; decide)
    simp only [memLoad, h0, h1, truncateTo]
    cases be <;> exact half_of_bytes v
  | word =>
    have h1 := h 1 (by rw [dataBytes_length]; decide)
    have h2 := h 2 (by rw [dataBytes_length]; decide)
    have h3 := h 3 (by rw [dataBytes_length]; decide)
    simp only [memLoad, h0, h1, h2, h3, truncateTo]
    cases be <;> exact word_of_bytes v

/-- What a byte is after a write depends on no other byte of memory before it. -/
theorem Memory.read_writeList_congr (bs : List Byte) {m m' : Memory} (a : Word) (x : Nat) (h : m.read x = m'.read x) :
    (m.writeList a bs).read x = (m'.writeList a bs).read x := by
  induction bs generalizing m m' a with
  | nil => exact h
  | cons b bs ih => exact ih _ (by simp only [Memory.read_write, h])

theorem memStore_congr (be : Bool) (z : Size) (a v : Word) {m m' : Memory} (x : Nat) (h : m.read x = m'.read x) :
    (memStore be z a v m).read x = (memStore be z a v m').read x := Memory.read_writeList_congr _ a x h

/-- A byte that other bus masters do not write keeps its value. -/
theorem writeBytes_read (ws : List (Word × Byte)) (m : Memory) (x : Word) (h : ∀ p ∈ ws, p.1 ≠ x) :
    (writeBytes ws m).read x.toNat = m.read x.toNat := by
  induction ws generalizing m with
  | nil => rfl
  | cons p ws ih =>
    rw [writeBytes, ih _ (fun q hq => h q (List.mem_cons_of_mem _ hq)), Memory.read_write, if_neg]
    exact fun e => h p List.mem_cons_self (BitVec.eq_of_toNat_eq e.symm)

theorem writeBytes_congr (ws : List (Word × Byte)) {m m' : Memory} (x : Nat) (h : m.read x = m'.read x) :
    (writeBytes ws m).read x = (writeBytes ws m').read x := by
  induction ws generalizing m m' with
  | nil => exact h
  | cons p ws ih => exact ih (by simp only [Memory.read_write, h])

/-- Other bus masters keep the canonical form. -/
theorem writeBytes_wf (ws : List (Word × Byte)) {m : Memory} (h : m.wf = true) : (writeBytes ws m).wf = true := by
  induction ws generalizing m with
  | nil => exact h
  | cons p ws ih => exact ih (Memory.wf_write p.1 p.2 h)

end Sys2Proof.Machine
end

