-- ==== Sys2Proof/Laws/State.lean ====
section
/-! SUPPORT. What each named update does to each field of the state. -/

namespace Sys2Proof.Machine

@[simp] theorem advance_cfg (n : Word) (s : State) : (advance n s).cfg = s.cfg := rfl
@[simp] theorem advance_regs (n : Word) (s : State) : (advance n s).regs = s.regs := rfl
@[simp] theorem advance_pc (n : Word) (s : State) : (advance n s).pc = nextPc n s := rfl
@[simp] theorem advance_psr (n : Word) (s : State) : (advance n s).psr = s.psr := rfl
@[simp] theorem advance_vbr (n : Word) (s : State) : (advance n s).vbr = s.vbr := rfl
@[simp] theorem advance_epsr (n : Word) (s : State) : (advance n s).epsr = s.epsr := rfl
@[simp] theorem advance_epc (n : Word) (s : State) : (advance n s).epc = s.epc := rfl
@[simp] theorem advance_mpuOn (n : Word) (s : State) : (advance n s).mpuOn = s.mpuOn := rfl
@[simp] theorem advance_capr (n : Word) (s : State) : (advance n s).capr = s.capr := rfl
@[simp] theorem advance_pacr (n : Word) (s : State) : (advance n s).pacr = s.pacr := rfl
@[simp] theorem advance_prsr (n : Word) (s : State) : (advance n s).prsr = s.prsr := rfl
@[simp] theorem advance_iae (n : Word) (s : State) : (advance n s).iae = s.iae := rfl
@[simp] theorem advance_idlyCount (n : Word) (s : State) : (advance n s).idlyCount = s.idlyCount := rfl
@[simp] theorem advance_lowPower (n : Word) (s : State) : (advance n s).lowPower = s.lowPower := rfl
@[simp] theorem advance_debugMode (n : Word) (s : State) : (advance n s).debugMode = s.debugMode := rfl
@[simp] theorem advance_lockup (n : Word) (s : State) : (advance n s).lockup = s.lockup := rfl
@[simp] theorem advance_hung (n : Word) (s : State) : (advance n s).hung = s.hung := rfl
@[simp] theorem advance_inReset (n : Word) (s : State) : (advance n s).inReset = s.inReset := rfl
@[simp] theorem advance_nieShadow (n : Word) (s : State) : (advance n s).nieShadow = s.nieShadow := rfl
@[simp] theorem advance_vic (n : Word) (s : State) : (advance n s).vic = s.vic := rfl
@[simp] theorem advance_timer (n : Word) (s : State) : (advance n s).timer = s.timer := rfl
@[simp] theorem advance_had (n : Word) (s : State) : (advance n s).had = s.had := rfl
@[simp] theorem advance_pins (n : Word) (s : State) : (advance n s).pins = s.pins := rfl
@[simp] theorem advance_inputs (n : Word) (s : State) : (advance n s).inputs = s.inputs := rfl
@[simp] theorem advance_between (n : Word) (s : State) : (advance n s).between = s.between := rfl
@[simp] theorem advance_mem (n : Word) (s : State) : (advance n s).mem = s.mem := rfl
@[simp] theorem advance_freeCount (n : Word) (s : State) : (advance n s).freeCount = s.freeCount := rfl

@[simp] theorem jumpTo_cfg (a : Word) (s : State) : (jumpTo a s).cfg = s.cfg := rfl
@[simp] theorem jumpTo_regs (a : Word) (s : State) : (jumpTo a s).regs = s.regs := rfl
@[simp] theorem jumpTo_pc (a : Word) (s : State) : (jumpTo a s).pc = evenAddr a := rfl
@[simp] theorem jumpTo_psr (a : Word) (s : State) : (jumpTo a s).psr = s.psr := rfl
@[simp] theorem jumpTo_vbr (a : Word) (s : State) : (jumpTo a s).vbr = s.vbr := rfl
@[simp] theorem jumpTo_epsr (a : Word) (s : State) : (jumpTo a s).epsr = s.epsr := rfl
@[simp] theorem jumpTo_epc (a : Word) (s : State) : (jumpTo a s).epc = s.epc := rfl
@[simp] theorem jumpTo_mpuOn (a : Word) (s : State) : (jumpTo a s).mpuOn = s.mpuOn := rfl
@[simp] theorem jumpTo_capr (a : Word) (s : State) : (jumpTo a s).capr = s.capr := rfl
@[simp] theorem jumpTo_pacr (a : Word) (s : State) : (jumpTo a s).pacr = s.pacr := rfl
@[simp] theorem jumpTo_prsr (a : Word) (s : State) : (jumpTo a s).prsr = s.prsr := rfl
@[simp] theorem jumpTo_iae (a : Word) (s : State) : (jumpTo a s).iae = s.iae := rfl
@[simp] theorem jumpTo_idlyCount (a : Word) (s : State) : (jumpTo a s).idlyCount = s.idlyCount := rfl
@[simp] theorem jumpTo_lowPower (a : Word) (s : State) : (jumpTo a s).lowPower = s.lowPower := rfl
@[simp] theorem jumpTo_debugMode (a : Word) (s : State) : (jumpTo a s).debugMode = s.debugMode := rfl
@[simp] theorem jumpTo_lockup (a : Word) (s : State) : (jumpTo a s).lockup = s.lockup := rfl
@[simp] theorem jumpTo_hung (a : Word) (s : State) : (jumpTo a s).hung = s.hung := rfl
@[simp] theorem jumpTo_inReset (a : Word) (s : State) : (jumpTo a s).inReset = s.inReset := rfl
@[simp] theorem jumpTo_nieShadow (a : Word) (s : State) : (jumpTo a s).nieShadow = s.nieShadow := rfl
@[simp] theorem jumpTo_vic (a : Word) (s : State) : (jumpTo a s).vic = s.vic := rfl
@[simp] theorem jumpTo_timer (a : Word) (s : State) : (jumpTo a s).timer = s.timer := rfl
@[simp] theorem jumpTo_had (a : Word) (s : State) : (jumpTo a s).had = s.had := rfl
@[simp] theorem jumpTo_pins (a : Word) (s : State) : (jumpTo a s).pins = s.pins := rfl
@[simp] theorem jumpTo_inputs (a : Word) (s : State) : (jumpTo a s).inputs = s.inputs := rfl
@[simp] theorem jumpTo_between (a : Word) (s : State) : (jumpTo a s).between = s.between := rfl
@[simp] theorem jumpTo_mem (a : Word) (s : State) : (jumpTo a s).mem = s.mem := rfl
@[simp] theorem jumpTo_freeCount (a : Word) (s : State) : (jumpTo a s).freeCount = s.freeCount := rfl

@[simp] theorem branchTo_cfg {k : Nat} (f : BitVec k) (s : State) : (branchTo f s).cfg = s.cfg := rfl
@[simp] theorem branchTo_regs {k : Nat} (f : BitVec k) (s : State) : (branchTo f s).regs = s.regs := rfl
@[simp] theorem branchTo_pc {k : Nat} (f : BitVec k) (s : State) : (branchTo f s).pc = branchTarget f s := rfl
@[simp] theorem branchTo_psr {k : Nat} (f : BitVec k) (s : State) : (branchTo f s).psr = s.psr := rfl
@[simp] theorem branchTo_vbr {k : Nat} (f : BitVec k) (s : State) : (branchTo f s).vbr = s.vbr := rfl
@[simp] theorem branchTo_epsr {k : Nat} (f : BitVec k) (s : State) : (branchTo f s).epsr = s.epsr := rfl
@[simp] theorem branchTo_epc {k : Nat} (f : BitVec k) (s : State) : (branchTo f s).epc = s.epc := rfl
@[simp] theorem branchTo_mpuOn {k : Nat} (f : BitVec k) (s : State) : (branchTo f s).mpuOn = s.mpuOn := rfl
@[simp] theorem branchTo_capr {k : Nat} (f : BitVec k) (s : State) : (branchTo f s).capr = s.capr := rfl
@[simp] theorem branchTo_pacr {k : Nat} (f : BitVec k) (s : State) : (branchTo f s).pacr = s.pacr := rfl
@[simp] theorem branchTo_prsr {k : Nat} (f : BitVec k) (s : State) : (branchTo f s).prsr = s.prsr := rfl
@[simp] theorem branchTo_iae {k : Nat} (f : BitVec k) (s : State) : (branchTo f s).iae = s.iae := rfl
@[simp] theorem branchTo_idlyCount {k : Nat} (f : BitVec k) (s : State) : (branchTo f s).idlyCount = s.idlyCount := rfl
@[simp] theorem branchTo_lowPower {k : Nat} (f : BitVec k) (s : State) : (branchTo f s).lowPower = s.lowPower := rfl
@[simp] theorem branchTo_debugMode {k : Nat} (f : BitVec k) (s : State) : (branchTo f s).debugMode = s.debugMode := rfl
@[simp] theorem branchTo_lockup {k : Nat} (f : BitVec k) (s : State) : (branchTo f s).lockup = s.lockup := rfl
@[simp] theorem branchTo_hung {k : Nat} (f : BitVec k) (s : State) : (branchTo f s).hung = s.hung := rfl
@[simp] theorem branchTo_inReset {k : Nat} (f : BitVec k) (s : State) : (branchTo f s).inReset = s.inReset := rfl
@[simp] theorem branchTo_nieShadow {k : Nat} (f : BitVec k) (s : State) : (branchTo f s).nieShadow = s.nieShadow := rfl
@[simp] theorem branchTo_vic {k : Nat} (f : BitVec k) (s : State) : (branchTo f s).vic = s.vic := rfl
@[simp] theorem branchTo_timer {k : Nat} (f : BitVec k) (s : State) : (branchTo f s).timer = s.timer := rfl
@[simp] theorem branchTo_had {k : Nat} (f : BitVec k) (s : State) : (branchTo f s).had = s.had := rfl
@[simp] theorem branchTo_pins {k : Nat} (f : BitVec k) (s : State) : (branchTo f s).pins = s.pins := rfl
@[simp] theorem branchTo_inputs {k : Nat} (f : BitVec k) (s : State) : (branchTo f s).inputs = s.inputs := rfl
@[simp] theorem branchTo_between {k : Nat} (f : BitVec k) (s : State) : (branchTo f s).between = s.between := rfl
@[simp] theorem branchTo_mem {k : Nat} (f : BitVec k) (s : State) : (branchTo f s).mem = s.mem := rfl
@[simp] theorem branchTo_freeCount {k : Nat} (f : BitVec k) (s : State) : (branchTo f s).freeCount = s.freeCount := rfl

@[simp] theorem setC_cfg (b : Bool) (s : State) : (setC b s).cfg = s.cfg := rfl
@[simp] theorem setC_regs (b : Bool) (s : State) : (setC b s).regs = s.regs := rfl
@[simp] theorem setC_pc (b : Bool) (s : State) : (setC b s).pc = s.pc := rfl
@[simp] theorem setC_psr (b : Bool) (s : State) : (setC b s).psr = { s.psr with c := b } := rfl
@[simp] theorem setC_vbr (b : Bool) (s : State) : (setC b s).vbr = s.vbr := rfl
@[simp] theorem setC_epsr (b : Bool) (s : State) : (setC b s).epsr = s.epsr := rfl
@[simp] theorem setC_epc (b : Bool) (s : State) : (setC b s).epc = s.epc := rfl
@[simp] theorem setC_mpuOn (b : Bool) (s : State) : (setC b s).mpuOn = s.mpuOn := rfl
@[simp] theorem setC_capr (b : Bool) (s : State) : (setC b s).capr = s.capr := rfl
@[simp] theorem setC_pacr (b : Bool) (s : State) : (setC b s).pacr = s.pacr := rfl
@[simp] theorem setC_prsr (b : Bool) (s : State) : (setC b s).prsr = s.prsr := rfl
@[simp] theorem setC_iae (b : Bool) (s : State) : (setC b s).iae = s.iae := rfl
@[simp] theorem setC_idlyCount (b : Bool) (s : State) : (setC b s).idlyCount = s.idlyCount := rfl
@[simp] theorem setC_lowPower (b : Bool) (s : State) : (setC b s).lowPower = s.lowPower := rfl
@[simp] theorem setC_debugMode (b : Bool) (s : State) : (setC b s).debugMode = s.debugMode := rfl
@[simp] theorem setC_lockup (b : Bool) (s : State) : (setC b s).lockup = s.lockup := rfl
@[simp] theorem setC_hung (b : Bool) (s : State) : (setC b s).hung = s.hung := rfl
@[simp] theorem setC_inReset (b : Bool) (s : State) : (setC b s).inReset = s.inReset := rfl
@[simp] theorem setC_nieShadow (b : Bool) (s : State) : (setC b s).nieShadow = s.nieShadow := rfl
@[simp] theorem setC_vic (b : Bool) (s : State) : (setC b s).vic = s.vic := rfl
@[simp] theorem setC_timer (b : Bool) (s : State) : (setC b s).timer = s.timer := rfl
@[simp] theorem setC_had (b : Bool) (s : State) : (setC b s).had = s.had := rfl
@[simp] theorem setC_pins (b : Bool) (s : State) : (setC b s).pins = s.pins := rfl
@[simp] theorem setC_inputs (b : Bool) (s : State) : (setC b s).inputs = s.inputs := rfl
@[simp] theorem setC_between (b : Bool) (s : State) : (setC b s).between = s.between := rfl
@[simp] theorem setC_mem (b : Bool) (s : State) : (setC b s).mem = s.mem := rfl
@[simp] theorem setC_freeCount (b : Bool) (s : State) : (setC b s).freeCount = s.freeCount := rfl

@[simp] theorem writeReg_cfg (r : Reg) (v : Word) (s : State) : (writeReg r v s).cfg = s.cfg := rfl
@[simp] theorem writeReg_regs (r : Reg) (v : Word) (s : State) : (writeReg r v s).regs = setReg s.psr.s r v s.regs := rfl
@[simp] theorem writeReg_pc (r : Reg) (v : Word) (s : State) : (writeReg r v s).pc = s.pc := rfl
@[simp] theorem writeReg_psr (r : Reg) (v : Word) (s : State) : (writeReg r v s).psr = s.psr := rfl
@[simp] theorem writeReg_vbr (r : Reg) (v : Word) (s : State) : (writeReg r v s).vbr = s.vbr := rfl
@[simp] theorem writeReg_epsr (r : Reg) (v : Word) (s : State) : (writeReg r v s).epsr = s.epsr := rfl
@[simp] theorem writeReg_epc (r : Reg) (v : Word) (s : State) : (writeReg r v s).epc = s.epc := rfl
@[simp] theorem writeReg_mpuOn (r : Reg) (v : Word) (s : State) : (writeReg r v s).mpuOn = s.mpuOn := rfl
@[simp] theorem writeReg_capr (r : Reg) (v : Word) (s : State) : (writeReg r v s).capr = s.capr := rfl
@[simp] theorem writeReg_pacr (r : Reg) (v : Word) (s : State) : (writeReg r v s).pacr = s.pacr := rfl
@[simp] theorem writeReg_prsr (r : Reg) (v : Word) (s : State) : (writeReg r v s).prsr = s.prsr := rfl
@[simp] theorem writeReg_iae (r : Reg) (v : Word) (s : State) : (writeReg r v s).iae = s.iae := rfl
@[simp] theorem writeReg_idlyCount (r : Reg) (v : Word) (s : State) : (writeReg r v s).idlyCount = s.idlyCount := rfl
@[simp] theorem writeReg_lowPower (r : Reg) (v : Word) (s : State) : (writeReg r v s).lowPower = s.lowPower := rfl
@[simp] theorem writeReg_debugMode (r : Reg) (v : Word) (s : State) : (writeReg r v s).debugMode = s.debugMode := rfl
@[simp] theorem writeReg_lockup (r : Reg) (v : Word) (s : State) : (writeReg r v s).lockup = s.lockup := rfl
@[simp] theorem writeReg_hung (r : Reg) (v : Word) (s : State) : (writeReg r v s).hung = s.hung := rfl
@[simp] theorem writeReg_inReset (r : Reg) (v : Word) (s : State) : (writeReg r v s).inReset = s.inReset := rfl
@[simp] theorem writeReg_nieShadow (r : Reg) (v : Word) (s : State) : (writeReg r v s).nieShadow = s.nieShadow := rfl
@[simp] theorem writeReg_vic (r : Reg) (v : Word) (s : State) : (writeReg r v s).vic = s.vic := rfl
@[simp] theorem writeReg_timer (r : Reg) (v : Word) (s : State) : (writeReg r v s).timer = s.timer := rfl
@[simp] theorem writeReg_had (r : Reg) (v : Word) (s : State) : (writeReg r v s).had = s.had := rfl
@[simp] theorem writeReg_pins (r : Reg) (v : Word) (s : State) : (writeReg r v s).pins = s.pins := rfl
@[simp] theorem writeReg_inputs (r : Reg) (v : Word) (s : State) : (writeReg r v s).inputs = s.inputs := rfl
@[simp] theorem writeReg_between (r : Reg) (v : Word) (s : State) : (writeReg r v s).between = s.between := rfl
@[simp] theorem writeReg_mem (r : Reg) (v : Word) (s : State) : (writeReg r v s).mem = s.mem := rfl
@[simp] theorem writeReg_freeCount (r : Reg) (v : Word) (s : State) : (writeReg r v s).freeCount = s.freeCount := rfl

@[simp] theorem saveAndSwitch_cfg (v : BitVec 8) (ret : Word) (s : State) : (saveAndSwitch v ret s).cfg = s.cfg := rfl
@[simp] theorem saveAndSwitch_regs (v : BitVec 8) (ret : Word) (s : State) : (saveAndSwitch v ret s).regs = s.regs := rfl
@[simp] theorem saveAndSwitch_pc (v : BitVec 8) (ret : Word) (s : State) : (saveAndSwitch v ret s).pc = s.pc := rfl
@[simp] theorem saveAndSwitch_psr (v : BitVec 8) (ret : Word) (s : State) : (saveAndSwitch v ret s).psr = { s.psr with s := true, vec := v, ee := false, ie := false } := rfl
@[simp] theorem saveAndSwitch_vbr (v : BitVec 8) (ret : Word) (s : State) : (saveAndSwitch v ret s).vbr = s.vbr := rfl
@[simp] theorem saveAndSwitch_epsr (v : BitVec 8) (ret : Word) (s : State) : (saveAndSwitch v ret s).epsr = s.psr := rfl
@[simp] theorem saveAndSwitch_epc (v : BitVec 8) (ret : Word) (s : State) : (saveAndSwitch v ret s).epc = ret := rfl
@[simp] theorem saveAndSwitch_mpuOn (v : BitVec 8) (ret : Word) (s : State) : (saveAndSwitch v ret s).mpuOn = s.mpuOn := rfl
@[simp] theorem saveAndSwitch_capr (v : BitVec 8) (ret : Word) (s : State) : (saveAndSwitch v ret s).capr = s.capr := rfl
@[simp] theorem saveAndSwitch_pacr (v : BitVec 8) (ret : Word) (s : State) : (saveAndSwitch v ret s).pacr = s.pacr := rfl
@[simp] theorem saveAndSwitch_prsr (v : BitVec 8) (ret : Word) (s : State) : (saveAndSwitch v ret s).prsr = s.prsr := rfl
@[simp] theorem saveAndSwitch_iae (v : BitVec 8) (ret : Word) (s : State) : (saveAndSwitch v ret s).iae = s.iae := rfl
@[simp] theorem saveAndSwitch_idlyCount (v : BitVec 8) (ret : Word) (s : State) : (saveAndSwitch v ret s).idlyCount = s.idlyCount := rfl
@[simp] theorem saveAndSwitch_lowPower (v : BitVec 8) (ret : Word) (s : State) : (saveAndSwitch v ret s).lowPower = s.lowPower := rfl
@[simp] theorem saveAndSwitch_debugMode (v : BitVec 8) (ret : Word) (s : State) : (saveAndSwitch v ret s).debugMode = s.debugMode := rfl
@[simp] theorem saveAndSwitch_lockup (v : BitVec 8) (ret : Word) (s : State) : (saveAndSwitch v ret s).lockup = s.lockup := rfl
@[simp] theorem saveAndSwitch_hung (v : BitVec 8) (ret : Word) (s : State) : (saveAndSwitch v ret s).hung = s.hung := rfl
@[simp] theorem saveAndSwitch_inReset (v : BitVec 8) (ret : Word) (s : State) : (saveAndSwitch v ret s).inReset = s.inReset := rfl
@[simp] theorem saveAndSwitch_nieShadow (v : BitVec 8) (ret : Word) (s : State) : (saveAndSwitch v ret s).nieShadow = s.nieShadow := rfl
@[simp] theorem saveAndSwitch_vic (v : BitVec 8) (ret : Word) (s : State) : (saveAndSwitch v ret s).vic = s.vic := rfl
@[simp] theorem saveAndSwitch_timer (v : BitVec 8) (ret : Word) (s : State) : (saveAndSwitch v ret s).timer = s.timer := rfl
@[simp] theorem saveAndSwitch_had (v : BitVec 8) (ret : Word) (s : State) : (saveAndSwitch v ret s).had = s.had := rfl
@[simp] theorem saveAndSwitch_pins (v : BitVec 8) (ret : Word) (s : State) : (saveAndSwitch v ret s).pins = s.pins := rfl
@[simp] theorem saveAndSwitch_inputs (v : BitVec 8) (ret : Word) (s : State) : (saveAndSwitch v ret s).inputs = s.inputs := rfl
@[simp] theorem saveAndSwitch_between (v : BitVec 8) (ret : Word) (s : State) : (saveAndSwitch v ret s).between = s.between := rfl
@[simp] theorem saveAndSwitch_mem (v : BitVec 8) (ret : Word) (s : State) : (saveAndSwitch v ret s).mem = s.mem := rfl
@[simp] theorem saveAndSwitch_freeCount (v : BitVec 8) (ret : Word) (s : State) : (saveAndSwitch v ret s).freeCount = s.freeCount := rfl

@[simp] theorem returnFromException_cfg (s : State) : (returnFromException s).cfg = s.cfg := rfl
@[simp] theorem returnFromException_regs (s : State) : (returnFromException s).regs = s.regs := rfl
@[simp] theorem returnFromException_pc (s : State) : (returnFromException s).pc = evenAddr s.epc := rfl
@[simp] theorem returnFromException_psr (s : State) : (returnFromException s).psr = s.epsr := rfl
@[simp] theorem returnFromException_vbr (s : State) : (returnFromException s).vbr = s.vbr := rfl
@[simp] theorem returnFromException_epsr (s : State) : (returnFromException s).epsr = s.epsr := rfl
@[simp] theorem returnFromException_epc (s : State) : (returnFromException s).epc = s.epc := rfl
@[simp] theorem returnFromException_mpuOn (s : State) : (returnFromException s).mpuOn = s.mpuOn := rfl
@[simp] theorem returnFromException_capr (s : State) : (returnFromException s).capr = s.capr := rfl
@[simp] theorem returnFromException_pacr (s : State) : (returnFromException s).pacr = s.pacr := rfl
@[simp] theorem returnFromException_prsr (s : State) : (returnFromException s).prsr = s.prsr := rfl
@[simp] theorem returnFromException_iae (s : State) : (returnFromException s).iae = s.iae := rfl
@[simp] theorem returnFromException_idlyCount (s : State) : (returnFromException s).idlyCount = nextIdly 0 s := rfl
@[simp] theorem returnFromException_lowPower (s : State) : (returnFromException s).lowPower = s.lowPower := rfl
@[simp] theorem returnFromException_debugMode (s : State) : (returnFromException s).debugMode = s.debugMode := rfl
@[simp] theorem returnFromException_lockup (s : State) : (returnFromException s).lockup = s.lockup := rfl
@[simp] theorem returnFromException_hung (s : State) : (returnFromException s).hung = s.hung := rfl
@[simp] theorem returnFromException_inReset (s : State) : (returnFromException s).inReset = s.inReset := rfl
@[simp] theorem returnFromException_nieShadow (s : State) : (returnFromException s).nieShadow = s.nieShadow := rfl
@[simp] theorem returnFromException_vic (s : State) : (returnFromException s).vic = vicExit s.psr.vec s.vic := rfl
@[simp] theorem returnFromException_timer (s : State) : (returnFromException s).timer = s.timer := rfl
@[simp] theorem returnFromException_had (s : State) : (returnFromException s).had = s.had := rfl
@[simp] theorem returnFromException_pins (s : State) : (returnFromException s).pins = s.pins := rfl
@[simp] theorem returnFromException_inputs (s : State) : (returnFromException s).inputs = s.inputs := rfl
@[simp] theorem returnFromException_between (s : State) : (returnFromException s).between = s.between := rfl
@[simp] theorem returnFromException_mem (s : State) : (returnFromException s).mem = s.mem := rfl
@[simp] theorem returnFromException_freeCount (s : State) : (returnFromException s).freeCount = s.freeCount := rfl

@[simp] theorem nextFree_cfg (s : State) : (nextFree s).cfg = s.cfg := rfl
@[simp] theorem nextFree_regs (s : State) : (nextFree s).regs = s.regs := rfl
@[simp] theorem nextFree_pc (s : State) : (nextFree s).pc = s.pc := rfl
@[simp] theorem nextFree_psr (s : State) : (nextFree s).psr = s.psr := rfl
@[simp] theorem nextFree_vbr (s : State) : (nextFree s).vbr = s.vbr := rfl
@[simp] theorem nextFree_epsr (s : State) : (nextFree s).epsr = s.epsr := rfl
@[simp] theorem nextFree_epc (s : State) : (nextFree s).epc = s.epc := rfl
@[simp] theorem nextFree_mpuOn (s : State) : (nextFree s).mpuOn = s.mpuOn := rfl
@[simp] theorem nextFree_capr (s : State) : (nextFree s).capr = s.capr := rfl
@[simp] theorem nextFree_pacr (s : State) : (nextFree s).pacr = s.pacr := rfl
@[simp] theorem nextFree_prsr (s : State) : (nextFree s).prsr = s.prsr := rfl
@[simp] theorem nextFree_iae (s : State) : (nextFree s).iae = s.iae := rfl
@[simp] theorem nextFree_idlyCount (s : State) : (nextFree s).idlyCount = s.idlyCount := rfl
@[simp] theorem nextFree_lowPower (s : State) : (nextFree s).lowPower = s.lowPower := rfl
@[simp] theorem nextFree_debugMode (s : State) : (nextFree s).debugMode = s.debugMode := rfl
@[simp] theorem nextFree_lockup (s : State) : (nextFree s).lockup = s.lockup := rfl
@[simp] theorem nextFree_hung (s : State) : (nextFree s).hung = s.hung := rfl
@[simp] theorem nextFree_inReset (s : State) : (nextFree s).inReset = s.inReset := rfl
@[simp] theorem nextFree_nieShadow (s : State) : (nextFree s).nieShadow = s.nieShadow := rfl
@[simp] theorem nextFree_vic (s : State) : (nextFree s).vic = s.vic := rfl
@[simp] theorem nextFree_timer (s : State) : (nextFree s).timer = s.timer := rfl
@[simp] theorem nextFree_had (s : State) : (nextFree s).had = s.had := rfl
@[simp] theorem nextFree_pins (s : State) : (nextFree s).pins = s.pins := rfl
@[simp] theorem nextFree_inputs (s : State) : (nextFree s).inputs = s.inputs := rfl
@[simp] theorem nextFree_between (s : State) : (nextFree s).between = s.between := rfl
@[simp] theorem nextFree_mem (s : State) : (nextFree s).mem = s.mem := rfl
@[simp] theorem nextFree_freeCount (s : State) : (nextFree s).freeCount = s.freeCount + 1 := rfl

@[simp] theorem interleave_cfg (s : State) : (interleave s).cfg = s.cfg := rfl
@[simp] theorem interleave_regs (s : State) : (interleave s).regs = s.regs := rfl
@[simp] theorem interleave_pc (s : State) : (interleave s).pc = s.pc := rfl
@[simp] theorem interleave_psr (s : State) : (interleave s).psr = s.psr := rfl
@[simp] theorem interleave_vbr (s : State) : (interleave s).vbr = s.vbr := rfl
@[simp] theorem interleave_epsr (s : State) : (interleave s).epsr = s.epsr := rfl
@[simp] theorem interleave_epc (s : State) : (interleave s).epc = s.epc := rfl
@[simp] theorem interleave_mpuOn (s : State) : (interleave s).mpuOn = s.mpuOn := rfl
@[simp] theorem interleave_capr (s : State) : (interleave s).capr = s.capr := rfl
@[simp] theorem interleave_pacr (s : State) : (interleave s).pacr = s.pacr := rfl
@[simp] theorem interleave_prsr (s : State) : (interleave s).prsr = s.prsr := rfl
@[simp] theorem interleave_iae (s : State) : (interleave s).iae = s.iae := rfl
@[simp] theorem interleave_idlyCount (s : State) : (interleave s).idlyCount = s.idlyCount := rfl
@[simp] theorem interleave_lowPower (s : State) : (interleave s).lowPower = s.lowPower := rfl
@[simp] theorem interleave_debugMode (s : State) : (interleave s).debugMode = s.debugMode := rfl
@[simp] theorem interleave_lockup (s : State) : (interleave s).lockup = s.lockup := rfl
@[simp] theorem interleave_hung (s : State) : (interleave s).hung = s.hung := rfl
@[simp] theorem interleave_inReset (s : State) : (interleave s).inReset = s.inReset := rfl
@[simp] theorem interleave_nieShadow (s : State) : (interleave s).nieShadow = s.nieShadow := rfl
@[simp] theorem interleave_vic (s : State) : (interleave s).vic = s.vic := rfl
@[simp] theorem interleave_timer (s : State) : (interleave s).timer = s.timer := rfl
@[simp] theorem interleave_had (s : State) : (interleave s).had = s.had := rfl
@[simp] theorem interleave_pins (s : State) : (interleave s).pins = s.pins := rfl
@[simp] theorem interleave_inputs (s : State) : (interleave s).inputs = s.inputs := rfl
@[simp] theorem interleave_freeCount (s : State) : (interleave s).freeCount = s.freeCount := rfl
@[simp] theorem interleave_between (s : State) : (interleave s).between = s.between.tail := rfl
@[simp] theorem interleave_mem (s : State) : (interleave s).mem = writeBytes (s.between.headD []) s.mem := rfl

/-- With nothing to write, a gap changes nothing. -/
theorem interleave_quiet {s : State} (h : s.between = []) : interleave s = s := by
  cases s
  simp only at h
  subst h
  rfl

end Sys2Proof.Machine
end

