-- ==== Sys2Proof/Laws/Regs.lean ====
section
/-! SUPPORT. The laws of the general registers. -/

namespace Sys2Proof.Machine

/-- What a register reads depends on the register file and the mode only. -/
theorem readReg_congr (r : Reg) {s t : State} (hr : t.regs = s.regs) (hm : t.psr.s = s.psr.s) : readReg r t = readReg r s := by
  cases r <;> simp [readReg, hr, hm]

@[simp] theorem readReg_advance (r : Reg) (n : Word) (s : State) : readReg r (advance n s) = readReg r s := readReg_congr r rfl rfl

@[simp] theorem readReg_jumpTo (r : Reg) (a : Word) (s : State) : readReg r (jumpTo a s) = readReg r s := readReg_congr r rfl rfl

@[simp] theorem readReg_branchTo {k : Nat} (r : Reg) (f : BitVec k) (s : State) : readReg r (branchTo f s) = readReg r s :=
  readReg_congr r rfl rfl

@[simp] theorem readReg_setC (r : Reg) (b : Bool) (s : State) : readReg r (setC b s) = readReg r s := readReg_congr r rfl rfl

/-- A register after a write of a register (R21). -/
theorem readReg_writeReg (q r : Reg) (v : Word) (s : State) :
    readReg q (writeReg r v s) = if q = r ∧ implemented r = true then v else readReg q s := by
  cases hs : s.psr.s <;> cases r <;> cases q <;> simp [readReg, writeReg, setReg, implemented, hs]

/-- A write of a register touches the stack pointer of the current mode at most. -/
theorem writeReg_otherStack (r : Reg) (v : Word) (s : State) :
    (s.psr.s = true → (writeReg r v s).regs.usp = s.regs.usp) ∧ (s.psr.s = false → (writeReg r v s).regs.ssp = s.regs.ssp) := by
  cases hs : s.psr.s <;> cases r <;> simp [writeReg, setReg, hs]

/-- `writeReg` is the register write that statements speak of. -/
theorem regWritten_writeReg (r : Reg) (v : Word) (s : State) : regWritten r v s (writeReg r v s) :=
  ⟨fun q => readReg_writeReg q r v s, (writeReg_otherStack r v s).1, (writeReg_otherStack r v s).2⟩

/-- The register write seen through a state with the same register file and mode. -/
theorem regWritten_congr {r : Reg} {v : Word} {s t t' : State} (h : regWritten r v s t) (hr : t'.regs = t.regs)
    (hm : t'.psr.s = t.psr.s) : regWritten r v s t' := by
  refine ⟨fun q => ?_, fun hs => ?_, fun hs => ?_⟩
  · rw [readReg_congr q hr hm]; exact h.1 q
  · rw [hr]; exact h.2.1 hs
  · rw [hr]; exact h.2.2 hs

/-- A write of a register that does not exist changes nothing (R21). -/
theorem writeReg_absent {r : Reg} (h : implemented r = false) (v : Word) (s : State) : writeReg r v s = s := by
  cases r <;> first | rfl | (exact absurd h (by decide))

end Sys2Proof.Machine
end

