-- ==== Sys2Proof/Laws/Ops.lean ====
section
/-! SUPPORT. One lemma for each shared operation: what it answers. -/

namespace Sys2Proof.Machine

/-! ### What the checks depend on -/

/-- The MPU's answer depends on the configuration and the MPU's registers only. -/
theorem mpuAllows_congr (k : AccessKind) (sup : Bool) (a : Word) {s t : State} (hc : t.cfg = s.cfg) (hon : t.mpuOn = s.mpuOn)
    (hcapr : t.capr = s.capr) (hpacr : t.pacr = s.pacr) : mpuAllows k sup a t = mpuAllows k sup a s := by
  simp [mpuAllows, mpuEnabled, controllingRegion, hc, hon, hcapr, hpacr]

theorem isMemory_congr {a : Word} {s t : State} (hc : t.cfg = s.cfg) : isMemory t a ↔ isMemory s a := by
  simp [isMemory, inTcip, hc]

theorem vectorAddr_congr (vec : BitVec 8) {s t : State} (hc : t.cfg = s.cfg) (hv : t.vbr = s.vbr) :
    vectorAddr vec t = vectorAddr vec s := by
  simp [vectorAddr, tableBase, hc, hv]

/-- The words of the statements for where an instruction ends and what its IDLY32 count is. -/
theorem nextPc_eq (n : Word) (s : State) : nextPc n s = pcAfter s n := rfl
theorem nextIdly_eq (n : Nat) (s : State) : nextIdly n s = idlyAfter s n := rfl

/-! ### Data accesses -/

/-- Everything a data read can be: a denied access, a user access to the tightly coupled IP, a register of it, a half-word or byte of it, a bus
transfer. -/
theorem dataRead_cases (f sup : Bool) (z : Size) (a : Word) (s : State) :
    (mpuAllows .read sup a s = false ∧ dataRead f sup z a s = .raise vecAccess s) ∨
    (mpuAllows .read sup a s = true ∧ inTcip s a = true ∧ sup = false ∧ dataRead f sup z a s = .raise vecAccess s) ∨
    (mpuAllows .read sup a s = true ∧ inTcip s a = true ∧ sup = true ∧ z = .word ∧ dataRead f sup z a s = tcipRead a s) ∨
    (mpuAllows .read sup a s = true ∧ inTcip s a = true ∧ sup = true ∧ z ≠ .word ∧ dataRead f sup z a s = .refuse .tcipSubword) ∨
    (mpuAllows .read sup a s = true ∧ inTcip s a = false ∧ dataRead f sup z a s = busRead f sup z a s) := by
  unfold dataRead
  cases mpuAllows .read sup a s <;> cases inTcip s a <;> cases sup <;> cases z <;> simp

/-- Everything a data write can be. -/
theorem dataWrite_cases (z : Size) (a v : Word) (s : State) :
    (mpuAllows .write s.psr.s a s = false ∧ dataWrite z a v s = .raise vecAccess s) ∨
    (mpuAllows .write s.psr.s a s = true ∧ inTcip s a = true ∧ s.psr.s = false ∧ dataWrite z a v s = .raise vecAccess s) ∨
    (mpuAllows .write s.psr.s a s = true ∧ inTcip s a = true ∧ s.psr.s = true ∧ z = .word ∧ dataWrite z a v s = tcipWrite a v s) ∨
    (mpuAllows .write s.psr.s a s = true ∧ inTcip s a = true ∧ s.psr.s = true ∧ z ≠ .word ∧ dataWrite z a v s = .refuse .tcipSubword) ∨
    (mpuAllows .write s.psr.s a s = true ∧ inTcip s a = false ∧ hitsPrefetch s z a = true ∧
      dataWrite z a v s = .refuse .prefetchWindowStore) ∨
    (mpuAllows .write s.psr.s a s = true ∧ inTcip s a = false ∧ hitsPrefetch s z a = false ∧
      dataWrite z a v s = busWrite s.psr.s z a v s) := by
  unfold dataWrite
  cases mpuAllows .write s.psr.s a s <;> cases inTcip s a <;> cases s.psr.s <;> cases hitsPrefetch s z a <;> cases z <;> simp

/-- A read that memory answers. -/
theorem busRead_memory {f sup : Bool} {z : Size} {a : Word} {s : State} (h : slaveAt s.cfg a = .memory) :
    busRead f sup z a s = .ok (datum s z a) s := by
  simp [busRead, slaveRead, h, datum]

/-- A write that memory answers. -/
theorem busWrite_memory {sup : Bool} {z : Size} {a v : Word} {s : State} (h : slaveAt s.cfg a = .memory) :
    busWrite sup z a v s = .ok () { s with mem := memStore s.cfg.bigEndian z a v s.mem } := by
  simp [busWrite, slaveWrite, h]

/-- A data read of memory that the MPU allows. -/
theorem dataRead_memory {f sup : Bool} {z : Size} {a : Word} {s : State} (hm : mpuAllows .read sup a s = true) (h : isMemory s a) :
    dataRead f sup z a s = .ok (datum s z a) s := by
  simp [dataRead, hm, h.1, busRead_memory h.2]

/-- A data read of the current mode that reaches memory. -/
theorem dataRead_readable {f : Bool} {z : Size} {a : Word} {s : State} (h : readable s a) :
    dataRead f s.psr.s z a s = .ok (datum s z a) s := dataRead_memory h.1 h.2

/-- A write outside the next six bytes of the instruction stream, or fed by the debugger, is not refused (R148). -/
theorem hitsPrefetch_false {s : State} {z : Size} {a : Word} (h : s.debugMode = true ∨ inPrefetchWindow s.pc a z = false) :
    hitsPrefetch s z a = false := by
  rcases h with h | h <;> simp [hitsPrefetch, h]

/-- The bytes that `inPrefetchWindow` looks at: a store reaches the window when its first or its last byte is in it. -/
theorem inPrefetchWindow_iff (s : State) (z : Size) (a : Word) : inPrefetchWindow s.pc a z = true ↔ inStream s z a := by
  simp only [inPrefetchWindow, inStream, Bool.or_eq_true, decide_eq_true_eq]
  constructor
  · rintro (h | h)
    · exact ⟨0, by cases z <;> decide, by simpa using h⟩
    · exact ⟨sizeBytes z - 1, by cases z <;> decide, h⟩
  · rintro ⟨k, hk, h⟩
    cases z <;> simp only [sizeBytes] at hk ⊢ <;> interval_cases k <;> bv_omega

/-- A store of the program into the next six bytes of the instruction stream is refused (R148). -/
theorem dataWrite_inStream {z : Size} {a v : Word} {s : State} (h : streamStore s z a) : dataWrite z a v s = .refuse .prefetchWindowStore := by
  simp [dataWrite, h.2.1, h.2.2.1, hitsPrefetch, h.1, (inPrefetchWindow_iff s z a).mpr h.2.2.2]

/-- A data write of the current mode that reaches memory. -/
theorem dataWrite_writable {z : Size} {a v : Word} {s : State} (h : writable s z a) :
    dataWrite z a v s = .ok () { s with mem := memStore s.cfg.bigEndian z a v s.mem } := by
  simp [dataWrite, h.1, h.2.1.1, hitsPrefetch_false h.2.2, busWrite_memory h.2.1.2]

theorem truncateTo_eq (z : Size) (v : Word) : truncateTo z v = lowData z v := by
  apply BitVec.eq_of_toNat_eq
  have := v.isLt
  cases z <;> simp only [truncateTo, lowData, sizeBytes, BitVec.toNat_and, BitVec.toNat_ofNat]
  · exact (Nat.and_two_pow_sub_one_eq_mod _ 8).trans (by omega)
  · exact (Nat.and_two_pow_sub_one_eq_mod _ 16).trans (by omega)
  · omega

/-- A data read of the current mode that a platform device answers. -/
theorem dataRead_device {z : Size} {a : Word} {s : State} (hm : mpuAllows .read s.psr.s a s = true) (h : isDevice s a) :
    dataRead false s.psr.s z a s = match deviceReply s z a false 0#32 with
      | some d => .ok (lowData z d) (answered s)
      | none => .raise vecAccess (answered s) := by
  simp only [dataRead, hm, h.1, busRead, slaveRead, h.2, truncateTo_eq]
  rfl

/-- A data write of the current mode that a platform device answers. -/
theorem dataWrite_device {z : Size} {a v : Word} {s : State} (hm : mpuAllows .write s.psr.s a s = true) (h : isDevice s a)
    (hp : s.debugMode = true ∨ inPrefetchWindow s.pc a z = false) :
    dataWrite z a v s = match deviceReply s z a true (lowData z v) with
      | some _ => .ok () (answered s)
      | none => .raise vecAccess (answered s) := by
  simp only [dataWrite, hm, h.1, hitsPrefetch_false hp, busWrite, slaveWrite, h.2, truncateTo_eq]
  rfl

/-- A data read that the MPU denies, that user mode makes in the tightly coupled IP range, or that the bus answers with ERROR (R132). -/
theorem dataRead_fails {f : Bool} {z : Size} {a : Word} {s : State} (h : readFails s a) :
    dataRead f s.psr.s z a s = .raise vecAccess s := by
  unfold dataRead
  cases hm : mpuAllows .read s.psr.s a s
  · rfl
  · rcases h with h | ⟨h1, h2⟩ | ⟨h1, h2⟩
    · simp [hm] at h
    · simp [h1, h2]
    · simp [h1, busRead, slaveRead, h2, vecAccess]

/-- A data write that fails in one of these ways. -/
theorem dataWrite_fails {z : Size} {a v : Word} {s : State} (h : writeFails s z a) : dataWrite z a v s = .raise vecAccess s := by
  unfold dataWrite
  cases hm : mpuAllows .write s.psr.s a s
  · rfl
  · rcases h with h | ⟨h1, h2⟩ | ⟨h1, h2, h3⟩
    · simp [hm] at h
    · simp [h1, h2]
    · simp [h1, hitsPrefetch_false h2, busWrite, slaveWrite, h3, vecAccess]

/-- An aligned access goes to its own address (R104). -/
theorem accessAddr_aligned {z : Size} {a : Word} {s : State} (h : misaligned z a = false) : accessAddr z a s = some a := by
  simp [accessAddr, h]

/-- With PSR.MM = 1 an access goes to the address with its low bits cleared (R104), which is its own when it is aligned. -/
theorem accessAddr_mm {z : Size} {a : Word} {s : State} (h : s.psr.mm = true) : accessAddr z a s = some (alignDown z a) := by
  unfold accessAddr
  split
  · rfl
  · next hm =>
    have h0 : a &&& sizeLowBits z = 0#32 := by
      simpa [misaligned] using hm
    congr 1
    have : a = (a &&& sizeLowBits z) ||| (a &&& ~~~(sizeLowBits z)) := by
      ext i hi; simp; cases a[i] <;> cases (sizeLowBits z)[i] <;> rfl
    rw [h0] at this
    simpa [alignDown] using this

/-- With PSR.MM = 0 a misaligned access raises MisalignedAccess (R104). -/
theorem accessAddr_misaligned {z : Size} {a : Word} {s : State} (h : misaligned z a = true) (hmm : s.psr.mm = false) :
    accessAddr z a s = none := by
  simp [accessAddr, h, hmm]

/-- A load that reaches memory. -/
theorem load_readable {z : Size} {a a' : Word} {s : State} (ha : accessAddr z a s = some a') (h : readable s a') :
    load z a s = .ok (datum s z a') s := by
  simp [load, ha, dataRead_readable h]

/-- A store that reaches memory. -/
theorem store_writable {z : Size} {a a' v : Word} {s : State} (ha : accessAddr z a s = some a') (h : writable s z a') :
    store z a v s = .ok () { s with mem := memStore s.cfg.bigEndian z a' v s.mem } := by
  simp [store, ha, dataWrite_writable h]

/-! ### Words at ascending addresses -/

theorem readable_congr {a : Word} {s t : State} (hc : t.cfg = s.cfg) (hon : t.mpuOn = s.mpuOn) (hcapr : t.capr = s.capr)
    (hpacr : t.pacr = s.pacr) (hp : t.psr.s = s.psr.s) : readable t a ↔ readable s a := by
  simp only [readable, isMemory_congr hc, hp, mpuAllows_congr .read s.psr.s a hc hon hcapr hpacr]

theorem writable_congr {z : Size} {a : Word} {s t : State} (hc : t.cfg = s.cfg) (hon : t.mpuOn = s.mpuOn) (hcapr : t.capr = s.capr)
    (hpacr : t.pacr = s.pacr) (hp : t.psr.s = s.psr.s) (hpc : t.pc = s.pc) (hd : t.debugMode = s.debugMode) :
    writable t z a ↔ writable s z a := by
  simp only [writable, isMemory_congr hc, hp, hpc, hd, mpuAllows_congr .write s.psr.s a hc hon hcapr hpacr]

@[simp] theorem readable_interleave {a : Word} {s : State} : readable (interleave s) a ↔ readable s a := readable_congr rfl rfl rfl rfl rfl
@[simp] theorem writable_interleave {z : Size} {a : Word} {s : State} : writable (interleave s) z a ↔ writable s z a :=
  writable_congr rfl rfl rfl rfl rfl rfl rfl

@[simp] theorem readable_wordGap {n : Nat} {a : Word} {s : State} : readable (wordGap n s) a ↔ readable s a := by
  unfold wordGap; split <;> simp
@[simp] theorem writable_wordGap {n : Nat} {z : Size} {a : Word} {s : State} : writable (wordGap n s) z a ↔ writable s z a := by
  unfold wordGap; split <;> simp

@[simp] theorem wordGap_cfg (n : Nat) (s : State) : (wordGap n s).cfg = s.cfg := by unfold wordGap; split <;> rfl
@[simp] theorem wordGap_psr (n : Nat) (s : State) : (wordGap n s).psr = s.psr := by unfold wordGap; split <;> rfl

/-- With nothing to write, the gaps of a multi-word instruction change nothing. -/
theorem wordGap_quiet {n : Nat} {s : State} (h : s.between = []) : wordGap n s = s := by
  unfold wordGap; split <;> [rfl; exact interleave_quiet h]

/-- The gaps change memory only. -/
theorem landed_eq (k : Nat) (s : State) : landed k s = { s with mem := (landed k s).mem, between := s.between.drop k } := by
  induction k generalizing s with
  | zero => rfl
  | succ k ih => rw [landed, ih]; simp [interleave]

theorem landed_quiet (k : Nat) {s : State} (h : s.between = []) : landed k s = s := by
  induction k with
  | zero => rfl
  | succ k ih => rw [landed, interleave_quiet h, ih]

/-- A byte that other bus masters do not write in the gaps keeps its value. -/
theorem landed_byte (k : Nat) (s : State) (x : Word) (h : ∀ ws ∈ s.between.take k, ∀ p ∈ ws, p.1 ≠ x) :
    byteAt (landed k s) x = byteAt s x := by
  induction k generalizing s with
  | zero => rfl
  | succ k ih =>
    have hb : s.between = [] ∨ ∃ w ws, s.between = w :: ws := by cases s.between <;> simp
    rcases hb with hb | ⟨w, ws, hb⟩
    · rw [landed_quiet _ hb]
    · rw [hb, List.take_succ_cons] at h
      rw [landed, ih _ (by simpa [hb] using fun q hq => h q (List.mem_cons_of_mem _ hq))]
      simpa [byteAt, hb] using writeBytes_read w s.mem x (h w List.mem_cons_self)

/-- What a byte is after the gaps depends on no other byte of memory before them. -/
theorem landed_congr (k : Nat) {s t : State} (x : Word) (hb : t.between = s.between) (h : byteAt t x = byteAt s x) :
    byteAt (landed k t) x = byteAt (landed k s) x := by
  induction k generalizing s t with
  | zero => exact h
  | succ k ih =>
    refine ih (by simp [hb]) ?_
    simp only [byteAt, interleave_mem, hb]
    exact writeBytes_congr _ _ h

/-- The words that a multi-word read finds from an address up, with the gaps between them. -/
def wordsAt (s : State) : Nat → Word → List Word
  | 0, _ => []
  | n + 1, a => datum s .word a :: wordsAt (wordGap n s) n (a + 4#32)

/-- Memory after words are stored at ascending addresses and nothing else happens. -/
def storedWords (be : Bool) : List Word → Word → Memory → Memory
  | [], _, m => m
  | v :: vs, a, m => storedWords be vs (a + 4#32) (memStore be .word a v m)

/-- The state after words are stored at ascending addresses, with the gaps between them. -/
def storedState : List Word → Word → State → State
  | [], _, s => s
  | v :: vs, a, s => storedState vs (a + 4#32) (wordGap vs.length { s with mem := memStore s.cfg.bigEndian .word a v s.mem })

/-- The state in which a word of a multi-word write fails: the words before it are stored, each followed by a gap. -/
def storedPart : List Word → Word → State → State
  | [], _, s => s
  | v :: vs, a, s => storedPart vs (a + 4#32) (interleave { s with mem := memStore s.cfg.bigEndian .word a v s.mem })

theorem offset_succ (a : Word) (k : Nat) : a + 4#32 + BitVec.ofNat 32 (4 * k) = a + BitVec.ofNat 32 (4 * (k + 1)) := by
  rw [BitVec.add_assoc]
  congr 1
  apply BitVec.eq_of_toNat_eq
  simp only [BitVec.toNat_add, BitVec.toNat_ofNat]
  omega

/-- The gaps after a word, when `n` words follow. -/
theorem landed_wordGap (n : Nat) (s : State) : landed (n - 1) (wordGap n s) = landed n s := by
  cases n with
  | zero => rfl
  | succ n => rfl

/-- Words that can all be read. -/
theorem loadWords_readable (n : Nat) (a : Word) (s : State) (h : ∀ k, k < n → readable s (a + BitVec.ofNat 32 (4 * k))) :
    loadWords n a s = .ok (wordsAt s n a) (landed (n - 1) s) := by
  induction n generalizing a s with
  | zero => rfl
  | succ n ih =>
    have h0 : readable s a := by simpa using h 0 (Nat.succ_pos n)
    have hn : ∀ k, k < n → readable (wordGap n s) (a + 4#32 + BitVec.ofNat 32 (4 * k)) := fun k hk => by
      rw [readable_wordGap, offset_succ]; exact h (k + 1) (Nat.succ_lt_succ hk)
    simp [loadWords, dataRead_readable h0, Access.bind, ih _ _ hn, wordsAt, landed_wordGap]

/-- Words that can all be written. -/
theorem storeWords_writable (vs : List Word) (a : Word) (s : State)
    (h : ∀ k, k < vs.length → writable s .word (a + BitVec.ofNat 32 (4 * k))) :
    storeWords vs a s = .ok () (storedState vs a s) := by
  induction vs generalizing a s with
  | nil => rfl
  | cons v vs ih =>
    have h0 : writable s .word a := by simpa using h 0 (Nat.succ_pos _)
    simp only [storeWords, dataWrite_writable h0, Access.bind]
    rw [ih]
    · rfl
    · intro k hk
      rw [offset_succ, writable_wordGap]
      exact (writable_congr (s := s) rfl rfl rfl rfl rfl rfl rfl).mpr (h (k + 1) (Nat.succ_lt_succ hk))

/-- Storing words changes memory only, and uses up the gaps between them. -/
theorem storedState_eq (vs : List Word) (a : Word) (s : State) :
    storedState vs a s = { s with mem := (storedState vs a s).mem, between := s.between.drop (vs.length - 1) } := by
  induction vs generalizing a s with
  | nil => rfl
  | cons v vs ih =>
    rw [storedState, ih]
    cases vs <;> simp [wordGap, interleave]

/-- With no other bus master, words are simply stored. -/
theorem storedState_quiet (vs : List Word) (a : Word) {s : State} (h : s.between = []) :
    storedState vs a s = { s with mem := storedWords s.cfg.bigEndian vs a s.mem } := by
  induction vs generalizing a s with
  | nil => rfl
  | cons v vs ih =>
    rw [storedState, wordGap_quiet (s := { s with mem := memStore s.cfg.bigEndian .word a v s.mem }) h, ih (a + 4#32) (s := { s with mem := memStore s.cfg.bigEndian .word a v s.mem }) h]
    rfl

/-- Bytes that no stored word reaches keep their value. -/
theorem storedWords_outside (be : Bool) (vs : List Word) (a x : Word) (m : Memory) (h : ¬coversWords vs.length a x) :
    (storedWords be vs a m).read x.toNat = m.read x.toNat := by
  induction vs generalizing a m with
  | nil => rfl
  | cons v vs ih =>
    simp only [coversWords, List.length_cons, Nat.not_lt] at h ih
    rw [storedWords, ih, memStore_outside]
    · simp only [sizeBytes]; omega
    · have := x.isLt
      have := a.isLt
      simp only [BitVec.toNat_sub, BitVec.toNat_add, BitVec.toNat_ofNat] at h ⊢
      omega

theorem storedWords_congr (be : Bool) (vs : List Word) (a : Word) {m m' : Memory} (x : Nat) (h : m.read x = m'.read x) :
    (storedWords be vs a m).read x = (storedWords be vs a m').read x := by
  induction vs generalizing a m m' with
  | nil => exact h
  | cons v vs ih => exact ih _ (memStore_congr be .word a v x h)

/-- A byte that no stored word reaches is what the gaps leave. -/
theorem storedState_outside (vs : List Word) (a x : Word) (s : State) (h : ¬coversWords vs.length a x) :
    byteAt (storedState vs a s) x = byteAt (landed (vs.length - 1) s) x := by
  induction vs generalizing a s with
  | nil => rfl
  | cons v vs ih =>
    simp only [coversWords, List.length_cons, Nat.not_lt] at h ih
    rw [storedState, ih, landed_wordGap]
    · exact landed_congr _ x rfl (memStore_outside _ _ _ _ _ _ (by simp only [sizeBytes]; omega))
    · have := x.isLt
      have := a.isLt
      simp only [BitVec.toNat_sub, BitVec.toNat_add, BitVec.toNat_ofNat] at h ⊢
      omega

/-- A byte that the gaps do not write is what the words stored leave. -/
theorem storedState_byte (vs : List Word) (a x : Word) (s : State) (h : ∀ ws ∈ s.between.take (vs.length - 1), ∀ p ∈ ws, p.1 ≠ x) :
    byteAt (storedState vs a s) x = (storedWords s.cfg.bigEndian vs a s.mem).read x.toNat := by
  induction vs generalizing a s with
  | nil => rfl
  | cons v vs ih =>
    rw [storedState, storedWords]
    cases vs with
    | nil => rfl
    | cons w vs =>
      rw [ih]
      · rw [wordGap_cfg]
        refine storedWords_congr _ _ _ _ ?_
        have hk : ∀ ws ∈ s.between.take 1, ∀ p ∈ ws, p.1 ≠ x := by
          intro ws hws
          refine h ws ?_
          cases hb : s.between <;> simp_all
        exact landed_byte 1 { s with mem := memStore s.cfg.bigEndian .word a v s.mem } x hk
      · intro ws hws
        refine h ws ?_
        cases hb : s.between <;> simp_all [wordGap, interleave]

theorem storedWords_wf (be : Bool) (vs : List Word) (a : Word) {m : Memory} (hw : m.wf = true) : (storedWords be vs a m).wf = true := by
  induction vs generalizing a m with
  | nil => exact hw
  | cons v vs ih => exact ih _ (memStore_wf be .word a v hw)

/-! ### Fetch -/

theorem low_half (h : Half) : (0#16 ++ h).extractLsb' 0 16 = h := by
  apply BitVec.eq_of_getLsbD_eq
  intro i hi
  rw [BitVec.getLsbD_extractLsb', BitVec.getLsbD_append]
  simp [hi]

/-- A half-word that can be fetched. -/
theorem fetchHalf_fetchable {a : Word} {s : State} (h : fetchable s a) : fetchHalf a s = .ok (halfAt s a) s := by
  have e : datum s .half a = 0#16 ++ halfAt s a := rfl
  simp [fetchHalf, h.1, h.2.1, busRead_memory h.2.2, Access.bind, e, low_half]

/-- The instruction at the PC is fetched, with a gap between its half-words, and decoded (R191). -/
theorem fetchInstr_fetchable {s : State} (h : instrFetchable s) :
    fetchInstr s = .ok (decodeHalves (halfAt s s.pc) (secondHalf s)) (if isLong (halfAt s s.pc) then landed 1 s else s) := by
  simp only [fetchInstr, fetchHalf_fetchable h.1, Access.bind, secondHalf]
  split
  · next hl =>
    have h1 : fetchable (landed 1 s) (s.pc + 2#32) := by
      have := h.2 hl
      simpa only [landed, fetchable, isMemory_congr (s := s) (t := interleave s) rfl, interleave_psr,
        mpuAllows_congr .fetch s.psr.s (s.pc + 2#32) (s := s) (t := interleave s) rfl rfl rfl rfl] using this
    have e := fetchHalf_fetchable h1
    simp only [landed] at e
    simp [landed, e]
  · rfl

/-! ### Exceptions -/

@[simp] theorem breakIdly_cfg (s : State) : (breakIdly s).cfg = s.cfg := by unfold breakIdly; split <;> rfl
@[simp] theorem breakIdly_regs (s : State) : (breakIdly s).regs = s.regs := by unfold breakIdly; split <;> rfl
@[simp] theorem breakIdly_mem (s : State) : (breakIdly s).mem = s.mem := by unfold breakIdly; split <;> rfl
@[simp] theorem breakIdly_between (s : State) : (breakIdly s).between = s.between := by unfold breakIdly; split <;> rfl
@[simp] theorem breakIdly_vbr (s : State) : (breakIdly s).vbr = s.vbr := by unfold breakIdly; split <;> rfl
@[simp] theorem breakIdly_ee (s : State) : (breakIdly s).psr.ee = s.psr.ee := by unfold breakIdly; split <;> rfl
@[simp] theorem breakIdly_idlyCount (s : State) : (breakIdly s).idlyCount = nextIdly 0 s := by
  unfold breakIdly nextIdly; cases s.debugMode <;> by_cases h : 0 < s.idlyCount <;> simp_all

/-- Breaking off an IDLY32 sequence: C says so, and the count is 0; while the debugger feeds instructions neither moves (R385). -/
theorem breakIdly_eq (s : State) : breakIdly s = { s with psr := { s.psr with c := entryC s }, idlyCount := idlyAfter s 0 } := by
  unfold breakIdly entryC idlyAfter
  cases hd : s.debugMode <;> by_cases h : 0 < s.idlyCount <;> simp [h] <;> cases s <;> simp_all

theorem vectorReadable_congr {vec : BitVec 8} {s t : State} (hc : t.cfg = s.cfg) (hon : t.mpuOn = s.mpuOn)
    (hcapr : t.capr = s.capr) (hpacr : t.pacr = s.pacr) (hv : t.vbr = s.vbr) : vectorReadable vec t ↔ vectorReadable vec s := by
  simp only [vectorReadable, vectorAddr_congr vec hc hv, isMemory_congr hc, mpuAllows_congr .read true _ hc hon hcapr hpacr]

/-- The vector that an exception is taken with, in the state it is raised in. -/
theorem effectiveVector_breakIdly (vec : BitVec 8) (s : State) : effectiveVector vec (breakIdly s) = effectiveVector vec s := by
  simp [effectiveVector]

@[simp] theorem vectorReadable_interleave {vec : BitVec 8} {s : State} : vectorReadable vec (interleave s) ↔ vectorReadable vec s :=
  vectorReadable_congr rfl rfl rfl rfl rfl

/-- A vector that can be read, after one gap (R150). -/
theorem readVector_readable {vec : BitVec 8} {s : State} (h : vectorReadable vec s) :
    readVector vec s = .ok (vectorWord vec (interleave s)) (interleave s) :=
  dataRead_memory (vectorReadable_interleave.mpr h).1 (vectorReadable_interleave.mpr h).2

/-- After a read transfer the low bits of DARWR are the datum's, whatever the free value above them is (R533). -/
theorem ddmaDatum_low (z : Size) (d f : Word) {k : Nat} (h : k < 8 * sizeBytes z) : (ddmaDatum z d f).getLsbD k = d.getLsbD k := by
  cases z with
  | word => rfl
  | byte =>
    have h8 : k < 8 := h
    simp only [ddmaDatum, BitVec.getLsbD_append, BitVec.getLsbD_extractLsb', h8, if_true, decide_true, Bool.true_and, Nat.zero_add]
  | half =>
    have h16 : k < 16 := h
    simp only [ddmaDatum, BitVec.getLsbD_append, BitVec.getLsbD_extractLsb', h16, if_true, decide_true, Bool.true_and, Nat.zero_add]

/-- An exception whose vector can be read is entered (R410). -/
theorem takeException_readable {vec : BitVec 8} {ret : Word} {s : State} (h : vectorReadable (effectiveVector vec s) s) :
    takeException vec ret s =
      .next (jumpTo (vectorWord (effectiveVector vec s) (interleave s))
        (interleave (saveAndSwitch (effectiveVector vec s) ret (breakIdly s)))) := by
  have hb : vectorReadable (effectiveVector vec s) (saveAndSwitch (effectiveVector vec s) ret (breakIdly s)) := by
    refine (vectorReadable_congr ?_ ?_ ?_ ?_ ?_).mpr h
    all_goals (unfold breakIdly; split <;> rfl)
  have hw : vectorWord (effectiveVector vec s) (interleave (saveAndSwitch (effectiveVector vec s) ret (breakIdly s))) =
      vectorWord (effectiveVector vec s) (interleave s) := by
    simp only [vectorWord, datum,
      vectorAddr_congr _ (show (interleave (saveAndSwitch (effectiveVector vec s) ret (breakIdly s))).cfg = (interleave s).cfg by simp)
        (show (interleave (saveAndSwitch (effectiveVector vec s) ret (breakIdly s))).vbr = (interleave s).vbr by simp)]
    simp
  simp only [takeException, effectiveVector_breakIdly, readVector_readable hb, hw]

/-- An exception raised inside an instruction is taken with the instruction's address. -/
theorem complete_raise {α : Type} {ret : Word} {vec : BitVec 8} {s : State} {k : α → State → Result} :
    complete ret (.raise vec s) k = takeException vec ret s := rfl

theorem complete_ok {α : Type} {ret : Word} {v : α} {s : State} {k : α → State → Result} : complete ret (.ok v s) k = k v s := rfl

/-- Everything taking an exception can answer: the handler's address, UnrecoverableError in its place, a bus that never answers, or a refusal of the vector
read. -/
theorem takeException_cases (vec : BitVec 8) (ret : Word) (s : State) :
    (∃ w s', readVector (effectiveVector vec s) (saveAndSwitch (effectiveVector vec s) ret (breakIdly s)) = .ok w s' ∧
      takeException vec ret s = .next (jumpTo w s')) ∨
    (∃ q s', readVector (effectiveVector vec s) (saveAndSwitch (effectiveVector vec s) ret (breakIdly s)) = .raise q s' ∧
      takeException vec ret s = enterUnrecoverable (saveAndSwitch vecUnrecoverable s'.epc s')) ∨
    (∃ s', readVector (effectiveVector vec s) (saveAndSwitch (effectiveVector vec s) ret (breakIdly s)) = .hang s' ∧
      takeException vec ret s = hangs s') ∨ (∃ r, takeException vec ret s = .refused r) := by
  simp only [takeException, effectiveVector_breakIdly]
  cases h : readVector (effectiveVector vec s) (saveAndSwitch (effectiveVector vec s) ret (breakIdly s)) with
  | ok w s' => exact .inl ⟨w, s', rfl, rfl⟩
  | raise q s' => exact .inr (.inl ⟨q, s', rfl, rfl⟩)
  | hang s' => exact .inr (.inr (.inl ⟨s', rfl, rfl⟩))
  | refuse r => exact .inr (.inr (.inr ⟨r, rfl⟩))

end Sys2Proof.Machine
end

