-- ==== Sys2Proof/Laws/Frame.lean ====
section
/-! SUPPORT. What the shared operations leave as it was: reads change no more than a device's state, writes no more than memory and devices, an
exception no more than the registers of R410. -/

namespace Sys2Proof.Machine

/-- Every state an access leaves, with a value or an exception, has a property. -/
def Access.leaves {α : Type} (P : State → Prop) (x : Access α) : Prop :=
  match x with
  | .ok _ t => P t
  | .raise _ t => P t
  | .hang t => P t
  | .refuse _ => True

/-- A property that every access of a sequence keeps holds of what the sequence leaves. -/
theorem leaves_bind {α β : Type} {P : State → Prop} {x : Access α} {f : α → State → Access β} (hx : x.leaves P)
    (hf : ∀ v t, P t → (f v t).leaves P) : (x.bind f).leaves P := by
  cases x with
  | ok v t => exact hf v t hx
  | raise vec t => exact hx
  | hang t => exact hx
  | refuse r => trivial

theorem leaves_ok {α : Type} {P : State → Prop} {x : Access α} (h : x.leaves P) {v : α} {t : State} (hx : x = .ok v t) : P t := by
  subst hx; exact h

theorem leaves_raise {α : Type} {P : State → Prop} {x : Access α} (h : x.leaves P) {vec : BitVec 8} {t : State}
    (hx : x = .raise vec t) : P t := by
  subst hx; exact h

theorem leaves_hang {α : Type} {P : State → Prop} {x : Access α} (h : x.leaves P) {t : State} (hx : x = .hang t) : P t := by
  subst hx; exact h

/-- What one state property gives for another, an access that leaves the one leaves the other. -/
theorem leaves_mono {α : Type} {P Q : State → Prop} {x : Access α} (hx : x.leaves P) (h : ∀ t, P t → Q t) : x.leaves Q := by
  cases x <;> first | exact h _ hx | trivial

/-- Everything but CoreTim, the debug unit and the number of the next free value: what a read may touch. -/
def sameButReads (s t : State) : Prop := t = { s with timer := t.timer, had := t.had, freeCount := t.freeCount }

/-- Everything but memory, the devices and the number of the next free value: what a write may touch. -/
def sameButWrites (s t : State) : Prop :=
  t = { s with mem := t.mem, vic := t.vic, timer := t.timer, had := t.had, freeCount := t.freeCount }

theorem sameButReads.refl (s : State) : sameButReads s s := rfl
theorem sameButReads.trans {s t u : State} (h : sameButReads s t) (h' : sameButReads t u) : sameButReads s u := by
  unfold sameButReads at *
  rw [h', h]
theorem sameButWrites.refl (s : State) : sameButWrites s s := rfl
theorem sameButWrites.trans {s t u : State} (h : sameButWrites s t) (h' : sameButWrites t u) : sameButWrites s u := by
  unfold sameButWrites at *
  rw [h', h]

/-- Everything but what reads touch and what other bus masters write in the gaps. -/
def sameButLoads (s t : State) : Prop :=
  t = { s with mem := t.mem, between := t.between, timer := t.timer, had := t.had, freeCount := t.freeCount }

/-- Everything but what writes touch and the gaps that are left. -/
def sameButStores (s t : State) : Prop :=
  t = { s with mem := t.mem, between := t.between, vic := t.vic, timer := t.timer, had := t.had, freeCount := t.freeCount }

theorem sameButLoads.trans {s t u : State} (h : sameButLoads s t) (h' : sameButLoads t u) : sameButLoads s u := by
  unfold sameButLoads at *
  rw [h', h]
theorem sameButStores.trans {s t u : State} (h : sameButStores s t) (h' : sameButStores t u) : sameButStores s u := by
  unfold sameButStores at *
  rw [h', h]
theorem sameButReads.toLoads {s t : State} (h : sameButReads s t) : sameButLoads s t := by
  unfold sameButReads at h
  unfold sameButLoads
  rw [h]
theorem sameButWrites.toStores {s t : State} (h : sameButWrites s t) : sameButStores s t := by
  unfold sameButWrites at h
  unfold sameButStores
  rw [h]
theorem sameButLoads_wordGap (n : Nat) (s : State) : sameButLoads s (wordGap n s) := by
  unfold wordGap; split <;> exact rfl
theorem sameButStores_wordGap (n : Nat) (s : State) : sameButStores s (wordGap n s) := by
  unfold wordGap; split <;> exact rfl

theorem slaveRead_leaves (k : SlaveKind) (f sup : Bool) (d : Option (BitVec 4)) (z : Size) (a : Word) (s : State) :
    (slaveRead k f sup d z a s).leaves (sameButReads s) := by
  unfold slaveRead
  cases k <;> simp only []
  · exact rfl
  · split <;> exact rfl
  · exact rfl
  · exact rfl

theorem busRead_leaves (f sup : Bool) (z : Size) (a : Word) (s : State) : (busRead f sup z a s).leaves (sameButReads s) :=
  slaveRead_leaves _ _ _ _ _ _ _

theorem slaveWrite_leaves (k : SlaveKind) (f sup : Bool) (d : Option (BitVec 4)) (z : Size) (a v : Word) (s : State) :
    (slaveWrite k f sup d z a v s).leaves (sameButWrites s) := by
  unfold slaveWrite
  cases k <;> simp only []
  · exact rfl
  · split <;> exact rfl
  · exact rfl
  · exact rfl

theorem busWrite_leaves (sup : Bool) (z : Size) (a v : Word) (s : State) : (busWrite sup z a v s).leaves (sameButWrites s) :=
  slaveWrite_leaves _ _ _ _ _ _ _ _

/-- A transfer of the debug unit leaves what the bus and the end of the transfer leave. -/
theorem ddmaDone_leaves {α : Type} {P : State → Prop} {x : Access α} {k : α → State → State} (hx : x.leaves P) (hk : ∀ v t, P t → P (k v t))
    (hf : ∀ t, P t → P (ddmaFailed t)) (hh : ∀ t, P t → P (ddmaHangs t)) : (ddmaDone x k).leaves P := by
  cases x with
  | ok v t => exact hk v t hx
  | raise q t => exact hf t hx
  | hang t => exact hh t hx
  | refuse r => trivial

theorem ddmaStart_leaves {P : State → Prop} {s : State} {transfer : Size → Word → State → Access Unit} (h0 : P (nextFree s))
    (hf : ∀ t, P t → P (ddmaFailed t)) (ht : ∀ z a t, P t → (transfer z a t).leaves P) : (ddmaStart s transfer).leaves P := by
  unfold ddmaStart
  split
  · trivial
  · split
    · exact h0
    · split
      · exact hf _ h0
      · exact ht _ _ _ h0

theorem ddmaRead_leaves (s : State) : (ddmaRead s).leaves (sameButReads s) :=
  ddmaStart_leaves rfl (fun _ h => h.trans rfl) (fun _ _ _ h =>
    ddmaDone_leaves (leaves_mono (slaveRead_leaves _ _ _ _ _ _ _) (fun _ hu => h.trans hu)) (fun _ _ hu => hu.trans rfl)
      (fun _ hu => hu.trans rfl) (fun _ hu => hu.trans rfl))

theorem ddmaWrite_leaves (s : State) : (ddmaWrite s).leaves (sameButWrites s) :=
  ddmaStart_leaves rfl (fun _ h => h.trans rfl) (fun _ _ _ h =>
    ddmaDone_leaves (leaves_mono (slaveWrite_leaves _ _ _ _ _ _ _ _) (fun _ hu => h.trans hu)) (fun _ _ hu => hu.trans rfl)
      (fun _ hu => hu.trans rfl) (fun _ hu => hu.trans rfl))

theorem readDarwr_leaves (s : State) : (readDarwr s).leaves (sameButReads s) := by
  unfold readDarwr
  split
  · exact rfl
  · split
    · exact leaves_bind (ddmaRead_leaves s) (fun _ _ h => h)
    · exact rfl

theorem readDacsr_leaves (s : State) : (readDacsr s).leaves (sameButReads s) := by
  unfold readDacsr
  simp only []
  split <;> exact rfl

theorem tcipRead_leaves (a : Word) (s : State) : (tcipRead a s).leaves (sameButReads s) := by
  unfold tcipRead
  split
  · next r _ =>
    cases r <;> first | exact rfl | exact readDacsr_leaves s | exact readDarwr_leaves s
  · exact rfl

/-- A data read leaves everything but CoreTim, the debug unit and the number of the next free value. -/
theorem dataRead_leaves (f sup : Bool) (z : Size) (a : Word) (s : State) : (dataRead f sup z a s).leaves (sameButReads s) := by
  rcases dataRead_cases f sup z a s with ⟨_, h⟩ | ⟨_, _, _, h⟩ | ⟨_, _, _, _, h⟩ | ⟨_, _, _, _, h⟩ | ⟨_, _, h⟩ <;> rw [h]
  · exact rfl
  · exact rfl
  · exact tcipRead_leaves a s
  · trivial
  · exact busRead_leaves f sup z a s

theorem load_leaves (z : Size) (a : Word) (s : State) : (load z a s).leaves (sameButReads s) := by
  unfold load
  split
  · exact rfl
  · exact dataRead_leaves _ _ _ _ _

theorem loadWords_leaves (n : Nat) (a : Word) (s : State) : (loadWords n a s).leaves (sameButLoads s) := by
  induction n generalizing a s with
  | zero => exact rfl
  | succ n ih =>
    refine leaves_bind (leaves_mono (dataRead_leaves _ _ _ _ _) (fun _ h => h.toLoads)) (fun v t h => ?_)
    refine leaves_bind (leaves_mono (ih (a + 4#32) (wordGap n t)) (fun u hu => ?_)) (fun vs u hu => hu)
    exact (h.trans (sameButLoads_wordGap n t)).trans hu

theorem writeDarwr_leaves (v : Word) (s : State) : (writeDarwr v s).leaves (sameButWrites s) := by
  unfold writeDarwr
  simp only []
  split
  · exact leaves_mono (ddmaWrite_leaves _) (fun _ hu => sameButWrites.trans (t := { s with had := { s.had with darwr := v } }) rfl hu)
  · exact rfl

theorem tcipWrite_leaves (a v : Word) (s : State) : (tcipWrite a v s).leaves (sameButWrites s) := by
  unfold tcipWrite
  split
  · next r _ =>
    cases r
    case vicIpr k =>
      unfold writeTcipReg
      exact rfl
    case vicIabr => unfold writeTcipReg; simp only []; split <;> first | exact rfl | trivial
    case hcr => unfold writeTcipReg writeHcr; simp only []; split <;> first | exact rfl | trivial
    case hadCsr => unfold writeTcipReg writeHadCsr; simp only []; split <;> [exact rfl; split <;> first | exact rfl | trivial]
    case dacsr => unfold writeTcipReg writeDacsr; simp only []; split <;> [trivial; split <;> exact rfl]
    case darwr => exact writeDarwr_leaves v s
    all_goals exact rfl
  · exact rfl

/-- A data write leaves everything but memory, the devices and the number of the next free value. -/
theorem dataWrite_leaves (z : Size) (a v : Word) (s : State) : (dataWrite z a v s).leaves (sameButWrites s) := by
  rcases dataWrite_cases z a v s with ⟨_, h⟩ | ⟨_, _, _, h⟩ | ⟨_, _, _, _, h⟩ | ⟨_, _, _, _, h⟩ | ⟨_, _, _, h⟩ | ⟨_, _, _, h⟩ <;> rw [h]
  · exact rfl
  · exact rfl
  · exact tcipWrite_leaves a v s
  · trivial
  · trivial
  · exact busWrite_leaves _ _ _ _ _

theorem store_leaves (z : Size) (a v : Word) (s : State) : (store z a v s).leaves (sameButWrites s) := by
  unfold store
  split
  · exact rfl
  · exact dataWrite_leaves _ _ _ _

theorem storeWords_leaves (vs : List Word) (a : Word) (s : State) : (storeWords vs a s).leaves (sameButStores s) := by
  induction vs generalizing a s with
  | nil => exact rfl
  | cons v vs ih =>
    refine leaves_bind (leaves_mono (dataWrite_leaves _ _ _ _) (fun _ h => h.toStores)) (fun _ t h => ?_)
    exact leaves_mono (ih (a + 4#32) (wordGap vs.length t)) (fun u hu => (h.trans (sameButStores_wordGap _ t)).trans hu)

/-- What an exception may change: the registers of R410, the stuck state of R413, a bus that never answers, and what its vector reads and the gaps before
them touch. -/
def sameButEntry (s t : State) : Prop :=
  t = { s with
    psr := t.psr, epsr := t.epsr, epc := t.epc, pc := t.pc, idlyCount := t.idlyCount, lockup := t.lockup, hung := t.hung
    mem := t.mem, between := t.between, timer := t.timer, had := t.had, freeCount := t.freeCount }

theorem sameButEntry.trans {s t u : State} (h : sameButEntry s t) (h' : sameButEntry t u) : sameButEntry s u := by
  unfold sameButEntry at *
  rw [h', h]

theorem sameButLoads.toEntry {s t : State} (h : sameButLoads s t) : sameButEntry s t := by
  unfold sameButLoads at h
  unfold sameButEntry
  rw [h]

theorem sameButLoads.psr {s t : State} (h : sameButLoads s t) : t.psr = s.psr := by rw [h]

theorem readVector_leaves (vec : BitVec 8) (s : State) : (readVector vec s).leaves (sameButLoads s) :=
  leaves_mono (dataRead_leaves _ _ _ _ _) (fun _ h => sameButLoads.trans (t := interleave s) rfl h.toLoads)

/-- Entering UnrecoverableError's handler from a state (R413). -/
theorem enterUnrecoverable_frame {s t : State} (h : enterUnrecoverable s = .next t) : sameButEntry s t ∧ t.psr = s.psr := by
  have hr := readVector_leaves vecUnrecoverable s
  unfold enterUnrecoverable at h
  split at h
  · next w s' hb =>
    have hs := leaves_ok hr hb
    injection h with h
    subst h
    exact ⟨hs.toEntry.trans rfl, hs.psr⟩
  · next q s' hb =>
    have hs := leaves_raise hr hb
    injection h with h
    subst h
    exact ⟨hs.toEntry.trans rfl, hs.psr⟩
  · next s' hb =>
    have hs := leaves_hang hr hb
    injection h with h
    subst h
    exact ⟨hs.toEntry.trans rfl, hs.psr⟩
  · cases h

/-- Taking an exception: supervisor mode with EE = IE = 0, and nothing changes but the registers of R410 and what the vector reads touch. -/
theorem takeException_frame {vec : BitVec 8} {ret : Word} {s t : State} (h : takeException vec ret s = .next t) :
    sameButEntry s t ∧ t.psr.s = true ∧ t.psr.ee = false ∧ t.psr.ie = false := by
  have h0 : sameButEntry s (saveAndSwitch (effectiveVector vec s) ret (breakIdly s)) := by
    unfold breakIdly; split <;> exact rfl
  have hr := readVector_leaves (effectiveVector vec s) (saveAndSwitch (effectiveVector vec s) ret (breakIdly s))
  rcases takeException_cases vec ret s with ⟨w, s', hv, he⟩ | ⟨q, s', hv, he⟩ | ⟨s', hv, he⟩ | ⟨r, he⟩
  · have hs := leaves_ok hr hv
    rw [he] at h
    injection h with h
    subst h
    refine ⟨(h0.trans hs.toEntry).trans rfl, ?_⟩
    simp [hs.psr]
  · have hs := leaves_raise hr hv
    rw [he] at h
    obtain ⟨hf, hp⟩ := enterUnrecoverable_frame h
    refine ⟨((h0.trans hs.toEntry).trans (t := s') (u := saveAndSwitch vecUnrecoverable s'.epc s') rfl).trans hf, ?_⟩
    rw [hp]
    exact ⟨rfl, rfl, rfl⟩
  · have hs := leaves_hang hr hv
    rw [he] at h
    injection h with h
    subst h
    refine ⟨(h0.trans hs.toEntry).trans rfl, ?_⟩
    simp [hs.psr]
  · rw [he] at h; cases h

end Sys2Proof.Machine
end

