-- ==== Sys2Proof/Laws/PerInstr.lean ====
section
/-! SUPPORT. Per-instruction laws: the first half-word of every encoding says how long it is (30_encoding.md R151). -/

namespace Sys2Proof.Laws.EncodedLength

/-- The encoding of the instruction is its first half-word and, exactly when bits 15:14 of that one are 11, a second (R151). -/
def Statement (i : Instr) : Prop :=
  ∃ h0 rest, encode i = h0 :: rest ∧ rest.length = if isLong h0 = true then 1 else 0

theorem addu16 (rz : Reg) (rx : Reg) : Statement (.addu16 rz rx) := by
  refine ⟨_, _, rfl, ?_⟩
  rw [isLong_eq]
  simp only [BitVec.getLsbD_append]
  rfl

theorem addu16r3 (rz : Reg) (rx : Reg) (ry : Reg) : Statement (.addu16r3 rz rx ry) := by
  refine ⟨_, _, rfl, ?_⟩
  rw [isLong_eq]
  simp only [BitVec.getLsbD_append]
  rfl

theorem addc16 (rz : Reg) (rx : Reg) : Statement (.addc16 rz rx) := by
  refine ⟨_, _, rfl, ?_⟩
  rw [isLong_eq]
  simp only [BitVec.getLsbD_append]
  rfl

theorem addi16 (rz : Reg) (imm8 : BitVec 8) : Statement (.addi16 rz imm8) := by
  refine ⟨_, _, rfl, ?_⟩
  rw [isLong_eq]
  simp only [BitVec.getLsbD_append]
  rfl

theorem addi16r3 (rz : Reg) (rx : Reg) (imm3 : BitVec 3) : Statement (.addi16r3 rz rx imm3) := by
  refine ⟨_, _, rfl, ?_⟩
  rw [isLong_eq]
  simp only [BitVec.getLsbD_append]
  rfl

theorem addi16rsp (rz : Reg) (imm8 : BitVec 8) : Statement (.addi16rsp rz imm8) := by
  refine ⟨_, _, rfl, ?_⟩
  rw [isLong_eq]
  simp only [BitVec.getLsbD_append]
  rfl

theorem addi16sp (imm7 : BitVec 7) : Statement (.addi16sp imm7) := by
  refine ⟨_, _, rfl, ?_⟩
  rw [isLong_eq]
  simp only [BitVec.getLsbD_append]
  rfl

theorem subu16 (rz : Reg) (rx : Reg) : Statement (.subu16 rz rx) := by
  refine ⟨_, _, rfl, ?_⟩
  rw [isLong_eq]
  simp only [BitVec.getLsbD_append]
  rfl

theorem subu16r3 (rz : Reg) (rx : Reg) (ry : Reg) : Statement (.subu16r3 rz rx ry) := by
  refine ⟨_, _, rfl, ?_⟩
  rw [isLong_eq]
  simp only [BitVec.getLsbD_append]
  rfl

theorem subc16 (rz : Reg) (rx : Reg) : Statement (.subc16 rz rx) := by
  refine ⟨_, _, rfl, ?_⟩
  rw [isLong_eq]
  simp only [BitVec.getLsbD_append]
  rfl

theorem subi16 (rz : Reg) (imm8 : BitVec 8) : Statement (.subi16 rz imm8) := by
  refine ⟨_, _, rfl, ?_⟩
  rw [isLong_eq]
  simp only [BitVec.getLsbD_append]
  rfl

theorem subi16r3 (rz : Reg) (rx : Reg) (imm3 : BitVec 3) : Statement (.subi16r3 rz rx imm3) := by
  refine ⟨_, _, rfl, ?_⟩
  rw [isLong_eq]
  simp only [BitVec.getLsbD_append]
  rfl

theorem subi16sp (imm7 : BitVec 7) : Statement (.subi16sp imm7) := by
  refine ⟨_, _, rfl, ?_⟩
  rw [isLong_eq]
  simp only [BitVec.getLsbD_append]
  rfl

theorem mult16 (rz : Reg) (rx : Reg) : Statement (.mult16 rz rx) := by
  refine ⟨_, _, rfl, ?_⟩
  rw [isLong_eq]
  simp only [BitVec.getLsbD_append]
  rfl

theorem and16 (rz : Reg) (rx : Reg) : Statement (.and16 rz rx) := by
  refine ⟨_, _, rfl, ?_⟩
  rw [isLong_eq]
  simp only [BitVec.getLsbD_append]
  rfl

theorem andn16 (rz : Reg) (rx : Reg) : Statement (.andn16 rz rx) := by
  refine ⟨_, _, rfl, ?_⟩
  rw [isLong_eq]
  simp only [BitVec.getLsbD_append]
  rfl

theorem or16 (rz : Reg) (rx : Reg) : Statement (.or16 rz rx) := by
  refine ⟨_, _, rfl, ?_⟩
  rw [isLong_eq]
  simp only [BitVec.getLsbD_append]
  rfl

theorem xor16 (rz : Reg) (rx : Reg) : Statement (.xor16 rz rx) := by
  refine ⟨_, _, rfl, ?_⟩
  rw [isLong_eq]
  simp only [BitVec.getLsbD_append]
  rfl

theorem nor16 (rz : Reg) (rx : Reg) : Statement (.nor16 rz rx) := by
  refine ⟨_, _, rfl, ?_⟩
  rw [isLong_eq]
  simp only [BitVec.getLsbD_append]
  rfl

theorem lsl16 (rz : Reg) (rx : Reg) : Statement (.lsl16 rz rx) := by
  refine ⟨_, _, rfl, ?_⟩
  rw [isLong_eq]
  simp only [BitVec.getLsbD_append]
  rfl

theorem lsr16 (rz : Reg) (rx : Reg) : Statement (.lsr16 rz rx) := by
  refine ⟨_, _, rfl, ?_⟩
  rw [isLong_eq]
  simp only [BitVec.getLsbD_append]
  rfl

theorem asr16 (rz : Reg) (rx : Reg) : Statement (.asr16 rz rx) := by
  refine ⟨_, _, rfl, ?_⟩
  rw [isLong_eq]
  simp only [BitVec.getLsbD_append]
  rfl

theorem rotl16 (rz : Reg) (rx : Reg) : Statement (.rotl16 rz rx) := by
  refine ⟨_, _, rfl, ?_⟩
  rw [isLong_eq]
  simp only [BitVec.getLsbD_append]
  rfl

theorem lsli16 (rz : Reg) (rx : Reg) (imm5 : BitVec 5) : Statement (.lsli16 rz rx imm5) := by
  refine ⟨_, _, rfl, ?_⟩
  rw [isLong_eq]
  simp only [BitVec.getLsbD_append]
  rfl

theorem lsri16 (rz : Reg) (rx : Reg) (imm5 : BitVec 5) : Statement (.lsri16 rz rx imm5) := by
  refine ⟨_, _, rfl, ?_⟩
  rw [isLong_eq]
  simp only [BitVec.getLsbD_append]
  rfl

theorem asri16 (rz : Reg) (rx : Reg) (imm5 : BitVec 5) : Statement (.asri16 rz rx imm5) := by
  refine ⟨_, _, rfl, ?_⟩
  rw [isLong_eq]
  simp only [BitVec.getLsbD_append]
  rfl

theorem zextb16 (rz : Reg) (rx : Reg) : Statement (.zextb16 rz rx) := by
  refine ⟨_, _, rfl, ?_⟩
  rw [isLong_eq]
  simp only [BitVec.getLsbD_append]
  rfl

theorem zexth16 (rz : Reg) (rx : Reg) : Statement (.zexth16 rz rx) := by
  refine ⟨_, _, rfl, ?_⟩
  rw [isLong_eq]
  simp only [BitVec.getLsbD_append]
  rfl

theorem sextb16 (rz : Reg) (rx : Reg) : Statement (.sextb16 rz rx) := by
  refine ⟨_, _, rfl, ?_⟩
  rw [isLong_eq]
  simp only [BitVec.getLsbD_append]
  rfl

theorem sexth16 (rz : Reg) (rx : Reg) : Statement (.sexth16 rz rx) := by
  refine ⟨_, _, rfl, ?_⟩
  rw [isLong_eq]
  simp only [BitVec.getLsbD_append]
  rfl

theorem cmpne16 (rx : Reg) (ry : Reg) : Statement (.cmpne16 rx ry) := by
  refine ⟨_, _, rfl, ?_⟩
  rw [isLong_eq]
  simp only [BitVec.getLsbD_append]
  rfl

theorem cmpnei16 (rx : Reg) (imm5 : BitVec 5) : Statement (.cmpnei16 rx imm5) := by
  refine ⟨_, _, rfl, ?_⟩
  rw [isLong_eq]
  simp only [BitVec.getLsbD_append]
  rfl

theorem cmphs16 (rx : Reg) (ry : Reg) : Statement (.cmphs16 rx ry) := by
  refine ⟨_, _, rfl, ?_⟩
  rw [isLong_eq]
  simp only [BitVec.getLsbD_append]
  rfl

theorem cmphsi16 (rx : Reg) (imm5 : BitVec 5) : Statement (.cmphsi16 rx imm5) := by
  refine ⟨_, _, rfl, ?_⟩
  rw [isLong_eq]
  simp only [BitVec.getLsbD_append]
  rfl

theorem cmplt16 (rx : Reg) (ry : Reg) : Statement (.cmplt16 rx ry) := by
  refine ⟨_, _, rfl, ?_⟩
  rw [isLong_eq]
  simp only [BitVec.getLsbD_append]
  rfl

theorem cmplti16 (rx : Reg) (imm5 : BitVec 5) : Statement (.cmplti16 rx imm5) := by
  refine ⟨_, _, rfl, ?_⟩
  rw [isLong_eq]
  simp only [BitVec.getLsbD_append]
  rfl

theorem tst16 (rx : Reg) (ry : Reg) : Statement (.tst16 rx ry) := by
  refine ⟨_, _, rfl, ?_⟩
  rw [isLong_eq]
  simp only [BitVec.getLsbD_append]
  rfl

theorem tstnbz16 (rx : Reg) : Statement (.tstnbz16 rx) := by
  refine ⟨_, _, rfl, ?_⟩
  rw [isLong_eq]
  simp only [BitVec.getLsbD_append]
  rfl

theorem mov16 (rz : Reg) (rx : Reg) : Statement (.mov16 rz rx) := by
  refine ⟨_, _, rfl, ?_⟩
  rw [isLong_eq]
  simp only [BitVec.getLsbD_append]
  rfl

theorem movi16 (rz : Reg) (imm8 : BitVec 8) : Statement (.movi16 rz imm8) := by
  refine ⟨_, _, rfl, ?_⟩
  rw [isLong_eq]
  simp only [BitVec.getLsbD_append]
  rfl

theorem mvcv16 (rz : Reg) : Statement (.mvcv16 rz) := by
  refine ⟨_, _, rfl, ?_⟩
  rw [isLong_eq]
  simp only [BitVec.getLsbD_append]
  rfl

theorem bclri16 (rz : Reg) (imm5 : BitVec 5) : Statement (.bclri16 rz imm5) := by
  refine ⟨_, _, rfl, ?_⟩
  rw [isLong_eq]
  simp only [BitVec.getLsbD_append]
  rfl

theorem bseti16 (rz : Reg) (imm5 : BitVec 5) : Statement (.bseti16 rz imm5) := by
  refine ⟨_, _, rfl, ?_⟩
  rw [isLong_eq]
  simp only [BitVec.getLsbD_append]
  rfl

theorem btsti16 (rx : Reg) (imm5 : BitVec 5) : Statement (.btsti16 rx imm5) := by
  refine ⟨_, _, rfl, ?_⟩
  rw [isLong_eq]
  simp only [BitVec.getLsbD_append]
  rfl

theorem lrw16 (rz : Reg) (offset7 : BitVec 7) : Statement (.lrw16 rz offset7) := by
  refine ⟨_, _, rfl, ?_⟩
  rw [isLong_eq]
  simp only [BitVec.getLsbD_append]
  rfl

theorem lrw32 (rz : Reg) (offset16 : BitVec 16) : Statement (.lrw32 rz offset16) := by
  refine ⟨_, _, rfl, ?_⟩
  rw [isLong_eq]
  simp only [BitVec.getLsbD_append, BitVec.getLsbD_extractLsb']
  rfl

theorem br16 (offset10 : BitVec 10) : Statement (.br16 offset10) := by
  refine ⟨_, _, rfl, ?_⟩
  rw [isLong_eq]
  simp only [BitVec.getLsbD_append]
  rfl

theorem br32 (offset16 : BitVec 16) : Statement (.br32 offset16) := by
  refine ⟨_, _, rfl, ?_⟩
  rw [isLong_eq]
  simp only [BitVec.getLsbD_append, BitVec.getLsbD_extractLsb']
  rfl

theorem bt16 (offset10 : BitVec 10) : Statement (.bt16 offset10) := by
  refine ⟨_, _, rfl, ?_⟩
  rw [isLong_eq]
  simp only [BitVec.getLsbD_append]
  rfl

theorem bf16 (offset10 : BitVec 10) : Statement (.bf16 offset10) := by
  refine ⟨_, _, rfl, ?_⟩
  rw [isLong_eq]
  simp only [BitVec.getLsbD_append]
  rfl

theorem bsr32 (offset26 : BitVec 26) : Statement (.bsr32 offset26) := by
  refine ⟨_, _, rfl, ?_⟩
  rw [isLong_eq]
  simp only [BitVec.getLsbD_append, BitVec.getLsbD_extractLsb']
  rfl

theorem jmp16 (rx : Reg) : Statement (.jmp16 rx) := by
  refine ⟨_, _, rfl, ?_⟩
  rw [isLong_eq]
  simp only [BitVec.getLsbD_append]
  rfl

theorem jsr16 (rx : Reg) : Statement (.jsr16 rx) := by
  refine ⟨_, _, rfl, ?_⟩
  rw [isLong_eq]
  simp only [BitVec.getLsbD_append]
  rfl

theorem ld16b (rz : Reg) (rx : Reg) (offset5 : BitVec 5) : Statement (.ld16b rz rx offset5) := by
  refine ⟨_, _, rfl, ?_⟩
  rw [isLong_eq]
  simp only [BitVec.getLsbD_append]
  rfl

theorem ld32b (rz : Reg) (rx : Reg) (offset12 : BitVec 12) : Statement (.ld32b rz rx offset12) := by
  refine ⟨_, _, rfl, ?_⟩
  rw [isLong_eq]
  simp only [BitVec.getLsbD_append, BitVec.getLsbD_extractLsb']
  rfl

theorem ld16h (rz : Reg) (rx : Reg) (offset5 : BitVec 5) : Statement (.ld16h rz rx offset5) := by
  refine ⟨_, _, rfl, ?_⟩
  rw [isLong_eq]
  simp only [BitVec.getLsbD_append]
  rfl

theorem ld32h (rz : Reg) (rx : Reg) (offset12 : BitVec 12) : Statement (.ld32h rz rx offset12) := by
  refine ⟨_, _, rfl, ?_⟩
  rw [isLong_eq]
  simp only [BitVec.getLsbD_append, BitVec.getLsbD_extractLsb']
  rfl

theorem ld16w (rz : Reg) (rx : Reg) (offset5 : BitVec 5) : Statement (.ld16w rz rx offset5) := by
  refine ⟨_, _, rfl, ?_⟩
  rw [isLong_eq]
  simp only [BitVec.getLsbD_append]
  rfl

theorem ld16wsp (rz : Reg) (offset8 : BitVec 8) : Statement (.ld16wsp rz offset8) := by
  refine ⟨_, _, rfl, ?_⟩
  rw [isLong_eq]
  simp only [BitVec.getLsbD_append]
  rfl

theorem ld32w (rz : Reg) (rx : Reg) (offset12 : BitVec 12) : Statement (.ld32w rz rx offset12) := by
  refine ⟨_, _, rfl, ?_⟩
  rw [isLong_eq]
  simp only [BitVec.getLsbD_append, BitVec.getLsbD_extractLsb']
  rfl

theorem st16b (rz : Reg) (rx : Reg) (offset5 : BitVec 5) : Statement (.st16b rz rx offset5) := by
  refine ⟨_, _, rfl, ?_⟩
  rw [isLong_eq]
  simp only [BitVec.getLsbD_append]
  rfl

theorem st32b (rz : Reg) (rx : Reg) (offset12 : BitVec 12) : Statement (.st32b rz rx offset12) := by
  refine ⟨_, _, rfl, ?_⟩
  rw [isLong_eq]
  simp only [BitVec.getLsbD_append, BitVec.getLsbD_extractLsb']
  rfl

theorem st16h (rz : Reg) (rx : Reg) (offset5 : BitVec 5) : Statement (.st16h rz rx offset5) := by
  refine ⟨_, _, rfl, ?_⟩
  rw [isLong_eq]
  simp only [BitVec.getLsbD_append]
  rfl

theorem st32h (rz : Reg) (rx : Reg) (offset12 : BitVec 12) : Statement (.st32h rz rx offset12) := by
  refine ⟨_, _, rfl, ?_⟩
  rw [isLong_eq]
  simp only [BitVec.getLsbD_append, BitVec.getLsbD_extractLsb']
  rfl

theorem st16w (rz : Reg) (rx : Reg) (offset5 : BitVec 5) : Statement (.st16w rz rx offset5) := by
  refine ⟨_, _, rfl, ?_⟩
  rw [isLong_eq]
  simp only [BitVec.getLsbD_append]
  rfl

theorem st16wsp (rz : Reg) (offset8 : BitVec 8) : Statement (.st16wsp rz offset8) := by
  refine ⟨_, _, rfl, ?_⟩
  rw [isLong_eq]
  simp only [BitVec.getLsbD_append]
  rfl

theorem st32w (rz : Reg) (rx : Reg) (offset12 : BitVec 12) : Statement (.st32w rz rx offset12) := by
  refine ⟨_, _, rfl, ?_⟩
  rw [isLong_eq]
  simp only [BitVec.getLsbD_append, BitVec.getLsbD_extractLsb']
  rfl

theorem push16 (r15 : Bool) (list1 : BitVec 4) : Statement (.push16 r15 list1) := by
  refine ⟨_, _, rfl, ?_⟩
  rw [isLong_eq]
  simp only [BitVec.getLsbD_append]
  rfl

theorem pop16 (r15 : Bool) (list1 : BitVec 4) : Statement (.pop16 r15 list1) := by
  refine ⟨_, _, rfl, ?_⟩
  rw [isLong_eq]
  simp only [BitVec.getLsbD_append]
  rfl

theorem ipush16 : Statement (.ipush16) := by
  refine ⟨_, _, rfl, ?_⟩
  rfl

theorem ipop16 : Statement (.ipop16) := by
  refine ⟨_, _, rfl, ?_⟩
  rfl

theorem nie16 : Statement (.nie16) := by
  refine ⟨_, _, rfl, ?_⟩
  rfl

theorem nir16 : Statement (.nir16) := by
  refine ⟨_, _, rfl, ?_⟩
  rfl

theorem mfcr32 (rz : Reg) (crx : BitVec 5) (sel : BitVec 5) : Statement (.mfcr32 rz crx sel) := by
  refine ⟨_, _, rfl, ?_⟩
  rw [isLong_eq]
  simp only [BitVec.getLsbD_append, BitVec.getLsbD_extractLsb']
  rfl

theorem mtcr32 (rx : Reg) (crz : BitVec 5) (sel : BitVec 5) : Statement (.mtcr32 rx crz sel) := by
  refine ⟨_, _, rfl, ?_⟩
  rw [isLong_eq]
  simp only [BitVec.getLsbD_append, BitVec.getLsbD_extractLsb']
  rfl

theorem psrset32 (imm5 : BitVec 5) : Statement (.psrset32 imm5) := by
  refine ⟨_, _, rfl, ?_⟩
  rw [isLong_eq]
  simp only [BitVec.getLsbD_append, BitVec.getLsbD_extractLsb']
  rfl

theorem psrclr32 (imm5 : BitVec 5) : Statement (.psrclr32 imm5) := by
  refine ⟨_, _, rfl, ?_⟩
  rw [isLong_eq]
  simp only [BitVec.getLsbD_append, BitVec.getLsbD_extractLsb']
  rfl

theorem rte32 : Statement (.rte32) := by
  refine ⟨_, _, rfl, ?_⟩
  rw [isLong_eq]
  simp only [BitVec.getLsbD_append, BitVec.getLsbD_extractLsb']
  rfl

theorem trap32 (n : BitVec 2) : Statement (.trap32 n) := by
  refine ⟨_, _, rfl, ?_⟩
  rw [isLong_eq]
  simp only [BitVec.getLsbD_append, BitVec.getLsbD_extractLsb']
  rfl

theorem bkpt16 : Statement (.bkpt16) := by
  refine ⟨_, _, rfl, ?_⟩
  rfl

theorem sync32 (sBit : Bool) (iBit : Bool) : Statement (.sync32 sBit iBit) := by
  refine ⟨_, _, rfl, ?_⟩
  rw [isLong_eq]
  simp only [BitVec.getLsbD_append, BitVec.getLsbD_extractLsb']
  rfl

theorem wait32 : Statement (.wait32) := by
  refine ⟨_, _, rfl, ?_⟩
  rw [isLong_eq]
  simp only [BitVec.getLsbD_append, BitVec.getLsbD_extractLsb']
  rfl

theorem doze32 : Statement (.doze32) := by
  refine ⟨_, _, rfl, ?_⟩
  rw [isLong_eq]
  simp only [BitVec.getLsbD_append, BitVec.getLsbD_extractLsb']
  rfl

theorem stop32 : Statement (.stop32) := by
  refine ⟨_, _, rfl, ?_⟩
  rw [isLong_eq]
  simp only [BitVec.getLsbD_append, BitVec.getLsbD_extractLsb']
  rfl

theorem idly32 (imm5 : BitVec 5) : Statement (.idly32 imm5) := by
  refine ⟨_, _, rfl, ?_⟩
  rw [isLong_eq]
  simp only [BitVec.getLsbD_append, BitVec.getLsbD_extractLsb']
  rfl

end Sys2Proof.Laws.EncodedLength
end

