-- ==== Sys2Proof/Laws/Stack.lean ====
section
/-! SUPPORT. Alignment as arithmetic, the words of a multi-word access, and what pushing and popping answer. -/

namespace Sys2Proof.Machine

/-- An address is misaligned when it is no multiple of the size (R104). -/
theorem misaligned_iff (z : Size) (a : Word) : misaligned z a = true ↔ a.toNat % sizeBytes z ≠ 0 := by
  have low (k : Nat) (m : Word) (hm : m.toNat = 2 ^ k - 1) : (a &&& m != 0#32) = true ↔ a.toNat % 2 ^ k ≠ 0 := by
    rw [bne_iff_ne, not_iff_not, ← Nat.and_two_pow_sub_one_eq_mod, ← hm, ← BitVec.toNat_and]
    exact ⟨fun h => by rw [h]; rfl, fun h => BitVec.eq_of_toNat_eq h⟩
  cases z
  · exact low 0 _ rfl
  · exact low 1 _ rfl
  · exact low 2 _ rfl

/-- An address that is a multiple of four is word aligned. -/
theorem aligned_word {a : Word} (h : a.toNat % 4 = 0) : misaligned .word a = false := by
  rw [← Bool.not_eq_true, misaligned_iff]
  exact fun hn => hn h

/-- A stack pointer that is a multiple of four lets a multi-word access go on. -/
theorem multiAccess_aligned {α : Type} {s : State} (x : Access α) (h : (readReg .r14 s).toNat % 4 = 0) : multiAccess s x = x := by
  simp [multiAccess, aligned_word h]

/-- Any other stack pointer raises MisalignedAccess (R358). -/
theorem multiAccess_misaligned {α : Type} {s : State} (x : Access α) (h : (readReg .r14 s).toNat % 4 ≠ 0) :
    multiAccess s x = .raise vecMisaligned s := by
  simp [multiAccess, (misaligned_iff .word _).mpr h]

theorem wordsAt_length (s : State) (n : Nat) (a : Word) : (wordsAt s n a).length = n := by
  induction n generalizing s a with
  | zero => rfl
  | succ n ih => simp [wordsAt, ih]

/-- Word `k` of a multi-word read, after `k` gaps. -/
theorem wordsAt_getD (s : State) (n : Nat) (a : Word) (k : Nat) (h : k < n) : (wordsAt s n a).getD k 0#32 = wordAt (landed k s) a k := by
  induction n generalizing s a k with
  | zero => omega
  | succ n ih =>
    cases k with
    | zero => simp [wordsAt, wordAt, landed]
    | succ k =>
      cases n with
      | zero => omega
      | succ n =>
        simp only [wordsAt, List.getD_cons_succ]
        rw [show datum (wordGap (n + 1) s) .word (a + 4#32) :: wordsAt (wordGap n (wordGap (n + 1) s)) n (a + 4#32 + 4#32) =
          wordsAt (wordGap (n + 1) s) (n + 1) (a + 4#32) from rfl, ih _ _ _ (by omega)]
        simp [wordAt, offset_succ, wordGap, landed]

/-- Word `k` of a multi-word write reads back. -/
theorem memLoad_storedWords (be : Bool) (vs : List Word) (a : Word) (m : Memory) (hl : vs.length ≤ 1000) (k : Nat) (hk : k < vs.length) :
    memLoad be .word (a + BitVec.ofNat 32 (4 * k)) (storedWords be vs a m) = vs.getD k 0#32 := by
  induction vs generalizing a m k with
  | nil => simp at hk
  | cons v vs ih =>
    simp only [List.length_cons] at hl hk
    cases k with
    | zero =>
      have keep (j : Word) (hj : j.toNat < 4) :
          (storedWords be vs (a + 4#32) (memStore be .word a v m)).read (a + j).toNat = (memStore be .word a v m).read (a + j).toNat := by
        apply storedWords_outside
        have e : a + j - (a + 4#32) = j - 4#32 := by bv_omega
        rw [coversWords, e, BitVec.toNat_sub]
        simp only [BitVec.toNat_ofNat]
        omega
      have h0 := keep 0#32 (by decide)
      rw [BitVec.add_zero] at h0
      have e : memLoad be .word a (storedWords be vs (a + 4#32) (memStore be .word a v m)) = memLoad be .word a (memStore be .word a v m) := by
        simp only [memLoad, keep 1#32 (by decide), keep 2#32 (by decide), keep 3#32 (by decide), h0]
      rw [show a + BitVec.ofNat 32 (4 * 0) = a by simp, storedWords, e, memLoad_memStore]
      rfl
    | succ k =>
      rw [← offset_succ, storedWords, ih _ _ (by omega) _ (by omega), List.getD_cons_succ]

/-- A word of which the gaps write no byte reads as before the gap. -/
theorem wordAt_interleave {s : State} {a : Word} {k n : Nat} (hk : k < n) (hn : n ≤ 1000) (h : gapsMiss s 1 n a) :
    wordAt (interleave s) a k = wordAt s a k := by
  have byte (j : Nat) (hj : j < 4) :
      byteAt (landed 1 s) (a + BitVec.ofNat 32 (4 * k) + BitVec.ofNat 32 j) = byteAt s (a + BitVec.ofNat 32 (4 * k) + BitVec.ofNat 32 j) := by
    refine landed_byte 1 s _ (fun ws hws p hp e => h ws hws p hp ?_)
    rw [coversWords, e]
    have hx : a + BitVec.ofNat 32 (4 * k) + BitVec.ofNat 32 j - a = BitVec.ofNat 32 (4 * k + j) := by
      rw [BitVec.add_assoc, BitVec.add_comm a, BitVec.add_sub_cancel, ← BitVec.ofNat_add]
    rw [hx, BitVec.toNat_ofNat]
    omega
  have h0 := byte 0 (by decide)
  have h1 := byte 1 (by decide)
  have h2 := byte 2 (by decide)
  have h3 := byte 3 (by decide)
  simp only [byteAt, landed, BitVec.add_zero] at h0 h1 h2 h3
  simp only [wordAt, datum, memLoad, interleave_cfg, h0, h1, h2, h3]

/-- Words stored at ascending addresses stand there where no other bus master writes in the gaps, and every other byte is what the gaps leave. -/
theorem wordsStored_storedState {s t : State} {vs : List Word} {a : Word} (hl : vs.length ≤ 1000) (hm : t.mem = (storedState vs a s).mem)
    (hc : t.cfg = s.cfg) : wordsStored (vs.length - 1) s t vs a := by
  have outside (x : Word) (hx : ¬coversWords vs.length a x) : byteAt t x = byteAt (landed (vs.length - 1) s) x := by
    simpa only [byteAt, hm] using storedState_outside vs a x s hx
  refine ⟨fun hq k hk => ?_, fun x hx => ⟨outside x hx, fun hs => (outside x hx).trans (landed_byte _ s x hs)⟩⟩
  have byte (j : Nat) (hj : j < 4) :
      (storedState vs a s).mem.read (a + BitVec.ofNat 32 (4 * k) + BitVec.ofNat 32 j).toNat =
        (storedWords s.cfg.bigEndian vs a s.mem).read (a + BitVec.ofNat 32 (4 * k) + BitVec.ofNat 32 j).toNat := by
    refine storedState_byte vs a _ s (fun ws hws p hp e => hq ws hws p hp ?_)
    rw [coversWords, e]
    have hx : a + BitVec.ofNat 32 (4 * k) + BitVec.ofNat 32 j - a = BitVec.ofNat 32 (4 * k + j) := by
      rw [BitVec.add_assoc, BitVec.add_comm a, BitVec.add_sub_cancel, ← BitVec.ofNat_add]
    rw [hx, BitVec.toNat_ofNat]
    omega
  have e : memLoad s.cfg.bigEndian .word (a + BitVec.ofNat 32 (4 * k)) (storedState vs a s).mem =
      memLoad s.cfg.bigEndian .word (a + BitVec.ofNat 32 (4 * k)) (storedWords s.cfg.bigEndian vs a s.mem) := by
    have h0 := byte 0 (by decide)
    simp only [BitVec.add_zero] at h0
    simp only [memLoad, h0, byte 1 (by decide), byte 2 (by decide), byte 3 (by decide)]
  simp only [wordAt, datum, hm, hc]
  rw [e, memLoad_storedWords _ _ _ _ hl _ hk]

/-- The words before a failing one are stored with one gap more: the one before the failing word. -/
theorem storedPart_eq (vs : List Word) (a : Word) (s : State) :
    storedPart vs a s = if vs = [] then s else interleave (storedState vs a s) := by
  induction vs generalizing a s with
  | nil => rfl
  | cons v vs ih =>
    rw [storedPart, ih]
    cases vs <;> simp [wordGap, storedState]

/-- Those words change memory only, and use up the gaps after them. -/
theorem storedPart_frame (vs : List Word) (a : Word) (s : State) :
    storedPart vs a s = { s with mem := (storedPart vs a s).mem, between := s.between.drop vs.length } := by
  rw [storedPart_eq]
  split
  · next h => rw [h]; rfl
  · next h =>
    rw [storedState_eq]
    obtain ⟨n, hn⟩ : ∃ n, vs.length = n + 1 := Nat.exists_eq_succ_of_ne_zero (by simpa using h)
    simp [interleave, hn]

/-- Those words stand in memory where no other bus master writes in the gaps, and every other byte is what the gaps leave. -/
theorem wordsStored_storedPart (vs : List Word) (a : Word) (s : State) (hl : vs.length ≤ 1000) :
    wordsStored vs.length s (storedPart vs a s) vs a := by
  by_cases h : vs = []
  · subst h
    exact ⟨fun _ k hk => absurd hk (Nat.not_lt_zero k), fun x _ => ⟨rfl, fun _ => rfl⟩⟩
  · obtain ⟨n, hn⟩ : ∃ n, vs.length = n + 1 := Nat.exists_eq_succ_of_ne_zero (by simpa using h)
    have hs := wordsStored_storedState (s := s) (t := storedState vs a s) (a := a) hl rfl (by rw [storedState_eq])
    have hb : (storedState vs a s).between = s.between.drop n := by rw [storedState_eq, hn]; rfl
    rw [storedPart_eq, if_neg h]
    simp only [hn, Nat.add_sub_cancel] at hs
    have outside (x : Word) (hx : ¬coversWords vs.length a x) :
        byteAt (interleave (storedState vs a s)) x = byteAt (landed vs.length s) x := by
      rw [hn] at hx ⊢
      have e := landed_congr 1 (s := landed n s) (t := storedState vs a s) x (by rw [hb, landed_eq]) (hs.2 x (by simpa [hn] using hx)).1
      have l (k : Nat) (u : State) : landed 1 (landed k u) = landed (k + 1) u := by
        induction k generalizing u with
        | zero => rfl
        | succ k ih => exact ih (interleave u)
      rw [l] at e
      exact e
    refine ⟨fun hq k hk => ?_, fun x hx => ⟨outside x hx, fun hg => (outside x hx).trans (landed_byte _ s x hg)⟩⟩
    rw [wordAt_interleave hk hl]
    · refine hs.1 (fun ws hws => ?_) k (by omega)
      exact hq ws (List.take_subset_take_left _ (by omega) hws)
    · intro ws hws
      refine hq ws ?_
      rw [hb] at hws
      rw [hn, List.take_add]
      exact List.mem_append_right _ hws

/-- A multi-word read whose word `j` fails (R358). -/
theorem loadWords_fails (j n : Nat) (a : Word) (s : State) (hj : j < n) (h : ∀ k, k < j → readable s (a + BitVec.ofNat 32 (4 * k)))
    (hd : readFails s (a + BitVec.ofNat 32 (4 * j))) : loadWords n a s = .raise vecAccess (landed j s) := by
  induction n generalizing a j s with
  | zero => omega
  | succ n ih =>
    cases j with
    | zero =>
      simp only [Nat.mul_zero, BitVec.add_zero] at hd
      simp [loadWords, dataRead_fails hd, Access.bind, landed]
    | succ j =>
      have h0 : readable s a := by simpa using h 0 (by omega)
      have hg : wordGap n s = interleave s := by unfold wordGap; rw [if_neg (by omega)]
      simp only [loadWords, dataRead_readable h0, Access.bind, hg]
      rw [ih j (a + 4#32) (interleave s) (by omega) (fun k hk => by rw [readable_interleave, offset_succ]; exact h (k + 1) (by omega))
        (by rw [offset_succ]; exact hd)]
      rfl

/-- A multi-word write whose word `j` fails: the words before it are stored (R358). -/
theorem storeWords_fails (j : Nat) (vs : List Word) (a : Word) (s : State) (hj : j < vs.length)
    (h : ∀ k, k < j → writable s .word (a + BitVec.ofNat 32 (4 * k)))
    (hd : writeFails s .word (a + BitVec.ofNat 32 (4 * j))) :
    storeWords vs a s = .raise vecAccess (storedPart (vs.take j) a s) := by
  induction vs generalizing a j s with
  | nil => simp at hj
  | cons v vs ih =>
    cases j with
    | zero =>
      simp only [Nat.mul_zero, BitVec.add_zero] at hd
      simp [storeWords, dataWrite_fails hd, Access.bind, storedPart]
    | succ j =>
      have h0 : writable s .word a := by simpa using h 0 (by omega)
      simp only [List.length_cons] at hj
      have hg (t : State) : wordGap vs.length t = interleave t := by unfold wordGap; rw [if_neg (by omega)]
      simp only [storeWords, dataWrite_writable h0, Access.bind, hg]
      rw [ih j (a + 4#32) _ (by omega)]
      · rfl
      · intro k hk
        rw [offset_succ, writable_interleave]
        exact (writable_congr (s := s) rfl rfl rfl rfl rfl rfl rfl).mpr (h (k + 1) (by omega))
      · rw [offset_succ]
        exact hd

/-- A multi-word write whose word `j` goes into the next six bytes of the instruction stream is refused (R148). -/
theorem storeWords_inStream (j : Nat) (vs : List Word) (a : Word) (s : State) (hj : j < vs.length)
    (h : ∀ k, k < j → writable s .word (a + BitVec.ofNat 32 (4 * k)))
    (hd : streamStore s .word (a + BitVec.ofNat 32 (4 * j))) :
    storeWords vs a s = .refuse .prefetchWindowStore := by
  induction vs generalizing a j s with
  | nil => simp at hj
  | cons v vs ih =>
    cases j with
    | zero =>
      simp only [Nat.mul_zero, BitVec.add_zero] at hd
      simp [storeWords, dataWrite_inStream hd, Access.bind]
    | succ j =>
      have h0 : writable s .word a := by simpa using h 0 (by omega)
      simp only [List.length_cons] at hj
      have hg (t : State) : wordGap vs.length t = interleave t := by unfold wordGap; rw [if_neg (by omega)]
      simp only [storeWords, dataWrite_writable h0, Access.bind, hg]
      refine ih j (a + 4#32) _ (by omega) (fun k hk => ?_) ?_
      · rw [offset_succ, writable_interleave]
        exact (writable_congr (s := s) rfl rfl rfl rfl rfl rfl rfl).mpr (h (k + 1) (by omega))
      · rw [offset_succ]
        exact hd

/-- A push with such a word is refused. -/
theorem pushWords_inStream (j : Nat) (vs : List Word) (s : State) (h : (readReg .r14 s).toNat % 4 = 0) (hj : j < vs.length)
    (hw : wordsWritable s j (readReg .r14 s - BitVec.ofNat 32 (4 * vs.length)))
    (hd : streamStore s .word (readReg .r14 s - BitVec.ofNat 32 (4 * vs.length) + BitVec.ofNat 32 (4 * j))) :
    pushWords vs s = .refuse .prefetchWindowStore := by
  simp [pushWords, multiAccess_aligned _ h, wordsBytes, storeWords_inStream j vs _ s hj hw hd, Access.bind]

/-- A push whose words can all be written. -/
theorem pushWords_writable (vs : List Word) (s : State) (h : (readReg .r14 s).toNat % 4 = 0)
    (hw : wordsWritable s vs.length (readReg .r14 s - BitVec.ofNat 32 (4 * vs.length))) :
    pushWords vs s = .ok () (writeReg .r14 (readReg .r14 s - BitVec.ofNat 32 (4 * vs.length))
      (storedState vs (readReg .r14 s - BitVec.ofNat 32 (4 * vs.length)) s)) := by
  simp [pushWords, multiAccess_aligned _ h, wordsBytes, storeWords_writable vs _ s hw, Access.bind]

/-- A pop whose words can all be read. -/
theorem popWords_readable (n : Nat) (s : State) (h : (readReg .r14 s).toNat % 4 = 0) (hr : wordsReadable s n (readReg .r14 s)) :
    popWords n s = .ok (wordsAt s n (readReg .r14 s)) (landed (n - 1) s) := by
  rw [popWords, multiAccess_aligned _ h, loadWords_readable _ _ s hr]

/-- A register list has at most nine registers (R360). -/
theorem regList_length (r15 : Bool) (l : BitVec 4) : (regList r15 l).length ≤ 9 := by
  simp only [regList, listRegs, List.length_append, List.length_take]
  cases r15 <;> simp

end Sys2Proof.Machine
end

