-- ==== Sys2Proof/Laws/Step.lean ====
section
/-! SUPPORT. What the outside reaches before a step, and what a step is in each condition of the core. -/

namespace Sys2Proof.Machine

/-- The input reaches no more than the pins, memory, what other bus masters still write, the timer, the VIC and the debug unit. -/
theorem absorb_eq (s : State) : absorb s = { s with
    inputs := s.inputs.tail, pins := (currentInput s).pins, between := (currentInput s).between
    mem := writeBytes (currentInput s).busWrites s.mem, had := (absorb s).had, timer := (absorb s).timer, vic := (absorb s).vic } := by
  by_cases h : (s.cfg.hasCoreTim && !s.debugMode) = true <;> simp [absorb, sampleVic, tickTimer, takeInput, h]

/-- The debug unit's registers after the input: what the debugger writes (R520). -/
theorem absorb_had (s : State) : (absorb s).had = if s.cfg.hasDebug = true then (currentInput s).hadWrite.getD s.had else s.had := by
  by_cases h : (s.cfg.hasCoreTim && !s.debugMode) = true <;> simp [absorb, sampleVic, tickTimer, takeInput, h]

/-- The timer after the input: as many ticks as pass of the clock CLKSOURCE selects, none in debug mode (R472, R473). -/
theorem absorb_timer (s : State) : (absorb s).timer =
    if s.cfg.hasCoreTim = true ∧ s.debugMode = false then
      timerTicks (if s.timer.clksource = true ∨ s.cfg.hasRefClk = false then (currentInput s).coreTicks else (currentInput s).refTicks) s.timer
    else s.timer := by
  have e : clkSource s.cfg s.timer = decide (s.timer.clksource = true ∨ s.cfg.hasRefClk = false) := by
    unfold clkSource; cases s.timer.clksource <;> cases s.cfg.hasRefClk <;> rfl
  have hc : (s.cfg.hasCoreTim = true ∧ s.debugMode = false) ↔ (s.cfg.hasCoreTim && !s.debugMode) = true := by simp
  simp only [hc]
  by_cases h : (s.cfg.hasCoreTim && !s.debugMode) = true
  · simp only [absorb, sampleVic, tickTimer, takeInput, timerAdvance, h, if_true, e, decide_eq_true_eq]
  · simp only [absorb, sampleVic, tickTimer, takeInput, h, if_false, Bool.false_eq_true]

/-- The VIC after the input: one sample of the lines with the pins of the input and the timer after its ticks (R490). -/
theorem absorb_vic (s : State) :
    (absorb s).vic = (sampleVic { s with pins := (currentInput s).pins, timer := (absorb s).timer }).vic := by
  by_cases h : (s.cfg.hasCoreTim && !s.debugMode) = true <;> simp [absorb, sampleVic, tickTimer, takeInput, vicLines, h]

@[simp] theorem absorb_cfg (s : State) : (absorb s).cfg = s.cfg := by rw [absorb_eq]
@[simp] theorem absorb_regs (s : State) : (absorb s).regs = s.regs := by rw [absorb_eq]
@[simp] theorem absorb_pc (s : State) : (absorb s).pc = s.pc := by rw [absorb_eq]
@[simp] theorem absorb_psr (s : State) : (absorb s).psr = s.psr := by rw [absorb_eq]
@[simp] theorem absorb_vbr (s : State) : (absorb s).vbr = s.vbr := by rw [absorb_eq]
@[simp] theorem absorb_epsr (s : State) : (absorb s).epsr = s.epsr := by rw [absorb_eq]
@[simp] theorem absorb_epc (s : State) : (absorb s).epc = s.epc := by rw [absorb_eq]
@[simp] theorem absorb_mpuOn (s : State) : (absorb s).mpuOn = s.mpuOn := by rw [absorb_eq]
@[simp] theorem absorb_capr (s : State) : (absorb s).capr = s.capr := by rw [absorb_eq]
@[simp] theorem absorb_pacr (s : State) : (absorb s).pacr = s.pacr := by rw [absorb_eq]
@[simp] theorem absorb_prsr (s : State) : (absorb s).prsr = s.prsr := by rw [absorb_eq]
@[simp] theorem absorb_iae (s : State) : (absorb s).iae = s.iae := by rw [absorb_eq]
@[simp] theorem absorb_idlyCount (s : State) : (absorb s).idlyCount = s.idlyCount := by rw [absorb_eq]
@[simp] theorem absorb_lowPower (s : State) : (absorb s).lowPower = s.lowPower := by rw [absorb_eq]
@[simp] theorem absorb_debugMode (s : State) : (absorb s).debugMode = s.debugMode := by rw [absorb_eq]
@[simp] theorem absorb_lockup (s : State) : (absorb s).lockup = s.lockup := by rw [absorb_eq]
@[simp] theorem absorb_hung (s : State) : (absorb s).hung = s.hung := by rw [absorb_eq]
@[simp] theorem absorb_inReset (s : State) : (absorb s).inReset = s.inReset := by rw [absorb_eq]
@[simp] theorem absorb_nieShadow (s : State) : (absorb s).nieShadow = s.nieShadow := by rw [absorb_eq]
@[simp] theorem absorb_freeCount (s : State) : (absorb s).freeCount = s.freeCount := by rw [absorb_eq]

/-- A running core takes an interrupt or runs an instruction. -/
theorem step_running {s : State} (h : running s) : step s = coreCycle (absorb s) := by
  obtain ⟨h1, h2, h3, h4, h5, h6, h7⟩ := h
  unfold step cycle cycleWith
  simp only [h1, h2, h3, h4, h5, h6, h7]
  rfl

/-- With the reset input asserted a step is a reset. -/
theorem step_reset {s : State} (h : (currentInput s).pins.reset = true) : step s = .next (hardReset (absorb s)) := by
  unfold step cycle cycleWith
  rw [if_pos h]

/-! ### The hold-off after NIE16 -/

/-- An instruction that an interrupt may break into is at the PC. -/
theorem atInterruptible_of {s : State} (h : atMultiCycle s) : atInterruptible s = true := by
  have key (i : Instr) (hi : instrAt s i) (hb : isInterruptible i = true) : atInterruptible s = true := by
    simp [atInterruptible, fetchInstr_fetchable hi.1, hi.2, hb]
  rcases h with h | h | ⟨r15, l, h | h⟩ <;> exact key _ h rfl

/-- No such instruction is at the PC. -/
theorem atInterruptible_not {s : State} (hf : instrFetchable s) (h : ¬atMultiCycle s) : atInterruptible s = false := by
  simp only [atInterruptible, fetchInstr_fetchable hf]
  cases hd : decodeHalves (halfAt s s.pc) (secondHalf s) with
  | error e => rfl
  | ok i =>
    cases i <;> first
      | rfl
      | exact (h (.inl ⟨hf, hd⟩)).elim
      | exact (h (.inr (.inl ⟨hf, hd⟩))).elim
      | exact (h (.inr (.inr ⟨_, _, .inl ⟨hf, hd⟩⟩))).elim
      | exact (h (.inr (.inr ⟨_, _, .inr ⟨hf, hd⟩⟩))).elim

end Sys2Proof.Machine
end

