-- ==== Sys2Proof/Tests/Slice0.lean ====
section
/-! SUPPORT. Tests: ill-formed terms, words written out from the spec's encodings, one step on small states (expected values from
spec/95_test_vectors.md and the rules' own examples), and for every obligation with hypotheses a witness that meets them. -/

namespace Sys2Proof.Tests

open Sys2Proof.Machine

/-! ### Ill-formed terms -/

theorem test_wf_low_r3 : (Instr.addu16r3 .r8 .r0 .r0).wellFormed = false ∧ (Instr.addu16r3 .r0 .r8 .r0).wellFormed = false ∧
    (Instr.addu16r3 .r0 .r0 .r8).wellFormed = false ∧ (Instr.subu16r3 .r9 .r0 .r0).wellFormed = false ∧
    (Instr.subu16r3 .r0 .r9 .r0).wellFormed = false ∧ (Instr.subu16r3 .r0 .r0 .r9).wellFormed = false := by decide
theorem test_wf_low_r3i : (Instr.addi16r3 .r8 .r0 0).wellFormed = false ∧ (Instr.addi16r3 .r0 .r8 0).wellFormed = false ∧
    (Instr.subi16r3 .r8 .r0 0).wellFormed = false ∧ (Instr.subi16r3 .r0 .r8 0).wellFormed = false := by decide
theorem test_wf_low_i8 : (Instr.addi16 .r8 0).wellFormed = false ∧ (Instr.addi16rsp .r14 0).wellFormed = false ∧
    (Instr.subi16 .r8 0).wellFormed = false ∧ (Instr.movi16 .r15 0).wellFormed = false := by decide
theorem test_wf_low_shift : (Instr.lsli16 .r8 .r0 0).wellFormed = false ∧ (Instr.lsli16 .r0 .r8 0).wellFormed = false ∧
    (Instr.lsri16 .r8 .r0 0).wellFormed = false ∧ (Instr.lsri16 .r0 .r8 0).wellFormed = false ∧
    (Instr.asri16 .r8 .r0 0).wellFormed = false ∧ (Instr.asri16 .r0 .r8 0).wellFormed = false := by decide
theorem test_wf_low_xi5 : (Instr.cmpnei16 .r8 0).wellFormed = false ∧ (Instr.cmphsi16 .r8 0).wellFormed = false ∧
    (Instr.cmplti16 .r8 0).wellFormed = false ∧ (Instr.bclri16 .r8 0).wellFormed = false ∧
    (Instr.bseti16 .r8 0).wellFormed = false ∧ (Instr.btsti16 .r8 0).wellFormed = false := by decide
theorem test_wf_low_memory : (Instr.ld16b .r8 .r0 0).wellFormed = false ∧ (Instr.ld16b .r0 .r8 0).wellFormed = false ∧
    (Instr.ld16h .r8 .r0 0).wellFormed = false ∧ (Instr.ld16h .r0 .r8 0).wellFormed = false ∧
    (Instr.ld16w .r8 .r0 0).wellFormed = false ∧ (Instr.ld16w .r0 .r8 0).wellFormed = false ∧
    (Instr.st16b .r8 .r0 0).wellFormed = false ∧ (Instr.st16b .r0 .r8 0).wellFormed = false ∧
    (Instr.st16h .r8 .r0 0).wellFormed = false ∧ (Instr.st16h .r0 .r8 0).wellFormed = false ∧
    (Instr.st16w .r8 .r0 0).wellFormed = false ∧ (Instr.st16w .r0 .r8 0).wellFormed = false ∧
    (Instr.ld16wsp .r8 0).wellFormed = false ∧ (Instr.st16wsp .r8 0).wellFormed = false ∧
    (Instr.lrw16 .r8 0).wellFormed = false := by decide
theorem test_wf_list : (Instr.push16 false 9).wellFormed = false ∧ (Instr.push16 true 15).wellFormed = false ∧
    (Instr.pop16 false 9).wellFormed = false ∧ (Instr.push16 true 8).wellFormed = true ∧ (Instr.pop16 false 8).wellFormed = true := by decide

/-! ### Words written out from the encodings of R153 and R154, field by field -/

/-- A list of words decodes as it says. -/
def decodes (l : List (Half × Half × Instr)) : Bool := l.all (fun p => decide (decodeHalves p.1 p.2.1 = .ok p.2.2))

theorem test_decode_r2_arith : decodes
    [(0b011000_0001_0010_00, 0, .addu16 .r1 .r2), (0b011000_0001_0010_01, 0, .addc16 .r1 .r2),
     (0b011000_0001_0010_10, 0, .subu16 .r1 .r2), (0b011000_0001_0010_11, 0, .subc16 .r1 .r2),
     (0b011111_0001_0010_00, 0, .mult16 .r1 .r2), (0b011000_1110_1001_00, 0, .addu16 .r14 .r9)] = true := by decide
theorem test_decode_r2_logic : decodes
    [(0b011010_0001_0010_00, 0, .and16 .r1 .r2), (0b011010_0001_0010_01, 0, .andn16 .r1 .r2),
     (0b011011_0001_0010_00, 0, .or16 .r1 .r2), (0b011011_0001_0010_01, 0, .xor16 .r1 .r2),
     (0b011011_0001_0010_10, 0, .nor16 .r1 .r2), (0b011100_0001_0010_00, 0, .lsl16 .r1 .r2),
     (0b011100_0001_0010_01, 0, .lsr16 .r1 .r2), (0b011100_0001_0010_10, 0, .asr16 .r1 .r2),
     (0b011100_0001_0010_11, 0, .rotl16 .r1 .r2)] = true := by decide
theorem test_decode_r2_extend : decodes
    [(0b011101_0001_0010_00, 0, .zextb16 .r1 .r2), (0b011101_0001_0010_01, 0, .zexth16 .r1 .r2),
     (0b011101_0001_0010_10, 0, .sextb16 .r1 .r2), (0b011101_1101_1111_11, 0, .sexth16 .r13 .r15)] = true := by decide
theorem test_decode_r2_compare : decodes
    [(0b011001_0010_0001_10, 0, .cmpne16 .r1 .r2), (0b011001_0010_0001_00, 0, .cmphs16 .r1 .r2),
     (0b011001_0010_0001_01, 0, .cmplt16 .r1 .r2), (0b011010_0010_0001_10, 0, .tst16 .r1 .r2),
     (0b011010_0000_0001_11, 0, .tstnbz16 .r1), (0b011011_0001_0010_11, 0, .mov16 .r1 .r2),
     (0b011001_0001_0000_11, 0, .mvcv16 .r1)] = true := by decide
theorem test_decode_r3 : decodes
    [(0b01011_010_001_011_00, 0, .addu16r3 .r1 .r2 .r3), (0b01011_010_001_011_01, 0, .subu16r3 .r1 .r2 .r3),
     (0b01011_010_001_111_10, 0, .addi16r3 .r1 .r2 7), (0b01011_010_001_111_11, 0, .subi16r3 .r1 .r2 7)] = true := by decide
theorem test_decode_i8 : decodes
    [(0b00100_011_11111111, 0, .addi16 .r3 255), (0b00011_010_00000100, 0, .addi16rsp .r2 4),
     (0b00101_011_00000000, 0, .subi16 .r3 0), (0b00110_001_11111111, 0, .movi16 .r1 255),
     (0b000101_11_000_11111, 0, .addi16sp 127), (0b000101_00_001_00001, 0, .subi16sp 1)] = true := by decide
theorem test_decode_imm5 : decodes
    [(0b01000_010_001_00100, 0, .lsli16 .r1 .r2 4), (0b01001_010_001_00100, 0, .lsri16 .r1 .r2 4),
     (0b01010_010_001_00100, 0, .asri16 .r1 .r2 4), (0b00111_001_010_11111, 0, .cmpnei16 .r1 31),
     (0b00111_001_000_11111, 0, .cmphsi16 .r1 31), (0b00111_001_001_00000, 0, .cmplti16 .r1 0),
     (0b00111_001_100_00101, 0, .bclri16 .r1 5), (0b00111_001_101_11111, 0, .bseti16 .r1 31),
     (0b00111_001_110_00101, 0, .btsti16 .r1 5)] = true := by decide
theorem test_decode_branch : decodes
    [(0b000001_1111111111, 0, .br16 0x3FF), (0b000010_0000000011, 0, .bt16 3), (0b000011_1000000000, 0, .bf16 0x200),
     (0b1110100000000000, 0x0800, .br32 0x0800), (0b111000_1111111111, 0xFFFE, .bsr32 0x3FFFFFE),
     (0b011110_0000_0011_00, 0, .jmp16 .r3), (0b011110_1111_0011_01, 0, .jsr16 .r3),
     (0b000100_01_001_00010, 0, .lrw16 .r1 34), (0b11101010100_00001, 0x8001, .lrw32 .r1 0x8001)] = true := by decide
theorem test_decode_load : decodes
    [(0b10000_010_001_00011, 0, .ld16b .r1 .r2 3), (0b10001_010_001_00011, 0, .ld16h .r1 .r2 3),
     (0b10010_010_001_00011, 0, .ld16w .r1 .r2 3), (0b10011_001_001_01000, 0, .ld16wsp .r1 40),
     (0b110110_00001_00010, 0b0000_000100100011, .ld32b .r1 .r2 0x123), (0b110110_00001_00010, 0b0001_000000001000, .ld32h .r1 .r2 8),
     (0b110110_00011_01110, 0b0010_000000000001, .ld32w .r3 .r14 1)] = true := by decide
theorem test_decode_store : decodes
    [(0b10100_010_001_00011, 0, .st16b .r1 .r2 3), (0b10101_010_001_00011, 0, .st16h .r1 .r2 3),
     (0b10110_010_001_00011, 0, .st16w .r1 .r2 3), (0b10111_000_011_00001, 0, .st16wsp .r3 1),
     (0b110111_00001_00010, 0b0000_000100100011, .st32b .r1 .r2 0x123), (0b110111_00001_00010, 0b0001_000000001000, .st32h .r1 .r2 8),
     (0b110111_00001_00010, 0b0010_000000000100, .st32w .r1 .r2 4)] = true := by decide
theorem test_decode_stack : decodes
    [(0b000101001_1_0_1_1000, 0, .push16 true 8), (0b000101001_0_0_0_0100, 0, .pop16 false 4),
     (0b0001010001100010, 0, .ipush16), (0b0001010001100011, 0, .ipop16),
     (0b0001010001100000, 0, .nie16), (0b0001010001100001, 0, .nir16)] = true := by decide
theorem test_decode_system : decodes
    [(0b110000_00001_01110, 0b011000_00001_00011, .mfcr32 .r3 14 1), (0b110000_00000_00010, 0b011001_00001_11111, .mtcr32 .r2 31 0),
     (0b110000_01100_00000, 0b011101_00001_00000, .psrset32 12), (0b110000_00100_00000, 0b011100_00001_00000, .psrclr32 4),
     (0b110000_00000_00000, 0b010000_00001_00000, .rte32), (0b110000_00000_00000, 0b001010_00001_00000, .trap32 2),
     (0b0000000000000000, 0, .bkpt16), (0b110000_10001_00000, 0b000001_00001_00000, .sync32 true true),
     (0b110000_10000_00000, 0b000001_00001_00000, .sync32 true false),
     (0b110000_00000_00000, 0b010011_00001_00000, .wait32), (0b110000_00000_00000, 0b010100_00001_00000, .doze32),
     (0b110000_00000_00000, 0b010010_00001_00000, .stop32), (0b110000_00011_00000, 0b000111_00001_00000, .idly32 3)] = true := by decide

/-- 95_test_vectors.md 2.9, and the register fields of R154. -/
theorem test_decode_refuses :
    [((0x0001 : Half), (0 : Half)), (0x03FF, 0), (0x1440, 0), (0x1464, 0), (0x1560, 0), (0x14A0, 0), (0x14E0, 0), (0x1580, 0), (0x14CF, 0),
     (0x14C9, 0), (0x3860, 0), (0x38E0, 0), (0x6407, 0), (0x6843, 0), (0x7840, 0), (0x7801, 0), (0x7802, 0), (0x7C01, 0),
     (0xC400, 0), (0xE400, 0), (0xEA00, 0), (0xE820, 0), (0xD800, 0x3000), (0xDC00, 0x4000), (0xC000, 0x6000), (0xC000, 0x8020),
     (0xC000, 0x6031), (0xC010, 0x6421), (0xC000, 0x0020), (0xC000, 0x4021), (0xFFFF, 0), (0xEA90, 0)].all
      (fun p => match decodeHalves p.1 p.2 with | .ok _ => false | .error _ => true) = true := by decide

theorem test_table_word : decodeTableWord 16 0x6048 = some (.addu16 .r1 .r2) ∧ decodeTableWord 32 0xC0006021 = some (.mfcr32 .r1 0 0) := by decide
theorem test_decode_bytes_order : decodeBytes false [0x00, 0xE0, 0x0C, 0x00] = .ok (.bsr32 12, []) ∧
    decodeBytes true [0xE0, 0x00, 0x00, 0x0C] = .ok (.bsr32 12, []) ∧ decodeBytes false [0x00, 0xE0] = .error .truncated := by decide

/-! ### One instruction on a small state -/

/-- The common start state of 95_test_vectors.md part 2, with R1, R2 and C. -/
def start (r1 r2 : Word) (c : Bool) : State :=
  { State.reset with
    inReset := false
    pc := 0x1000
    psr := { Psr.reset with ee := true, c := c }
    regs := { State.reset.regs with r1 := r1, r2 := r2, r3 := 7, r4 := 0x44, r5 := 0x55, r15 := 0x1F00, ssp := 0x20000100, usp := 0x20000800 }
    mem := memStore false .word 0x40 0x380 (memStore false .word 0x20 0x340 (memStore false .word 0x14 0x328
      (memStore false .word 0x10 0x320 (memStore false .word 8 0x310 (memStore false .word 4 0x308
        (memStore false .word 0x20000100 0x80F2A355 (memStore false .word 0x20000104 0x11223344 []))))))) }

/-- The same in user mode. -/
def user (r1 r2 : Word) : State := let s := start r1 r2 false; { s with psr := { s.psr with s := false } }

/-- R1, C and the PC of a next state. -/
def view (r : Result) : Option (Word × Bool × Word) :=
  match r with
  | .next t => some (t.regs.r1, t.psr.c, t.pc)
  | _ => none

/-- Something of a next state. -/
def seen {α : Type} (f : State → α) (r : Result) : Option α :=
  match r with
  | .next t => some (f t)
  | _ => none

/-- The refusal of a result. -/
def refusal (r : Result) : Option Refusal :=
  match r with
  | .refused q => some q
  | _ => none

/-- PSR, EPSR, EPC and the PC, as words. -/
def entry (t : State) : List Word := [psrWord t.psr, psrWord t.epsr, t.epc, t.pc]

/-- The word of memory at an address. -/
def word (a : Word) (t : State) : Word := memLoad t.cfg.bigEndian .word a t.mem

theorem test_addu16 : view (exec (.addu16 .r1 .r2) (start 0xFFFFFFFF 2 true)) = some (1, true, 0x1002) := by decide
theorem test_addu16_absent : view (exec (.addu16 .r9 .r2) (start 5 2 false)) = some (5, false, 0x1002) := by decide
theorem test_addu16r3 : view (exec (.addu16r3 .r1 .r2 .r3) (start 0 0x7FFFFFFF false)) = some (0x80000006, false, 0x1002) := by decide
theorem test_addc16 : view (exec (.addc16 .r1 .r2) (start 0x80000000 0x80000000 true)) = some (1, true, 0x1002) := by decide
theorem test_addc16_clears : view (exec (.addc16 .r1 .r2) (start 1 2 true)) = some (4, false, 0x1002) := by decide
theorem test_addi16 : view (exec (.addi16 .r1 255) (start 0xFFFFFF00 0 false)) = some (0, false, 0x1002) := by decide
theorem test_addi16r3 : view (exec (.addi16r3 .r1 .r2 7) (start 0 0x10 false)) = some (0x18, false, 0x1002) := by decide
theorem test_addi16rsp : view (exec (.addi16rsp .r1 4) (user 0 0)) = some (0x20000810, false, 0x1002) := by decide
theorem test_addi16sp : seen (fun t => t.regs.ssp) (exec (.addi16sp 127) (start 0 0 false)) = some 0x200002FC := by decide
theorem test_subu16 : view (exec (.subu16 .r1 .r2) (start 0 1 true)) = some (0xFFFFFFFF, true, 0x1002) := by decide
theorem test_subu16r3 : view (exec (.subu16r3 .r1 .r2 .r3) (start 0 5 false)) = some (0xFFFFFFFE, false, 0x1002) := by decide
theorem test_subc16 : view (exec (.subc16 .r1 .r2) (start 5 5 false)) = some (0xFFFFFFFF, false, 0x1002) := by decide
theorem test_subc16_no_borrow : view (exec (.subc16 .r1 .r2) (start 0x80000000 0x7FFFFFFF false)) = some (0, true, 0x1002) := by decide
theorem test_subi16 : view (exec (.subi16 .r1 0) (start 0 0 false)) = some (0xFFFFFFFF, false, 0x1002) := by decide
theorem test_subi16r3 : view (exec (.subi16r3 .r1 .r2 7) (start 0 0x18 false)) = some (0x10, false, 0x1002) := by decide
theorem test_subi16sp : seen (fun t => t.regs.ssp) (exec (.subi16sp 1) (start 0 0 false)) = some 0x200000FC := by decide
theorem test_mult16 : view (exec (.mult16 .r1 .r2) (start 0x12345678 0x9ABCDEF0 true)) = some (0x242D2080, true, 0x1002) := by decide
theorem test_and16 : view (exec (.and16 .r1 .r2) (start 0xFF00FF00 0x0FF00FF0 true)) = some (0x0F000F00, true, 0x1002) := by decide
theorem test_andn16 : view (exec (.andn16 .r1 .r2) (start 0xFFFFFFFF 0xFFFF false)) = some (0xFFFF0000, false, 0x1002) := by decide
theorem test_or16 : view (exec (.or16 .r1 .r2) (start 0xF0 0xF false)) = some (0xFF, false, 0x1002) := by decide
theorem test_xor16 : view (exec (.xor16 .r1 .r2) (start 0xFF 0xF false)) = some (0xF0, false, 0x1002) := by decide
theorem test_nor16 : view (exec (.nor16 .r1 .r2) (start 0xF0 0xF false)) = some (0xFFFFFF00, false, 0x1002) := by decide
theorem test_lsl16_32 : view (exec (.lsl16 .r1 .r2) (start 0xFFFFFFFF 0x20 false)) = some (0, false, 0x1002) := by decide
theorem test_lsl16_low6 : view (exec (.lsl16 .r1 .r2) (start 0x12345678 0xFFFFFF04 false)) = some (0x23456780, false, 0x1002) := by decide
theorem test_lsr16 : view (exec (.lsr16 .r1 .r2) (start 0x80000000 0x1F false)) = some (1, false, 0x1002) := by decide
theorem test_asr16 : view (exec (.asr16 .r1 .r2) (start 0x80000000 4 false)) = some (0xF8000000, false, 0x1002) := by decide
theorem test_asr16_40 : view (exec (.asr16 .r1 .r2) (start 0x80000000 0x28 false)) = some (0xFFFFFFFF, false, 0x1002) := by decide
theorem test_rotl16 : view (exec (.rotl16 .r1 .r2) (start 0x80000001 0x1F false)) = some (0xC0000000, false, 0x1002) := by decide
theorem test_rotl16_33 : view (exec (.rotl16 .r1 .r2) (start 0x80000001 0x21 false)) = some (0, false, 0x1002) := by decide
theorem test_lsli16 : view (exec (.lsli16 .r1 .r2 4) (start 0 0x0F00000F true)) = some (0xF00000F0, true, 0x1002) := by decide
theorem test_lsri16 : view (exec (.lsri16 .r1 .r2 31) (start 0 0x80000000 false)) = some (1, false, 0x1002) := by decide
theorem test_asri16 : view (exec (.asri16 .r1 .r2 4) (start 0 0x80000010 false)) = some (0xF8000001, false, 0x1002) := by decide
theorem test_zextb16 : view (exec (.zextb16 .r1 .r2) (start 0 0x123456F8 false)) = some (0xF8, false, 0x1002) := by decide
theorem test_zexth16 : view (exec (.zexth16 .r1 .r2) (start 0 0x1234F678 false)) = some (0xF678, false, 0x1002) := by decide
theorem test_sextb16 : view (exec (.sextb16 .r1 .r2) (start 0 0x123456F8 false)) = some (0xFFFFFFF8, false, 0x1002) := by decide
theorem test_sexth16 : view (exec (.sexth16 .r1 .r2) (start 0 0x12348000 false)) = some (0xFFFF8000, false, 0x1002) := by decide
theorem test_cmpne16 : view (exec (.cmpne16 .r1 .r2) (start 7 7 true)) = some (7, false, 0x1002) := by decide
theorem test_cmpnei16 : view (exec (.cmpnei16 .r1 31) (start 0x1E 0 false)) = some (0x1E, true, 0x1002) := by decide
theorem test_cmphs16 : view (exec (.cmphs16 .r1 .r2) (start 0x7FFFFFFF 0x80000000 true)) = some (0x7FFFFFFF, false, 0x1002) := by decide
theorem test_cmphsi16 : view (exec (.cmphsi16 .r1 31) (start 0x20 0 false)) = some (0x20, true, 0x1002) := by decide
theorem test_cmplt16 : view (exec (.cmplt16 .r1 .r2) (start 0x80000000 0x7FFFFFFF false)) = some (0x80000000, true, 0x1002) := by decide
theorem test_cmplti16 : view (exec (.cmplti16 .r1 31) (start 0x20 0 true)) = some (0x20, false, 0x1002) := by decide
theorem test_tst16 : view (exec (.tst16 .r1 .r2) (start 0xF0 0x10 false)) = some (0xF0, true, 0x1002) := by decide
theorem test_tstnbz16 : view (exec (.tstnbz16 .r1) (start 0x01000101 0 true)) = some (0x01000101, false, 0x1002) := by decide
theorem test_mov16 : view (exec (.mov16 .r1 .r9) (start 0x55 0 true)) = some (0, true, 0x1002) := by decide
theorem test_mov16_user_sp : seen (fun t => (t.regs.ssp, t.regs.usp)) (exec (.mov16 .r14 .r1) (user 0x20000400 0)) = some (0x20000100, 0x20000400) := by decide
theorem test_movi16 : view (exec (.movi16 .r1 255) (start 0xFFFFFFFF 0 true)) = some (0xFF, true, 0x1002) := by decide
theorem test_mvcv16 : view (exec (.mvcv16 .r1) (start 9 0 true)) = some (0, true, 0x1002) ∧ view (exec (.mvcv16 .r1) (start 9 0 false)) = some (1, false, 0x1002) := by decide
theorem test_bclri16 : view (exec (.bclri16 .r1 31) (start 0xFFFFFFFF 0 false)) = some (0x7FFFFFFF, false, 0x1002) := by decide
theorem test_bseti16 : view (exec (.bseti16 .r1 31) (start 3 0 false)) = some (0x80000003, false, 0x1002) := by decide
theorem test_btsti16 : view (exec (.btsti16 .r1 5) (start 0x20 0 false)) = some (0x20, true, 0x1002) := by decide
theorem test_lrw16 : view (exec (.lrw16 .r1 0x41) { start 0 0 false with pc := 0x20000002 }) = some (0x11223344, false, 0x20000004) := by decide
theorem test_lrw32 : view (exec (.lrw32 .r1 1) { start 0 0 false with pc := 0x200000FE }) = some (0x80F2A355, false, 0x20000102) := by decide
theorem test_br16 : view (exec (.br16 0x3FF) (start 0 0 false)) = some (0, false, 0xFFE) := by decide
theorem test_br32 : view (exec (.br32 0x0800) (start 0 0 false)) = some (0, false, 0x2000) := by decide
theorem test_bt16 : view (exec (.bt16 3) (start 0 0 true)) = some (0, true, 0x1006) ∧ view (exec (.bt16 3) (start 0 0 false)) = some (0, false, 0x1002) := by decide
theorem test_bf16 : view (exec (.bf16 3) (start 0 0 true)) = some (0, true, 0x1002) ∧ view (exec (.bf16 3) (start 0 0 false)) = some (0, false, 0x1006) := by decide
theorem test_bsr32 : seen (fun t => (t.pc, t.regs.r15)) (exec (.bsr32 0x3FFFFFE) (start 0 0 false)) = some (0xFFC, 0x1004) := by decide
theorem test_jmp16 : view (exec (.jmp16 .r1) (start 0x2001 0 false)) = some (0x2001, false, 0x2000) := by decide
theorem test_jsr16_r15 : seen (fun t => (t.pc, t.regs.r15)) (exec (.jsr16 .r15) (start 0 0 false)) = some (0x1F00, 0x1002) := by decide
theorem test_ld16b : view (exec (.ld16b .r1 .r2 1) (start 0 0x20000100 false)) = some (0xA3, false, 0x1002) := by decide
theorem test_ld32b : view (exec (.ld32b .r1 .r2 3) (start 0 0x20000100 false)) = some (0x80, false, 0x1004) := by decide
theorem test_ld16h : view (exec (.ld16h .r1 .r2 1) (start 0 0x20000100 false)) = some (0x80F2, false, 0x1002) := by decide
theorem test_ld32h : view (exec (.ld32h .r1 .r2 0x800) (start 0 0x1FFFF100 false)) = some (0xA355, false, 0x1004) := by decide
theorem test_ld16w : view (exec (.ld16w .r1 .r2 1) (start 0 0x20000100 false)) = some (0x11223344, false, 0x1002) := by decide
theorem test_ld16w_misaligned : seen entry (exec (.ld16w .r1 .r2 0) (start 0 0x20000102 true)) = some [0x80010001, 0x80000101, 0x1000, 0x308] := by decide
theorem test_ld16wsp : view (exec (.ld16wsp .r1 1) (start 0 0 false)) = some (0x11223344, false, 0x1002) := by decide
theorem test_ld32w : view (exec (.ld32w .r1 .r14 1) (start 0 0 false)) = some (0x11223344, false, 0x1004) := by decide
theorem test_st16b : seen (word 0x20000100) (exec (.st16b .r1 .r2 1) (start 0x1EE 0x20000100 false)) = some 0x80F2EE55 := by decide
theorem test_st32b : seen (word 0x20000100) (exec (.st32b .r1 .r2 0x103) (start 0x1EE 0x20000000 false)) = some 0xEEF2A355 := by decide
theorem test_st16h : seen (word 0x20000100) (exec (.st16h .r1 .r2 1) (start 0x1BEEF 0x20000100 false)) = some 0xBEEFA355 := by decide
theorem test_st32h : seen (word 0x20000100) (exec (.st32h .r1 .r2 0x80) (start 0x1BEEF 0x20000000 false)) = some 0x80F2BEEF := by decide
theorem test_st16w : seen (word 0x20000104) (exec (.st16w .r1 .r2 1) (start 0x01020304 0x20000100 false)) = some 0x01020304 := by decide
theorem test_st16w_mm : seen (word 0x20000100) (exec (.st16w .r1 .r2 0) (let s := start 5 0x20000101 false; { s with psr := { s.psr with mm := true } })) = some 5 := by decide
theorem test_st16wsp : seen (word 0x20000108) (exec (.st16wsp .r1 2) (start 0x01020304 0 false)) = some 0x01020304 := by decide
theorem test_st32w_absent : seen (fun t => (word 0x20000100 t, t.pc)) (exec (.st32w .r9 .r2 0) (start 0 0x20000100 false)) = some (0, 0x1004) := by decide
theorem test_push16 : seen (fun t => [word 0x200000F4 t, word 0x200000F8 t, word 0x200000FC t, t.regs.ssp, t.pc]) (exec (.push16 true 2) (start 0 0 false)) =
    some [0x44, 0x55, 0x1F00, 0x200000F4, 0x1002] := by decide
theorem test_pop16 : seen (fun t => [t.regs.r4, t.regs.r15, t.regs.ssp, t.pc]) (exec (.pop16 true 1) (start 0 0 false)) =
    some [0x80F2A355, 0x11223344, 0x20000108, 0x11223344] := by decide
theorem test_pop16_empty : seen (fun t => [t.regs.ssp, t.pc]) (exec (.pop16 false 0) (start 0 0 false)) = some [0x20000100, 0x1F00] := by decide
theorem test_ipush16 : seen (fun t => [word 0x200000EC t, word 0x200000F4 t, word 0x200000F8 t, t.regs.ssp]) (exec .ipush16 (start 0xA1 0 false)) =
    some [0xA1, 7, 0, 0x200000E8] := by decide
theorem test_ipop16 : seen (fun t => [t.regs.r0, t.regs.r1, t.regs.r2, t.regs.ssp, t.pc]) (exec .ipop16 (start 0xA1 9 false)) =
    some [0x80F2A355, 0x11223344, 0, 0x20000118, 0x1002] := by decide
theorem test_nie16 : seen (fun t => [word 0x200000F8 t, word 0x200000FC t, t.regs.ssp, psrWord t.psr])
    (exec .nie16 { start 0 0 false with epsr := psrOfWord 0x80000140, epc := 0x11C, psr := Psr.reset }) =
    some [0x80000140, 0x11C, 0x200000F8, 0x80000140] := by decide
theorem test_nir16 : seen (fun t => entry t ++ [t.regs.ssp])
    (exec .nir16 { start 0 0 false with mem := memStore false .word 0x20000100 0x80200141 (memStore false .word 0x20000104 0x189 []) }) =
    some [0x80200141, 0x80200141, 0x189, 0x188, 0x20000108] := by decide
theorem test_nir16_user : seen entry (exec .nir16 (user 0 0)) = some [0x80050000, 0x100, 0x1000, 0x328] := by decide
theorem test_mfcr32 : view (exec (.mfcr32 .r1 0 0) (start 0 0 true)) = some (0x80000101, true, 0x1004) := by decide
theorem test_mfcr32_absent : view (exec (.mfcr32 .r1 30 0) (start 0x55 0 false)) = some (0, false, 0x1004) := by decide
theorem test_mtcr32_psr : seen (fun t => psrWord t.psr) (exec (.mtcr32 .r1 0 0) (start 0xFFFFFFFF 0 false)) = some 0x80FF03C1 := by decide
theorem test_mtcr32_vbr : seen (fun t => vbrWord t.vbr) (exec (.mtcr32 .r1 1 0) (start 0x12345FFF 0 false)) = some 0x12345C00 := by decide
theorem test_psrset32 : seen (fun t => psrWord t.psr) (exec (.psrset32 4) (start 0 0 false)) = some 0x80000140 ∧
    seen (fun t => psrWord t.psr) (exec (.psrset32 3) (start 0 0 false)) = some 0x80000100 := by decide
theorem test_psrclr32 : seen (fun t => psrWord t.psr) (exec (.psrclr32 8) (start 0 0 true)) = some 0x80000001 := by decide
theorem test_rte32 : seen (fun t => (psrWord t.psr, t.pc, t.epc)) (exec .rte32 { start 0 0 false with epsr := psrOfWord 0x141, epc := 0x2001 }) =
    some (0x141, 0x2000, 0x2001) := by decide
theorem test_trap32 : seen entry (exec (.trap32 0) (start 0 0 false)) = some [0x80100000, 0x80000100, 0x1000, 0x380] := by decide
theorem test_trap32_ee0 : seen entry (exec (.trap32 1) { start 0 0 false with psr := Psr.reset }) = some [0x80080000, 0x80000000, 0x1000, 0x340] := by decide
theorem test_bkpt16 : seen (fun t => psrWord t.psr) (exec .bkpt16 (start 0 0 false)) = some 0x80070000 := by decide
theorem test_sync32 : view (exec (.sync32 true true) (start 3 0 true)) = some (3, true, 0x1004) := by decide
theorem test_wait32 : seen (fun t => (t.lowPower, t.pc)) (exec .wait32 (start 0 0 false)) = some (.wait, 0x1004) := by decide
theorem test_doze32 : seen (fun t => (t.lowPower, t.pc)) (exec .doze32 (start 0 0 false)) = some (.doze, 0x1004) := by decide
theorem test_stop32 : seen (fun t => (t.lowPower, t.pc)) (exec .stop32 (start 0 0 false)) = some (.stop, 0x1004) ∧
    seen entry (exec .stop32 (user 0 0)) = some [0x80050000, 0x100, 0x1000, 0x328] := by decide
theorem test_idly32 : seen (fun t => (t.psr.c, t.idlyCount, t.pc)) (exec (.idly32 3) (start 0 0 true)) = some (false, 4, 0x1004) := by decide

/-! ### Steps and devices -/

theorem test_step_fetches : view (step ((start 7 6 true).withFetchWord 16 0x7C48)) = some (0x2A, true, 0x1002) := by decide
theorem test_step_fetches_long : view (step ((start 7 6 true).withFetchWord 32 0xC0006021)) = some (0x80000101, true, 0x1004) := by decide
theorem test_step_illegal : seen entry (step ((start 7 6 false).withFetchWord 32 0xC4004820)) = some [0x80040000, 0x80000100, 0x1000, 0x320] := by decide
theorem test_step_from_reset : view (step (State.reset.withFetchWord 16 0x31FF)) = some (255, false, 2) := by decide
theorem test_reset_vector : seen (fun t => (psrWord t.psr, t.pc, t.inReset)) (step { State.reset with mem := memStore false .word 0 0x101 [] }) =
    some (0x80000000, 0x100, false) := by decide
theorem test_software_reset : seen (fun t => (psrWord t.psr, t.pc, t.vbr))
    (exec (.mtcr32 .r1 31 0) { start 0xABCD0000 0 false with vbr := 5, mem := memStore false .word 0 0x101 [] }) = some (0x80000000, 0x100, 0) := by decide
theorem test_software_reset_ee0 : seen entry (exec (.mtcr32 .r1 31 0) { start 0xABCD0000 0 false with psr := Psr.reset }) =
    some [0x80080000, 0x80000000, 0x1000, 0x340] := by decide

/-- The MPU configuration of 95_test_vectors.md 3.2. -/
def guarded (s : State) : State :=
  { s with
    mpuOn := true
    capr := 0x0A006F06
    pacr := #v[pacrOfWord 0x3F, pacrOfWord 0x2800002F, pacrOfWord 0x28000027, pacrOfWord 0x28F00027, Pacr.reset, Pacr.reset, Pacr.reset, Pacr.reset] }

theorem test_mpu_vectors :
    let s := guarded (start 0 0 false)
    mpuAllows .write false 0x20000000 s = true ∧ mpuAllows .fetch false 0x1000 s = true ∧ mpuAllows .read false 0x28000010 s = true ∧
    mpuAllows .write false 0x28000010 s = false ∧ mpuAllows .write true 0x28000010 s = true ∧ mpuAllows .fetch true 0x28000010 s = false ∧
    mpuAllows .write false 0x28100000 s = true ∧ mpuAllows .fetch false 0x28100000 s = false ∧ mpuAllows .read false 0x28F00004 s = false ∧
    mpuAllows .read true 0x28F00004 s = true ∧ mpuAllows .fetch true 0x28F00004 s = true ∧ mpuAllows .fetch false 0x29000000 s = true := by decide
theorem test_mpu_match : regionMatches (pacrOfWord 0x12346019) 0x12347FFF = true ∧ regionMatches (pacrOfWord 0x12346019) 0x12345FFF = false ∧
    regionMatches (pacrOfWord 0x12346019) 0x12348000 = false ∧ regionMatches (pacrOfWord 0x1234601B) 0x12344000 = true := by decide

/-- A VIC with some sources pending, enabled and active, and the priorities of sources 0 to 3. -/
def vic (pending enable active : Word) (p0 p1 p2 p3 : BitVec 2) : Vic :=
  { Vic.reset with
    pending := pending, enable := enable, active := active
    prio := (((Vic.reset.prio.set 0 p0).set 1 p1).set 2 p2).set 3 p3 }

theorem test_vic_v1_v2 : vicRequest (vic 3 3 0 0 0 0 0) = some 32 ∧ vicRequest (vic 3 3 0 3 0 0 0) = some 33 ∧
    vicIsr 0 (vic 3 3 0 0 0 0 0) = 0x00020000 ∧ vicIsr 0 (vic 3 3 0 3 0 0 0) = 0x00021000 := by decide
theorem test_vic_v3_v4 : vicRequest { vic 4 0 0 0 0 0 0 with wakeup := 4 } = none ∧ vicWake { vic 4 0 0 0 0 0 0 with wakeup := 4 } = true ∧
    vicRequest (vic 4 6 2 0 1 1 0) = none ∧ vicIsr 33 (vic 4 6 2 0 1 1 0) = 0x00022021 := by decide
theorem test_vic_v5 : vicRequest (vic 8 8 2 0 2 0 1) = some 35 ∧
    vicRequest { vic 8 8 2 0 2 0 1 with thrEn := true, thrPrio := 1 } = none ∧
    vicRequest { vic 8 8 2 0 2 0 1 with thrEn := true, thrPrio := 2 } = some 35 := by decide
theorem test_vic_writes : vicIpr 0 (vicWriteIpr 8 0 0xFFFFFFFF Vic.reset) = 0xC0C0C0C0 ∧ vicIptr (vicWriteIptr 0xFFFFFFFF Vic.reset) = 0x8001FFC0 ∧
    vicMask { Config.default with vicSize := .int8 } = 0xFF := by decide
theorem test_interrupt_taken : seen (fun t => entry t ++ [t.vic.pending, t.vic.active])
    (step { start 0 0 false with psr := psrOfWord 0x80000141, vic := vic 1 1 0 0 0 0 0, mem := memStore false .word 0x80 0x400 [] }) =
    some [0x80200001, 0x80000141, 0x1000, 0x400, 0, 1] := by decide
theorem test_timer_t1 : (timerTicks 4 { countflag := false, clksource := true, tickint := true, enable := true, reload := 3, current := 0 }) =
    { countflag := true, clksource := true, tickint := true, enable := true, reload := 3, current := 0 } := by decide
theorem test_tcip_loads : view (exec (.ld16w .r1 .r2 0) { start 0 0xE000E010 false with timer := { countflag := true, clksource := true, tickint := true, enable := true, reload := 3, current := 3 } }) =
    some (0x00010007, false, 0x1002) ∧ refusal (exec (.ld16b .r1 .r2 0) (start 0 0xE000E010 false)) = some .tcipSubword ∧
    seen entry (exec (.ld16w .r1 .r2 0) (user 0 0xE000E010)) = some [0x80020000, 0x100, 0x1000, 0x310] := by decide
/-- X10 of 95_test_vectors.md 3.1, with the vector table in a region that the MPU does not cover. -/
theorem test_lockup : seen (fun t => (entry t, t.lockup)) (exec (.trap32 0) { start 0 0 false with mpuOn := true }) =
    some ([0x80080000, 0x80100000, 0x1000, 0x1000], true) := by decide

/-- An input in which nothing happens but one tick. -/
def quiet : Input :=
  { pins := Pins.quiet, coreTicks := 1, refTicks := 0, busWrites := [], between := [], hadWrite := none, debugRequest := false, debugGo := false, debugInstr := none }

/-- In debug mode, with an instruction fed by the debugger. -/
def fed (h0 h1 : Half) (s : State) : State := { s with debugMode := true, inputs := [{ quiet with debugInstr := some (h0, h1) }] }

theorem test_fed_in_sequence : view (step (fed 0x6048 0 (start 1 2 false))) = some (3, false, 0x1000) := by decide
theorem test_fed_software_reset : seen (fun t => (t.pc, t.debugMode))
    (step (fed 0xC001 0x643F (let s := start 0xABCD0000 0 false; { s with mem := memStore false .word 0 0x1005 s.mem }))) = some (0x1004, true) := by decide
theorem test_fed_rte_keeps_count : seen (fun t => (t.idlyCount, t.pc)) (step (fed 0xC000 0x4020 { start 0 0 false with idlyCount := 3, epc := 0x2000 })) =
    some (3, 0x2000) := by decide
theorem test_fed_illegal : seen entry (step (fed 0x0001 0 (start 0 0 false))) = some [0x80040000, 0x80000100, 0x1000, 0x320] := by decide
theorem test_fed_store_near_pc : seen (fun t => byteAt t 0x1002) (step (fed 0xA220 0 (start 0xEE 0x1002 false))) = some 0xEE ∧
    refusal (exec (.st16b .r1 .r2 0) (start 0xEE 0x1002 false)) = some .prefetchWindowStore := by decide

/-- A platform of memory below 0x20000100, a slave that never answers at 0x30000000, and ERROR elsewhere. -/
def sparse (s : State) : State :=
  { s with cfg := { Config.default with platform := [⟨0, 0x20000100, .memory⟩, ⟨0x30000000, 0x100, .silent⟩] } }

/-- A device at 0x30000000 and nothing else. -/
def devices (s : State) : State :=
  { s with cfg := { Config.default with platform := [⟨0x30000000, 0x100, .device⟩] } }

theorem test_hang : seen (fun t => (t.hung, t.pc)) (exec (.ld16w .r1 .r2 0) (sparse (start 0 0x30000000 false))) = some (true, 0x1000) ∧
    seen (fun t => (t.hung, t.inReset)) (step { start 0 0 false with hung := true, pins := { Pins.quiet with reset := true } }) = some (false, true) := by decide
theorem test_bus_error : seen entry (exec (.ld16w .r1 .r2 0) (sparse (start 0 0x20000100 false))) = some [0x80020000, 0x80000100, 0x1000, 0x310] := by decide
theorem test_gap_in_pop : seen (fun t => [t.regs.r4, t.regs.r15, t.pc])
    (exec (.pop16 true 1) { start 0 0 false with between := [[(0x20000100, 0xFF), (0x20000104, 0xFF)]] }) = some [0x80F2A355, 0x112233FF, 0x112233FE] := by decide
theorem test_gap_in_push : seen (fun t => [word 0x200000F8 t, word 0x200000FC t])
    (exec (.push16 true 1) { start 0 0 false with between := [[(0x200000F8, 0xFF), (0x200000FC, 0xFF)]] }) = some [0xFF, 0x1F00] := by decide
theorem test_gap_in_fetch : view (step { (start 7 6 true).withFetchWord 32 0xC0006021 with inputs := [{ quiet with between := [[(0x1000, 0), (0x1002, 0x22)]] }] }) =
    some (7, true, 0x1004) := by decide
theorem test_dacsr_mode_size : seen (fun t => (t.had.mode, t.had.size)) (exec (.st16w .r1 .r2 0) (start 0xF00FF721 0xE00110E0 false)) = some (1, 2) := by decide
theorem test_had_csr_clears_fdb : seen (fun t => (t.had.csr, t.had.fdb))
    (exec (.st16w .r1 .r2 0) { start 0 0xE0011054 false with had := { Had.reset with fdb := true } }) = some (0, false) := by decide
theorem test_ddma_write : seen (fun t => [word 0x1004 t, t.had.datr])
    (exec (.st16w .r1 .r2 0) { start 0x12345678 0xE00110E8 false with had := { Had.reset with hcr := 0x20000000, mode := 1, size := 2, datr := 0x1004 } }) =
    some [0x12345678, 0x1008] := by decide
/-- Example E5 of 95_test_vectors.md, step (4) of its first one: the old content is answered, the word is read, DATA PHASE is set. -/
theorem test_ddma_read : seen (fun t => (t.regs.r1, t.had.darwr, t.had.dataPhase))
    (exec (.ld16w .r1 .r2 0) { start 0 0xE00110E8 false with had := { Had.reset with hcr := 0x20000000, size := 2, datr := 0x20000104, darwr := 7 } }) =
    some (7, 0x11223344, true) := by decide
theorem test_pads : padJdbPm (start 0 0 false) = 0 ∧ padJdbPm { start 0 0 false with lowPower := .doze } = 1 ∧
    padJdbPm { start 0 0 false with lowPower := .doze, debugMode := true } = 2 ∧ padDbgB { start 0 0 false with debugMode := true } = false := by decide
theorem test_nie_shadow_ends : seen (fun t => t.nieShadow) (step { (start 7 6 true).withFetchWord 16 0x7C48 with nieShadow := true }) = some false := by decide

/-! ### Witnesses: concrete states that meet the hypotheses of the obligations -/

/-- A result that is a next state. -/
def isNext (r : Result) : Bool :=
  match r with
  | .next _ => true
  | _ => false

theorem next_of_isNext {r : Result} (h : isNext r = true) : ∃ t, r = .next t := by
  cases r with
  | next t => exact ⟨t, rfl⟩
  | fault f => cases h
  | refused q => cases h

theorem witness_RegisterFileFollowsR21 : ((Reg.r9 = .r9 ∨ Reg.r9 = .r10 ∨ Reg.r9 = .r11 ∨ Reg.r9 = .r12) ∧
    (Reg.r12 = .r9 ∨ Reg.r12 = .r10 ∨ Reg.r12 = .r11 ∨ Reg.r12 = .r12)) := by decide

theorem witness_LoadResults :
    (let s := start 0 0xFFFFFFFC false
     accessAddr .byte (readReg .r2 s + BitVec.ofNat 32 3) s = some 0xFFFFFFFF ∧ readable s 0xFFFFFFFF) ∧
    (let s := start 0 0x20000100 false
     accessAddr .half (readReg .r2 s + BitVec.ofNat 32 (2 * 31)) s = some 0x2000013E ∧ readable s 0x2000013E) ∧
    (let s := start 0 0x20000100 false
     accessAddr .word (readReg .r14 s + BitVec.ofNat 32 (4 * 255)) s = some 0x200004FC ∧ readable s 0x200004FC) ∧
    (let s := { user 0 0x20000103 with psr := psrOfWord 0x200 }
     accessAddr .word (readReg .r2 s + BitVec.ofNat 32 (4 * 0)) s = some 0x20000100 ∧ readable s 0x20000100) ∧
    (let s := devices (start 0 0x30000000 false)
     accessAddr .byte (readReg .r2 s + BitVec.ofNat 32 255) s = some 0x300000FF ∧ mpuAllows .read s.psr.s 0x300000FF s = true ∧ isDevice s 0x300000FF) ∧
    (let s := devices (start 0 0x300000C0 false)
     accessAddr .half (readReg .r2 s + BitVec.ofNat 32 (2 * 31)) s = some 0x300000FE ∧ mpuAllows .read s.psr.s 0x300000FE s = true ∧ isDevice s 0x300000FE) ∧
    (let s := devices (user 0 0x30000000)
     accessAddr .word (readReg .r2 s + BitVec.ofNat 32 (4 * 0)) s = some 0x30000000 ∧ mpuAllows .read s.psr.s 0x30000000 s = true ∧ isDevice s 0x30000000) := by
  repeat' apply And.intro
  all_goals decide

theorem witness_StoreResults :
    (let s := start 0 0x1008 false
     accessAddr .byte (readReg .r2 s + BitVec.ofNat 32 0) s = some 0x1008 ∧ writable s .byte 0x1008) ∧
    (let s := start 0 0x1001 false
     accessAddr .byte (readReg .r2 s + BitVec.ofNat 32 0) s = some 0x1001 ∧ writable s .byte 0x1001) ∧
    (let s := start 0 0xFFFFFFFE false
     accessAddr .half (readReg .r2 s + BitVec.ofNat 32 (2 * 0)) s = some 0xFFFFFFFE ∧ writable s .half 0xFFFFFFFE) ∧
    (let s := user 0 0x20000100
     accessAddr .word (readReg .r14 s + BitVec.ofNat 32 (4 * 255)) s = some 0x20000BFC ∧ writable s .word 0x20000BFC) ∧
    (let s := start 0 0x20000100 false
     accessAddr .word (readReg .r2 s + BitVec.ofNat 32 (4 * 4095)) s = some 0x200040FC ∧ writable s .word 0x200040FC) ∧
    (let s := start 0 0x1002 false
     accessAddr .byte (readReg .r2 s + BitVec.ofNat 32 0) s = some 0x1002 ∧ streamStore s .byte 0x1002 ∧
     accessAddr .byte (readReg .r2 s + BitVec.ofNat 32 5) s = some 0x1007 ∧ streamStore s .byte 0x1007) ∧
    (let s := start 0 0x1000 false
     accessAddr .word (readReg .r2 s + BitVec.ofNat 32 (4 * 0)) s = some 0x1000 ∧ streamStore s .word 0x1000 ∧
     accessAddr .word (readReg .r2 s + BitVec.ofNat 32 (4 * 1)) s = some 0x1004 ∧ streamStore s .word 0x1004) ∧
    (let s := devices (start 0 0x30000000 false)
     accessAddr .byte (readReg .r2 s + BitVec.ofNat 32 255) s = some 0x300000FF ∧ mpuAllows .write s.psr.s 0x300000FF s = true ∧ isDevice s 0x300000FF ∧
     inPrefetchWindow s.pc 0x300000FF .byte = false) ∧
    (let s := { devices (start 0 0x30000000 false) with pc := 0x300000F8, debugMode := true }
     accessAddr .word (readReg .r2 s + BitVec.ofNat 32 (4 * 63)) s = some 0x300000FC ∧ mpuAllows .write s.psr.s 0x300000FC s = true ∧ isDevice s 0x300000FC ∧
     s.debugMode = true) := by
  repeat' apply And.intro
  all_goals first | decide | (unfold inStream; decide)

theorem witness_LiteralLoadResults :
    (let s := { start 0 0 false with pc := 0xFFFFFFFE }
     readable s (BitVec.ofNat 32 (4 * ((s.pc + BitVec.ofNat 32 (4 * (127 : BitVec 7).toNat)).toNat / 4)))) ∧
    (let s := start 0 0 false
     readable s (BitVec.ofNat 32 (4 * ((s.pc + BitVec.ofNat 32 (4 * (65535 : BitVec 16).toNat)).toNat / 4)))) ∧
    (let s := { devices (start 0 0 false) with pc := 0x2FFFFFFE }
     let a7 := BitVec.ofNat 32 (4 * ((s.pc + BitVec.ofNat 32 (4 * (1 : BitVec 7).toNat)).toNat / 4))
     let a16 := BitVec.ofNat 32 (4 * ((s.pc + BitVec.ofNat 32 (4 * (64 : BitVec 16).toNat)).toNat / 4))
     mpuAllows .read s.psr.s a7 s = true ∧ isDevice s a7 ∧ mpuAllows .read s.psr.s a16 s = true ∧ isDevice s a16) := by
  unfold readable isMemory isDevice; decide

theorem witness_ByteOrderOfData : (3 < sizeBytes .word ∧ 0 < sizeBytes .byte ∧ 8 * sizeBytes .half ≤ 16) ∧
    ¬covers .word 0xFFFFFFFC 0 ∧ ¬covers .word 0xFFFFFFFC 0xFFFFFFFB ∧ Memory.wf [(0, 1), (0xFFFFFFFF, 0xFF)] = true := by
  unfold covers; decide

theorem witness_AlignmentRule :
    (let s := start 0 0 false
     (0xFFFFFFFC : Word).toNat % sizeBytes .word = 0 ∧ (0xFFFFFFFD : Word).toNat % sizeBytes .word ≠ 0 ∧ s.psr.mm = false) ∧
    (let s := { start 0 0 false with psr := psrOfWord 0x80000200 }
     (0xFFFFFFFF : Word).toNat % sizeBytes .half ≠ 0 ∧ s.psr.mm = true) ∧
    (let s := start 0 0x20000001 false
     accessAddr .half (readReg .r2 s + BitVec.ofNat 32 (2 * (31 : BitVec 5).toNat)) s = none ∧
     accessAddr .half (readReg .r2 s + BitVec.ofNat 32 (2 * (4095 : BitVec 12).toNat)) s = none ∧
     accessAddr .word (readReg .r2 s + BitVec.ofNat 32 (4 * (31 : BitVec 5).toNat)) s = none ∧
     accessAddr .word (readReg .r2 s + BitVec.ofNat 32 (4 * (4095 : BitVec 12).toNat)) s = none) ∧
    (let s := { start 0 0 false with regs := { (start 0 0 false).regs with ssp := 0x20000102 } }
     accessAddr .word (readReg .r14 s + BitVec.ofNat 32 (4 * (255 : BitVec 8).toNat)) s = none ∧
     (readReg .r14 s).toNat % 4 ≠ 0 ∧ s.cfg.hasNestAccel = true ∧ s.psr.s = true) ∧
    (let s := { start 0 0x20000103 false with psr := psrOfWord 0x80000200 }
     accessAddr .word (readReg .r2 s + BitVec.ofNat 32 (4 * (0 : BitVec 5).toNat)) s = some 0x20000100 ∧
     mpuAllows .read s.psr.s 0x20000100 s = true ∧ mpuAllows .write s.psr.s 0x20000100 s = true ∧ inTcip s 0x20000100 = false ∧
     slaveAt s.cfg 0x20000100 = .memory ∧ inPrefetchWindow s.pc 0x20000100 .word = false) := by decide

theorem witness_DeniedAccessesRaiseAccessError :
    (let s := guarded (user 0 0x28F00004)
     accessAddr .word (readReg .r2 s + BitVec.ofNat 32 0) s = some 0x28F00004 ∧ readFails s 0x28F00004) ∧
    (let s := guarded (user 0 0x28000010)
     accessAddr .byte (readReg .r2 s + BitVec.ofNat 32 0) s = some 0x28000010 ∧ writeFails s .byte 0x28000010) ∧
    (let s := user 0 0xEFFFFFFC
     accessAddr .word (readReg .r2 s + BitVec.ofNat 32 0) s = some 0xEFFFFFFC ∧ readFails s 0xEFFFFFFC ∧ writeFails s .word 0xEFFFFFFC) ∧
    (let s := sparse (start 0 0x20000100 false)
     accessAddr .word (readReg .r2 s + BitVec.ofNat 32 0) s = some 0x20000100 ∧ readFails s 0x20000100 ∧ writeFails s .word 0x20000100) ∧
    (let s := { start 0 0 false with mpuOn := true }
     readFails s (BitVec.ofNat 32 (4 * ((s.pc + BitVec.ofNat 32 (4 * 127)).toNat / 4))) ∧
     readFails s (BitVec.ofNat 32 (4 * ((s.pc + BitVec.ofNat 32 (4 * 65535)).toNat / 4)))) ∧
    (let s := { user 0 0 with pc := 0xDFFFFFFE }
     readFails s (BitVec.ofNat 32 (4 * ((s.pc + BitVec.ofNat 32 (4 * 1)).toNat / 4)))) ∧
    (let s := sparse (start 0 0x300000FC false)
     accessAddr .word (readReg .r2 s + BitVec.ofNat 32 0) s = some 0x300000FC ∧ inTcip s 0x300000FC = false ∧ slaveAt s.cfg 0x300000FC = .silent ∧
     mpuAllows .read s.psr.s 0x300000FC s = true ∧ mpuAllows .write s.psr.s 0x300000FC s = true ∧ inPrefetchWindow s.pc 0x300000FC .word = false) ∧
    (let s := { sparse (start 0 0 false) with pc := 0x2FFFFFFE }
     let a := BitVec.ofNat 32 (4 * ((s.pc + BitVec.ofNat 32 (4 * 1)).toNat / 4))
     mpuAllows .read s.psr.s a s = true ∧ inTcip s a = false ∧ slaveAt s.cfg a = .silent) ∧
    (let s := devices (start 0 0x300000FC false)
     accessAddr .word (readReg .r2 s + BitVec.ofNat 32 0) s = some 0x300000FC ∧ isDevice s 0x300000FC ∧ mpuAllows .read s.psr.s 0x300000FC s = true ∧
     mpuAllows .write s.psr.s 0x300000FC s = true ∧ inPrefetchWindow s.pc 0x300000FC .word = false) ∧
    (let s := { devices (start 0 0 false) with pc := 0x2FFFFFFE }
     let a := BitVec.ofNat 32 (4 * ((s.pc + BitVec.ofNat 32 (4 * 1)).toNat / 4))
     mpuAllows .read s.psr.s a s = true ∧ isDevice s a) := by
  repeat' apply And.intro
  all_goals first | decide | (unfold readFails; decide) | (unfold writeFails; decide)

/-- The bytes of one gap. -/
theorem of_one_gap {P : Word × Byte → Prop} {ws : List (Word × Byte)} (h : ws.Forall P) (k : Nat) : ∀ us ∈ [ws].take k, ∀ p ∈ us, P p := by
  intro us hu; obtain rfl := List.mem_singleton.mp (List.mem_of_mem_take hu); exact List.forall_iff_forall_mem.mp h

theorem witness_PushStoresTheList :
    (let s := { start 0 0 false with between := [[(0x200000DB, 1), (0x20000100, 1)]] }
    (readReg .r14 s).toNat % 4 = 0 ∧ wordsWritable s 9 (readReg .r14 s - BitVec.ofNat 32 (4 * 9)) ∧
    wordsWritable s 0 (readReg .r14 s - BitVec.ofNat 32 (4 * 0)) ∧
    gapsMiss s 8 9 (readReg .r14 s - BitVec.ofNat 32 (4 * 9)) ∧ gapsSpare s 8 0x20000101 ∧ ¬coversWords 9 0x200000DC 0x20000101) ∧
    (let s := { start 0 0 false with regs := { (start 0 0 false).regs with ssp := 0x1008 } }
     (readReg .r14 s).toNat % 4 = 0 ∧ 0 < (regList false 1).length ∧ streamStore s .word (readReg .r14 s - BitVec.ofNat 32 (4 * 1) + BitVec.ofNat 32 (4 * 0)) ∧
     1 < (regList false 3).length ∧ wordsWritable s 1 (readReg .r14 s - BitVec.ofNat 32 (4 * 3)) ∧
     streamStore s .word (readReg .r14 s - BitVec.ofNat 32 (4 * 3) + BitVec.ofNat 32 (4 * 1))) := by
  repeat' apply And.intro
  all_goals first | decide | (unfold wordsWritable writable isMemory; decide) | exact of_one_gap (by unfold coversWords; decide) 8 | exact of_one_gap (by decide) 8 | (unfold inStream; decide) | (unfold coversWords; decide)

theorem witness_PopLoadsTheListAndReturns :
    let s := { start 0 0 false with between := [[(0x20000104, 1)]] }
    (readReg .r14 s).toNat % 4 = 0 ∧ wordsReadable s 9 (readReg .r14 s) ∧ wordsReadable s 0 (readReg .r14 s) ∧ gapsSpare s 8 0x20000100 := by
  repeat' apply And.intro
  all_goals first | decide | (unfold wordsReadable readable isMemory; decide) | exact of_one_gap (by decide) 8

/-- Only the 128 bytes from 0x20000080 can be reached. -/
def fenced (ssp : Word) : State :=
  let s := start 0 0 false
  { s with
    mpuOn := true, capr := 0x300, regs := { s.regs with ssp := ssp }
    pacr := Vector.set (Vector.replicate 8 Pacr.reset) 0 (pacrOfWord 0x2000008D) }

theorem witness_MultiWordAccessError :
    (let s := fenced 0x20000104
     (readReg .r14 s).toNat % 4 = 0 ∧ 8 < (regList true 8).length ∧ wordsWritable s 8 (readReg .r14 s - BitVec.ofNat 32 (4 * 9)) ∧
     writeFails s .word (readReg .r14 s - BitVec.ofNat 32 (4 * 9) + BitVec.ofNat 32 (4 * 8)) ∧ s.cfg.hasNestAccel = true ∧ s.psr.s = true ∧
     wordsWritable s 1 (readReg .r14 s - BitVec.ofNat 32 (4 * 2)) ∧ writeFails s .word (readReg .r14 s - BitVec.ofNat 32 (4 * 2) + BitVec.ofNat 32 (4 * 1)) ∧
     wordsWritable s 5 (readReg .r14 s - BitVec.ofNat 32 (4 * 6)) ∧ writeFails s .word (readReg .r14 s - BitVec.ofNat 32 (4 * 6) + BitVec.ofNat 32 (4 * 5))) ∧
    (let s := fenced 0x20000080
     0 < (regList false 1).length ∧ writeFails s .word (readReg .r14 s - BitVec.ofNat 32 (4 * 1) + BitVec.ofNat 32 (4 * 0))) ∧
    (let s := fenced 0x200000E0
     (readReg .r14 s).toNat % 4 = 0 ∧ wordsReadable s 8 (readReg .r14 s) ∧ readFails s (readReg .r14 s + BitVec.ofNat 32 (4 * 8))) ∧
    (let s := fenced 0x200000FC
     wordsReadable s 1 (readReg .r14 s) ∧ readFails s (readReg .r14 s + BitVec.ofNat 32 (4 * 1))) ∧
    (let s := { user 0 0 with regs := { (user 0 0).regs with usp := 0xDFFFFFFC } }
     (readReg .r14 s).toNat % 4 = 0 ∧ wordsReadable s 1 (readReg .r14 s) ∧ readFails s (readReg .r14 s + BitVec.ofNat 32 (4 * 1))) ∧
    (let s := sparse { start 0 0 false with regs := { (start 0 0 false).regs with ssp := 0x200000FC } }
     (readReg .r14 s).toNat % 4 = 0 ∧ wordsReadable s 1 (readReg .r14 s) ∧ readFails s (readReg .r14 s + BitVec.ofNat 32 (4 * 1))) ∧
    (let s := sparse { start 0 0 false with regs := { (start 0 0 false).regs with ssp := 0x20000104 } }
     wordsWritable s 1 (readReg .r14 s - BitVec.ofNat 32 (4 * 2)) ∧ writeFails s .word (readReg .r14 s - BitVec.ofNat 32 (4 * 2) + BitVec.ofNat 32 (4 * 1))) := by
  repeat' apply And.intro
  all_goals first | decide | (unfold wordsWritable writable isMemory; decide) | (unfold wordsReadable readable isMemory; decide) | (unfold readFails; decide) | (unfold writeFails; decide)

theorem witness_InterruptContextSaveRestore :
    (let s := start 0 0 false
     s.cfg.hasNestAccel = true ∧ (readReg .r14 s).toNat % 4 = 0 ∧ wordsWritable s 6 (readReg .r14 s - 24#32) ∧ wordsReadable s 6 (readReg .r14 s)) ∧
    (let s := user 0 0
     s.cfg.hasNestAccel = true ∧ (readReg .r14 s).toNat % 4 = 0 ∧ wordsWritable s 6 (readReg .r14 s - 24#32) ∧ wordsReadable s 6 (readReg .r14 s)) ∧
    (let s := { start 0 0 false with regs := { (start 0 0 false).regs with ssp := 0x1010 } }
     (readReg .r14 s).toNat % 4 = 0 ∧ wordsWritable s 2 (readReg .r14 s - BitVec.ofNat 32 (4 * 6)) ∧
     streamStore s .word (readReg .r14 s - BitVec.ofNat 32 (4 * 6) + BitVec.ofNat 32 (4 * 2))) := by
  repeat' apply And.intro
  all_goals first | decide | (unfold wordsWritable writable isMemory; decide) | (unfold wordsReadable readable isMemory; decide) | (unfold inStream; decide)

theorem witness_NestingEntry :
    (let s := start 0 0 false
    s.cfg.hasNestAccel = true ∧ s.psr.s = true ∧ s.regs.ssp.toNat % 4 = 0 ∧ wordsWritable s 2 (s.regs.ssp - 8#32)) ∧
    (let s := { start 0 0 false with regs := { (start 0 0 false).regs with ssp := 0x1004 } }
     s.regs.ssp.toNat % 4 = 0 ∧ wordsWritable s 1 (readReg .r14 s - BitVec.ofNat 32 (4 * 2)) ∧
     streamStore s .word (readReg .r14 s - BitVec.ofNat 32 (4 * 2) + BitVec.ofNat 32 (4 * 1))) := by
  repeat' apply And.intro
  all_goals first | decide | (unfold wordsWritable writable isMemory; decide) | (unfold inStream; decide)

theorem witness_NestingReturn : let s := start 0 0 false
    s.cfg.hasNestAccel = true ∧ s.psr.s = true ∧ s.regs.ssp.toNat % 4 = 0 ∧ wordsReadable s 2 s.regs.ssp := by
  unfold wordsReadable readable isMemory; decide

theorem witness_PopUndoesPush : let s := { start 0 0 false with between := [[(0x100, 1)]] }
    (readReg .r14 s).toNat % 4 = 0 ∧ wordsWritable s 9 (readReg .r14 s - BitVec.ofNat 32 (4 * 9)) ∧
    wordsReadable s 9 (readReg .r14 s - BitVec.ofNat 32 (4 * 9)) ∧ (regList true 8).length = 9 ∧
    gapsMiss s (2 * (9 - 1)) 9 (readReg .r14 s - BitVec.ofNat 32 (4 * 9)) ∧ ∃ t, exec (.push16 true 8) s = .next t := by
  refine ⟨by decide, ?_, ?_, by decide, ?_, next_of_isNext (by decide)⟩
  · unfold wordsWritable writable isMemory; decide
  · unfold wordsReadable readable isMemory; decide
  · exact of_one_gap (by unfold coversWords; decide) _

/-- Seven regions, and the region register at their boundary. -/
def regions (prsr : BitVec 3) : State :=
  { start 0x3F 0 false with cfg := { Config.default with mpuRegions := 7 }, prsr := prsr }

theorem witness_ControlRegisterReads :
    (regions 6).psr.s = true ∧ (regions 6).cfg.hasVbr = true ∧ 0 < (regions 6).cfg.mpuRegions.val ∧
    (regions 6).prsr.toNat < (regions 6).cfg.mpuRegions.val ∧ (6 : Fin 8).val = (regions 6).prsr.toNat ∧
    (regions 7).cfg.mpuRegions.val ≤ (regions 7).prsr.toNat ∧
    controlReg (regions 6).cfg 3 0 = none ∧ controlReg (regions 6).cfg 31 31 = none := by decide

theorem witness_ControlRegisterWrites :
    (regions 6).psr.s = true ∧ (regions 6).cfg.hasVbr = true ∧ 0 < (regions 6).cfg.mpuRegions.val ∧
    controlReg (regions 6).cfg 3 0 = none ∧ controlReg { Config.default with hasVbr := false } 1 0 = none := by decide

theorem witness_UserStackPointerRegister :
    ((start 0 0 false).psr.s = true ∧ (start 0 0 false).debugMode = false ∧ (14 : BitVec 5) ≠ 31 ∧
      ∃ t, exec (.mtcr32 .r1 14 1) (start 0 0 false) = .next t) ∧ (user 0 0).psr.s = false ∧ (user 0 0).debugMode = false :=
  ⟨⟨by decide, by decide, by decide, _, rfl⟩, by decide, by decide⟩

theorem witness_ProtectionRegisterWrites :
    (regions 6).psr.s = true ∧ 0 < (regions 6).cfg.mpuRegions.val ∧ (readReg .r2 (regions 6)).extractLsb' 0 2 = 0#2 ∧
    (let s := guarded (start 1 0 false)
     s.psr.s = true ∧ 0 < s.cfg.mpuRegions.val ∧ (readReg .r1 s).extractLsb' 0 2 = 1#2 ∧ mpuAllows .fetch true s.pc { s with mpuOn := true } = true) ∧
    ({ guarded (start 1 0 false) with pc := 0x28000010, debugMode := true } : State).debugMode = true ∧
    (regions 6).prsr.toNat < (regions 6).cfg.mpuRegions.val ∧ 6 ≤ ((readReg .r1 { regions 6 with regs := (start 0xD 0 false).regs }).extractLsb' 1 5).toNat ∧
    (readReg .r2 (regions 6)).getLsbD 0 = false ∧ (regions 7).cfg.mpuRegions.val ≤ (regions 7).prsr.toNat ∧
    ({ Config.default with mpuRegions := 0 } : Config).mpuRegions.val = 0 ∧ 2 ≤ ((2 : Word).extractLsb' 0 2).toNat ∧ 2 ≤ ((3 : Word).extractLsb' 0 2).toNat ∧
    (let s := { guarded (start 1 0 false) with pc := 0x28000010 }
     (readReg .r1 s).extractLsb' 0 2 = 1#2 ∧ s.debugMode = false ∧ mpuAllows .fetch true s.pc { s with mpuOn := true } = false) ∧
    (let s := { regions 6 with regs := (start 0xB 0 false).regs }
     s.prsr.toNat < s.cfg.mpuRegions.val ∧ (readReg .r1 s).getLsbD 0 = true ∧ ((readReg .r1 s).extractLsb' 1 5).toNat < 6) := by decide

theorem witness_ImplicitOperationRegisterWrites :
    (let s := start 0xABCC0010 0 false
     s.psr.s = true ∧ (readReg .r1 s).extractLsb' 16 16 ≠ s.cfg.srstMagic) ∧
    (let s := { start 0xABCD0000 0 false with psr := Psr.reset }
     s.psr.s = true ∧ (readReg .r1 s).extractLsb' 16 16 = s.cfg.srstMagic ∧ s.psr.ee = false ∧ vectorReadable 8#8 s) ∧
    (let s := start 0xABCD0000 0 false
     s.psr.s = true ∧ (readReg .r1 s).extractLsb' 16 16 = s.cfg.srstMagic ∧ s.psr.ee = true ∧ isMemory s 0#32) := by
  unfold vectorReadable isMemory; decide

theorem witness_SupervisorMode : (start 0 0 false).psr.s = true := by decide

theorem witness_ReturnFromException :
    (let s := { start 0 0 false with psr := psrOfWord 0x801F0000 }
     s.psr.s = true ∧ s.psr.vec.toNat < 32) ∧
    (let s := { start 0 0 false with psr := psrOfWord 0x80200000 }
     s.psr.s = true ∧ 32 ≤ s.psr.vec.toNat) := by decide

theorem witness_TrapAndBreakpointEntry :
    (let s := start 0 0 false
     s.psr.ee = true ∧ (16#8).toNat = 16 + (0 : BitVec 2).toNat ∧ vectorReadable 16#8 s ∧ (19#8).toNat = 16 + (3 : BitVec 2).toNat ∧ vectorReadable 19#8 s ∧
     (s.cfg.hasDebug && s.had.fdb) = false ∧ vectorReadable 7#8 s) ∧
    (let s := { start 0 0 false with had := { Had.reset with fdb := true } }
     (s.cfg.hasDebug && s.had.fdb) = true) := by
  unfold vectorReadable isMemory; decide

theorem witness_SyncAndIdly : (start 0 0 false).idlyCount = 0 ∧ ({ start 0 0 false with idlyCount := 1 } : State).idlyCount ≠ 0 := by decide

theorem witness_PrivilegeAndPresence :
    (let s := user 0 0
     isPrivileged .nie16 = true ∧ isPrivileged (.mfcr32 .r0 0 0) = true ∧ s.psr.s = false ∧ s.cfg.hasNestAccel = true) ∧
    (let s := { start 0 0 false with cfg := { Config.default with hasNestAccel := false } }
     isNestAccel .ipop16 = true ∧ s.cfg.hasNestAccel = false) := by decide

theorem witness_ExceptionEntry :
    (let s := start 0 0 false
     vectorReadable (if (31#8).toNat < 32 ∧ s.psr.ee = false then 8#8 else 31#8) s) ∧
    (let s := { start 0 0 false with psr := Psr.reset }
     vectorReadable (if (31#8).toNat < 32 ∧ s.psr.ee = false then 8#8 else 31#8) s ∧
     vectorReadable (if (32#8).toNat < 32 ∧ s.psr.ee = false then 8#8 else 32#8) s) := by
  unfold vectorReadable isMemory; decide

/-- Only the first 128 bytes can be reached: entries 0 to 31 of a vector table at 0. -/
def lowTable : State :=
  { start 0 0 false with mpuOn := true, capr := 0x300, pacr := Vector.set (Vector.replicate 8 Pacr.reset) 0 (pacrOfWord 0xD) }

theorem witness_VectorFault :
    (vectorFails 32#8 lowTable ∧ vectorReadable 8#8 lowTable) ∧
    (let s := { lowTable with vbr := 1 }
     vectorFails 32#8 s ∧ vectorFails 8#8 s) ∧
    (let s := { start 0 0 false with cfg := { Config.default with platform := [⟨0, 0x24, .memory⟩] } }
     vectorFails 16#8 s ∧ vectorReadable 8#8 s) ∧
    (let s := { start 0 0 false with cfg := { Config.default with platform := [⟨0, 0x20, .memory⟩] } }
     vectorFails 16#8 s ∧ vectorFails 8#8 s) := by
  unfold vectorFails vectorReadable isMemory; decide

/-- A state whose PC points at given half-words. -/
def at2 (h0 h1 : Half) : State :=
  let s := start 7 6 true
  { s with mem := memStore false .half 0x1002 (h1.setWidth 32) (memStore false .half 0x1000 (h0.setWidth 32) s.mem) }

theorem witness_IllegalWordsAndFetchFaults :
    (instrFetchable (at2 0x0001 0) ∧ isLong (halfAt (at2 0x0001 0) 0x1000) = false ∧
     (∀ i, decodeHalves (halfAt (at2 0x0001 0) 0x1000) (secondHalf (at2 0x0001 0)) ≠ .ok i)) ∧
    (instrFetchable (at2 0xC400 0x4820) ∧ isLong (halfAt (at2 0xC400 0x4820) 0x1000) = true ∧
     (∀ i, decodeHalves (halfAt (at2 0xC400 0x4820) 0x1000) (secondHalf (at2 0xC400 0x4820)) ≠ .ok i)) ∧
    fetchFails { start 0 0 false with mpuOn := true } 0x1000 ∧ fetchFails (sparse (start 0 0 false)) 0x20000100 ∧
    (let s := { lowTable with pc := 0x7E, mem := memStore false .half 0x7E 0xC000 [] }
     fetchable s s.pc ∧ isLong (halfAt s s.pc) = true ∧ fetchFails s (s.pc + 2#32)) ∧
    (let s := { sparse (start 0 0 false) with pc := 0x200000FE, mem := memStore false .half 0x200000FE 0xC000 [] }
     fetchable s s.pc ∧ isLong (halfAt s s.pc) = true ∧ fetchFails s (s.pc + 2#32)) ∧
    tcipFetched { start 0 0 false with pc := 0xE0000000 } 0xE0000000 ∧ tcipFetched { user 0 0 with pc := 0xEFFFFFFE } 0xEFFFFFFE ∧
    (let s := { start 0 0 false with pc := 0xDFFFFFFE, mem := memStore false .half 0xDFFFFFFE 0xC000 [] }
     fetchable s s.pc ∧ isLong (halfAt s s.pc) = true ∧ tcipFetched s (s.pc + 2#32)) ∧
    (let s := { user 0 0 with pc := 0xDFFFFFFE, mem := memStore false .half 0xDFFFFFFE 0xC000 [] }
     s.psr.s = false ∧ fetchable s s.pc ∧ isLong (halfAt s s.pc) = true ∧ tcipFetched s (s.pc + 2#32)) := by
  refine ⟨⟨?_, by decide, ?_⟩, ⟨?_, by decide, ?_⟩, ?_, ?_, ⟨?_, by decide, ?_⟩, ⟨?_, by decide, ?_⟩, ⟨by decide, by decide⟩, ⟨by decide, by decide⟩,
    ⟨?_, by decide, by decide, by decide⟩, ⟨by decide, ?_, by decide, by decide, by decide⟩⟩
  · unfold instrFetchable fetchable isMemory; decide
  · intro i h; rw [show decodeHalves (halfAt (at2 0x0001 0) 0x1000) (secondHalf (at2 0x0001 0)) = .error .noRow by decide] at h; cases h
  · unfold instrFetchable fetchable isMemory; decide
  · intro i h; rw [show decodeHalves (halfAt (at2 0xC400 0x4820) 0x1000) (secondHalf (at2 0xC400 0x4820)) = .error .noRow by decide] at h; cases h
  · unfold fetchFails; decide
  · unfold fetchFails; decide
  · unfold fetchable isMemory; decide
  · unfold fetchFails; decide
  · unfold fetchable isMemory; decide
  · unfold fetchFails; decide
  · unfold fetchable isMemory; decide
  · unfold fetchable isMemory; decide

/-- Interrupts enabled, and source 31 pending and enabled. -/
def requested : State := { start 0 0 false with psr := psrOfWord 0x80000140, vic := vic 0x80000000 0x80000000 0 0 0 0 0 }

/-- No VIC, and a request of an external controller. -/
def external (vec : BitVec 8) : State :=
  { start 0 0 false with
    cfg := { Config.default with vicSize := .absent }, psr := psrOfWord 0x80000140, pins := { Pins.quiet with extInt := true, extVec := vec } }

/-- NIE16 has just retired with IC = 1 while source 31 asks, and the half-word `h` is at the PC. -/
def afterNie (h : Half) : State :=
  { requested with nieShadow := true, psr := psrOfWord 0x800001C0, mem := memStore false .half 0x1000 (h.setWidth 32) requested.mem }

/-- R359: with IC = 1 the interrupt is taken before the PUSH16 that follows NIE16, and not before another instruction. -/
theorem test_interrupt_after_nie : seen (fun t => (t.epc, t.psr.vec)) (step (afterNie 0x14D8)) = some (0x1000, 63) ∧
    seen (fun t => (t.pc, t.nieShadow)) (step (afterNie 0x6048)) = some (0x1002, false) := by decide

theorem multi_at_afterNie : atMultiCycle (absorb (afterNie 0x14D8)) :=
  .inr (.inr ⟨true, 8, .inl (by unfold instrAt instrFetchable fetchable isMemory; decide)⟩)

theorem other_at_afterNie : ¬atMultiCycle (absorb (afterNie 0x6048)) := by
  have e : decodeHalves (halfAt (absorb (afterNie 0x6048)) (absorb (afterNie 0x6048)).pc) (secondHalf (absorb (afterNie 0x6048))) = .ok (.addu16 .r1 .r2) := by
    decide
  unfold atMultiCycle instrAt
  rw [e]
  simp

theorem witness_InterruptEntry :
    (running requested ∧ (absorb requested).psr.ie = true ∧ (absorb requested).psr.ee = true ∧ (absorb requested).idlyCount = 0 ∧
     holdOffOpen (absorb requested) ∧ (absorb requested).cfg.vicSize ≠ .absent ∧ vicRequest (absorb requested).vic = some 63 ∧
     vectorReadable 63 (absorb requested)) ∧
    (let s := afterNie 0x14D8
     running s ∧ (absorb s).psr.ie = true ∧ (absorb s).psr.ee = true ∧ (absorb s).idlyCount = 0 ∧ (absorb s).nieShadow = true ∧ holdOffOpen (absorb s) ∧
     (absorb s).cfg.vicSize ≠ .absent ∧ vicRequest (absorb s).vic = some 63 ∧ vectorReadable 63 (absorb s)) ∧
    (let s := external 32
     running s ∧ (absorb s).psr.ie = true ∧ (absorb s).psr.ee = true ∧ (absorb s).idlyCount = 0 ∧ holdOffOpen (absorb s) ∧
     (absorb s).cfg.vicSize = .absent ∧ (absorb s).pins.extInt = true ∧ 32 ≤ (absorb s).pins.extVec.toNat ∧ vectorReadable (absorb s).pins.extVec (absorb s)) ∧
    (running (external 31) ∧ (absorb (external 31)).pins.extVec.toNat < 32) ∧
    (running (start 0 0 false) ∧ (absorb (start 0 0 false)).psr.ie = false ∧ vicRequest (absorb (start 0 0 false)).vic = none) ∧
    (running { requested with idlyCount := 1 } ∧ (absorb { requested with idlyCount := 1 }).idlyCount ≠ 0) ∧
    (running { requested with nieShadow := true } ∧ heldOff (absorb { requested with nieShadow := true })) ∧
    (running (afterNie 0x6048) ∧ (absorb (afterNie 0x6048)).psr.ic = true ∧ heldOff (absorb (afterNie 0x6048))) ∧
    (let s := { afterNie 0 with mpuOn := true }
     running s ∧ (absorb s).psr.ic = true ∧ heldOff (absorb s)) ∧
    (running { external 32 with pins := Pins.quiet } ∧ (absorb { external 32 with pins := Pins.quiet }).pins.extInt = false) ∧
    (running { requested with psr := psrOfWord 0x80000040 } ∧ (absorb { requested with psr := psrOfWord 0x80000040 }).psr.ee = false) := by
  repeat' apply And.intro
  all_goals first
    | decide
    | exact .inl (by decide)
    | exact .inr ⟨by decide, multi_at_afterNie⟩
    | exact .inr (.inr ⟨by unfold instrFetchable fetchable isMemory; decide, other_at_afterNie⟩)
    | exact .inr (.inl (by unfold fetchFails; decide))

theorem witness_VicSampling : 0 < 32 ∧ 31 < 32 := by decide

theorem witness_DeviceRegisterAccess :
    (start 0 0 false).cfg.vicSize ≠ .absent ∧ (start 0 0 false).cfg.hasCoreTim = true ∧ (start 0 0 false).cfg.hasDebug = true ∧
    (∀ k, k < 32 → (0 : Word).getLsbD k = false) ∧ (0x80000000 : Word).getLsbD 31 = true ∧
    (let s := { start 0 0 false with vic := vic 9 9 0 1 0 0 0 }
     s.vic.pending.getLsbD 3 = true ∧ s.vic.enable.getLsbD 3 = true ∧
     (∀ m : Fin 32, s.vic.pending.getLsbD m.val = true → s.vic.enable.getLsbD m.val = true →
       s.vic.prio.get 3 < s.vic.prio.get m ∨ (s.vic.prio.get 3 = s.vic.prio.get m ∧ 3 ≤ m.val))) ∧
    (∀ k, k < 32 → k ≠ 29 → (0x20000000 : Word).getLsbD k = Had.reset.hcr.getLsbD k) ∧ (1 : Word).getLsbD 0 ≠ Had.reset.hcr.getLsbD 0 ∧
    (1 : Word) ≠ Had.reset.csr ∧ ({ Had.reset with csr := 1 } : Had).csr = 1#32 ∧
    ((0x21 : Word).extractLsb' 0 3).toNat < 2 ∧ ((0x21 : Word).extractLsb' 4 3).toNat < 3 ∧
    2 ≤ ((2 : Word).extractLsb' 0 3).toNat ∧ 3 ≤ ((0x30 : Word).extractLsb' 4 3).toNat ∧
    (let s := { start 0 0 false with had := { Had.reset with hcr := 0x20000000, mode := 1, size := 2, datr := 0x20000104 } }
     s.had.size = 2#3 ∧ s.had.hcr.getLsbD 29 = true ∧ s.had.busy = false ∧ s.had.mode.toNat < 2 ∧ s.had.datr.toNat % sizeBytes .word = 0 ∧
     isMemory s s.had.datr ∧ s.had.dataPhase = false ∧ inTcip (sparse s) s.had.datr = false ∧ slaveAt (sparse s).cfg s.had.datr = .busError) ∧
    Had.reset.hcr.getLsbD 29 = false ∧ ({ Had.reset with dataPhase := true } : Had).dataPhase = true ∧
    ({ Had.reset with hcr := 0x20000000, mode := 2 } : Had).hcr.getLsbD 29 = true := by
  unfold isMemory; decide

theorem witness_TcipWordAccess :
    (let s := start 0xFFFFFFFF 0xE000E100 false
     accessAddr .word (readReg .r2 s + BitVec.ofNat 32 0) s = some 0xE000E100 ∧ s.psr.s = true ∧ inTcip s 0xE000E100 = true ∧
     mpuAllows .read true 0xE000E100 s = true ∧ mpuAllows .write true 0xE000E100 s = true ∧
     (∃ v t, tcipRead 0xE000E100 s = .ok v t) ∧ (∃ t, tcipWrite 0xE000E100 (readReg .r1 s) s = .ok () t)) ∧
    (let s := { start 0 0 false with pc := 0xDFFFFFFE }
     let a := BitVec.ofNat 32 (4 * ((s.pc + BitVec.ofNat 32 (4 * 1)).toNat / 4))
     inTcip s a = true ∧ mpuAllows .read true a s = true ∧ ∃ v t, tcipRead a s = .ok v t) ∧
    (let s := start 0 0xEFFFFFFF false
     accessAddr .byte (readReg .r2 s + BitVec.ofNat 32 0) s = some 0xEFFFFFFF ∧ inTcip s 0xEFFFFFFF = true) ∧
    tcipReg Config.default 0xE0000000 = none ∧ tcipReg Config.default 0xEFFFFFFC = none :=
  ⟨⟨by decide, by decide, by decide, by decide, by decide, ⟨_, _, rfl⟩, ⟨_, rfl⟩⟩, ⟨by decide, by decide, _, _, rfl⟩, by decide, by decide, by decide⟩

/-- A timer that counts. -/
def ticking (current reload : BitVec 24) : CoreTim :=
  { countflag := false, clksource := true, tickint := true, enable := true, reload := reload, current := current }

theorem witness_TimerRound :
    ({ ticking 5 9 with enable := false } : CoreTim).enable = false ∧
    ((ticking 0 1).enable = true ∧ (ticking 0 1).current = 0#24 ∧ (ticking 0 1).reload ≠ 0#24 ∧ 1 ≤ (ticking 0 1).reload.toNat ∧ 0 < (ticking 0 1).reload.toNat) ∧
    ((ticking 0 0xFFFFFF).current = 0#24 ∧ (ticking 0 0xFFFFFF).reload ≠ 0#24 ∧ 0xFFFFFF ≤ (ticking 0 0xFFFFFF).reload.toNat) ∧
    ((ticking 1 9).enable = true ∧ (ticking 1 9).current ≠ 0#24) := by decide

/-- Asleep, with source 31 enabled for wake-up. -/
def asleep (pending : Word) : State :=
  { start 0 0 false with lowPower := .stop, vic := { vic pending 0 0 0 0 0 0 with wakeup := 0x80000000 } }

theorem witness_SleepAndWake :
    (let s := asleep 0x80000000
     (currentInput s).pins.reset = false ∧ (absorb s).inReset = false ∧ (absorb s).lockup = false ∧ (absorb s).hung = false ∧ (absorb s).debugMode = false ∧
     (absorb s).lowPower ≠ .none ∧ ((currentInput s).debugRequest && s.cfg.hasDebug) = false ∧ s.cfg.vicSize ≠ .absent ∧
     (absorb s).vic.pending.getLsbD 31 = true ∧ (absorb s).vic.wakeup.getLsbD 31 = true) ∧
    ((absorb (asleep 1)).lowPower ≠ .none ∧
     ∀ k, k < 32 → (absorb (asleep 1)).vic.pending.getLsbD k = true → (absorb (asleep 1)).vic.wakeup.getLsbD k = false) ∧
    (let s := { asleep 0 with cfg := { Config.default with vicSize := .absent }, pins := { Pins.quiet with intRaw := true } }
     (absorb s).lowPower ≠ .none ∧ s.cfg.vicSize = .absent ∧ (absorb s).pins.intRaw = true) ∧
    (let s := { asleep 0 with cfg := { Config.default with vicSize := .absent } }
     (absorb s).lowPower ≠ .none ∧ s.cfg.vicSize = .absent ∧ (absorb s).pins.intRaw = false) := by decide

theorem witness_ResetSequence :
    (currentInput { start 0 0 false with pins := { Pins.quiet with reset := true } }).pins.reset = true ∧
    ((currentInput State.reset).pins.reset = false ∧ (absorb State.reset).inReset = true ∧ mpuAllows .read true 0#32 (absorb State.reset) = true ∧
     isMemory (absorb State.reset) 0#32) ∧ isNext (step State.reset) = true ∧
    (let s := { State.reset with cfg := { Config.default with platform := [⟨4, 0x1000, .memory⟩] } }
     (absorb s).inReset = true ∧ inTcip (absorb s) 0#32 = false ∧ slaveAt (absorb s).cfg 0#32 = .busError ∧ vectorReadable 8#8 (absorb s)) ∧
    (let s := { State.reset with cfg := { Config.default with platform := [] } }
     (absorb s).inReset = true ∧ inTcip (absorb s) 0#32 = false ∧ slaveAt (absorb s).cfg 0#32 = .busError ∧ vectorFails 8#8 (absorb s)) := by
  unfold vectorReadable vectorFails isMemory; decide

theorem witness_StuckUntilReset :
    (let s := { start 0 0 false with lockup := true }
     s.lockup = true ∧ s.inReset = false ∧ (currentInput s).pins.reset = false) ∧
    (let s := { start 0 0 false with hung := true }
     s.hung = true ∧ s.inReset = false ∧ (currentInput s).pins.reset = false) := by decide

theorem witness_StepRunsTheInstruction :
    (running (at2 0x7C48 0) ∧ pendingInterrupt (absorb (at2 0x7C48 0)) = none ∧ instrAt (absorb (at2 0x7C48 0)) (.mult16 .r1 .r2) ∧
     (Instr.mult16 .r1 .r2).wellFormed = true ∧ ∃ t, exec (.mult16 .r1 .r2) (atExec { absorb (at2 0x7C48 0) with nieShadow := false }) = .next t) ∧
    (running { at2 0xC000 0x0420 with idlyCount := 1 } ∧ pendingInterrupt (absorb { at2 0xC000 0x0420 with idlyCount := 1 }) = none ∧
     instrAt (absorb { at2 0xC000 0x0420 with idlyCount := 1 }) (.sync32 false false)) ∧
    ({ start 0 0 false with inputs := [quiet, quiet] } : State).inputs = quiet :: [quiet] ∧
    (∃ r, exec (.ld16b .r1 .r2 0) { start 0 0xE000E010 false with nieShadow := false } = .refused r) ∧
    (∀ s : State, s = fed 0x6048 0 (start 1 2 false) ∨ s = fed 0x0001 0 (start 1 2 false) ∨ s = { fed 0 0 (start 1 2 false) with inputs := [{ quiet with debugGo := true }] } ∨
       s = { start 1 2 false with debugMode := true } →
     (currentInput s).pins.reset = false ∧ (absorb s).inReset = false ∧ (absorb s).lockup = false ∧ (absorb s).hung = false ∧ (absorb s).debugMode = true) ∧
    decodeHalves 0x6048 0 = .ok (.addu16 .r1 .r2) ∧ decodeHalves 0x0001 0 = .error .noRow ∧
    (let s := { start 1 2 false with inputs := [{ quiet with debugRequest := true }] }
     (currentInput s).pins.reset = false ∧ (absorb s).inReset = false ∧ (absorb s).lockup = false ∧ (absorb s).hung = false ∧ (absorb s).debugMode = false ∧
     (currentInput s).debugRequest = true ∧ s.cfg.hasDebug = true) := by
  refine ⟨⟨?_, by decide, ?_, by decide, next_of_isNext (by decide)⟩, ⟨?_, by decide, ?_⟩, rfl, ⟨.tcipSubword, rfl⟩, ?_, by decide, by decide, by decide⟩
  · unfold running; decide
  · unfold instrAt instrFetchable fetchable isMemory; decide
  · unfold running; decide
  · unfold instrAt instrFetchable fetchable isMemory; decide
  · rintro s (rfl | rfl | rfl | rfl) <;> decide

theorem witness_DecodeUndoesEncode : (Instr.push16 true 8).wellFormed = true ∧ (Instr.bsr32 0x3FFFFFF).wellFormed = true := by decide

theorem witness_EncodeUndoesDecode : decodeHalves 0x14D8 0xFFFF = .ok (.push16 true 8) ∧ decodeHalves 0xE3FF 0xFFFF = .ok (.bsr32 0x3FFFFFF) := by decide

theorem witness_StepKeepsInvariant : Inv (at2 0x7C48 0) ∧ ∃ t, step (at2 0x7C48 0) = .next t := by
  refine ⟨⟨by decide, by decide, by decide, ?_, by decide, ?_, by decide, by decide⟩, next_of_isNext (by decide)⟩
  · unfold pacrInv; decide
  · unfold vicInv; decide

theorem witness_ConfigurationIsConstant : ∃ t, step (at2 0x7C48 0) = .next t := witness_StepKeepsInvariant.2

theorem witness_UserModeConfinement : ((user 0 0).psr.s = false ∧ ∃ t, exec (.addu16 .r1 .r2) (user 0 0) = .next t) ∧ ∃ t, exec (.trap32 3) (user 0 0) = .next t :=
  ⟨⟨by decide, next_of_isNext (by decide)⟩, next_of_isNext (by decide)⟩

theorem witness_UserWritesStayWithinMpu :
    (user 0xFF 0x20000103).psr.s = false ∧
    seen (fun t => byteAt t 0x20000103) (exec (.st16b .r1 .r2 0) (user 0xFF 0x20000103)) = some 0xFF ∧ byteAt (user 0xFF 0x20000103) 0x20000103 = 0x80 := by decide

end Sys2Proof.Tests
end

/-! Support. The laws of the control registers and of a reset: what each write can answer. -/

namespace Sys2Proof.Machine

/-! ### The protection registers (R55 to R59) -/

/-- The regions after a write of one. -/
theorem pacr_get_set (p : Vector Pacr 8) (i n : Fin 8) (x : Pacr) : (p.set i.val x i.isLt).get n = if n = i then x else p.get n := by
  simp only [Vector.get_eq_getElem, Vector.getElem_set, Fin.ext_iff, eq_comm]

/-- Everything a write of CCR can be: ignored, refused, or a new MP where there is an MPU. -/
theorem writeCcr_cases (v : Word) (s : State) :
    writeCcr v s = finish32 s ∨ (∃ r, writeCcr v s = .refused r) ∨
    (0 < s.cfg.mpuRegions.val ∧ ∃ b, writeCcr v s = finish32 { s with mpuOn := b }) := by
  unfold writeCcr
  split
  · exact .inl rfl
  · next hm =>
    split
    · exact .inr (.inl ⟨_, rfl⟩)
    · simp only []
      split
      · exact .inr (.inr ⟨Nat.pos_of_ne_zero hm, _, rfl⟩)
      · exact .inr (.inl ⟨_, rfl⟩)

/-- Everything a write of PACR can be: ignored, refused, or a legal setting of an existing region. -/
theorem writePacr_cases (v : Word) (s : State) :
    writePacr v s = finish32 s ∨ (∃ r, writePacr v s = .refused r) ∨
    ((selectedRegion s).val < s.cfg.mpuRegions.val ∧ ((pacrOfWord v).enable = true → 6 ≤ (pacrOfWord v).size.toNat) ∧
      writePacr v s = finish32 { s with pacr := s.pacr.set (selectedRegion s).val (pacrOfWord v) (selectedRegion s).isLt }) := by
  unfold writePacr
  split
  · next hsel =>
    simp only []
    split
    · exact .inr (.inl ⟨_, rfl⟩)
    · next hp => exact .inr (.inr ⟨of_decide_eq_true hsel, by simpa using hp, rfl⟩)
  · exact .inl rfl

/-- The regions after a reset. -/
theorem freePacrs_get (regions n : Nat) (k : Fin 8) : (freePacrs regions n).get k = freePacr regions (n + k.val) k.val := by
  fin_cases k <;> rfl

/-! ### Which control register a number names (R40, R41) -/

theorem controlReg_ccr (c : Config) : controlReg c 18 0 = some .ccr := rfl

theorem controlReg_chr (c : Config) : controlReg c 31 0 = some .chr := rfl

theorem controlReg_usp (c : Config) : controlReg c 14 1 = some .usp := rfl

theorem controlReg_pacr {c : Config} (h : 0 < c.mpuRegions.val) : controlReg c 20 0 = some .pacr := by
  simp [controlReg, h]

theorem controlReg_pacr_absent {c : Config} (h : c.mpuRegions.val = 0) : controlReg c 20 0 = none := by
  simp [controlReg, h]

/-- CHR is CR<31,0> and no other number. -/
theorem eq_31_of_controlReg_chr {c : Config} {n sel : BitVec 5} (h : controlReg c n sel = some .chr) : n = 31 := by
  unfold controlReg at h
  simp only [] at h
  split at h <;> (try split at h) <;> cases h
  exact BitVec.eq_of_toNat_eq ‹n.toNat = 31›

/-! ### MFCR32 and MTCR32 (R370, R371, R388) -/

section
variable {s : State}

theorem privileged_supervisor (h : s.psr.s = true) (k : Result) : privileged s k = k := if_pos h

theorem privileged_user (h : s.psr.s = false) (k : Result) : privileged s k = takeException vecPrivilege s.pc s :=
  if_neg (by simp [h])

theorem exec_mfcr32_supervisor (h : s.psr.s = true) (rz : Reg) (n sel : BitVec 5) :
    exec (.mfcr32 rz n sel) s = finish32 (writeReg rz (readControl n sel s) s) := privileged_supervisor h _

theorem exec_mtcr32_supervisor (h : s.psr.s = true) (rx : Reg) (n sel : BitVec 5) :
    exec (.mtcr32 rx n sel) s = writeControl n sel (readReg rx s) s := privileged_supervisor h _

theorem writeControl_of_some {n sel : BitVec 5} {r : ControlReg} (h : controlReg s.cfg n sel = some r) (v : Word) :
    writeControl n sel v s = writeControlReg r v s := by
  rw [writeControl, h]

theorem writeControl_of_none {n sel : BitVec 5} (h : controlReg s.cfg n sel = none) (v : Word) : writeControl n sel v s = finish32 s := by
  rw [writeControl, h]

theorem exec_mtcr32_ccr (h : s.psr.s = true) (rx : Reg) : exec (.mtcr32 rx 18 0) s = writeCcr (readReg rx s) s := by
  rw [exec_mtcr32_supervisor h, writeControl_of_some (controlReg_ccr _), writeControlReg]

theorem exec_mtcr32_chr (h : s.psr.s = true) (rx : Reg) : exec (.mtcr32 rx 31 0) s = writeChr (readReg rx s) s := by
  rw [exec_mtcr32_supervisor h, writeControl_of_some (controlReg_chr _), writeControlReg]

theorem exec_mtcr32_pacr (h : s.psr.s = true) (hm : 0 < s.cfg.mpuRegions.val) (rx : Reg) :
    exec (.mtcr32 rx 20 0) s = writePacr (readReg rx s) s := by
  rw [exec_mtcr32_supervisor h, writeControl_of_some (controlReg_pacr hm), writeControlReg]

end

/-- What a control register reads does not depend on the supervisor stack pointer (R65). -/
theorem readControl_ssp (n sel : BitVec 5) (s : State) (v : Word) :
    readControl n sel { s with regs := { s.regs with ssp := v } } = readControl n sel s := by
  unfold readControl
  simp only []
  cases controlReg s.cfg n sel with
  | none => rfl
  | some r => cases r <;> rfl

/-- No write of a control register but CHR's, which may reset the core, reaches the supervisor stack pointer (R65). -/
theorem writeControlReg_ssp {r : ControlReg} (hr : r ≠ .chr) {v : Word} {s t : State} (h : writeControlReg r v s = .next t) :
    t.regs.ssp = s.regs.ssp := by
  cases r with
  | chr => exact absurd rfl hr
  | ccr =>
    rcases writeCcr_cases v s with e | ⟨_, e⟩ | ⟨_, _, e⟩ <;> cases e.symm.trans h <;> rfl
  | pacr =>
    rcases writePacr_cases v s with e | ⟨_, e⟩ | ⟨_, _, e⟩ <;> cases e.symm.trans h <;> rfl
  | psr | vbr | epsr | epc | cpuidr | capr | prsr | usp => cases h; rfl

/-! ### CCR.MP as a number and as bits (R55, R56) -/

theorem two_le_iff_bit_one (v : Word) : 2 ≤ (v.extractLsb' 0 2).toNat ↔ v.getLsbD 1 = true := by
  have two (x : BitVec 2) : 2 ≤ x.toNat ↔ x.getLsbD 1 = true := by revert x; decide
  rw [two, BitVec.getLsbD_extractLsb']
  simp

theorem bit_of_low_two {v : Word} {x : BitVec 2} (h : v.extractLsb' 0 2 = x) (i : Nat) (hi : i < 2) : v.getLsbD i = x.getLsbD i := by
  rw [← h, BitVec.getLsbD_extractLsb']
  simp [hi]

section
variable {s : State} {v : Word}

theorem writeCcr_absent (h : s.cfg.mpuRegions.val = 0) (v : Word) : writeCcr v s = finish32 s := by
  rw [writeCcr, if_pos h]

theorem writeCcr_reserved (hm : 0 < s.cfg.mpuRegions.val) (hv : v.getLsbD 1 = true) : writeCcr v s = .refused .ccrMpReserved := by
  rw [writeCcr, if_neg (Nat.ne_of_gt hm), if_pos hv]

/-- With MP = 0 or 1, the write is judged by whether its own address can be fetched under the new setting (R126). -/
theorem writeCcr_mp (hm : 0 < s.cfg.mpuRegions.val) (hv : v.getLsbD 1 = false) :
    writeCcr v s = if (s.debugMode || mpuAllows .fetch true s.pc { s with mpuOn := v.getLsbD 0 }) = true
      then finish32 { s with mpuOn := v.getLsbD 0 } else .refused .mpuEnableDenied := by
  rw [writeCcr, if_neg (Nat.ne_of_gt hm), if_neg (by rw [hv]; exact Bool.false_ne_true)]

/-- The MPU off allows every access (R121). -/
theorem mpuAllows_of_off (h : s.mpuOn = false) (k : AccessKind) (sup : Bool) (a : Word) : mpuAllows k sup a s = true := by
  simp [mpuAllows, mpuEnabled, h]

/-- MP = 0 turns the MPU off, since with it off every address is executable (R121). -/
theorem writeCcr_off (hm : 0 < s.cfg.mpuRegions.val) (hv : v.extractLsb' 0 2 = 0#2) : writeCcr v s = finish32 { s with mpuOn := false } := by
  have h0 : v.getLsbD 0 = false := bit_of_low_two hv 0 (by decide)
  rw [writeCcr_mp hm (bit_of_low_two hv 1 (by decide)), h0, mpuAllows_of_off rfl, Bool.or_true, if_pos rfl]

/-- MP = 1 turns the MPU on where the write's own address stays executable or is none. -/
theorem writeCcr_on (hm : 0 < s.cfg.mpuRegions.val) (hv : v.extractLsb' 0 2 = 1#2)
    (ha : s.debugMode = true ∨ mpuAllows .fetch true s.pc { s with mpuOn := true } = true) :
    writeCcr v s = finish32 { s with mpuOn := true } := by
  have h0 : v.getLsbD 0 = true := bit_of_low_two hv 0 (by decide)
  rw [writeCcr_mp hm (bit_of_low_two hv 1 (by decide)), h0, if_pos (by rwa [Bool.or_eq_true])]

/-- MP = 1 elsewhere is refused (U7). -/
theorem writeCcr_denied (hm : 0 < s.cfg.mpuRegions.val) (hv : v.extractLsb' 0 2 = 1#2) (hd : s.debugMode = false)
    (ha : mpuAllows .fetch true s.pc { s with mpuOn := true } = false) : writeCcr v s = .refused .mpuEnableDenied := by
  have h0 : v.getLsbD 0 = true := bit_of_low_two hv 0 (by decide)
  rw [writeCcr_mp hm (bit_of_low_two hv 1 (by decide)), h0, if_neg (by rw [ha, hd]; exact Bool.false_ne_true)]

theorem selectedExists_iff : selectedExists s = true ↔ s.prsr.toNat < s.cfg.mpuRegions.val := decide_eq_true_iff

theorem writePacr_absent (h : s.cfg.mpuRegions.val ≤ s.prsr.toNat) (v : Word) : writePacr v s = finish32 s := by
  rw [writePacr, if_neg (by rw [selectedExists_iff]; omega)]

theorem writePacr_reserved (h : s.prsr.toNat < s.cfg.mpuRegions.val) (he : (pacrOfWord v).enable = true)
    (hz : (pacrOfWord v).size.toNat < 6) : writePacr v s = .refused .pacrReservedSize := by
  rw [writePacr, if_pos (selectedExists_iff.mpr h)]
  simp [he, hz]

theorem writePacr_legal (h : s.prsr.toNat < s.cfg.mpuRegions.val)
    (hp : (pacrOfWord v).enable = false ∨ 6 ≤ (pacrOfWord v).size.toNat) :
    writePacr v s = finish32 { s with pacr := s.pacr.set (selectedRegion s).val (pacrOfWord v) (selectedRegion s).isLt } := by
  have hn : ¬((pacrOfWord v).enable && decide ((pacrOfWord v).size.toNat < 6)) = true := by
    rcases hp with hp | hp <;> simp [hp]
  rw [writePacr, if_pos (selectedExists_iff.mpr h)]
  exact if_neg hn

end

/-! ### CHR and the software reset (R60, R62, R553) -/

section
variable {s : State} {v : Word}

theorem writeChr_iae (h : v.extractLsb' 16 16 ≠ s.cfg.srstMagic) : writeChr v s = finish32 { s with iae := v.getLsbD 4 } := by
  rw [writeChr, if_neg h]

theorem writeChr_unrecoverable (h : v.extractLsb' 16 16 = s.cfg.srstMagic) (he : s.psr.ee = false) :
    writeChr v s = takeException vecUnrecoverable s.pc s := by
  rw [writeChr, if_pos h, if_neg (by simp [he])]

theorem writeChr_reset (h : v.extractLsb' 16 16 = s.cfg.srstMagic) (he : s.psr.ee = true) : writeChr v s = softwareReset s := by
  rw [writeChr, if_pos h, if_pos he]

/-- UnrecoverableError is taken with its own vector whatever EE is (R421). -/
theorem effectiveVector_unrecoverable (s : State) : effectiveVector vecUnrecoverable s = vecUnrecoverable := by
  unfold effectiveVector
  split <;> rfl

/-- An exception whose vector can be read enters it (R410). -/
theorem takeException_entered {vec : BitVec 8} (ret : Word) (h : vectorReadable (effectiveVector vec s) s) :
    ∃ t, takeException vec ret s = .next t ∧ entered (effectiveVector vec s) ret s t := by
  refine ⟨_, takeException_readable h, ?_⟩
  rw [breakIdly_eq]
  rfl

/-- After a reset CORET_CSR has CLKSOURCE = 1 and no other bit (R470). -/
theorem coretCsr_resetRegisters (s : State) : coretCsr (resetRegisters s).cfg (resetRegisters s).timer = 0x00000004#32 := by
  simp [coretCsr, clkSource, resetRegisters]

/-- PSR after a reset: S and nothing else (R75). -/
theorem psrWord_reset : psrWord Psr.reset = 0x80000000#32 := by decide

theorem registersReset_resetRegisters (s : State) : registersReset s (resetRegisters s) := by
  refine ⟨psrWord_reset, rfl, rfl, rfl, fun n => ?_, rfl, rfl, rfl, rfl, rfl, rfl, coretCsr_resetRegisters s, rfl, rfl, rfl⟩
  show ((freePacrs s.cfg.mpuRegions.val (s.freeCount + 14)).get n).enable = false
  rw [freePacrs_get]
  unfold freePacr
  split <;> rfl

/-- A reset turns the MPU off, so a software reset goes to the word at address 0 where memory answers there. -/
theorem softwareReset_memory (h : isMemory s 0#32) : softwareReset s = .next (jumpTo (datum s .word 0#32) (resetRegisters s)) := by
  have hd : dataRead true true .word 0 (resetRegisters s) = .ok (datum s .word 0#32) (resetRegisters s) :=
    dataRead_memory (mpuAllows_of_off rfl _ _ _) ((isMemory_congr rfl).mpr h)
  rw [softwareReset, readResetVector, hd]

end

end Sys2Proof.Machine

/-! Support for the statements of 10_state.md. The updates of the state that the invariant does not see, or that it allows. -/

namespace Sys2Proof.Machine

/-! ### Even addresses (R32) -/

theorem evenAddr_even (a : Word) : (evenAddr a).getLsbD 0 = false := by
  simp [evenAddr]

theorem add_even {a b : Word} (ha : a.getLsbD 0 = false) (hb : b.getLsbD 0 = false) : (a + b).getLsbD 0 = false := by
  rw [BitVec.getLsbD_add (by decide), ha, hb, BitVec.carry_zero]
  rfl

theorem branchOffset_even {n : Nat} (f : BitVec n) : (branchOffset f).getLsbD 0 = false := by
  simp [branchOffset, BitVec.getElem_signExtend, BitVec.getElem_append]

/-! ### Updates outside the invariant's fields, and of the PC -/

section
variable {s : State}

theorem Inv.jumpTo (h : Inv s) (a : Word) : Inv (jumpTo a s) := { h with pc_even := evenAddr_even a }

theorem Inv.branchTo {n : Nat} (h : Inv s) (f : BitVec n) : Inv (branchTo f s) :=
  { h with pc_even := add_even h.pc_even (branchOffset_even f) }

/-- An instruction of an even number of bytes ends in sequence. -/
theorem Inv.advance (h : Inv s) {n : Word} (hn : n.getLsbD 0 = false) : Inv (advance n s) := by
  refine { h with pc_even := ?_ }
  rw [advance_pc, nextPc]
  split
  · exact h.pc_even
  · exact add_even h.pc_even hn

theorem Inv.writeReg (h : Inv s) (r : Reg) (v : Word) : Inv (writeReg r v s) := { h with }

theorem Inv.writeRegs (h : Inv s) (l : List (Reg × Word)) : Inv (writeRegs l s) := by
  induction l generalizing s with
  | nil => exact h
  | cons p l ih => exact ih (h.writeReg p.1 p.2)

theorem Inv.popRegs (h : Inv s) (regs : List Reg) (vs : List Word) : Inv (popRegs regs vs s) := (h.writeRegs _).writeReg _ _

theorem Inv.setC (h : Inv s) (b : Bool) : Inv (setC b s) := { h with }

theorem Inv.nextFree (h : Inv s) : Inv (nextFree s) := { h with }

theorem Inv.setHad (h : Inv s) (d : Had) : Inv { s with had := d } := { h with }

theorem Inv.setHung (h : Inv s) : Inv { s with hung := true } := { h with }

theorem Inv.saveAndSwitch (h : Inv s) (vec : BitVec 8) (ret : Word) : Inv (saveAndSwitch vec ret s) := { h with }

theorem Inv.breakIdly (h : Inv s) : Inv (breakIdly s) := by
  unfold Machine.breakIdly
  split
  · exact { h with idly_bound := Nat.zero_le _ }
  · exact h

/-! ### Memory -/

theorem Inv.setMem (h : Inv s) {m : Memory} (hm : m.wf = true) : Inv { s with mem := m } := { h with mem_wf := hm }

theorem Inv.interleave (h : Inv s) : Inv (interleave s) := { h with mem_wf := writeBytes_wf _ h.mem_wf }

theorem Inv.wordGap (h : Inv s) (more : Nat) : Inv (wordGap more s) := by
  unfold Machine.wordGap
  split
  · exact h
  · exact h.interleave

/-! ### The IDLY32 count (R385) -/

theorem Inv.setIdly (h : Inv s) {n : Nat} (hn : n ≤ 32) : Inv { s with idlyCount := nextIdly n s } := by
  refine { h with idly_bound := ?_ }
  simp only [nextIdly]
  split
  · exact h.idly_bound
  · exact hn

theorem Inv.countIdly (h : Inv s) (before : Nat) : Inv (countIdly before s) := by
  unfold Machine.countIdly
  split
  · exact { h with idly_bound := Nat.le_trans (Nat.sub_le _ _) h.idly_bound }
  · exact h

end

/-! ### Bits confined to a mask -/

/-- A word has no bit outside a mask exactly when every bit it has is one of the mask's. -/
theorem and_not_eq_zero_iff {w : Nat} (x m : BitVec w) : x &&& ~~~m = 0#w ↔ ∀ i, x.getLsbD i = true → m.getLsbD i = true := by
  constructor
  · intro h i hx
    have hi := BitVec.lt_of_getLsbD hx
    have hb : (x &&& ~~~m).getLsbD i = false := by rw [h, BitVec.getLsbD_zero]
    simpa [hx, hi] using hb
  · intro h
    refine BitVec.eq_of_getLsbD_eq fun i hi => ?_
    cases hx : x.getLsbD i
    · simp [hx]
    · simp [hx, h i hx]

section
variable {w : Nat} {x y m : BitVec w}

theorem or_confined (hx : x &&& ~~~m = 0#w) (hy : y &&& ~~~m = 0#w) : (x ||| y) &&& ~~~m = 0#w := by
  rw [and_not_eq_zero_iff] at *
  intro i hi
  rw [BitVec.getLsbD_or, Bool.or_eq_true] at hi
  exact hi.elim (hx i) (hy i)

theorem and_confined (y : BitVec w) (hx : x &&& ~~~m = 0#w) : (x &&& y) &&& ~~~m = 0#w := by
  rw [and_not_eq_zero_iff] at *
  intro i hi
  rw [BitVec.getLsbD_and, Bool.and_eq_true] at hi
  exact hx i hi.1

theorem and_mask_confined (x m : BitVec w) : (x &&& m) &&& ~~~m = 0#w := by
  rw [BitVec.and_comm x]
  exact and_confined x ((and_not_eq_zero_iff m m).mpr fun _ h => h)

end

/-! ### The VIC (R482 to R495) -/

/-- The bit of a source whose bit the mask has. -/
theorem sourceBit_confined {n : Nat} {m : Word} (h : m.getLsbD n = true) : sourceBit n &&& ~~~m = 0#32 := by
  rw [and_not_eq_zero_iff]
  intro i hi
  have : i = n := by
    simp [sourceBit] at hi
    omega
  rwa [this]

/-- The most urgent source of a set is one of the set. -/
theorem bestSource_mem {v : Vic} {set : Word} {n : Fin 32} (h : bestSource v set = some n) : set.getLsbD n.val = true := by
  obtain ⟨p, _, hp⟩ := List.exists_of_findSome?_eq_some h
  have hn := List.find?_some hp
  rw [Bool.and_eq_true] at hn
  exact hn.1

/-- The VIC requests the vector of a pending source. -/
theorem vicRequest_pending {v : Vic} {vec : BitVec 8} (h : vicRequest v = some vec) :
    ∃ n : Fin 32, v.pending.getLsbD n.val = true ∧ vec = sourceVector n := by
  unfold vicRequest at h
  split at h
  · cases h
  · next n hn =>
    split at h
    · have hc := bestSource_mem hn
      simp only [vicCandidates, BitVec.getLsbD_and, Bool.and_eq_true] at hc
      injection h with h
      exact ⟨n, hc.1.1, h.symm⟩
    · cases h

theorem sourceVector_sub (n : Fin 32) : (sourceVector n).toNat - 32 = n.val := by
  simp only [sourceVector, BitVec.toNat_ofNat]
  omega

section
variable {c : Config} {v : Vic}

theorem vicInv_reset (c : Config) : vicInv c Vic.reset := by
  simp [vicInv, Vic.reset]

theorem vicInv_sample (h : vicInv c v) (pulse lines : Word) : vicInv c (vicSample (vicMask c) pulse lines v) := by
  obtain ⟨he, hw, hp, ha⟩ := h
  exact ⟨he, hw, or_confined hp (and_mask_confined _ _), ha⟩

/-- The VIC's acknowledge of its own request. -/
theorem vicInv_acknowledge (h : vicInv c v) {vec : BitVec 8} (hr : vicRequest v = some vec) : vicInv c (vicAcknowledge vec v) := by
  obtain ⟨he, hw, hp, ha⟩ := h
  obtain ⟨n, hn, rfl⟩ := vicRequest_pending hr
  refine ⟨he, hw, and_confined _ hp, or_confined ha (sourceBit_confined ?_)⟩
  rw [sourceVector_sub]
  exact (and_not_eq_zero_iff _ _).mp hp n.val hn

theorem vicInv_exit (h : vicInv c v) (vec : BitVec 8) : vicInv c (vicExit vec v) := by
  obtain ⟨he, hw, hp, ha⟩ := h
  unfold vicExit
  split
  · exact ⟨he, hw, hp, ha⟩
  · exact ⟨he, hw, hp, and_confined _ ha⟩

theorem vicInv_setPrio (h : vicInv c v) (count : Nat) (n : Fin 32) (p : BitVec 2) : vicInv c (setPrio count n p v) := by
  unfold setPrio
  split <;> exact h

theorem vicInv_writeIpr (h : vicInv c v) (count : Nat) (k : Fin 8) (w : Word) : vicInv c (vicWriteIpr count k w v) :=
  vicInv_setPrio (vicInv_setPrio (vicInv_setPrio (vicInv_setPrio h _ _ _) _ _ _) _ _ _) _ _ _

end

theorem Inv.setVic {s : State} (h : Inv s) {v : Vic} (hv : vicInv s.cfg v) : Inv { s with vic := v } := { h with vic_mask := hv }

/-! ### The timer (R472) -/

theorem timerTick_clksource (t : CoreTim) : (timerTick t).clksource = t.clksource := by
  unfold timerTick
  split
  · split <;> rfl
  · rfl

theorem timerTicks_clksource (n : Nat) (t : CoreTim) : (timerTicks n t).clksource = t.clksource := by
  induction n generalizing t with
  | zero => rfl
  | succ n ih => rw [timerTicks, ih, timerTick_clksource]

theorem coretWriteCsr_clksource {c : Config} {t : CoreTim} (w : Word) (hc : c.hasRefClk = false) :
    (coretWriteCsr c w t).clksource = t.clksource := by
  simp [coretWriteCsr, hc]

/-- A timer whose CLKSOURCE is as before wherever it may not change. -/
theorem Inv.setTimer {s : State} (h : Inv s) {t : CoreTim} (ht : s.cfg.hasRefClk = false → t.clksource = s.timer.clksource) :
    Inv { s with timer := t } :=
  { h with clksource := fun hc => (ht hc).trans (h.clksource hc) }

theorem Inv.returnFromException {s : State} (h : Inv s) : Inv (returnFromException s) :=
  have hi : Inv { s with idlyCount := nextIdly 0 s } := h.setIdly (Nat.zero_le _)
  { hi with pc_even := evenAddr_even _, vic_mask := vicInv_exit h.vic_mask _ }

end Sys2Proof.Machine

/-! Support. Every data access, fetch and multi-word access keeps the invariant, whether it answers, raises or hangs. -/

namespace Sys2Proof.Machine

section
variable {s : State}

/-! ### The bus and the debug unit's transfers -/

theorem slaveRead_keeps_inv (h : Inv s) (k : SlaveKind) (f sup : Bool) (d : Option (BitVec 4)) (z : Size) (a : Word) :
    (slaveRead k f sup d z a s).leaves Inv := by
  unfold slaveRead
  cases k with
  | memory => exact h
  | device => simp only []; split <;> exact h.nextFree
  | busError => exact h
  | silent => exact h

theorem slaveWrite_keeps_inv (h : Inv s) (k : SlaveKind) (f sup : Bool) (d : Option (BitVec 4)) (z : Size) (a v : Word) :
    (slaveWrite k f sup d z a v s).leaves Inv := by
  unfold slaveWrite
  cases k with
  | memory => exact h.setMem (memStore_wf _ _ _ _ h.mem_wf)
  | device => simp only []; split <;> exact h.nextFree
  | busError => exact h
  | silent => exact h

theorem ddmaRead_keeps_inv (h : Inv s) : (ddmaRead s).leaves Inv :=
  ddmaStart_leaves h.nextFree (fun _ ht => ht.setHad _) fun _ _ _ ht =>
    ddmaDone_leaves (slaveRead_keeps_inv ht _ _ _ _ _ _) (fun _ _ hu => (hu.setHad _).nextFree) (fun _ hu => hu.setHad _) fun _ hu => hu.setHad _

theorem ddmaWrite_keeps_inv (h : Inv s) : (ddmaWrite s).leaves Inv :=
  ddmaStart_leaves h.nextFree (fun _ ht => ht.setHad _) fun _ _ _ ht =>
    ddmaDone_leaves (slaveWrite_keeps_inv ht _ _ _ _ _ _ _) (fun _ _ hu => hu.setHad _) (fun _ hu => hu.setHad _) fun _ hu => hu.setHad _

/-! ### The tightly coupled IP -/

theorem readDacsr_keeps_inv (h : Inv s) : (readDacsr s).leaves Inv := by
  unfold readDacsr
  simp only []
  split
  · exact h
  · exact h.nextFree

theorem readDarwr_keeps_inv (h : Inv s) : (readDarwr s).leaves Inv := by
  unfold readDarwr
  split
  · exact h.setHad _
  · split
    · exact leaves_bind (ddmaRead_keeps_inv h) fun _ _ ht => ht
    · exact h

/-- A read of a register clears COUNTFLAG, or is one of the debug unit's, or changes nothing. -/
theorem tcipRead_keeps_inv (h : Inv s) (a : Word) : (tcipRead a s).leaves Inv := by
  unfold tcipRead
  split
  · next r _ =>
    cases r
    case coretCsr => exact h.setTimer fun _ => rfl
    case dacsr => exact readDacsr_keeps_inv h
    case darwr => exact readDarwr_keeps_inv h
    all_goals exact h
  · exact h

theorem writeHcr_keeps_inv (h : Inv s) (v : Word) : (writeHcr v s).leaves Inv := by
  unfold writeHcr
  split
  · trivial
  · exact h.setHad _

theorem writeHadCsr_keeps_inv (h : Inv s) (v : Word) : (writeHadCsr v s).leaves Inv := by
  unfold writeHadCsr
  split
  · exact h.setHad _
  · split
    · exact h
    · trivial

theorem writeDacsr_keeps_inv (h : Inv s) (v : Word) : (writeDacsr v s).leaves Inv := by
  unfold writeDacsr
  simp only []
  split
  · trivial
  · split
    · exact h.setHad _
    · exact (h.setHad _).nextFree

theorem writeDarwr_keeps_inv (h : Inv s) (v : Word) : (writeDarwr v s).leaves Inv := by
  unfold writeDarwr
  simp only []
  split
  · exact ddmaWrite_keeps_inv (h.setHad _)
  · exact h.setHad _

/-- A write of a VIC register sets bits of its sources only, one of CORET_CSR leaves a CLKSOURCE that is constant. -/
theorem writeTcipReg_keeps_inv (h : Inv s) (r : TcipReg) (v : Word) : (writeTcipReg r v s).leaves Inv := by
  obtain ⟨he, hw, hp, ha⟩ := h.vic_mask
  cases r with
  | coretCsr => exact h.setTimer (coretWriteCsr_clksource v)
  | coretRvr | coretCvr => exact h.setTimer fun _ => rfl
  | vicIser => exact h.setVic ⟨or_confined he (and_mask_confined _ _), hw, hp, ha⟩
  | vicIcer => exact h.setVic ⟨and_confined _ he, hw, hp, ha⟩
  | vicIwer => exact h.setVic ⟨he, or_confined hw (and_mask_confined _ _), hp, ha⟩
  | vicIwdr => exact h.setVic ⟨he, and_confined _ hw, hp, ha⟩
  | vicIspr => exact h.setVic ⟨he, hw, or_confined hp (and_mask_confined _ _), ha⟩
  | vicIcpr => exact h.setVic ⟨he, hw, and_confined _ hp, ha⟩
  | vicIabr =>
    simp only [writeTcipReg]
    split
    · exact h.setVic ⟨he, hw, hp, and_confined _ ha⟩
    · trivial
  | vicIpr k => exact h.setVic (vicInv_writeIpr h.vic_mask _ k v)
  | vicIptr => exact h.setVic ⟨he, hw, hp, ha⟩
  | hcr => exact writeHcr_keeps_inv h v
  | hadCsr => exact writeHadCsr_keeps_inv h v
  | dacsr => exact writeDacsr_keeps_inv h v
  | datr => exact h.setHad _
  | darwr => exact writeDarwr_keeps_inv h v
  | coretCalib | vicIsr | hsr => exact h

theorem tcipWrite_keeps_inv (h : Inv s) (a v : Word) : (tcipWrite a v s).leaves Inv := by
  unfold tcipWrite
  split
  · exact writeTcipReg_keeps_inv h _ v
  · exact h

/-! ### Data accesses and the fetch -/

theorem dataRead_keeps_inv (h : Inv s) (f sup : Bool) (z : Size) (a : Word) : (dataRead f sup z a s).leaves Inv := by
  rcases dataRead_cases f sup z a s with ⟨_, e⟩ | ⟨_, _, _, e⟩ | ⟨_, _, _, _, e⟩ | ⟨_, _, _, _, e⟩ | ⟨_, _, e⟩ <;> rw [e]
  · exact h
  · exact h
  · exact tcipRead_keeps_inv h a
  · trivial
  · exact slaveRead_keeps_inv h _ _ _ _ _ _

theorem dataWrite_keeps_inv (h : Inv s) (z : Size) (a v : Word) : (dataWrite z a v s).leaves Inv := by
  rcases dataWrite_cases z a v s with ⟨_, e⟩ | ⟨_, _, _, e⟩ | ⟨_, _, _, _, e⟩ | ⟨_, _, _, _, e⟩ | ⟨_, _, _, e⟩ | ⟨_, _, _, e⟩ <;> rw [e]
  · exact h
  · exact h
  · exact tcipWrite_keeps_inv h a v
  · trivial
  · trivial
  · exact slaveWrite_keeps_inv h _ _ _ _ _ _ _

theorem load_keeps_inv (h : Inv s) (z : Size) (a : Word) : (load z a s).leaves Inv := by
  unfold load
  split
  · exact h
  · exact dataRead_keeps_inv h _ _ _ _

theorem store_keeps_inv (h : Inv s) (z : Size) (a v : Word) : (store z a v s).leaves Inv := by
  unfold store
  split
  · exact h
  · exact dataWrite_keeps_inv h _ _ _

theorem loadWords_keeps_inv (h : Inv s) (n : Nat) (a : Word) : (loadWords n a s).leaves Inv := by
  induction n generalizing a s with
  | zero => exact h
  | succ n ih =>
    exact leaves_bind (dataRead_keeps_inv h _ _ _ _) fun _ _ ht => leaves_bind (ih (ht.wordGap n) _) fun _ _ hu => hu

theorem storeWords_keeps_inv (h : Inv s) (vs : List Word) (a : Word) : (storeWords vs a s).leaves Inv := by
  induction vs generalizing a s with
  | nil => exact h
  | cons v vs ih => exact leaves_bind (dataWrite_keeps_inv h _ _ _) fun _ _ ht => ih (ht.wordGap _) _

theorem multiAccess_keeps_inv {α : Type} (h : Inv s) {x : Access α} (hx : x.leaves Inv) : (multiAccess s x).leaves Inv := by
  unfold multiAccess
  split
  · exact h
  · exact hx

theorem pushWords_keeps_inv (h : Inv s) (vs : List Word) : (pushWords vs s).leaves Inv :=
  multiAccess_keeps_inv h (leaves_bind (storeWords_keeps_inv h vs _) fun _ _ ht => ht.writeReg _ _)

theorem popWords_keeps_inv (h : Inv s) (n : Nat) : (popWords n s).leaves Inv := multiAccess_keeps_inv h (loadWords_keeps_inv h n _)

theorem fetchHalf_keeps_inv (h : Inv s) (a : Word) : (fetchHalf a s).leaves Inv := by
  unfold fetchHalf
  split
  · exact h
  · split
    · split
      · trivial
      · exact h
    · exact leaves_bind (slaveRead_keeps_inv h _ _ _ _ _ _) fun _ _ ht => ht

theorem fetchInstr_keeps_inv (h : Inv s) : (fetchInstr s).leaves Inv := by
  refine leaves_bind (fetchHalf_keeps_inv h _) fun _ _ ht => ?_
  split
  · exact leaves_bind (fetchHalf_keeps_inv ht.interleave _) fun _ _ hu => hu
  · exact ht

end

end Sys2Proof.Machine

/-! Support. Every instruction, exception, interrupt and reset keeps the invariant, and so does a step. -/

namespace Sys2Proof.Machine

/-- If a result is a next state, that state has a property. -/
def leadsTo (P : State → Prop) (r : Result) : Prop :=
  match r with
  | .next t => P t
  | .fault _ => True
  | .refused _ => True

theorem leadsTo_next {P : State → Prop} {r : Result} {t : State} (h : leadsTo P r) (hr : r = .next t) : P t := by
  subst hr; exact h

section
variable {s : State}

/-! ### Exceptions -/

theorem readVector_keeps_inv (h : Inv s) (vec : BitVec 8) : (readVector vec s).leaves Inv := dataRead_keeps_inv h.interleave _ _ _ _

theorem enterUnrecoverable_keeps_inv (h : Inv s) : leadsTo Inv (enterUnrecoverable s) := by
  have hr := readVector_keeps_inv h vecUnrecoverable
  unfold enterUnrecoverable
  cases hv : readVector vecUnrecoverable s with
  | ok w t => exact (leaves_ok hr hv).jumpTo w
  | raise _ t => exact { leaves_raise hr hv with }
  | hang t => exact (leaves_hang hr hv).setHung
  | refuse r => trivial

theorem takeException_keeps_inv (h : Inv s) (vec : BitVec 8) (ret : Word) : leadsTo Inv (takeException vec ret s) := by
  have hr := readVector_keeps_inv (h.breakIdly.saveAndSwitch (effectiveVector vec s) ret) (effectiveVector vec s)
  rcases takeException_cases vec ret s with ⟨w, t, hv, e⟩ | ⟨_, t, hv, e⟩ | ⟨t, hv, e⟩ | ⟨r, e⟩ <;> rw [e]
  · exact (leaves_ok hr hv).jumpTo w
  · exact enterUnrecoverable_keeps_inv ((leaves_raise hr hv).saveAndSwitch _ _)
  · exact (leaves_hang hr hv).setHung
  · trivial

/-- An operation that keeps the invariant, continued by something that does. -/
theorem complete_keeps_inv {α : Type} {x : Access α} (hx : x.leaves Inv) {ret : Word} {k : α → State → Result}
    (hk : ∀ v t, Inv t → leadsTo Inv (k v t)) : leadsTo Inv (complete ret x k) := by
  cases x with
  | ok v t => exact hk v t hx
  | raise vec t => exact takeException_keeps_inv hx vec ret
  | hang t => exact hx.setHung
  | refuse r => trivial

theorem privileged_keeps_inv (h : Inv s) {k : Result} (hk : leadsTo Inv k) : leadsTo Inv (privileged s k) := by
  unfold privileged
  split
  · exact hk
  · exact takeException_keeps_inv h _ _

theorem needsNestAccel_keeps_inv (h : Inv s) {k : Result} (hk : leadsTo Inv k) : leadsTo Inv (needsNestAccel s k) := by
  unfold needsNestAccel
  split
  · exact hk
  · exact takeException_keeps_inv h _ _

/-! ### The shapes that instructions share -/

theorem Inv.advance2 (h : Inv s) : Inv (Machine.advance 2#32 s) := h.advance (by decide)

theorem Inv.advance4 (h : Inv s) : Inv (Machine.advance 4#32 s) := h.advance (by decide)

theorem finish16_keeps_inv (h : Inv s) {r : Reg} {v : Word} : leadsTo Inv (finish16 r v s) := (h.writeReg r v).advance2

theorem finishC16_keeps_inv (h : Inv s) {b : Bool} : leadsTo Inv (finishC16 b s) := (h.setC b).advance2

theorem finish32_keeps_inv (h : Inv s) : leadsTo Inv (finish32 s) := h.advance4

theorem loadLiteral_keeps_inv (h : Inv s) {len : Word} (hl : len.getLsbD 0 = false) {rz : Reg} {a : Word} :
    leadsTo Inv (loadLiteral len rz a s) :=
  complete_keeps_inv (dataRead_keeps_inv h _ _ _ _) fun _ _ ht => (ht.writeReg _ _).advance hl

theorem loadTo_keeps_inv (h : Inv s) {len : Word} (hl : len.getLsbD 0 = false) {z : Size} {rz : Reg} {ea : Word} :
    leadsTo Inv (loadTo len z rz ea s) :=
  complete_keeps_inv (load_keeps_inv h z ea) fun _ _ ht => (ht.writeReg _ _).advance hl

theorem storeFrom_keeps_inv (h : Inv s) {len : Word} (hl : len.getLsbD 0 = false) {z : Size} {rz : Reg} {ea : Word} :
    leadsTo Inv (storeFrom len z rz ea s) :=
  complete_keeps_inv (store_keeps_inv h z ea _) fun _ _ ht => ht.advance hl

theorem sleep_keeps_inv (h : Inv s) (m : LowPower) : leadsTo Inv (sleep m s) := by
  have hi : Inv { s with idlyCount := nextIdly 0 s } := h.setIdly (Nat.zero_le _)
  have hm : Inv { s with idlyCount := nextIdly 0 s, lowPower := m } := { hi with }
  exact privileged_keeps_inv h (finish32_keeps_inv hm)

/-! ### Branches and multi-word instructions -/

theorem execBt16_keeps_inv (h : Inv s) (f : BitVec 10) : leadsTo Inv (execBt16 f s) := by
  unfold execBt16
  split
  · exact h.branchTo f
  · exact h.advance2

theorem execBf16_keeps_inv (h : Inv s) (f : BitVec 10) : leadsTo Inv (execBf16 f s) := by
  unfold execBf16
  split
  · exact h.advance2
  · exact h.branchTo f

theorem execPush16_keeps_inv (h : Inv s) (r15 : Bool) (l : BitVec 4) : leadsTo Inv (execPush16 r15 l s) :=
  complete_keeps_inv (pushWords_keeps_inv h _) fun _ _ ht => ht.advance2

theorem execPop16_keeps_inv (h : Inv s) (r15 : Bool) (l : BitVec 4) : leadsTo Inv (execPop16 r15 l s) :=
  complete_keeps_inv (popWords_keeps_inv h _) fun _ _ ht => (ht.popRegs _ _).jumpTo _

theorem execIpush16_keeps_inv (h : Inv s) : leadsTo Inv (execIpush16 s) :=
  needsNestAccel_keeps_inv h (complete_keeps_inv (pushWords_keeps_inv h _) fun _ _ ht => ht.advance2)

theorem execIpop16_keeps_inv (h : Inv s) : leadsTo Inv (execIpop16 s) :=
  needsNestAccel_keeps_inv h (complete_keeps_inv (popWords_keeps_inv h _) fun _ _ ht => (ht.popRegs _ _).advance2)

theorem execNie16_keeps_inv (h : Inv s) : leadsTo Inv (execNie16 s) := by
  refine needsNestAccel_keeps_inv h (privileged_keeps_inv h (complete_keeps_inv (pushWords_keeps_inv h _) fun _ t ht => ?_))
  have hn : Inv { t with psr := { t.psr with ee := true, ie := true }, nieShadow := true } := { ht with }
  exact hn.advance2

theorem execNir16_keeps_inv (h : Inv s) : leadsTo Inv (execNir16 s) := by
  refine needsNestAccel_keeps_inv h (privileged_keeps_inv h (complete_keeps_inv (popWords_keeps_inv h 2) fun vs t ht => ?_))
  have hn : Inv { writeReg .r14 (readReg .r14 t + 8#32) t with epsr := psrOfWord (vs.getD 0 0#32), epc := vs.getD 1 0#32 } :=
    { ht with }
  exact hn.returnFromException

/-! ### Reset -/

theorem pacrInv_free (c : Config) (n : Nat) : pacrInv c (freePacrs c.mpuRegions.val n) := by
  intro k
  rw [freePacrs_get]
  unfold freePacr
  split
  · next hk => exact ⟨fun hle => absurd hk (by omega), fun he => by cases he⟩
  · exact ⟨fun _ => rfl, fun he => by cases he⟩

theorem resetRegisters_keeps_inv (h : Inv s) : Inv (resetRegisters s) where
  mem_wf := h.mem_wf
  pc_even := h.pc_even
  capr_mask := and_mask_confined _ _
  pacr_ok := pacrInv_free s.cfg _
  mpu_absent _ := rfl
  vic_mask := vicInv_reset s.cfg
  clksource _ := rfl
  idly_bound := Nat.zero_le _

theorem resetVectorFault_keeps_inv (h : Inv s) : leadsTo Inv (resetVectorFault s) := by
  apply enterUnrecoverable_keeps_inv
  exact { h with }

theorem readResetVector_keeps_inv (h : Inv s) : leadsTo Inv (readResetVector s) := by
  have hr := dataRead_keeps_inv h true true .word 0
  unfold readResetVector
  cases hv : dataRead true true .word 0 s with
  | ok w t => exact (leaves_ok hr hv).jumpTo w
  | raise _ t => exact resetVectorFault_keeps_inv (leaves_raise hr hv)
  | hang t => exact (leaves_hang hr hv).setHung
  | refuse r => trivial

/-! ### System instructions -/

theorem writeCcr_keeps_inv (h : Inv s) (v : Word) : leadsTo Inv (writeCcr v s) := by
  rcases writeCcr_cases v s with e | ⟨r, e⟩ | ⟨hm, b, e⟩ <;> rw [e]
  · exact finish32_keeps_inv h
  · trivial
  · have hb : Inv { s with mpuOn := b } := { h with mpu_absent := fun h0 => absurd hm (by rw [h0]; decide) }
    exact finish32_keeps_inv hb

theorem writePacr_keeps_inv (h : Inv s) (v : Word) : leadsTo Inv (writePacr v s) := by
  rcases writePacr_cases v s with e | ⟨r, e⟩ | ⟨hsel, hp, e⟩ <;> rw [e]
  · exact finish32_keeps_inv h
  · trivial
  · have hb : Inv { s with pacr := s.pacr.set (selectedRegion s).val (pacrOfWord v) (selectedRegion s).isLt } := by
      refine { h with pacr_ok := fun n => ?_ }
      rw [pacr_get_set]
      split
      · next hn => exact ⟨fun hle => absurd hsel (by subst hn; exact Nat.not_lt.mpr hle), hp⟩
      · exact h.pacr_ok n
    exact finish32_keeps_inv hb

theorem writeChr_keeps_inv (h : Inv s) (v : Word) : leadsTo Inv (writeChr v s) := by
  unfold writeChr
  split
  · split
    · exact readResetVector_keeps_inv (resetRegisters_keeps_inv h)
    · exact takeException_keeps_inv h _ _
  · have hi : Inv { s with iae := v.getLsbD 4 } := { h with }
    exact finish32_keeps_inv hi

theorem writeControlReg_keeps_inv (h : Inv s) (r : ControlReg) (v : Word) : leadsTo Inv (writeControlReg r v s) := by
  cases r with
  | ccr => exact writeCcr_keeps_inv h v
  | pacr => exact writePacr_keeps_inv h v
  | chr => exact writeChr_keeps_inv h v
  | capr =>
    have hc : Inv { s with capr := v &&& caprMask s.cfg.mpuRegions.val } := { h with capr_mask := and_mask_confined _ _ }
    exact finish32_keeps_inv hc
  | cpuidr => exact finish32_keeps_inv h
  | psr | vbr | epsr | epc | prsr | usp =>
    apply finish32_keeps_inv
    exact { h with }

theorem execMtcr32_keeps_inv (h : Inv s) (rx : Reg) (n sel : BitVec 5) : leadsTo Inv (execMtcr32 rx n sel s) := by
  refine privileged_keeps_inv h ?_
  unfold writeControl
  split
  · exact writeControlReg_keeps_inv h _ _
  · exact finish32_keeps_inv h

theorem execPsr_keeps_inv (h : Inv s) (p : Psr) : leadsTo Inv (privileged s (finish32 { s with psr := p })) := by
  refine privileged_keeps_inv h (finish32_keeps_inv ?_)
  exact { h with }

theorem execBkpt16_keeps_inv (h : Inv s) : leadsTo Inv (execBkpt16 s) := by
  unfold execBkpt16
  split
  · exact { h with }
  · exact takeException_keeps_inv h _ _

/-- A sequence is of at most 32 instructions (R70, R385). -/
theorem execIdly32_keeps_inv (h : Inv s) (imm5 : BitVec 5) : leadsTo Inv (execIdly32 imm5 s) := by
  have hn : imm5.toNat + 1 ≤ 32 := imm5.isLt
  unfold execIdly32
  split
  · exact finish32_keeps_inv ((h.setIdly hn).setC false)
  · exact finish32_keeps_inv h

/-- Every instruction keeps the invariant. -/
theorem exec_keeps_inv (h : Inv s) (i : Instr) : leadsTo Inv (exec i s) := by
  cases i with
  | addc16 | subc16 => exact finish16_keeps_inv (h.setC _)
  | addu16 | addu16r3 | addi16 | addi16r3 | addi16rsp | addi16sp | subu16 | subu16r3 | subi16 | subi16r3 | subi16sp | mult16
  | and16 | andn16 | or16 | xor16 | nor16 | lsl16 | lsr16 | asr16 | rotl16 | lsli16 | lsri16 | asri16
  | zextb16 | zexth16 | sextb16 | sexth16 | mov16 | movi16 | mvcv16 | bclri16 | bseti16 => exact finish16_keeps_inv h
  | cmpne16 | cmpnei16 | cmphs16 | cmphsi16 | cmplt16 | cmplti16 | tst16 | tstnbz16 | btsti16 => exact finishC16_keeps_inv h
  | lrw16 | lrw32 => exact loadLiteral_keeps_inv h (by decide)
  | br16 f | br32 f => exact h.branchTo f
  | bt16 f => exact execBt16_keeps_inv h f
  | bf16 f => exact execBf16_keeps_inv h f
  | bsr32 f => exact (h.writeReg _ _).branchTo f
  | jmp16 => exact h.jumpTo _
  | jsr16 => exact (h.writeReg _ _).jumpTo _
  | ld16b | ld32b | ld16h | ld32h | ld16w | ld16wsp | ld32w => exact loadTo_keeps_inv h (by decide)
  | st16b | st32b | st16h | st32h | st16w | st16wsp | st32w => exact storeFrom_keeps_inv h (by decide)
  | push16 r15 l => exact execPush16_keeps_inv h r15 l
  | pop16 r15 l => exact execPop16_keeps_inv h r15 l
  | ipush16 => exact execIpush16_keeps_inv h
  | ipop16 => exact execIpop16_keeps_inv h
  | nie16 => exact execNie16_keeps_inv h
  | nir16 => exact execNir16_keeps_inv h
  | mfcr32 => exact privileged_keeps_inv h (finish32_keeps_inv (h.writeReg _ _))
  | mtcr32 rx n sel => exact execMtcr32_keeps_inv h rx n sel
  | psrset32 | psrclr32 => exact execPsr_keeps_inv h _
  | rte32 => exact privileged_keeps_inv h h.returnFromException
  | trap32 => exact takeException_keeps_inv h _ _
  | bkpt16 => exact execBkpt16_keeps_inv h
  | sync32 => exact finish32_keeps_inv h
  | wait32 | doze32 | stop32 => exact sleep_keeps_inv h _
  | idly32 imm5 => exact execIdly32_keeps_inv h imm5

/-! ### The step -/

theorem Inv.takeInput (h : Inv s) (i : Input) : Inv (takeInput i s) :=
  { h with mem_wf := writeBytes_wf _ h.mem_wf }

theorem Inv.tickTimer (h : Inv s) (i : Input) : Inv (tickTimer i s) := by
  unfold Machine.tickTimer
  split
  · exact h.setTimer fun _ => timerTicks_clksource _ _
  · exact h

theorem Inv.absorb (h : Inv s) : Inv (absorb s) :=
  have ht := (h.takeInput (currentInput s)).tickTimer (currentInput s)
  ht.setVic (vicInv_sample ht.vic_mask _ _)

/-- An interrupt is taken on the request of the VIC, or of the external controller where there is no VIC. -/
theorem takeInterrupt_keeps_inv (h : Inv s) {vec : BitVec 8} (hr : interruptRequest s = some vec) : leadsTo Inv (takeInterrupt vec s) := by
  have hv : vicInv s.cfg (if s.cfg.vicSize = .absent then s.vic else vicAcknowledge vec s.vic) := by
    unfold interruptRequest at hr
    split at hr
    · next ha => rw [if_pos ha]; exact h.vic_mask
    · next ha => rw [if_neg ha]; exact vicInv_acknowledge h.vic_mask hr
  unfold takeInterrupt
  split
  · trivial
  · apply takeException_keeps_inv
    exact { h.setVic hv with }

theorem retire_keeps_inv {r : Result} (hr : leadsTo Inv r) (before : Nat) : leadsTo Inv (retire before r) := by
  cases r with
  | next t => exact Inv.countIdly hr before
  | fault f => trivial
  | refused q => trivial

theorem runInstruction_keeps_inv (h : Inv s) : leadsTo Inv (runInstruction s) := by
  have h0 : Inv { s with nieShadow := false } := { h with }
  have hf := fetchInstr_keeps_inv h0
  unfold runInstruction
  simp only []
  cases hi : fetchInstr { s with nieShadow := false } with
  | ok x t =>
    have ht := leaves_ok hf hi
    cases x with
    | ok i => exact retire_keeps_inv (exec_keeps_inv ht.interleave i) _
    | error e => exact takeException_keeps_inv ht _ _
  | raise vec t => exact takeException_keeps_inv (leaves_raise hf hi) _ _
  | hang t => exact (leaves_hang hf hi).setHung
  | refuse r => trivial

theorem coreCycle_keeps_inv (h : Inv s) : leadsTo Inv (coreCycle s) := by
  unfold coreCycle
  split
  · next vec hp =>
    unfold pendingInterrupt at hp
    split at hp
    · exact takeInterrupt_keeps_inv h hp
    · cases hp
  · exact runInstruction_keeps_inv h

theorem debugCycle_keeps_inv (h : Inv s) (i : Input) : leadsTo Inv (debugCycle i s) := by
  unfold debugCycle
  split
  · exact { h with }
  · split
    · exact h
    · split
      · exact exec_keeps_inv h _
      · exact takeException_keeps_inv h _ _

theorem sleepCycle_keeps_inv (h : Inv s) : leadsTo Inv (sleepCycle s) := by
  unfold sleepCycle
  split
  · exact { h with }
  · exact h

theorem hardReset_keeps_inv (h : Inv s) : Inv (hardReset s) := { resetRegisters_keeps_inv h with }

theorem releaseReset_keeps_inv (h : Inv s) : leadsTo Inv (releaseReset s) := by
  apply readResetVector_keeps_inv
  exact { h with }

/-- Each condition of the core keeps the invariant, in the order in which a step looks at them. -/
theorem cycleWith_keeps_inv (h : Inv s) (i : Input) : leadsTo Inv (cycleWith i s) := by
  unfold cycleWith
  split
  · exact hardReset_keeps_inv h
  split
  · exact releaseReset_keeps_inv h
  split
  · exact h
  split
  · exact debugCycle_keeps_inv h i
  split
  · exact { h with }
  split
  · exact sleepCycle_keeps_inv h
  · exact coreCycle_keeps_inv h

end

/-- Settles O57: the input keeps the invariant, and so does whatever the core then does, one lemma for each operation. -/
theorem stepKeepsInvariant : Obligations.StepKeepsInvariant :=
  fun s _ h ht => leadsTo_next (cycleWith_keeps_inv h.absorb (currentInput s)) ht

end Sys2Proof.Machine

/-! The statements of 10_state.md about the general registers, the reset values and the control registers. -/

namespace Sys2Proof.Machine

/-- Settles O1: a read or write of each register number is one case of `readReg` and `setReg`. -/
theorem registerFileFollowsR21 : Obligations.RegisterFileFollowsR21 := by
  intro s v
  refine ⟨by simp only [readReg, and_self], fun r hr => ?_, rfl, fun r => ⟨regWritten_writeReg r v s, rfl⟩⟩
  rcases hr with rfl | rfl | rfl | rfl <;> exact ⟨rfl, writeReg_absent rfl v s⟩

/-- Settles O49: a closed fact about the fields of State.reset. -/
theorem resetValues : Obligations.ResetValues := by
  unfold Obligations.ResetValues
  decide

/-- Settles O56: at State.reset memory is empty and every register the invariant speaks of but CLKSOURCE holds 0. -/
theorem invariantAtReset : Obligations.InvariantAtReset where
  mem_wf := rfl
  pc_even := by decide
  capr_mask := by decide
  pacr_ok := by unfold pacrInv; decide
  mpu_absent _ := rfl
  vic_mask := vicInv_reset _
  clksource _ := rfl
  idly_bound := Nat.zero_le _

/-- Settles O29: CR<14,1> reads and writes USP; no control register reads SSP, and no write but CHR's reaches it. -/
theorem userStackPointerRegister : Obligations.UserStackPointerRegister := by
  intro r n sel s
  refine ⟨fun hs => ⟨?_, ?_⟩, fun hs _ => ⟨privileged_user hs _, privileged_user hs _⟩, readControl_ssp n sel s, ?_⟩
  · have hr : readControl 14 1 s = s.regs.usp := by rw [readControl, controlReg_usp]; rfl
    refine ⟨_, exec_mfcr32_supervisor hs r 14 1, ?_, rfl, fun _ => rfl, fun hd => ?_⟩
    · rw [hr]; exact regWritten_congr (regWritten_writeReg r _ s) rfl rfl
    · simp [nextPc, hd]
  · refine ⟨_, (exec_mtcr32_supervisor hs r 14 1).trans (writeControl_of_some (controlReg_usp _) _), rfl, fun hd => ?_⟩
    simp [nextPc, hd]
  · intro t hs hn ht
    rw [exec_mtcr32_supervisor hs] at ht
    cases hc : controlReg s.cfg n sel with
    | none => rw [writeControl_of_none hc] at ht; cases ht; rfl
    | some q =>
      rw [writeControl_of_some hc] at ht
      exact writeControlReg_ssp (fun hq => hn (eq_31_of_controlReg_chr (hq ▸ hc))) ht

/-- Settles O30: each clause is the equation of `writeCcr` or `writePacr` in one range of the value written. -/
theorem protectionRegisterWrites : Obligations.ProtectionRegisterWrites := by
  intro rx s hs v done
  have ccr := exec_mtcr32_ccr hs rx
  have pacr (hm : s.prsr.toNat < s.cfg.mpuRegions.val) := exec_mtcr32_pacr hs (Nat.zero_lt_of_lt hm) rx
  refine ⟨fun hm => ?_, fun hm hv => ?_, fun hm hv hd ha => ?_, fun hm he hz => ?_, fun hm hv => ?_, fun hm hv ha => ?_, fun hm hp => ?_,
    fun hm => ?_⟩
  · exact ccr.trans (writeCcr_absent hm v)
  · exact ccr.trans (writeCcr_reserved hm ((two_le_iff_bit_one v).mp hv))
  · exact ccr.trans (writeCcr_denied hm hv hd ha)
  · exact (pacr hm).trans (writePacr_reserved hm he hz)
  · exact ccr.trans (writeCcr_off hm hv)
  · exact ccr.trans (writeCcr_on hm hv ha)
  · refine ⟨_, (pacr hm).trans (writePacr_legal hm hp), rfl, fun n => ?_⟩
    simp only [pacr_get_set, Fin.ext_iff]
    rfl
  · by_cases h0 : s.cfg.mpuRegions.val = 0
    · rw [exec_mtcr32_supervisor hs, writeControl_of_none (controlReg_pacr_absent h0)]
      rfl
    · exact (exec_mtcr32_pacr hs (Nat.pos_of_ne_zero h0) rx).trans (writePacr_absent hm v)

/-- Settles O31: the three outcomes of a write of CHR. -/
theorem implicitOperationRegisterWrites : Obligations.ImplicitOperationRegisterWrites := by
  intro rx s hs v
  have chr := exec_mtcr32_chr hs rx
  refine ⟨fun hv => chr.trans (writeChr_iae hv), fun hv he hr => ?_, fun hv he hm => ?_⟩
  · have hu := takeException_entered (vec := vecUnrecoverable) s.pc (by rw [effectiveVector_unrecoverable]; exact hr)
    rw [effectiveVector_unrecoverable] at hu
    rw [chr, writeChr_unrecoverable hv he]
    exact hu
  · exact ⟨_, chr.trans ((writeChr_reset hv he).trans (softwareReset_memory hm)), registersReset_resetRegisters s, rfl, rfl, rfl, rfl, rfl, rfl,
      rfl⟩

end Sys2Proof.Machine

/-! Support for the statements of 20_memory.md. What the meaning of an instruction can do to memory, and what every step leaves of the
configuration. -/

namespace Sys2Proof.Machine

section
variable {s : State}

/-! ### Results of a step -/

theorem leadsTo_of_forall {P : State → Prop} {r : Result} (h : ∀ t, r = .next t → P t) : leadsTo P r := by
  cases r with
  | next t => exact h t rfl
  | fault f => trivial
  | refused q => trivial

theorem leadsTo_mono {P Q : State → Prop} {r : Result} (hr : leadsTo P r) (h : ∀ t, P t → Q t) : leadsTo Q r :=
  leadsTo_of_forall fun t ht => h t (leadsTo_next hr ht)

/-- An operation whose states have one property, ended in each of the four ways by something with another. -/
theorem complete_leadsTo {α : Type} {P Q : State → Prop} {x : Access α} (hx : x.leaves P) {ret : Word} {k : α → State → Result}
    (raise : ∀ vec t, P t → leadsTo Q (takeException vec ret t)) (hang : ∀ t, P t → Q { t with hung := true })
    (ok : ∀ v t, P t → leadsTo Q (k v t)) : leadsTo Q (complete ret x k) := by
  cases x with
  | ok v t => exact ok v t hx
  | raise vec t => exact raise vec t hx
  | hang t => exact hang t hx
  | refuse r => trivial

/-! ### What an instruction does to memory -/

/-- Memory and the configuration are as before. -/
def keepsMemory (s t : State) : Prop := t.mem = s.mem ∧ t.cfg = s.cfg

/-- The ways in which the meaning of an instruction reaches memory: not at all, through the entry of an exception, through one read, the words of
a pop, one store, the words of a push, or, in supervisor mode only, through a software reset. What it does after such an access leaves memory. -/
inductive MemoryUse (s : State) : Result → Prop
  | none {t : State} (h : keepsMemory s t) : MemoryUse s (.next t)
  | refuses (r : Refusal) : MemoryUse s (.refused r)
  | enters (vec : BitVec 8) : MemoryUse s (takeException vec s.pc s)
  | reads {x : Access Word} {k : Word → State → Result} (hx : x.leaves (sameButReads s)) (hk : ∀ v t, leadsTo (keepsMemory t) (k v t)) :
      MemoryUse s (complete s.pc x k)
  | pops (n : Nat) {k : List Word → State → Result} (hk : ∀ vs t, leadsTo (keepsMemory t) (k vs t)) :
      MemoryUse s (complete s.pc (popWords n s) k)
  | stores (z : Size) (a v : Word) {k : Unit → State → Result} (hk : ∀ t, leadsTo (keepsMemory t) (k () t)) :
      MemoryUse s (complete s.pc (store z a v s) k)
  | pushes (vs : List Word) {k : Unit → State → Result} (hk : ∀ t, leadsTo (keepsMemory t) (k () t)) :
      MemoryUse s (complete s.pc (pushWords vs s) k)
  | resets (h : s.psr.s = true) : MemoryUse s (softwareReset s)

theorem privileged_memoryUse {r : Result} (hr : s.psr.s = true → MemoryUse s r) : MemoryUse s (privileged s r) := by
  unfold privileged
  split
  · next hs => exact hr hs
  · exact .enters _

theorem needsNestAccel_memoryUse {r : Result} (hr : MemoryUse s r) : MemoryUse s (needsNestAccel s r) := by
  unfold needsNestAccel
  split
  · exact hr
  · exact .enters _

theorem writeRegs_keepsMemory (l : List (Reg × Word)) (s : State) : keepsMemory s (writeRegs l s) := by
  induction l generalizing s with
  | nil => exact ⟨rfl, rfl⟩
  | cons p l ih => exact ih (writeReg p.1 p.2 s)

theorem popRegs_keepsMemory (regs : List Reg) (vs : List Word) (s : State) : keepsMemory s (popRegs regs vs s) :=
  writeRegs_keepsMemory (regs.zip vs) s

theorem writeCcr_memoryUse (v : Word) : MemoryUse s (writeCcr v s) := by
  rcases writeCcr_cases v s with e | ⟨r, e⟩ | ⟨_, b, e⟩ <;> rw [e]
  · exact .none ⟨rfl, rfl⟩
  · exact .refuses r
  · exact .none ⟨rfl, rfl⟩

theorem writePacr_memoryUse (v : Word) : MemoryUse s (writePacr v s) := by
  rcases writePacr_cases v s with e | ⟨r, e⟩ | ⟨_, _, e⟩ <;> rw [e]
  · exact .none ⟨rfl, rfl⟩
  · exact .refuses r
  · exact .none ⟨rfl, rfl⟩

theorem writeChr_memoryUse (hs : s.psr.s = true) (v : Word) : MemoryUse s (writeChr v s) := by
  unfold writeChr
  split
  · split
    · exact .resets hs
    · exact .enters _
  · exact .none ⟨rfl, rfl⟩

theorem writeControl_memoryUse (hs : s.psr.s = true) (n sel : BitVec 5) (v : Word) : MemoryUse s (writeControl n sel v s) := by
  unfold writeControl
  split
  · next r _ =>
    cases r with
    | ccr => exact writeCcr_memoryUse v
    | pacr => exact writePacr_memoryUse v
    | chr => exact writeChr_memoryUse hs v
    | psr | vbr | epsr | epc | cpuidr | capr | prsr | usp => exact .none ⟨rfl, rfl⟩
  · exact .none ⟨rfl, rfl⟩

theorem execBkpt16_memoryUse : MemoryUse s (execBkpt16 s) := by
  unfold execBkpt16
  split
  · exact .none ⟨rfl, rfl⟩
  · exact .enters _

theorem execIdly32_memoryUse (imm5 : BitVec 5) : MemoryUse s (execIdly32 imm5 s) := by
  unfold execIdly32
  split <;> exact .none ⟨rfl, rfl⟩

/-- A conditional branch, taken or not. -/
theorem ite_memoryUse {p : Prop} [Decidable p] {t u : State} (ht : keepsMemory s t) (hu : keepsMemory s u) :
    MemoryUse s (.next (if p then t else u)) := by
  split
  · exact .none ht
  · exact .none hu

/-- Every instruction uses memory in one of these ways. -/
theorem exec_memoryUse (i : Instr) (s : State) : MemoryUse s (exec i s) := by
  cases i with
  | addc16 | subc16 | addu16 | addu16r3 | addi16 | addi16r3 | addi16rsp | addi16sp | subu16 | subu16r3 | subi16 | subi16r3 | subi16sp | mult16
  | and16 | andn16 | or16 | xor16 | nor16 | lsl16 | lsr16 | asr16 | rotl16 | lsli16 | lsri16 | asri16
  | zextb16 | zexth16 | sextb16 | sexth16 | mov16 | movi16 | mvcv16 | bclri16 | bseti16
  | cmpne16 | cmpnei16 | cmphs16 | cmphsi16 | cmplt16 | cmplti16 | tst16 | tstnbz16 | btsti16
  | br16 | br32 | bsr32 | jmp16 | jsr16 | sync32 => exact .none ⟨rfl, rfl⟩
  | bt16 | bf16 => exact ite_memoryUse ⟨rfl, rfl⟩ ⟨rfl, rfl⟩
  | lrw16 | lrw32 => exact .reads (dataRead_leaves _ _ _ _ _) fun _ _ => ⟨rfl, rfl⟩
  | ld16b | ld32b | ld16h | ld32h | ld16w | ld16wsp | ld32w => exact .reads (load_leaves _ _ _) fun _ _ => ⟨rfl, rfl⟩
  | st16b | st32b | st16h | st32h | st16w | st16wsp | st32w => exact .stores _ _ _ fun _ => ⟨rfl, rfl⟩
  | push16 => exact .pushes _ fun _ => ⟨rfl, rfl⟩
  | ipush16 => exact needsNestAccel_memoryUse (.pushes _ fun _ => ⟨rfl, rfl⟩)
  | nie16 => exact needsNestAccel_memoryUse (privileged_memoryUse fun _ => .pushes _ fun _ => ⟨rfl, rfl⟩)
  | pop16 => exact .pops _ fun vs t => popRegs_keepsMemory _ vs t
  | ipop16 => exact needsNestAccel_memoryUse (.pops _ fun vs t => popRegs_keepsMemory _ vs t)
  | nir16 => exact needsNestAccel_memoryUse (privileged_memoryUse fun _ => .pops 2 fun _ _ => ⟨rfl, rfl⟩)
  | mfcr32 | psrset32 | psrclr32 | rte32 | wait32 | doze32 | stop32 => exact privileged_memoryUse fun _ => .none ⟨rfl, rfl⟩
  | mtcr32 _ n sel => exact privileged_memoryUse fun hs => writeControl_memoryUse hs n sel _
  | trap32 => exact .enters _
  | bkpt16 => exact execBkpt16_memoryUse
  | idly32 imm5 => exact execIdly32_memoryUse imm5

end

end Sys2Proof.Machine

/-! Support. Every step leaves the configuration as it was. -/

namespace Sys2Proof.Machine

/-- The configuration is that of `s`. -/
def sameConfig (s t : State) : Prop := t.cfg = s.cfg

section
variable {s t : State}

theorem sameButReads.cfg (h : sameButReads s t) : sameConfig s t := by rw [h]; rfl

theorem sameButWrites.cfg (h : sameButWrites s t) : sameConfig s t := by rw [h]; rfl

theorem sameButLoads.cfg (h : sameButLoads s t) : sameConfig s t := by rw [h]; rfl

theorem sameButStores.cfg (h : sameButStores s t) : sameConfig s t := by rw [h]; rfl

theorem sameButEntry.cfg (h : sameButEntry s t) : sameConfig s t := by rw [h]; rfl

theorem takeException_config (vec : BitVec 8) (ret : Word) (h : sameConfig s t) : leadsTo (sameConfig s) (takeException vec ret t) :=
  leadsTo_of_forall fun _ hu => (takeException_frame hu).1.cfg.trans h

theorem complete_config {α : Type} {x : Access α} (hx : x.leaves (sameConfig s)) {ret : Word} {k : α → State → Result}
    (hk : ∀ v t, leadsTo (keepsMemory t) (k v t)) : leadsTo (sameConfig s) (complete ret x k) :=
  complete_leadsTo hx (fun _ _ ht => takeException_config _ _ ht) (fun _ ht => ht)
    fun v t ht => leadsTo_mono (hk v t) fun _ hu => hu.2.trans ht

theorem multiAccess_config {α : Type} {x : Access α} (hx : x.leaves (sameConfig s)) : (multiAccess s x).leaves (sameConfig s) := by
  unfold multiAccess
  split
  · exact rfl
  · exact hx

theorem popWords_config (n : Nat) (s : State) : (popWords n s).leaves (sameConfig s) :=
  multiAccess_config (leaves_mono (loadWords_leaves n _ s) fun _ ht => ht.cfg)

theorem pushWords_config (vs : List Word) (s : State) : (pushWords vs s).leaves (sameConfig s) :=
  multiAccess_config (leaves_bind (leaves_mono (storeWords_leaves vs _ s) fun _ ht => ht.cfg) fun _ _ ht => ht)

theorem readResetVector_config (s : State) : leadsTo (sameConfig s) (readResetVector s) := by
  have hr := leaves_mono (dataRead_leaves true true .word 0 s) fun _ h => h.cfg
  unfold readResetVector
  cases hv : dataRead true true .word 0 s with
  | ok w t => exact (leaves_ok hr hv :)
  | raise _ t =>
    have ht : sameConfig s t := leaves_raise hr hv
    exact leadsTo_of_forall fun _ hu => (enterUnrecoverable_frame hu).1.cfg.trans ht
  | hang t => exact (leaves_hang hr hv :)
  | refuse r => trivial

theorem MemoryUse.config {r : Result} (h : MemoryUse s r) : leadsTo (sameConfig s) r := by
  cases h with
  | none h => exact h.2
  | refuses r => trivial
  | enters vec => exact takeException_config vec _ rfl
  | reads hx hk => exact complete_config (leaves_mono hx fun _ ht => ht.cfg) hk
  | pops n hk => exact complete_config (popWords_config n s) hk
  | stores z a v hk => exact complete_config (leaves_mono (store_leaves z a v s) fun _ ht => ht.cfg) fun _ => hk
  | pushes vs hk => exact complete_config (pushWords_config vs s) fun _ => hk
  | resets _ => exact readResetVector_config (resetRegisters s)

theorem exec_config (i : Instr) (h : sameConfig s t) : leadsTo (sameConfig s) (exec i t) :=
  leadsTo_mono (exec_memoryUse i t).config fun _ hu => hu.trans h

theorem fetchHalf_config (a : Word) (h : sameConfig s t) : (fetchHalf a t).leaves (sameConfig s) := by
  unfold fetchHalf
  split
  · exact h
  · split
    · split
      · trivial
      · exact h
    · exact leaves_bind (leaves_mono (busRead_leaves _ _ _ _ t) fun _ hu => hu.cfg.trans h) fun _ _ hu => hu

theorem fetchInstr_config (h : sameConfig s t) : (fetchInstr t).leaves (sameConfig s) := by
  refine leaves_bind (fetchHalf_config _ h) fun h0 u hu => ?_
  split
  · exact leaves_bind (fetchHalf_config _ (t := interleave u) hu) fun _ _ hv => hv
  · exact hu

theorem takeInterrupt_config (vec : BitVec 8) (s : State) : leadsTo (sameConfig s) (takeInterrupt vec s) := by
  unfold takeInterrupt
  split
  · trivial
  · exact takeException_config _ _ rfl

theorem countIdly_config (before : Nat) (t : State) : sameConfig t (countIdly before t) := by
  unfold countIdly
  split <;> rfl

theorem retire_config {r : Result} (hr : leadsTo (sameConfig s) r) (before : Nat) : leadsTo (sameConfig s) (retire before r) := by
  cases r with
  | next t => exact (countIdly_config before t).trans hr
  | fault f => trivial
  | refused q => trivial

theorem runInstruction_config (s : State) : leadsTo (sameConfig s) (runInstruction s) := by
  have hf : (fetchInstr { s with nieShadow := false }).leaves (sameConfig s) := fetchInstr_config rfl
  unfold runInstruction
  simp only []
  cases hi : fetchInstr { s with nieShadow := false } with
  | ok x t =>
    have ht := leaves_ok hf hi
    cases x with
    | ok i => exact retire_config (exec_config (t := interleave t) i ht) _
    | error e => exact takeException_config _ _ ht
  | raise vec t => exact takeException_config _ _ (leaves_raise hf hi)
  | hang t => exact (leaves_hang hf hi :)
  | refuse r => trivial

theorem coreCycle_config (s : State) : leadsTo (sameConfig s) (coreCycle s) := by
  unfold coreCycle
  split
  · exact takeInterrupt_config _ s
  · exact runInstruction_config s

theorem debugCycle_config (i : Input) (s : State) : leadsTo (sameConfig s) (debugCycle i s) := by
  unfold debugCycle
  split
  · exact rfl
  · split
    · exact rfl
    · split
      · exact exec_config _ rfl
      · exact takeException_config _ _ rfl

theorem sleepCycle_config (s : State) : leadsTo (sameConfig s) (sleepCycle s) := by
  unfold sleepCycle
  split <;> exact rfl

/-- Each condition of the core leaves the configuration, in the order in which a step looks at them. -/
theorem cycleWith_config (i : Input) (s : State) : leadsTo (sameConfig s) (cycleWith i s) := by
  unfold cycleWith
  split
  · exact rfl
  split
  · exact readResetVector_config { s with inReset := false }
  split
  · exact rfl
  split
  · exact debugCycle_config i s
  split
  · exact rfl
  split
  · exact sleepCycle_config s
  · exact coreCycle_config s

end

/-- Settles O58: the input leaves the configuration, and so does whatever the core then does. -/
theorem configurationIsConstant : Obligations.ConfigurationIsConstant :=
  fun s _ ht => (leadsTo_next (cycleWith_config (currentInput s) (absorb s)) ht).trans (absorb_cfg s)

end Sys2Proof.Machine

/-! Support. The MPU's answer and the tightly coupled IP range as arithmetic on addresses (R112, R122 to R124), and what they say of the bytes of
one aligned datum. -/

namespace Sys2Proof.Machine

section
variable {s : State} {a x : Word}

/-! ### Regions (R122) -/

/-- Two words agree above the low `n` bits when they have the same multiple of `2 ^ n` below them. -/
theorem and_high_eq_iff (a b : Word) (n : Nat) :
    a &&& (BitVec.allOnes 32 <<< n) = b &&& (BitVec.allOnes 32 <<< n) ↔ a.toNat / 2 ^ n = b.toNat / 2 ^ n := by
  have high (w : Word) (i : Nat) : (w.toNat / 2 ^ n).testBit i = w.getLsbD (n + i) := by
    rw [Nat.testBit_div_two_pow, BitVec.testBit_toNat, Nat.add_comm]
  constructor
  · intro h
    refine Nat.eq_of_testBit_eq fun i => ?_
    rw [high, high]
    by_cases hi : n + i < 32
    · have hb := congrArg (fun w : Word => w.getLsbD (n + i)) h
      simpa only [BitVec.getLsbD_and, BitVec.getLsbD_shiftLeft, BitVec.getLsbD_allOnes, hi, Nat.not_lt.mpr (Nat.le_add_right n i),
        Nat.add_sub_cancel_left, Nat.lt_of_le_of_lt (Nat.le_add_left i n) hi, decide_true, decide_false, Bool.not_false, Bool.and_true] using hb
    · rw [BitVec.getLsbD_of_ge _ _ (by omega), BitVec.getLsbD_of_ge _ _ (by omega)]
  · intro h
    refine BitVec.eq_of_getLsbD_eq fun i hi => ?_
    by_cases hn : i < n
    · simp [hn]
    · have hb := congrArg (fun w : Nat => w.testBit (i - n)) h
      simp only [high, Nat.add_sub_cancel' (Nat.not_lt.mp hn)] at hb
      simp [hb]

/-- The address of a region's base: its field above seven bits that are 0 (R59). -/
theorem baseAddr_toNat (b : BitVec 25) : (b ++ 0#7).toNat = 128 * b.toNat := by
  rw [BitVec.toNat_append, Nat.shiftLeft_eq, Nat.mul_comm]
  exact Nat.or_zero _

/-- An enabled region of legal size holds an address when the two agree above the region's size (R122). -/
theorem regionMatches_iff (p : Pacr) (a : Word) : regionMatches p a = true ↔
    p.enable = true ∧ 6 ≤ p.size.toNat ∧ a.toNat / 2 ^ (p.size.toNat + 1) = 128 * p.base.toNat / 2 ^ (p.size.toNat + 1) := by
  rw [← baseAddr_toNat, ← and_high_eq_iff]
  simp only [regionMatches, regionMask, Bool.and_eq_true, decide_eq_true_eq, beq_iff_eq, and_assoc]

/-- The first hit in a falling list is the highest one. -/
theorem find?_falling {n : Nat} (p : Fin n → Bool) (l : List (Fin n)) (hl : l.Pairwise (· > ·)) (k : Fin n) :
    l.find? p = some k ↔ k ∈ l ∧ p k = true ∧ ∀ m ∈ l, k < m → p m = false := by
  induction l with
  | nil => simp
  | cons j l ih =>
    obtain ⟨hj, hl⟩ := List.pairwise_cons.mp hl
    rw [List.find?_cons]
    cases hp : p j with
    | true =>
      have high (m : Fin n) (hm : m ∈ l) : m < j := hj m hm
      grind
    | false =>
      rw [ih hl]
      grind

/-- The controlling region is the highest-numbered existing region that holds the address (R123). -/
theorem controllingRegion_iff (s : State) (a : Word) (n : Fin 8) : controllingRegion s a = some n ↔
    (n.val < s.cfg.mpuRegions.val ∧ regionMatches (s.pacr.get n) a = true) ∧
    ∀ m : Fin 8, n < m → ¬(m.val < s.cfg.mpuRegions.val ∧ regionMatches (s.pacr.get m) a = true) := by
  have every (m : Fin 8) : m ∈ regionOrder := by revert m; decide
  unfold controllingRegion
  rw [find?_falling _ _ (by decide)]
  simp only [every, true_and, forall_const, Bool.and_eq_true, decide_eq_true_eq, ← Bool.not_eq_true]

/-! ### The answer (R121, R124) -/

/-- What each value of an AP field allows (R124). -/
theorem apAllows_iff (ap : BitVec 2) (k : AccessKind) (sup : Bool) : apAllows ap k sup = true ↔
    (match ap.toNat with
      | 0 => False
      | 1 => sup = true
      | 2 => sup = true ∨ k ≠ .write
      | _ => True) := by
  have four (p : BitVec 2 → Prop) (h0 : p 0#2) (h1 : p 1#2) (h2 : p 2#2) (h3 : p 3#2) : p ap := by
    have : ap = 0#2 ∨ ap = 1#2 ∨ ap = 2#2 ∨ ap = 3#2 := by revert ap; decide
    rcases this with rfl | rfl | rfl | rfl <;> assumption
  apply four (fun ap => _ ↔ _) <;> cases k <;> simp [apAllows]

theorem mpuEnabled_eq_false_iff (s : State) : mpuEnabled s = false ↔ s.cfg.mpuRegions.val = 0 ∨ s.mpuOn = false := by
  rw [mpuEnabled, Bool.and_eq_false_iff, decide_eq_false_iff_not, Nat.not_lt, Nat.le_zero]

/-- The MPU lets an access through where it is off, or where the controlling region's fields do (R121, R123, R124). -/
theorem mpuAllows_iff (k : AccessKind) (sup : Bool) (a : Word) (s : State) : mpuAllows k sup a s = true ↔
    mpuEnabled s = false ∨ ∃ n, controllingRegion s a = some n ∧ apAllows (caprAp s.capr n.val) k sup = true ∧
      (k = .fetch → s.capr.getLsbD n.val = false) := by
  unfold mpuAllows
  cases mpuEnabled s
  · simp
  · cases controllingRegion s a with
    | none => simp
    | some n => cases k <;> simp [caprNx]

/-! ### The bytes of one aligned datum -/

/-- Addresses that agree above the smallest region are in the same regions. -/
theorem regionMatches_congr (p : Pacr) (h : x.toNat / 128 = a.toNat / 128) : regionMatches p x = regionMatches p a := by
  rw [Bool.eq_iff_iff, regionMatches_iff, regionMatches_iff]
  refine and_congr_right fun _ => and_congr_right fun hz => ?_
  have split (w : Word) : w.toNat / 2 ^ (p.size.toNat + 1) = w.toNat / 128 / 2 ^ (p.size.toNat - 6) := by
    rw [Nat.div_div_eq_div_mul, show 128 = 2 ^ 7 from rfl, ← Nat.pow_add]
    congr 2
    omega
  rw [split x, split a, h]

theorem mpuAllows_granule (k : AccessKind) (sup : Bool) (s : State) (h : x.toNat / 128 = a.toNat / 128) :
    mpuAllows k sup x s = mpuAllows k sup a s := by
  have hr : controllingRegion s x = controllingRegion s a := by
    simp only [controllingRegion, regionMatches_congr _ h]
  rw [mpuAllows, hr, mpuAllows]

theorem isTcipAddr_iff (a : Word) : isTcipAddr a = true ↔ a.toNat / 2 ^ 28 = 14 := by
  rw [isTcipAddr, beq_iff_eq, ← BitVec.toNat_inj, BitVec.extractLsb'_toNat, Nat.shiftRight_eq_div_pow]
  have := a.isLt
  simp
  omega

theorem inTcip_granule (s : State) (h : x.toNat / 128 = a.toNat / 128) : inTcip s x = inTcip s a := by
  have ht : isTcipAddr x = isTcipAddr a := by
    rw [Bool.eq_iff_iff, isTcipAddr_iff, isTcipAddr_iff]
    omega
  rw [inTcip, ht, inTcip]

/-- The bytes of an aligned datum are in one such granule. -/
theorem granule_of_covers {z : Size} (ha : misaligned z a = false) (hx : covers z a x) : x.toNat / 128 = a.toNat / 128 := by
  rw [← Bool.not_eq_true, misaligned_iff, not_not] at ha
  have hxl := x.isLt
  have hal := a.isLt
  rw [covers, BitVec.toNat_sub] at hx
  cases z <;> simp only [sizeBytes] at ha hx <;> omega

end

/-- Settles O19: `mpuAllows` through the controlling region, its AP field and NX. -/
theorem mpuDecision : Obligations.MpuDecision := by
  intro k sup a s holds
  have region (n : Fin 8) : controllingRegion s a = some n ↔ holds n ∧ ∀ m : Fin 8, n < m → ¬holds m := by
    simp only [controllingRegion_iff, regionMatches_iff, holds]
  have answer := mpuAllows_iff k sup a s
  simp only [mpuEnabled_eq_false_iff, region, apAllows_iff, or_assoc, and_assoc] at answer
  exact answer

end Sys2Proof.Machine

/-! Support. In user mode a byte that the MPU or the user-mode rule of the tightly coupled IP denies keeps its value through every access, exception
and instruction, where no other bus master writes it. -/

namespace Sys2Proof.Machine

/-- A byte at `x` that holds `b`, that no other bus master writes in the gaps that are left, and that a user may not write (R113, R124, R150). -/
structure Guarded (x : Word) (b : Byte) (s : State) : Prop where
  byte : byteAt s x = b
  gaps : ∀ ws ∈ s.between, ∀ p ∈ ws, p.1 ≠ x
  denied : mpuAllows .write false x s = false ∨ inTcip s x = true

/-- The same in user mode. -/
def UserGuarded (x : Word) (b : Byte) (s : State) : Prop := Guarded x b s ∧ s.psr.s = false

section
variable {x : Word} {b : Byte} {s t : State}

/-! ### Changes that do not reach the byte -/

/-- The guard depends on the byte, the gaps, the configuration and the MPU's registers only. -/
theorem Guarded.congr (h : Guarded x b s) (hm : byteAt t x = byteAt s x) (hb : t.between = s.between) (hc : t.cfg = s.cfg)
    (hon : t.mpuOn = s.mpuOn) (hcapr : t.capr = s.capr) (hpacr : t.pacr = s.pacr) : Guarded x b t where
  byte := hm.trans h.byte
  gaps := by rw [hb]; exact h.gaps
  denied := by
    rw [mpuAllows_congr .write false x hc hon hcapr hpacr, inTcip, hc]
    exact h.denied

theorem Guarded.reads (h : Guarded x b s) (ht : sameButReads s t) : Guarded x b t := by
  rw [ht]
  exact h.congr rfl rfl rfl rfl rfl rfl

theorem UserGuarded.reads (h : UserGuarded x b s) (ht : sameButReads s t) : UserGuarded x b t :=
  ⟨h.1.reads ht, by rw [ht]; exact h.2⟩

theorem Guarded.interleave (h : Guarded x b s) : Guarded x b (interleave s) where
  byte := by
    refine (writeBytes_read _ _ _ fun p hp => ?_).trans h.byte
    cases hb : s.between with
    | nil => rw [hb] at hp; cases hp
    | cons ws rest =>
      rw [hb] at hp
      exact h.gaps ws (by rw [hb]; exact List.mem_cons_self) p hp
  gaps ws hws := h.gaps ws (List.mem_of_mem_tail hws)
  denied := h.denied

theorem UserGuarded.wordGap (h : UserGuarded x b s) (more : Nat) : UserGuarded x b (wordGap more s) := by
  unfold Machine.wordGap
  split
  · exact h
  · exact ⟨h.1.interleave, h.2⟩

/-! ### Exceptions -/

theorem readVector_guarded (h : Guarded x b s) (vec : BitVec 8) : (readVector vec s).leaves (Guarded x b) :=
  leaves_mono (dataRead_leaves _ _ _ _ _) fun _ ht => h.interleave.reads ht

theorem Guarded.saveAndSwitch (h : Guarded x b s) (vec : BitVec 8) (ret : Word) : Guarded x b (saveAndSwitch vec ret s) :=
  h.congr rfl rfl rfl rfl rfl rfl

theorem Guarded.breakIdly (h : Guarded x b s) : Guarded x b (breakIdly s) := by
  rw [breakIdly_eq]
  exact h.congr rfl rfl rfl rfl rfl rfl

theorem enterUnrecoverable_guarded (h : Guarded x b s) : leadsTo (fun t => byteAt t x = b) (enterUnrecoverable s) := by
  have hr := readVector_guarded h vecUnrecoverable
  unfold enterUnrecoverable
  cases hv : readVector vecUnrecoverable s with
  | ok w t => exact (leaves_ok hr hv).byte
  | raise _ t => exact (leaves_raise hr hv).byte
  | hang t => exact (leaves_hang hr hv).byte
  | refuse r => trivial

theorem takeException_guarded (h : Guarded x b s) (vec : BitVec 8) (ret : Word) :
    leadsTo (fun t => byteAt t x = b) (takeException vec ret s) := by
  have hr := readVector_guarded (h.breakIdly.saveAndSwitch (effectiveVector vec s) ret) (effectiveVector vec s)
  rcases takeException_cases vec ret s with ⟨w, t, hv, e⟩ | ⟨_, t, hv, e⟩ | ⟨t, hv, e⟩ | ⟨r, e⟩ <;> rw [e]
  · exact (leaves_ok hr hv).byte
  · exact enterUnrecoverable_guarded ((leaves_raise hr hv).saveAndSwitch _ _)
  · exact (leaves_hang hr hv).byte
  · trivial

/-! ### Accesses in user mode -/

/-- An aligned datum that a user may write has no denied byte: the MPU's regions and the tightly coupled IP range do not divide it. -/
theorem not_covers_of_allowed (h : Guarded x b s) {z : Size} {a : Word} (ha : misaligned z a = false)
    (hm : mpuAllows .write false a s = true) (ht : inTcip s a = false) : ¬covers z a x := by
  intro hx
  have hg := granule_of_covers ha hx
  rcases h.denied with hd | hd
  · rw [mpuAllows_granule _ _ _ hg, hm] at hd
    cases hd
  · rw [inTcip_granule s hg, ht] at hd
    cases hd

/-- A write on the bus reaches no byte outside its datum. -/
theorem busWrite_guarded (h : UserGuarded x b s) {sup : Bool} {z : Size} {a v : Word} (hx : ¬covers z a x) :
    (busWrite sup z a v s).leaves (UserGuarded x b) := by
  have hfree : UserGuarded x b (nextFree s) := ⟨h.1.congr rfl rfl rfl rfl rfl rfl, h.2⟩
  unfold busWrite slaveWrite
  cases slaveAt s.cfg a with
  | memory => exact ⟨h.1.congr (memStore_outside _ z a v x s.mem (Nat.not_lt.mp hx)) rfl rfl rfl rfl rfl, h.2⟩
  | device => simp only []; split <;> exact hfree
  | busError => exact h
  | silent => exact h

theorem dataWrite_guarded (h : UserGuarded x b s) {z : Size} {a : Word} (ha : misaligned z a = false) (v : Word) :
    (dataWrite z a v s).leaves (UserGuarded x b) := by
  have user {p : Prop} (hs : s.psr.s = true) : p := by rw [h.2] at hs; cases hs
  rcases dataWrite_cases z a v s with ⟨_, e⟩ | ⟨_, _, _, e⟩ | ⟨_, _, hs, _⟩ | ⟨_, _, hs, _⟩ | ⟨_, _, _, e⟩ | ⟨hm, ht, _, e⟩
  · rw [e]; exact h
  · rw [e]; exact h
  · exact user hs
  · exact user hs
  · rw [e]; trivial
  · rw [h.2] at hm
    rw [e]
    exact busWrite_guarded h (not_covers_of_allowed h.1 ha hm ht)

theorem alignDown_aligned (z : Size) (a : Word) : misaligned z (alignDown z a) = false := by
  simp [misaligned, alignDown, BitVec.and_assoc]

/-- The address that an access goes to is aligned (R104). -/
theorem accessAddr_some_aligned {z : Size} {a a' : Word} (h : accessAddr z a s = some a') : misaligned z a' = false := by
  unfold accessAddr at h
  split at h
  · split at h <;> cases h
    exact alignDown_aligned z a
  · next hm => cases h; simpa using hm

theorem store_guarded (h : UserGuarded x b s) (z : Size) (a v : Word) : (store z a v s).leaves (UserGuarded x b) := by
  unfold store
  split
  · exact h
  · next ha => exact dataWrite_guarded h (accessAddr_some_aligned ha) v

theorem misaligned_word_add (a : Word) : misaligned .word (a + 4#32) = misaligned .word a := by
  rw [Bool.eq_iff_iff, misaligned_iff, misaligned_iff, BitVec.toNat_add]
  have := a.isLt
  simp only [sizeBytes, BitVec.toNat_ofNat]
  omega

theorem storeWords_guarded (h : UserGuarded x b s) (vs : List Word) {a : Word} (ha : misaligned .word a = false) :
    (storeWords vs a s).leaves (UserGuarded x b) := by
  induction vs generalizing a s with
  | nil => exact h
  | cons v vs ih =>
    exact leaves_bind (dataWrite_guarded h ha v) fun _ _ ht => ih (ht.wordGap _) ((misaligned_word_add a).trans ha)

theorem loadWords_guarded (h : UserGuarded x b s) (n : Nat) (a : Word) : (loadWords n a s).leaves (UserGuarded x b) := by
  induction n generalizing a s with
  | zero => exact h
  | succ n ih =>
    exact leaves_bind (leaves_mono (dataRead_leaves _ _ _ _ _) fun _ ht => h.reads ht) fun _ _ ht =>
      leaves_bind (ih (ht.wordGap n) _) fun _ _ hu => hu

/-- A push goes on only from an aligned stack pointer, below which its words are aligned (R358). -/
theorem pushWords_guarded (h : UserGuarded x b s) (vs : List Word) : (pushWords vs s).leaves (UserGuarded x b) := by
  unfold pushWords multiAccess
  simp only []
  split
  · exact h
  · next hm =>
    have ha : misaligned .word (readReg .r14 s - wordsBytes vs.length) = false := by
      rw [misaligned_iff, not_not] at hm
      rw [← Bool.not_eq_true, misaligned_iff, not_not, wordsBytes, BitVec.toNat_sub, BitVec.toNat_ofNat]
      simp only [sizeBytes] at hm ⊢
      omega
    exact leaves_bind (storeWords_guarded h vs ha) fun _ _ ht => ⟨ht.1.congr rfl rfl rfl rfl rfl rfl, ht.2⟩

theorem popWords_guarded (h : UserGuarded x b s) (n : Nat) : (popWords n s).leaves (UserGuarded x b) := by
  unfold popWords multiAccess
  split
  · exact h
  · exact loadWords_guarded h n _

/-! ### Instructions in user mode -/

theorem complete_guarded {α : Type} {y : Access α} (hy : y.leaves (UserGuarded x b)) {ret : Word} {k : α → State → Result}
    (hk : ∀ v t, leadsTo (keepsMemory t) (k v t)) : leadsTo (fun t => byteAt t x = b) (complete ret y k) :=
  complete_leadsTo hy (fun vec _ ht => takeException_guarded ht.1 vec ret) (fun _ ht => ht.1.byte)
    fun v t ht => leadsTo_mono (hk v t) fun u hu => by rw [byteAt, hu.1]; exact ht.1.byte

theorem MemoryUse.guarded {r : Result} (hr : MemoryUse s r) (h : UserGuarded x b s) : leadsTo (fun t => byteAt t x = b) r := by
  cases hr with
  | none ht => rw [leadsTo, byteAt, ht.1]; exact h.1.byte
  | refuses r => trivial
  | enters vec => exact takeException_guarded h.1 vec _
  | reads hx hk => exact complete_guarded (leaves_mono hx fun _ ht => h.reads ht) hk
  | pops n hk => exact complete_guarded (popWords_guarded h n) hk
  | stores z a v hk => exact complete_guarded (store_guarded h z a v) fun _ => hk
  | pushes vs hk => exact complete_guarded (pushWords_guarded h vs) fun _ => hk
  | resets hs => rw [h.2] at hs; cases hs

end

/-- Settles O60: a byte outside the three cases is guarded, and a guarded byte keeps its value through every way in which an instruction uses
memory in user mode. -/
theorem userWritesStayWithinMpu : Obligations.UserWritesStayWithinMpu := by
  intro i s t hu ht x hne
  by_contra hcon
  obtain ⟨hnot, hgap⟩ := not_or.mp hcon
  refine hne (leadsTo_next ((exec_memoryUse i s).guarded ⟨⟨rfl, fun ws hws p hp e => hgap ⟨ws, hws, p, hp, e⟩, ?_⟩, hu⟩) ht)
  rw [not_and_or, Bool.not_eq_true, Bool.not_eq_false] at hnot
  exact hnot

end Sys2Proof.Machine

/-! Support. The bytes of a datum in the configured byte order (R100, R101). -/

namespace Sys2Proof.Machine

/-- The bytes that a store puts down are its value's bytes in the configured order. -/
theorem dataBytes_getElem (be : Bool) (z : Size) (v : Word) (k : Nat) (hk : k < (dataBytes be z v).length) :
    (dataBytes be z v)[k] = orderedByte be z v k := by
  have hs : k < sizeBytes z := dataBytes_length be z v ▸ hk
  cases z <;> simp only [sizeBytes] at hs <;> interval_cases k <;> cases be <;> rfl

theorem lowByte_append {n : Nat} (hi : BitVec n) (lo : Byte) : (hi ++ lo).extractLsb' 0 8 = lo :=
  (BitVec.extractLsb'_append_eq_of_add_le (by decide)).trans BitVec.extractLsb'_eq_self

theorem highByte_append {n : Nat} (hi : BitVec n) (lo : Byte) (k : Nat) : (hi ++ lo).extractLsb' (8 * (k + 1)) 8 = hi.extractLsb' (8 * k) 8 :=
  BitVec.extractLsb'_append_eq_of_le (by omega)

/-- The bytes of a word put together from four. -/
theorem bytes_of_word (b0 b1 b2 b3 : Byte) (w : Word) (h : w = b3 ++ b2 ++ b1 ++ b0) :
    w.extractLsb' 0 8 = b0 ∧ w.extractLsb' 8 8 = b1 ∧ w.extractLsb' 16 8 = b2 ∧ w.extractLsb' 24 8 = b3 := by
  subst h
  have h1 := highByte_append (b3 ++ b2 ++ b1) b0
  have h2 := highByte_append (b3 ++ b2) b1
  have h3 := highByte_append b3 b2
  exact ⟨lowByte_append _ b0, (h1 0).trans (lowByte_append _ b1), (h1 1).trans ((h2 0).trans (lowByte_append _ b2)),
    (h1 2).trans ((h2 1).trans ((h3 0).trans BitVec.extractLsb'_eq_self))⟩

/-- The bytes of a half-word put together from two, and zero-extended. -/
theorem bytes_of_half (b0 b1 : Byte) (w : Word) (h : w = 0#16 ++ (b1 ++ b0)) : w.extractLsb' 0 8 = b0 ∧ w.extractLsb' 8 8 = b1 := by
  subst h
  have low (k : Nat) (hk : k + 8 ≤ 16) : (0#16 ++ (b1 ++ b0)).extractLsb' k 8 = (b1 ++ b0).extractLsb' k 8 :=
    BitVec.extractLsb'_append_eq_of_add_le hk
  exact ⟨(low 0 (by decide)).trans (lowByte_append b1 b0),
    (low 8 (by decide)).trans ((highByte_append b1 b0 0).trans BitVec.extractLsb'_eq_self)⟩

/-- The bytes of a datum that is read are memory's bytes in the configured order. -/
theorem orderedByte_memLoad (be : Bool) (z : Size) (a : Word) (m : Memory) (k : Nat) (hk : k < sizeBytes z) :
    orderedByte be z (memLoad be z a m) k = m.read (a + BitVec.ofNat 32 k).toNat := by
  have h0 : m.read a.toNat = m.read (a + 0#32).toNat := by rw [BitVec.add_zero]
  cases z with
  | byte =>
    obtain rfl : k = 0 := Nat.lt_one_iff.mp hk
    cases be <;> exact (lowByte_append 0#24 _).trans h0
  | half =>
    cases be with
    | false =>
      obtain ⟨e0, e1⟩ := bytes_of_half _ _ (memLoad false .half a m) rfl
      match k, hk with
      | 0, _ => exact e0.trans h0
      | 1, _ => exact e1
    | true =>
      obtain ⟨e1, e0⟩ := bytes_of_half _ _ (memLoad true .half a m) rfl
      match k, hk with
      | 0, _ => exact e0.trans h0
      | 1, _ => exact e1
  | word =>
    cases be with
    | false =>
      obtain ⟨e0, e1, e2, e3⟩ := bytes_of_word _ _ _ _ (memLoad false .word a m) rfl
      match k, hk with
      | 0, _ => exact e0.trans h0
      | 1, _ => exact e1
      | 2, _ => exact e2
      | 3, _ => exact e3
    | true =>
      obtain ⟨e3, e2, e1, e0⟩ := bytes_of_word _ _ _ _ (memLoad true .word a m) rfl
      match k, hk with
      | 0, _ => exact e0.trans h0
      | 1, _ => exact e1
      | 2, _ => exact e2
      | 3, _ => exact e3

/-- Above the datum the value that is read is 0. -/
theorem memLoad_high (be : Bool) (z : Size) (a : Word) (m : Memory) (j : Nat) (hj : 8 * sizeBytes z ≤ j) :
    (memLoad be z a m).getLsbD j = false := by
  cases z with
  | byte | half =>
    simp only [sizeBytes] at hj
    rw [memLoad, BitVec.getLsbD_append, if_neg (by omega), BitVec.getLsbD_zero]
  | word => exact BitVec.getLsbD_of_ge _ _ hj

/-- Settles O16: the bytes of a datum that is read, and memory after a datum is stored. -/
theorem byteOrderOfData : Obligations.ByteOrderOfData := by
  intro be z a v m
  refine ⟨orderedByte_memLoad be z a m, memLoad_high be z a m, fun k hk => ?_, fun x hx => ?_, memStore_wf be z a v⟩
  · have hl : k < (dataBytes be z v).length := by rwa [dataBytes_length]
    rw [memStore_inside be z a v m k hl, dataBytes_getElem]
  · exact memStore_outside be z a v x m (Nat.not_lt.mp hx)

end Sys2Proof.Machine

/-! Support. The single-register loads, stores and literal loads as accesses to an address (R290, R291, R320 to R341), and what each kind of
access answers (R104, R113, R124, R131, R132). -/

namespace Sys2Proof.Machine

/-! ### Addresses -/

/-- A scaled offset as a number (R155, R320). -/
theorem immS_eq {n : Nat} (k : Nat) (f : BitVec n) : immS k f = BitVec.ofNat 32 (2 ^ k * f.toNat) := by
  apply BitVec.eq_of_toNat_eq
  rw [immS, BitVec.toNat_shiftLeft, BitVec.toNat_setWidth, BitVec.toNat_ofNat, Nat.shiftLeft_eq, Nat.mod_mul_mod, Nat.mul_comm]

/-- An address with its low bits cleared is the multiple of the size below it (R104). -/
theorem alignDown_eq (z : Size) (a : Word) : alignDown z a = BitVec.ofNat 32 (a.toNat - a.toNat % sizeBytes z) := by
  have hlow : (a &&& sizeLowBits z).toNat = a.toNat % sizeBytes z := by
    rw [BitVec.toNat_and]
    cases z with
    | byte => exact Nat.and_two_pow_sub_one_eq_mod _ 0
    | half => exact Nat.and_two_pow_sub_one_eq_mod _ 1
    | word => exact Nat.and_two_pow_sub_one_eq_mod _ 2
  have hdisj : alignDown z a &&& (a &&& sizeLowBits z) = 0#32 := by
    ext i
    simp +contextual [alignDown]
  have hsum : alignDown z a + (a &&& sizeLowBits z) = a := by
    rw [BitVec.add_eq_or_of_and_eq_zero _ _ hdisj, alignDown, ← BitVec.and_or_distrib_left, BitVec.not_or_self, BitVec.and_allOnes]
  have hle := Nat.mod_le a.toNat (sizeBytes z)
  have ha := a.isLt
  apply BitVec.eq_of_toNat_eq
  rw [BitVec.eq_sub_iff_add_eq.mpr hsum, BitVec.toNat_sub, hlow, BitVec.toNat_ofNat]
  omega

/-- The address of a literal (R290, R291, R105). -/
theorem literalAddr_eq {n : Nat} (o : BitVec n) (s : State) :
    literalAddr o s = BitVec.ofNat 32 (4 * ((s.pc + BitVec.ofNat 32 (4 * o.toNat)).toNat / 4)) := by
  have h : literalAddr o s = alignDown .word (s.pc + BitVec.ofNat 32 (4 * o.toNat)) := by rw [literalAddr, immS_eq]; rfl
  rw [h, alignDown_eq]
  congr 1
  simp only [sizeBytes]
  omega

/-! ### A read or a write as an instruction -/

/-- The rest of a load of `len` bytes once its address is known. -/
def loadAt (len : Word) (z : Size) (rz : Reg) (a : Word) (s : State) : Result :=
  complete s.pc (dataRead false s.psr.s z a s) (fun v t => .next (advance len (writeReg rz v t)))

/-- The rest of a store of `len` bytes once its address is known. -/
def storeAt (len : Word) (z : Size) (rz : Reg) (a : Word) (s : State) : Result :=
  complete s.pc (dataWrite z a (readReg rz s) s) (fun _ t => .next (advance len t))

section
variable {len : Word} {z : Size} {rz : Reg} {a ea : Word} {s t : State}

theorem loadTo_none (h : accessAddr z ea s = none) : loadTo len z rz ea s = takeException 1#8 s.pc s := by
  rw [loadTo, load, h]; rfl

theorem storeFrom_none (h : accessAddr z ea s = none) : storeFrom len z rz ea s = takeException 1#8 s.pc s := by
  rw [storeFrom, store, h]; rfl

theorem loadTo_some (h : accessAddr z ea s = some a) : loadTo len z rz ea s = loadAt len z rz a s := by
  rw [loadTo, load, h]; rfl

theorem storeFrom_some (h : accessAddr z ea s = some a) : storeFrom len z rz ea s = storeAt len z rz a s := by
  rw [storeFrom, store, h]; rfl

/-! ### Memory -/

theorem loadAt_readable (h : readable s a) : loadAt len z rz a s = .next (advance len (writeReg rz (datum s z a) s)) := by
  rw [loadAt, dataRead_readable h]; rfl

theorem storeAt_writable (h : writable s z a) :
    storeAt len z rz a s = .next (advance len { s with mem := memStore s.cfg.bigEndian z a (readReg rz s) s.mem }) := by
  rw [storeAt, dataWrite_writable h]; rfl

/-! ### Denied accesses and silent slaves -/

theorem loadAt_fails (h : readFails s a) : loadAt len z rz a s = takeException 2#8 s.pc s := by
  rw [loadAt, dataRead_fails h]; rfl

theorem storeAt_fails (h : writeFails s z a) : storeAt len z rz a s = takeException 2#8 s.pc s := by
  rw [storeAt, dataWrite_fails h]; rfl

theorem loadAt_silent (hm : mpuAllows .read s.psr.s a s = true) (ht : inTcip s a = false) (hs : slaveAt s.cfg a = .silent) :
    loadAt len z rz a s = .next { s with hung := true } := by
  simp [loadAt, dataRead, hm, ht, busRead, slaveRead, hs, complete, hangs]

theorem storeAt_silent (hm : mpuAllows .write s.psr.s a s = true) (ht : inTcip s a = false) (hs : slaveAt s.cfg a = .silent)
    (hp : s.debugMode = true ∨ inPrefetchWindow s.pc a z = false) : storeAt len z rz a s = .next { s with hung := true } := by
  simp [storeAt, dataWrite, hm, ht, hitsPrefetch_false hp, busWrite, slaveWrite, hs, complete, hangs]

/-! ### Platform devices -/

theorem loadAt_device {i : Instr} (hi : exec i s = loadAt len z rz a s) (hm : mpuAllows .read s.psr.s a s = true) (hd : isDevice s a) :
    faultsOnError i (deviceReply s z a false 0#32) s := by
  rw [loadAt, dataRead_device hm hd] at hi
  unfold faultsOnError
  cases hr : deviceReply s z a false 0#32 with
  | some d => rw [hr] at hi; exact ⟨_, hi, rfl, rfl⟩
  | none => rw [hr] at hi; exact hi

theorem storeAt_device {i : Instr} (hi : exec i s = storeAt len z rz a s) (hm : mpuAllows .write s.psr.s a s = true) (hd : isDevice s a)
    (hp : s.debugMode = true ∨ inPrefetchWindow s.pc a z = false) :
    faultsOnError i (deviceReply s z a true (lowData z (readReg rz s))) s := by
  rw [storeAt, dataWrite_device hm hd hp] at hi
  unfold faultsOnError
  cases hr : deviceReply s z a true (lowData z (readReg rz s)) with
  | some d => rw [hr] at hi; exact ⟨_, hi, rfl, rfl⟩
  | none => rw [hr] at hi; exact hi

/-! ### The tightly coupled IP in supervisor mode -/

theorem loadAt_tcip (hs : s.psr.s = true) (hm : mpuAllows .read true a s = true) (ht : inTcip s a = true) {v : Word}
    (hv : tcipRead a s = .ok v t) : loadAt len .word rz a s = .next { writeReg rz v t with pc := pcAfter t len } := by
  simp only [loadAt, dataRead, hs, hm, ht, hv]
  rfl

theorem storeAt_tcip (hs : s.psr.s = true) (hm : mpuAllows .write true a s = true) (ht : inTcip s a = true)
    (hv : tcipWrite a (readReg rz s) s = .ok () t) : storeAt len .word rz a s = .next { t with pc := pcAfter t len } := by
  simp only [storeAt, dataWrite, hs, hm, ht, hv]
  rfl

theorem loadAt_subword (hz : z ≠ .word) (hs : s.psr.s = true) (hm : mpuAllows .read true a s = true) (ht : inTcip s a = true) :
    loadAt len z rz a s = .refused .tcipSubword := by
  simp [loadAt, dataRead, hs, hm, ht, hz, complete]

theorem storeAt_subword (hz : z ≠ .word) (hs : s.psr.s = true) (hm : mpuAllows .write true a s = true) (ht : inTcip s a = true) :
    storeAt len z rz a s = .refused .tcipSubword := by
  simp [storeAt, dataWrite, hs, hm, ht, hz, complete]

end

/-! ### The instructions -/

/-- A load and a store of `z` bytes at base plus displacement, each an instruction of `len` bytes. -/
structure LoadStore (ld st : Instr) (len : Word) (z : Size) (rz base : Reg) (disp : Nat) (s : State) : Prop where
  load : exec ld s = loadTo len z rz (readReg base s + BitVec.ofNat 32 disp) s
  store : exec st s = storeFrom len z rz (readReg base s + BitVec.ofNat 32 disp) s

section
variable (rz rx : Reg) (s : State)

theorem effAddr_byte {n : Nat} (o : BitVec n) : effAddr .byte rx o s = readReg rx s + BitVec.ofNat 32 o.toNat := by
  rw [effAddr, immS_eq, sizeShift, Nat.pow_zero, Nat.one_mul]

theorem effAddr_half {n : Nat} (o : BitVec n) : effAddr .half rx o s = readReg rx s + BitVec.ofNat 32 (2 * o.toNat) := by
  rw [effAddr, immS_eq, sizeShift, Nat.pow_one]

theorem effAddr_word {n : Nat} (o : BitVec n) : effAddr .word rx o s = readReg rx s + BitVec.ofNat 32 (4 * o.toNat) := by
  rw [effAddr, immS_eq]; rfl

theorem loadStore16b (o : BitVec 5) : LoadStore (.ld16b rz rx o) (.st16b rz rx o) 2#32 .byte rz rx o.toNat s := by
  constructor <;> rw [← effAddr_byte] <;> rfl

theorem loadStore32b (o : BitVec 12) : LoadStore (.ld32b rz rx o) (.st32b rz rx o) 4#32 .byte rz rx o.toNat s := by
  constructor <;> rw [← effAddr_byte] <;> rfl

theorem loadStore16h (o : BitVec 5) : LoadStore (.ld16h rz rx o) (.st16h rz rx o) 2#32 .half rz rx (2 * o.toNat) s := by
  constructor <;> rw [← effAddr_half] <;> rfl

theorem loadStore32h (o : BitVec 12) : LoadStore (.ld32h rz rx o) (.st32h rz rx o) 4#32 .half rz rx (2 * o.toNat) s := by
  constructor <;> rw [← effAddr_half] <;> rfl

theorem loadStore16w (o : BitVec 5) : LoadStore (.ld16w rz rx o) (.st16w rz rx o) 2#32 .word rz rx (4 * o.toNat) s := by
  constructor <;> rw [← effAddr_word] <;> rfl

theorem loadStore16wsp (o : BitVec 8) : LoadStore (.ld16wsp rz o) (.st16wsp rz o) 2#32 .word rz .r14 (4 * o.toNat) s := by
  constructor <;> rw [← effAddr_word] <;> rfl

theorem loadStore32w (o : BitVec 12) : LoadStore (.ld32w rz rx o) (.st32w rz rx o) 4#32 .word rz rx (4 * o.toNat) s := by
  constructor <;> rw [← effAddr_word] <;> rfl

theorem exec_lrw16 (o : BitVec 7) :
    exec (.lrw16 rz o) s = loadAt 2#32 .word rz (BitVec.ofNat 32 (4 * ((s.pc + BitVec.ofNat 32 (4 * o.toNat)).toNat / 4))) s := by
  rw [← literalAddr_eq]; rfl

theorem exec_lrw32 (o : BitVec 16) :
    exec (.lrw32 rz o) s = loadAt 4#32 .word rz (BitVec.ofNat 32 (4 * ((s.pc + BitVec.ofNat 32 (4 * o.toNat)).toNat / 4))) s := by
  rw [← literalAddr_eq]; rfl

end

namespace LoadStore

variable {ld st : Instr} {len : Word} {z : Size} {rz base : Reg} {disp : Nat} {s : State}

theorem misaligned (h : LoadStore ld st len z rz base disp s) (ha : accessAddr z (readReg base s + BitVec.ofNat 32 disp) s = none) :
    exec ld s = takeException 1#8 s.pc s ∧ exec st s = takeException 1#8 s.pc s :=
  ⟨h.load.trans (loadTo_none ha), h.store.trans (storeFrom_none ha)⟩

theorem loadsFrom (h : LoadStore ld st len z rz base disp s) : loadsFrom ld len z rz base disp s := fun _ ha hr =>
  ⟨_, h.load.trans ((loadTo_some ha).trans (loadAt_readable hr)), rfl, regWritten_congr (regWritten_writeReg rz _ s) rfl rfl, rfl, fun _ => rfl⟩

theorem storesTo (h : LoadStore ld st len z rz base disp s) : storesTo st len z rz base disp s := fun a ha hw =>
  ⟨_, h.store.trans ((storeFrom_some ha).trans (storeAt_writable hw)), rfl, rfl,
    fun x hx => memStore_outside _ z a _ x s.mem (Nat.not_lt.mp hx),
    fun k hk => (memStore_inside _ z a _ s.mem k (by rwa [dataBytes_length])).trans (dataBytes_getElem _ z _ k _)⟩

theorem deniedPair (h : LoadStore ld st len z rz base disp s) : deniedPair ld st z base disp s := fun _ ha =>
  ⟨fun hr => h.load.trans ((loadTo_some ha).trans (loadAt_fails hr)), fun hw => h.store.trans ((storeFrom_some ha).trans (storeAt_fails hw))⟩

theorem silentPair (h : LoadStore ld st len z rz base disp s) : silentPair ld st z base disp s := fun _ ha ht hs =>
  ⟨fun hm => h.load.trans ((loadTo_some ha).trans (loadAt_silent hm ht hs)),
    fun hm hp => h.store.trans ((storeFrom_some ha).trans (storeAt_silent hm ht hs hp))⟩

theorem devicePair (h : LoadStore ld st len z rz base disp s) : devicePair ld st z rz base disp s := fun _ ha hd =>
  ⟨fun hm => loadAt_device (h.load.trans (loadTo_some ha)) hm hd, fun hm hp => storeAt_device (h.store.trans (storeFrom_some ha)) hm hd hp⟩

theorem tcipPair (h : LoadStore ld st len .word rz base disp s) : tcipPair ld st len rz base disp s := fun _ ha hs ht =>
  ⟨fun _ _ hm hv => h.load.trans ((loadTo_some ha).trans (loadAt_tcip hs hm ht hv)),
    fun _ hm hv => h.store.trans ((storeFrom_some ha).trans (storeAt_tcip hs hm ht hv))⟩

theorem subwordPair (h : LoadStore ld st len z rz base disp s) (hz : z ≠ .word) : subwordPair ld st z base disp s := fun _ ha hs ht =>
  ⟨fun hm => h.load.trans ((loadTo_some ha).trans (loadAt_subword hz hs hm ht)),
    fun hm => h.store.trans ((storeFrom_some ha).trans (storeAt_subword hz hs hm ht))⟩

end LoadStore

/-! ### Multi-word instructions with a misaligned stack pointer (R358) -/

section
variable {s : State}

theorem complete_pushWords_misaligned (h : (readReg .r14 s).toNat % 4 ≠ 0) (vs : List Word) (k : Unit → State → Result) :
    complete s.pc (pushWords vs s) k = takeException 1#8 s.pc s := by
  rw [pushWords, multiAccess_misaligned _ h]; rfl

theorem complete_popWords_misaligned (h : (readReg .r14 s).toNat % 4 ≠ 0) (n : Nat) (k : List Word → State → Result) :
    complete s.pc (popWords n s) k = takeException 1#8 s.pc s := by
  rw [popWords, multiAccess_misaligned _ h]; rfl

theorem needsNestAccel_present (h : s.cfg.hasNestAccel = true) (r : Result) : needsNestAccel s r = r := if_pos h

end

/-! ### The statements -/

/-- Settles O17: the address of an access as arithmetic, then each load and store with and without an address, and the multi-word instructions. -/
theorem alignmentRule : Obligations.AlignmentRule := by
  refine ⟨fun z a s => ⟨fun h => ?_, fun h hm => ?_, fun h hm => ?_⟩, fun rz rx o5 o8 o12 s => ?_, fun r15 l s h => ?_⟩
  · exact accessAddr_aligned (by rw [← Bool.not_eq_true, misaligned_iff, not_not]; exact h)
  · exact accessAddr_misaligned ((misaligned_iff z a).mpr h) hm
  · rw [accessAddr_mm hm, alignDown_eq]
  · have h16 := loadStore16h rz rx s o5
    have h32 := loadStore32h rz rx s o12
    have w16 := loadStore16w rz rx s o5
    have wsp := loadStore16wsp rz s o8
    have w32 := loadStore32w rz rx s o12
    exact ⟨h16.misaligned, h32.misaligned, w16.misaligned, wsp.misaligned, w32.misaligned,
      h16.loadsFrom, h16.storesTo, h32.loadsFrom, h32.storesTo, w16.loadsFrom, w16.storesTo, wsp.loadsFrom, wsp.storesTo, w32.loadsFrom,
      w32.storesTo⟩
  · have push := complete_pushWords_misaligned h
    have pop := complete_popWords_misaligned h
    refine ⟨push _ _, pop _ _, fun hn => ⟨?_, ?_⟩, fun hn hs => ⟨?_, ?_⟩⟩
    · exact (needsNestAccel_present hn _).trans (push _ _)
    · exact (needsNestAccel_present hn _).trans (pop _ _)
    · exact (needsNestAccel_present hn _).trans ((privileged_supervisor hs _).trans (push _ _))
    · exact (needsNestAccel_present hn _).trans ((privileged_supervisor hs _).trans (pop _ _))

/-- Settles O18: each load, store and literal load to an address that is denied, silent, or a device's. -/
theorem deniedAccessesRaiseAccessError : Obligations.DeniedAccessesRaiseAccessError := by
  intro rz rx o5 o7 o8 o12 o16 s a7 a16 silent
  have b16 := loadStore16b rz rx s o5
  have b32 := loadStore32b rz rx s o12
  have h16 := loadStore16h rz rx s o5
  have h32 := loadStore32h rz rx s o12
  have w16 := loadStore16w rz rx s o5
  have wsp := loadStore16wsp rz s o8
  have w32 := loadStore32w rz rx s o12
  have l16 := exec_lrw16 rz s o7
  have l32 := exec_lrw32 rz s o16
  refine ⟨⟨b16.deniedPair, b32.deniedPair, h16.deniedPair, h32.deniedPair, w16.deniedPair, wsp.deniedPair, w32.deniedPair, ?_, ?_⟩,
    ⟨b16.silentPair, b32.silentPair, h16.silentPair, h32.silentPair, w16.silentPair, wsp.silentPair, w32.silentPair, ?_, ?_⟩,
    ⟨b16.devicePair, b32.devicePair, h16.devicePair, h32.devicePair, w16.devicePair, wsp.devicePair, w32.devicePair, ?_, ?_⟩⟩
  · exact fun hf => l16.trans (loadAt_fails hf)
  · exact fun hf => l32.trans (loadAt_fails hf)
  · exact fun ⟨hm, ht, hs⟩ => l16.trans (loadAt_silent hm ht hs)
  · exact fun ⟨hm, ht, hs⟩ => l32.trans (loadAt_silent hm ht hs)
  · exact loadAt_device l16
  · exact loadAt_device l32

/-- Settles O46: word accesses that reach a register, sub-word ones, and holes. -/
theorem tcipWordAccess : Obligations.TcipWordAccess := by
  refine ⟨fun rz rx o5 o7 o8 o12 o16 s => ?_, fun a v s h => ?_⟩
  · exact ⟨(loadStore16w rz rx s o5).tcipPair, (loadStore16wsp rz s o8).tcipPair, (loadStore32w rz rx s o12).tcipPair,
      fun _ _ hs ht hm hv => (exec_lrw16 rz s o7).trans (loadAt_tcip hs hm ht hv),
      fun _ _ hs ht hm hv => (exec_lrw32 rz s o16).trans (loadAt_tcip hs hm ht hv),
      (loadStore16b rz rx s o5).subwordPair (by decide), (loadStore32b rz rx s o12).subwordPair (by decide),
      (loadStore16h rz rx s o5).subwordPair (by decide), (loadStore32h rz rx s o12).subwordPair (by decide)⟩
  · constructor
    · rw [tcipRead, h]; rfl
    · rw [tcipWrite, h]

end Sys2Proof.Machine

/-! The decoder and the encoder (30_encoding.md R151 to R160): what each format of the rows reads, field by field, and from it that decoding and
encoding undo each other. -/

namespace Sys2Proof

/-! ### Words as their fields -/

/-- A word is its upper and its lower bits. -/
theorem exists_append {a b : Nat} (w : BitVec (a + b)) : ∃ (x : BitVec a) (y : BitVec b), w = x ++ y :=
  ⟨_, _, BitVec.extractLsb'_append_extractLsb'.symm⟩

/-- A word of two fields exists exactly when the two fields do. -/
theorem exists_bitVec_append {a b : Nat} {p : BitVec (a + b) → Prop} : (∃ w, p w) ↔ ∃ (x : BitVec a) (y : BitVec b), p (x ++ y) := by
  refine ⟨fun ⟨w, h⟩ => ?_, fun ⟨x, y, h⟩ => ⟨x ++ y, h⟩⟩
  obtain ⟨x, y, rfl⟩ := exists_append w
  exact ⟨x, y, h⟩

theorem exists_append3 {a b c : Nat} (w : BitVec (a + b + c)) : ∃ (x : BitVec a) (y : BitVec b) (z : BitVec c), w = x ++ y ++ z := by
  obtain ⟨w, z, rfl⟩ := exists_append w
  obtain ⟨x, y, rfl⟩ := exists_append w
  exact ⟨x, y, z, rfl⟩

theorem exists_append4 {a b c d : Nat} (w : BitVec (a + b + c + d)) :
    ∃ (x : BitVec a) (y : BitVec b) (z : BitVec c) (u : BitVec d), w = x ++ y ++ z ++ u := by
  obtain ⟨w, u, rfl⟩ := exists_append w
  obtain ⟨x, y, z, rfl⟩ := exists_append3 w
  exact ⟨x, y, z, u, rfl⟩

theorem exists_append5 {a b c d e : Nat} (w : BitVec (a + b + c + d + e)) :
    ∃ (x : BitVec a) (y : BitVec b) (z : BitVec c) (u : BitVec d) (v : BitVec e), w = x ++ y ++ z ++ u ++ v := by
  obtain ⟨w, v, rfl⟩ := exists_append w
  obtain ⟨x, y, z, u, rfl⟩ := exists_append4 w
  exact ⟨x, y, z, u, v, rfl⟩

theorem exists_append6 {a b c d e f : Nat} (w : BitVec (a + b + c + d + e + f)) :
    ∃ (x : BitVec a) (y : BitVec b) (z : BitVec c) (u : BitVec d) (v : BitVec e) (t : BitVec f), w = x ++ y ++ z ++ u ++ v ++ t := by
  obtain ⟨w, t, rfl⟩ := exists_append w
  obtain ⟨x, y, z, u, v, rfl⟩ := exists_append5 w
  exact ⟨x, y, z, u, v, t, rfl⟩

/-- A bit is a Boolean. -/
theorem exists_ofBool (x : BitVec 1) : ∃ b : Bool, x = BitVec.ofBool b := ⟨x.getLsbD 0, by revert x; decide⟩

theorem ofBool_inj {b c : Bool} : BitVec.ofBool b = BitVec.ofBool c ↔ b = c := by cases b <;> cases c <;> decide

theorem bitVec_append_inj {m n : Nat} {a c : BitVec m} {b d : BitVec n} : a ++ b = c ++ d ↔ a = c ∧ b = d := by
  refine ⟨fun h => ⟨?_, ?_⟩, fun ⟨h1, h2⟩ => h1 ▸ h2 ▸ rfl⟩
  · simpa only [BitVec.extractLsb'_append_eq_left] using congrArg (BitVec.extractLsb' n m) h
  · simpa only [BitVec.extractLsb'_append_eq_right] using congrArg (BitVec.extractLsb' 0 n) h

@[simp] theorem bitsAt_self {n : Nat} (w : BitVec n) : bitsAt 0 n w = w := BitVec.extractLsb'_eq_self

/-- A field inside the lower part of a word. -/
@[simp] theorem bitsAt_append_low {m n : Nat} (a : BitVec m) (b : BitVec n) {lo len : Nat} (h : lo + len ≤ n) :
    bitsAt lo len (a ++ b) = bitsAt lo len b := BitVec.extractLsb'_append_eq_of_add_le h

/-- A field inside the upper part of a word. -/
@[simp] theorem bitsAt_append_high {m n : Nat} (a : BitVec m) (b : BitVec n) {lo len : Nat} (h : n ≤ lo) :
    bitsAt lo len (a ++ b) = bitsAt (lo - n) len a := BitVec.extractLsb'_append_eq_of_le h

/-- A bit as a field of one bit. -/
theorem getLsbD_eq_msb {n : Nat} (w : BitVec n) (k : Nat) : w.getLsbD k = (bitsAt k 1 w).msb := by
  simp [bitsAt, BitVec.msb_eq_getLsbD_last]

/-- The mask of a field whose bits are fixed. -/
def fixedBits (n : Nat) : BitVec n := BitVec.allOnes n

/-- The mask of a field that holds an operand, and what stands for the field in the pattern. -/
def operandBits (n : Nat) : BitVec n := 0#n

@[simp] theorem and_fixedBits {n : Nat} (a p : BitVec n) : a &&& fixedBits n = p ↔ a = p := by simp [fixedBits]

@[simp] theorem and_operandBits {n : Nat} (a : BitVec n) : a &&& operandBits n = operandBits n := by simp [operandBits]

/-! ### Register fields -/

/-- The registers that a three-bit field can name. -/
abbrev LowReg := { r : Reg // r.isLow = true }

theorem exists_num (n : BitVec 4) : ∃ r : Reg, n = r.num := ⟨Reg.ofNum n, by revert n; decide⟩

theorem num_inj {q r : Reg} : q.num = r.num ↔ q = r :=
  ⟨fun h => by rw [← Reg.ofNum_num q, h, Reg.ofNum_num], fun h => h ▸ rfl⟩

theorem exists_num3 (n : BitVec 3) : ∃ r : LowReg, n = r.1.num3 :=
  ⟨⟨Reg.ofNum (0#1 ++ n), by revert n; decide⟩, by revert n; decide⟩

@[simp] theorem ofNum_lowReg (r : LowReg) : Reg.ofNum (0#1 ++ r.1.num3) = r.1 := Reg.ofNum_num3 r.1 r.2

theorem num3_inj {q r : LowReg} : q.1.num3 = r.1.num3 ↔ q = r :=
  ⟨fun h => Subtype.ext (by rw [← ofNum_lowReg q, h, ofNum_lowReg]), fun h => h ▸ rfl⟩

/-- A five-bit field names a register exactly when it holds that register's number (R154). -/
theorem ok_eq_wideRegAt {n : Nat} {lo : Nat} {w : BitVec n} {r : Reg} : wideRegAt lo w = .ok r ↔ bitsAt lo 5 w = r.num5 := by
  have hb : w.getLsbD (lo + 4) = (bitsAt lo 5 w).getLsbD 4 := by simp [bitsAt]
  have hr : regAt lo w = regAt 0 (bitsAt lo 5 w) := by
    simp only [regAt, bitsAt]
    congr 1
    ext i hi
    simp; omega
  rw [wideRegAt, hb, hr]
  generalize bitsAt lo 5 w = x
  revert x
  cases r <;> decide

theorem bind_eq_ok {ε α β : Type} {x : Except ε α} {f : α → Except ε β} {b : β} : x >>= f = .ok b ↔ ∃ a, x = .ok a ∧ f a = .ok b := by
  cases x <;> simp [bind, Except.bind]

/-! ### What each format reads

A word is typed by the widths of its fields, so the sums of these widths are kept as they are (`-Nat.reduceAdd`) and words are compared field by
field. -/

/-- The row reads the word as the instruction: the word matches the row's pattern, and its fields are the instruction's. -/
def Row.Reads {n : Nat} (r : Row n) (w : BitVec n) (i : Instr) : Prop := r.build w = .ok i ∧ w &&& r.mask = r.pat

/-- The same with the mask and the pattern written out field by field. -/
theorem Row.reads_iff {n : Nat} {r : Row n} {w mask pat : BitVec n} {i : Instr} (hm : r.mask = mask) (hp : r.pat = pat) :
    r.Reads w i ↔ r.build w = .ok i ∧ w &&& mask = pat := by
  rw [← hm, ← hp, Row.Reads]

section
variable {pat : Half} {i : Instr}

theorem rowR2_reads {f : Reg → Reg → Instr} {op : BitVec 6} {s : BitVec 2} (hp : pat = op ++ operandBits 4 ++ operandBits 4 ++ s)
    (w : BitVec (6 + 4 + 4 + 2)) : (rowR2 pat f).Reads w i ↔ ∃ z x, f z x = i ∧ w = op ++ z.num ++ x.num ++ s := by
  obtain ⟨_, z, x, _, rfl⟩ := exists_append4 w
  obtain ⟨⟨z, rfl⟩, ⟨x, rfl⟩⟩ := exists_num z, exists_num x
  rw [Row.reads_iff (mask := fixedBits 6 ++ operandBits 4 ++ operandBits 4 ++ fixedBits 2) rfl hp]
  simp [-Nat.reduceAdd, rowR2, regAt, bitVec_append_inj, num_inj]

theorem rowR3_reads {f : Reg → Reg → Reg → Instr} {op : BitVec 5} {s : BitVec 2}
    (hp : pat = op ++ operandBits 3 ++ operandBits 3 ++ operandBits 3 ++ s) (w : BitVec (5 + 3 + 3 + 3 + 2)) :
    (rowR3 pat f).Reads w i ↔ ∃ z x y : LowReg, f z x y = i ∧ w = op ++ x.1.num3 ++ z.1.num3 ++ y.1.num3 ++ s := by
  obtain ⟨_, x, z, y, _, rfl⟩ := exists_append5 w
  obtain ⟨⟨z, rfl⟩, ⟨x, rfl⟩, ⟨y, rfl⟩⟩ := exists_num3 z, exists_num3 x, exists_num3 y
  rw [Row.reads_iff (mask := fixedBits 5 ++ operandBits 3 ++ operandBits 3 ++ operandBits 3 ++ fixedBits 2) rfl hp]
  simp [-Nat.reduceAdd, -Subtype.exists, rowR3, lowRegAt, bitVec_append_inj, num3_inj]

theorem rowR3i_reads {f : Reg → Reg → BitVec 3 → Instr} {op : BitVec 5} {s : BitVec 2}
    (hp : pat = op ++ operandBits 3 ++ operandBits 3 ++ operandBits 3 ++ s) (w : BitVec (5 + 3 + 3 + 3 + 2)) :
    (rowR3i pat f).Reads w i ↔ ∃ (z x : LowReg) (imm : _), f z x imm = i ∧ w = op ++ x.1.num3 ++ z.1.num3 ++ imm ++ s := by
  obtain ⟨_, x, z, imm, _, rfl⟩ := exists_append5 w
  obtain ⟨⟨z, rfl⟩, ⟨x, rfl⟩⟩ := exists_num3 z, exists_num3 x
  rw [Row.reads_iff (mask := fixedBits 5 ++ operandBits 3 ++ operandBits 3 ++ operandBits 3 ++ fixedBits 2) rfl hp]
  simp [-Nat.reduceAdd, -Subtype.exists, rowR3i, lowRegAt, bitVec_append_inj, num3_inj]

theorem rowI8_reads {f : Reg → BitVec 8 → Instr} {op : BitVec 5} (hp : pat = op ++ operandBits 3 ++ operandBits 8)
    (w : BitVec (5 + 3 + 8)) : (rowI8 pat f).Reads w i ↔ ∃ (z : LowReg) (imm : _), f z imm = i ∧ w = op ++ z.1.num3 ++ imm := by
  obtain ⟨_, z, imm, rfl⟩ := exists_append3 w
  obtain ⟨z, rfl⟩ := exists_num3 z
  rw [Row.reads_iff (mask := fixedBits 5 ++ operandBits 3 ++ operandBits 8) rfl hp]
  simp [-Nat.reduceAdd, -Subtype.exists, rowI8, lowRegAt, bitVec_append_inj, num3_inj]

theorem rowSP7_reads {f : BitVec 7 → Instr} {op : BitVec 6} {sop : BitVec 3}
    (hp : pat = op ++ operandBits 2 ++ sop ++ operandBits 5) (w : BitVec (6 + 2 + 3 + 5)) :
    (rowSP7 pat f).Reads w i ↔ ∃ imm : BitVec (2 + 5), f imm = i ∧ w = op ++ bitsAt 5 2 imm ++ sop ++ bitsAt 0 5 imm := by
  obtain ⟨_, hi, _, lo, rfl⟩ := exists_append4 w
  rw [Row.reads_iff (mask := fixedBits 6 ++ operandBits 2 ++ fixedBits 3 ++ operandBits 5) rfl hp]
  simp [-Nat.reduceAdd, rowSP7, bitVec_append_inj, exists_bitVec_append]

theorem rowXI5_reads {f : Reg → BitVec 5 → Instr} {op : BitVec 5} {sop : BitVec 3}
    (hp : pat = op ++ operandBits 3 ++ sop ++ operandBits 5) (w : BitVec (5 + 3 + 3 + 5)) :
    (rowXI5 pat f).Reads w i ↔ ∃ (r : LowReg) (imm : _), f r imm = i ∧ w = op ++ r.1.num3 ++ sop ++ imm := by
  obtain ⟨_, r, _, imm, rfl⟩ := exists_append4 w
  obtain ⟨r, rfl⟩ := exists_num3 r
  rw [Row.reads_iff (mask := fixedBits 5 ++ operandBits 3 ++ fixedBits 3 ++ operandBits 5) rfl hp]
  simp [-Nat.reduceAdd, -Subtype.exists, rowXI5, lowRegAt, bitVec_append_inj, num3_inj]

theorem rowXZI5_reads {f : Reg → Reg → BitVec 5 → Instr} {op : BitVec 5}
    (hp : pat = op ++ operandBits 3 ++ operandBits 3 ++ operandBits 5) (w : BitVec (5 + 3 + 3 + 5)) :
    (rowXZI5 pat f).Reads w i ↔ ∃ (z x : LowReg) (imm : _), f z x imm = i ∧ w = op ++ x.1.num3 ++ z.1.num3 ++ imm := by
  obtain ⟨_, x, z, imm, rfl⟩ := exists_append4 w
  obtain ⟨⟨z, rfl⟩, ⟨x, rfl⟩⟩ := exists_num3 z, exists_num3 x
  rw [Row.reads_iff (mask := fixedBits 5 ++ operandBits 3 ++ operandBits 3 ++ operandBits 5) rfl hp]
  simp [-Nat.reduceAdd, -Subtype.exists, rowXZI5, lowRegAt, bitVec_append_inj, num3_inj]

theorem rowSPZI8_reads {f : Reg → BitVec 8 → Instr} {op : BitVec 5}
    (hp : pat = op ++ operandBits 3 ++ operandBits 3 ++ operandBits 5) (w : BitVec (5 + 3 + 3 + 5)) :
    (rowSPZI8 pat f).Reads w i ↔ ∃ (z : LowReg) (imm : BitVec (3 + 5)), f z imm = i ∧ w = op ++ bitsAt 5 3 imm ++ z.1.num3 ++ bitsAt 0 5 imm := by
  obtain ⟨_, hi, z, lo, rfl⟩ := exists_append4 w
  obtain ⟨z, rfl⟩ := exists_num3 z
  rw [Row.reads_iff (mask := fixedBits 5 ++ operandBits 3 ++ operandBits 3 ++ operandBits 5) rfl hp]
  simp [-Nat.reduceAdd, -Subtype.exists, rowSPZI8, lowRegAt, bitVec_append_inj, exists_bitVec_append, num3_inj]

theorem rowB10_reads {f : BitVec 10 → Instr} {op : BitVec 6} (hp : pat = op ++ operandBits 10) (w : BitVec (6 + 10)) :
    (rowB10 pat f).Reads w i ↔ ∃ o, f o = i ∧ w = op ++ o := by
  obtain ⟨_, o, rfl⟩ := exists_append w
  rw [Row.reads_iff (mask := fixedBits 6 ++ operandBits 10) rfl hp]
  simp [-Nat.reduceAdd, rowB10, bitVec_append_inj]

theorem rowList_reads {f : Bool → BitVec 4 → Instr} {op : BitVec 9} {p c : BitVec 1}
    (hp : pat = op ++ p ++ c ++ operandBits 1 ++ operandBits 4) (w : BitVec (9 + 1 + 1 + 1 + 4)) :
    (rowList pat f).Reads w i ↔ ∃ r15 l, l ≤ 8#4 ∧ f r15 l = i ∧ w = op ++ p ++ c ++ BitVec.ofBool r15 ++ l := by
  obtain ⟨_, _, _, r15, l, rfl⟩ := exists_append5 w
  obtain ⟨r15, rfl⟩ := exists_ofBool r15
  rw [Row.reads_iff (mask := fixedBits 9 ++ fixedBits 1 ++ fixedBits 1 ++ operandBits 1 ++ operandBits 4) rfl hp]
  simp only [rowList, getLsbD_eq_msb]
  by_cases hl : l ≤ 8#4 <;> simp [-Nat.reduceAdd, bitVec_append_inj, ofBool_inj, hl, BitVec.not_lt.mpr, BitVec.not_le.mp]

/-- Format R2 with `rz` fixed: TSTNBZ16, JMP16 and JSR16. -/
theorem rowRx_reads {f : Reg → Instr} {op : BitVec 6} {z : BitVec 4} {s : BitVec 2} (hp : pat = op ++ z ++ operandBits 4 ++ s)
    (w : BitVec (6 + 4 + 4 + 2)) :
    Row.Reads ⟨0xFFC3, pat, fun w => .ok (f (regAt 2 w))⟩ w i ↔ ∃ x, f x = i ∧ w = op ++ z ++ x.num ++ s := by
  obtain ⟨_, _, x, _, rfl⟩ := exists_append4 w
  obtain ⟨x, rfl⟩ := exists_num x
  rw [Row.reads_iff (mask := fixedBits 6 ++ fixedBits 4 ++ operandBits 4 ++ fixedBits 2) rfl hp]
  simp [-Nat.reduceAdd, regAt, bitVec_append_inj, num_inj]

/-- Format R2 with `rx` fixed: MVCV16. -/
theorem rowRz_reads {f : Reg → Instr} {op : BitVec 6} {x : BitVec 4} {s : BitVec 2} (hp : pat = op ++ operandBits 4 ++ x ++ s)
    (w : BitVec (6 + 4 + 4 + 2)) :
    Row.Reads ⟨0xFC3F, pat, fun w => .ok (f (regAt 6 w))⟩ w i ↔ ∃ z, f z = i ∧ w = op ++ z.num ++ x ++ s := by
  obtain ⟨_, z, _, _, rfl⟩ := exists_append4 w
  obtain ⟨z, rfl⟩ := exists_num z
  rw [Row.reads_iff (mask := fixedBits 6 ++ operandBits 4 ++ fixedBits 4 ++ fixedBits 2) rfl hp]
  simp [-Nat.reduceAdd, regAt, bitVec_append_inj, num_inj]

/-- The format of LRW16. -/
theorem rowLrw16_reads {f : Reg → BitVec 7 → Instr} {op : BitVec 6}
    (hp : pat = op ++ operandBits 2 ++ operandBits 3 ++ operandBits 5) (w : BitVec (6 + 2 + 3 + 5)) :
    Row.Reads ⟨0xFC00, pat, fun w => .ok (f (lowRegAt 5 w) (bitsAt 8 2 w ++ bitsAt 0 5 w))⟩ w i ↔
      ∃ (z : LowReg) (o : BitVec (2 + 5)), f z o = i ∧ w = op ++ bitsAt 5 2 o ++ z.1.num3 ++ bitsAt 0 5 o := by
  obtain ⟨_, hi, z, lo, rfl⟩ := exists_append4 w
  obtain ⟨z, rfl⟩ := exists_num3 z
  rw [Row.reads_iff (mask := fixedBits 6 ++ operandBits 2 ++ operandBits 3 ++ operandBits 5) rfl hp]
  simp [-Nat.reduceAdd, -Subtype.exists, lowRegAt, bitVec_append_inj, num3_inj, exists_bitVec_append]

theorem rowFixed_reads {n : Nat} {pat w : BitVec n} {j : Instr} : (rowFixed pat j).Reads w i ↔ j = i ∧ w = pat := by
  simp [Row.Reads, rowFixed]

end

section
variable {pat : Word} {i : Instr}

theorem rowLS12_reads {f : Reg → Reg → BitVec 12 → Instr} {op : BitVec 6} {sz : BitVec 4}
    (hp : pat = op ++ operandBits 5 ++ operandBits 5 ++ sz ++ operandBits 12) (w : BitVec (6 + 5 + 5 + 4 + 12)) :
    (rowLS12 pat f).Reads w i ↔ ∃ z x o, f z x o = i ∧ w = op ++ z.num5 ++ x.num5 ++ sz ++ o := by
  obtain ⟨_, z, x, _, o, rfl⟩ := exists_append5 w
  rw [Row.reads_iff (mask := fixedBits 6 ++ operandBits 5 ++ operandBits 5 ++ fixedBits 4 ++ operandBits 12) rfl hp]
  simp only [rowLS12, bitsAt_append_low, bitsAt_append_high, bitsAt_self, Nat.reduceSub, Nat.reduceLeDiff, Nat.sub_self, Nat.zero_add, Nat.le_refl,
    bind_eq_ok, ok_eq_wideRegAt, Except.ok.injEq, BitVec.and_append, and_operandBits, and_fixedBits, bitVec_append_inj, and_true]
  grind

theorem rowSys5_reads {f : BitVec 5 → Instr} {op : BitVec 6} {a c d : BitVec 5} {b : BitVec 6}
    (hp : pat = op ++ operandBits 5 ++ a ++ b ++ c ++ d) (w : BitVec (6 + 5 + 5 + 6 + 5 + 5)) :
    (rowSys5 pat f).Reads w i ↔ ∃ imm, f imm = i ∧ w = op ++ imm ++ a ++ b ++ c ++ d := by
  obtain ⟨_, imm, _, _, _, _, rfl⟩ := exists_append6 w
  rw [Row.reads_iff (mask := fixedBits 6 ++ operandBits 5 ++ fixedBits 5 ++ fixedBits 6 ++ fixedBits 5 ++ fixedBits 5) rfl hp]
  simp [-Nat.reduceAdd, rowSys5, bitVec_append_inj]

/-- The format of LRW32. -/
theorem rowLrw32_reads {f : Reg → BitVec 16 → Instr} {op : BitVec 11} (hp : pat = op ++ operandBits 5 ++ operandBits 16)
    (w : BitVec (11 + 5 + 16)) : Row.Reads ⟨0xFFE00000, pat, fun w => do .ok (f (← wideRegAt 16 w) (bitsAt 0 16 w))⟩ w i ↔
      ∃ z o, f z o = i ∧ w = op ++ z.num5 ++ o := by
  obtain ⟨_, z, o, rfl⟩ := exists_append3 w
  rw [Row.reads_iff (mask := fixedBits 11 ++ operandBits 5 ++ operandBits 16) rfl hp]
  simp only [bitsAt_append_low, bitsAt_append_high, bitsAt_self, Nat.sub_self, Nat.zero_add, Nat.le_refl,
    bind_eq_ok, ok_eq_wideRegAt, Except.ok.injEq, BitVec.and_append, and_operandBits, and_fixedBits, bitVec_append_inj, and_true]
  grind

/-- The format of BR32. -/
theorem rowBr32_reads {f : BitVec 16 → Instr} {op : BitVec 16} (hp : pat = op ++ operandBits 16) (w : BitVec (16 + 16)) :
    Row.Reads ⟨0xFFFF0000, pat, fun w => .ok (f (bitsAt 0 16 w))⟩ w i ↔ ∃ o, f o = i ∧ w = op ++ o := by
  obtain ⟨_, o, rfl⟩ := exists_append w
  rw [Row.reads_iff (mask := fixedBits 16 ++ operandBits 16) rfl hp]
  simp [-Nat.reduceAdd, bitVec_append_inj]

/-- The format of BSR32. -/
theorem rowBsr32_reads {f : BitVec 26 → Instr} {op : BitVec 6} (hp : pat = op ++ operandBits 26) (w : BitVec (6 + 26)) :
    Row.Reads ⟨0xFC000000, pat, fun w => .ok (f (bitsAt 0 26 w))⟩ w i ↔ ∃ o, f o = i ∧ w = op ++ o := by
  obtain ⟨_, o, rfl⟩ := exists_append w
  rw [Row.reads_iff (mask := fixedBits 6 ++ operandBits 26) rfl hp]
  simp [-Nat.reduceAdd, bitVec_append_inj]

/-- Format CR with the register in bits 4:0: MFCR32. -/
theorem rowMfcr_reads {f : Reg → BitVec 5 → BitVec 5 → Instr} {op b : BitVec 6} {c : BitVec 5}
    (hp : pat = op ++ operandBits 5 ++ operandBits 5 ++ b ++ c ++ operandBits 5) (w : BitVec (6 + 5 + 5 + 6 + 5 + 5)) :
    Row.Reads ⟨0xFC00FFE0, pat, fun w => do .ok (f (← wideRegAt 0 w) (bitsAt 16 5 w) (bitsAt 21 5 w))⟩ w i ↔
      ∃ z crx sel, f z crx sel = i ∧ w = op ++ sel ++ crx ++ b ++ c ++ z.num5 := by
  obtain ⟨_, sel, crx, _, _, z, rfl⟩ := exists_append6 w
  rw [Row.reads_iff (mask := fixedBits 6 ++ operandBits 5 ++ operandBits 5 ++ fixedBits 6 ++ fixedBits 5 ++ operandBits 5) rfl hp]
  simp only [bitsAt_append_low, bitsAt_append_high, bitsAt_self, Nat.reduceSub, Nat.reduceLeDiff, Nat.sub_self, Nat.zero_add, Nat.le_refl,
    bind_eq_ok, ok_eq_wideRegAt, Except.ok.injEq, BitVec.and_append, and_operandBits, and_fixedBits, bitVec_append_inj, and_true]
  grind

/-- Format CR with the register in bits 20:16: MTCR32. -/
theorem rowMtcr_reads {f : Reg → BitVec 5 → BitVec 5 → Instr} {op b : BitVec 6} {c : BitVec 5}
    (hp : pat = op ++ operandBits 5 ++ operandBits 5 ++ b ++ c ++ operandBits 5) (w : BitVec (6 + 5 + 5 + 6 + 5 + 5)) :
    Row.Reads ⟨0xFC00FFE0, pat, fun w => do .ok (f (← wideRegAt 16 w) (bitsAt 0 5 w) (bitsAt 21 5 w))⟩ w i ↔
      ∃ x crz sel, f x crz sel = i ∧ w = op ++ sel ++ x.num5 ++ b ++ c ++ crz := by
  obtain ⟨_, sel, x, _, _, crz, rfl⟩ := exists_append6 w
  rw [Row.reads_iff (mask := fixedBits 6 ++ operandBits 5 ++ operandBits 5 ++ fixedBits 6 ++ fixedBits 5 ++ operandBits 5) rfl hp]
  simp only [bitsAt_append_low, bitsAt_append_high, bitsAt_self, Nat.reduceSub, Nat.reduceLeDiff, Nat.sub_self, Nat.zero_add, Nat.le_refl,
    bind_eq_ok, ok_eq_wideRegAt, Except.ok.injEq, BitVec.and_append, and_operandBits, and_fixedBits, bitVec_append_inj, and_true]
  grind

/-- Format SYS with a two-bit number in bits 11:10: TRAP32. -/
theorem rowTrap_reads {f : BitVec 2 → Instr} {op : BitVec 6} {a₁ a₂ c d : BitVec 5} {b : BitVec 4}
    (hp : pat = op ++ a₁ ++ a₂ ++ (b ++ operandBits 2) ++ c ++ d) (w : BitVec (6 + 5 + 5 + (4 + 2) + 5 + 5)) :
    Row.Reads ⟨0xFFFFF3FF, pat, fun w => .ok (f (bitsAt 10 2 w))⟩ w i ↔
      ∃ n, f n = i ∧ w = op ++ a₁ ++ a₂ ++ (b ++ n) ++ c ++ d := by
  obtain ⟨_, _, _, sop, _, _, rfl⟩ := exists_append6 w
  obtain ⟨_, n, rfl⟩ := exists_append sop
  rw [Row.reads_iff (mask := fixedBits 6 ++ fixedBits 5 ++ fixedBits 5 ++ (fixedBits 4 ++ operandBits 2) ++ fixedBits 5 ++ fixedBits 5) rfl hp]
  simp [-Nat.reduceAdd, bitVec_append_inj]

/-- Format SYS with single bits in bits 25 and 21: SYNC32. -/
theorem rowSync_reads {f : Bool → Bool → Instr} {op b : BitVec 6} {m : BitVec 3} {a c d : BitVec 5}
    (hp : pat = op ++ (operandBits 1 ++ m ++ operandBits 1) ++ a ++ b ++ c ++ d) (w : BitVec (6 + (1 + 3 + 1) + 5 + 6 + 5 + 5)) :
    Row.Reads ⟨0xFDDFFFFF, pat, fun w => .ok (f (w.getLsbD 25) (w.getLsbD 21))⟩ w i ↔
      ∃ s t, f s t = i ∧ w = op ++ (BitVec.ofBool s ++ m ++ BitVec.ofBool t) ++ a ++ b ++ c ++ d := by
  obtain ⟨_, imm, _, _, _, _, rfl⟩ := exists_append6 w
  obtain ⟨s, _, t, rfl⟩ := exists_append3 imm
  obtain ⟨⟨s, rfl⟩, ⟨t, rfl⟩⟩ := exists_ofBool s, exists_ofBool t
  rw [Row.reads_iff (mask := fixedBits 6 ++ (operandBits 1 ++ fixedBits 3 ++ operandBits 1) ++ fixedBits 5 ++ fixedBits 6 ++ fixedBits 5 ++
    fixedBits 5) rfl hp]
  simp only [getLsbD_eq_msb]
  simp [-Nat.reduceAdd, -Bool.exists_bool, bitVec_append_inj, ofBool_inj]

end

/-! ### What a row reads is well-formed and encodes to the word -/

/-- The half-words of a 16-bit instruction. -/
def halfWord (w : Half) : List Half := [w]

/-- Whatever the row reads is well-formed, and its encoding is the word. -/
def Row.Encodes {n : Nat} (halves : BitVec n → List Half) (r : Row n) : Prop :=
  ∀ w i, r.Reads w i → i.wellFormed = true ∧ encode i = halves w

section
variable {pat : Half}

theorem rowR2_encodes {f : Reg → Reg → Instr} {op : BitVec 6} {s : BitVec 2}
    (hf : ∀ z x, (f z x).wellFormed = true ∧ encode (f z x) = encR2 op z x s)
    (hp : pat = op ++ operandBits 4 ++ operandBits 4 ++ s) : (rowR2 pat f).Encodes halfWord := by
  intro w i h
  obtain ⟨z, x, rfl, rfl⟩ := (rowR2_reads hp w).mp h
  exact hf z x

theorem rowRx_encodes {f : Reg → Instr} {op : BitVec 6} {z : Reg} {s : BitVec 2}
    (hf : ∀ x, (f x).wellFormed = true ∧ encode (f x) = encR2 op z x s)
    (hp : pat = op ++ z.num ++ operandBits 4 ++ s) : Row.Encodes halfWord ⟨0xFFC3, pat, fun w => .ok (f (regAt 2 w))⟩ := by
  intro w i h
  obtain ⟨x, rfl, rfl⟩ := (rowRx_reads hp w).mp h
  exact hf x

theorem rowRz_encodes {f : Reg → Instr} {op : BitVec 6} {x : Reg} {s : BitVec 2}
    (hf : ∀ z, (f z).wellFormed = true ∧ encode (f z) = encR2 op z x s)
    (hp : pat = op ++ operandBits 4 ++ x.num ++ s) : Row.Encodes halfWord ⟨0xFC3F, pat, fun w => .ok (f (regAt 6 w))⟩ := by
  intro w i h
  obtain ⟨z, rfl, rfl⟩ := (rowRz_reads hp w).mp h
  exact hf z

theorem rowR3_encodes {f : Reg → Reg → Reg → Instr} {s : BitVec 2}
    (hf : ∀ z x y, (f z x y).wellFormed = (z.isLow && x.isLow && y.isLow) ∧ encode (f z x y) = encR3 z x y s)
    (hp : pat = 0b01011#5 ++ operandBits 3 ++ operandBits 3 ++ operandBits 3 ++ s) : (rowR3 pat f).Encodes halfWord := by
  intro w i h
  obtain ⟨z, x, y, rfl, rfl⟩ := (rowR3_reads hp w).mp h
  exact ⟨by rw [(hf ..).1, z.2, x.2, y.2]; rfl, (hf ..).2⟩

theorem rowR3i_encodes {f : Reg → Reg → BitVec 3 → Instr} {s : BitVec 2}
    (hf : ∀ z x imm, (f z x imm).wellFormed = (z.isLow && x.isLow) ∧ encode (f z x imm) = encR3i z x imm s)
    (hp : pat = 0b01011#5 ++ operandBits 3 ++ operandBits 3 ++ operandBits 3 ++ s) : (rowR3i pat f).Encodes halfWord := by
  intro w i h
  obtain ⟨z, x, imm, rfl, rfl⟩ := (rowR3i_reads hp w).mp h
  exact ⟨by rw [(hf ..).1, z.2, x.2]; rfl, (hf ..).2⟩

theorem rowI8_encodes {f : Reg → BitVec 8 → Instr} {op : BitVec 5}
    (hf : ∀ z imm, (f z imm).wellFormed = z.isLow ∧ encode (f z imm) = encI8 op z imm)
    (hp : pat = op ++ operandBits 3 ++ operandBits 8) : (rowI8 pat f).Encodes halfWord := by
  intro w i h
  obtain ⟨z, imm, rfl, rfl⟩ := (rowI8_reads hp w).mp h
  exact ⟨by rw [(hf ..).1, z.2], (hf ..).2⟩

theorem rowSP7_encodes {f : BitVec 7 → Instr} {sop : BitVec 3}
    (hf : ∀ imm, (f imm).wellFormed = true ∧ encode (f imm) = encSP7 sop imm)
    (hp : pat = 0b000101#6 ++ operandBits 2 ++ sop ++ operandBits 5) : (rowSP7 pat f).Encodes halfWord := by
  intro w i h
  obtain ⟨imm, rfl, rfl⟩ := (rowSP7_reads hp w).mp h
  exact hf imm

theorem rowXI5_encodes {f : Reg → BitVec 5 → Instr} {sop : BitVec 3}
    (hf : ∀ r imm, (f r imm).wellFormed = r.isLow ∧ encode (f r imm) = encXI5 r sop imm)
    (hp : pat = 0b00111#5 ++ operandBits 3 ++ sop ++ operandBits 5) : (rowXI5 pat f).Encodes halfWord := by
  intro w i h
  obtain ⟨r, imm, rfl, rfl⟩ := (rowXI5_reads hp w).mp h
  exact ⟨by rw [(hf ..).1, r.2], (hf ..).2⟩

theorem rowXZI5_encodes {f : Reg → Reg → BitVec 5 → Instr} {op : BitVec 5}
    (hf : ∀ z x imm, (f z x imm).wellFormed = (z.isLow && x.isLow) ∧ encode (f z x imm) = encXZI5 op z x imm)
    (hp : pat = op ++ operandBits 3 ++ operandBits 3 ++ operandBits 5) : (rowXZI5 pat f).Encodes halfWord := by
  intro w i h
  obtain ⟨z, x, imm, rfl, rfl⟩ := (rowXZI5_reads hp w).mp h
  exact ⟨by rw [(hf ..).1, z.2, x.2]; rfl, (hf ..).2⟩

theorem rowSPZI8_encodes {f : Reg → BitVec 8 → Instr} {op : BitVec 5}
    (hf : ∀ z imm, (f z imm).wellFormed = z.isLow ∧ encode (f z imm) = encSPZI8 op z imm)
    (hp : pat = op ++ operandBits 3 ++ operandBits 3 ++ operandBits 5) : (rowSPZI8 pat f).Encodes halfWord := by
  intro w i h
  obtain ⟨z, imm, rfl, rfl⟩ := (rowSPZI8_reads hp w).mp h
  exact ⟨by rw [(hf ..).1, z.2], (hf ..).2⟩

theorem rowB10_encodes {f : BitVec 10 → Instr} {op : BitVec 6} (hf : ∀ o, (f o).wellFormed = true ∧ encode (f o) = encB10 op o)
    (hp : pat = op ++ operandBits 10) : (rowB10 pat f).Encodes halfWord := by
  intro w i h
  obtain ⟨o, rfl, rfl⟩ := (rowB10_reads hp w).mp h
  exact hf o

theorem rowList_encodes {f : Bool → BitVec 4 → Instr} {push : Bool}
    (hf : ∀ r15 l, (f r15 l).wellFormed = decide (l ≤ 8#4) ∧ encode (f r15 l) = encList push r15 l)
    (hp : pat = 0b000101001#9 ++ BitVec.ofBool push ++ 0#1 ++ operandBits 1 ++ operandBits 4) : (rowList pat f).Encodes halfWord := by
  intro w i h
  obtain ⟨r15, l, hl, rfl, rfl⟩ := (rowList_reads hp w).mp h
  exact ⟨by rw [(hf ..).1]; exact decide_eq_true hl, (hf ..).2⟩

theorem rowLrw16_encodes {f : Reg → BitVec 7 → Instr} {op : BitVec 6}
    (hf : ∀ z o, (f z o).wellFormed = z.isLow ∧ encode (f z o) = [op ++ o.extractLsb' 5 2 ++ z.num3 ++ o.extractLsb' 0 5])
    (hp : pat = op ++ operandBits 2 ++ operandBits 3 ++ operandBits 5) :
    Row.Encodes halfWord ⟨0xFC00, pat, fun w => .ok (f (lowRegAt 5 w) (bitsAt 8 2 w ++ bitsAt 0 5 w))⟩ := by
  intro w i h
  obtain ⟨z, o, rfl, rfl⟩ := (rowLrw16_reads hp w).mp h
  exact ⟨by rw [(hf ..).1, z.2], (hf ..).2⟩

theorem rowFixed_encodes {n : Nat} {halves : BitVec n → List Half} {w : BitVec n} {j : Instr}
    (hj : j.wellFormed = true ∧ encode j = halves w) : (rowFixed w j).Encodes halves := by
  intro w i h
  obtain ⟨rfl, rfl⟩ := rowFixed_reads.mp h
  exact hj

end

section
variable {pat : Word}

theorem rowLrw32_encodes {f : Reg → BitVec 16 → Instr} {op : BitVec 11}
    (hf : ∀ z o, (f z o).wellFormed = true ∧ encode (f z o) = encWord (op ++ z.num5 ++ o))
    (hp : pat = op ++ operandBits 5 ++ operandBits 16) :
    Row.Encodes encWord ⟨0xFFE00000, pat, fun w => do .ok (f (← wideRegAt 16 w) (bitsAt 0 16 w))⟩ := by
  intro w i h
  obtain ⟨z, o, rfl, rfl⟩ := (rowLrw32_reads hp w).mp h
  exact hf z o

theorem rowBr32_encodes {f : BitVec 16 → Instr} {op : BitVec 16}
    (hf : ∀ o, (f o).wellFormed = true ∧ encode (f o) = encWord (op ++ o)) (hp : pat = op ++ operandBits 16) :
    Row.Encodes encWord ⟨0xFFFF0000, pat, fun w => .ok (f (bitsAt 0 16 w))⟩ := by
  intro w i h
  obtain ⟨o, rfl, rfl⟩ := (rowBr32_reads hp w).mp h
  exact hf o

theorem rowBsr32_encodes {f : BitVec 26 → Instr} {op : BitVec 6}
    (hf : ∀ o, (f o).wellFormed = true ∧ encode (f o) = encWord (op ++ o)) (hp : pat = op ++ operandBits 26) :
    Row.Encodes encWord ⟨0xFC000000, pat, fun w => .ok (f (bitsAt 0 26 w))⟩ := by
  intro w i h
  obtain ⟨o, rfl, rfl⟩ := (rowBsr32_reads hp w).mp h
  exact hf o

theorem rowLS12_encodes {f : Reg → Reg → BitVec 12 → Instr} {store : Bool} {sz : BitVec 4}
    (hf : ∀ z x o, (f z x o).wellFormed = true ∧ encode (f z x o) = encLS12 store sz z x o)
    (hp : pat = (0b11011#5 ++ BitVec.ofBool store) ++ operandBits 5 ++ operandBits 5 ++ sz ++ operandBits 12) :
    (rowLS12 pat f).Encodes encWord := by
  intro w i h
  obtain ⟨z, x, o, rfl, rfl⟩ := (rowLS12_reads hp w).mp h
  exact hf z x o

theorem rowMfcr_encodes {f : Reg → BitVec 5 → BitVec 5 → Instr} {sop : BitVec 6}
    (hf : ∀ z crx sel, (f z crx sel).wellFormed = true ∧ encode (f z crx sel) = encCR sel crx sop z.num5)
    (hp : pat = 0b110000#6 ++ operandBits 5 ++ operandBits 5 ++ sop ++ 0b00001#5 ++ operandBits 5) :
    Row.Encodes encWord ⟨0xFC00FFE0, pat, fun w => do .ok (f (← wideRegAt 0 w) (bitsAt 16 5 w) (bitsAt 21 5 w))⟩ := by
  intro w i h
  obtain ⟨z, crx, sel, rfl, rfl⟩ := (rowMfcr_reads hp w).mp h
  exact hf z crx sel

theorem rowMtcr_encodes {f : Reg → BitVec 5 → BitVec 5 → Instr} {sop : BitVec 6}
    (hf : ∀ x crz sel, (f x crz sel).wellFormed = true ∧ encode (f x crz sel) = encCR sel x.num5 sop crz)
    (hp : pat = 0b110000#6 ++ operandBits 5 ++ operandBits 5 ++ sop ++ 0b00001#5 ++ operandBits 5) :
    Row.Encodes encWord ⟨0xFC00FFE0, pat, fun w => do .ok (f (← wideRegAt 16 w) (bitsAt 0 5 w) (bitsAt 21 5 w))⟩ := by
  intro w i h
  obtain ⟨x, crz, sel, rfl, rfl⟩ := (rowMtcr_reads hp w).mp h
  exact hf x crz sel

theorem rowSys5_encodes {f : BitVec 5 → Instr} {sop : BitVec 6}
    (hf : ∀ imm, (f imm).wellFormed = true ∧ encode (f imm) = encSys imm sop)
    (hp : pat = 0b110000#6 ++ operandBits 5 ++ 0#5 ++ sop ++ 0b00001#5 ++ 0#5) : (rowSys5 pat f).Encodes encWord := by
  intro w i h
  obtain ⟨imm, rfl, rfl⟩ := (rowSys5_reads hp w).mp h
  exact hf imm

theorem rowTrap_encodes {f : BitVec 2 → Instr} {b : BitVec 4}
    (hf : ∀ n, (f n).wellFormed = true ∧ encode (f n) = encSys 0 (b ++ n))
    (hp : pat = 0b110000#6 ++ 0#5 ++ 0#5 ++ (b ++ operandBits 2) ++ 0b00001#5 ++ 0#5) :
    Row.Encodes encWord ⟨0xFFFFF3FF, pat, fun w => .ok (f (bitsAt 10 2 w))⟩ := by
  intro w i h
  obtain ⟨n, rfl, rfl⟩ := (rowTrap_reads hp w).mp h
  exact hf n

theorem rowSync_encodes {f : Bool → Bool → Instr} {m : BitVec 3} {sop : BitVec 6}
    (hf : ∀ s t, (f s t).wellFormed = true ∧ encode (f s t) = encSys (BitVec.ofBool s ++ m ++ BitVec.ofBool t) sop)
    (hp : pat = 0b110000#6 ++ (operandBits 1 ++ m ++ operandBits 1) ++ 0#5 ++ sop ++ 0b00001#5 ++ 0#5) :
    Row.Encodes encWord ⟨0xFDDFFFFF, pat, fun w => .ok (f (w.getLsbD 25) (w.getLsbD 21))⟩ := by
  intro w i h
  obtain ⟨s, t, rfl, rfl⟩ := (rowSync_reads hp w).mp h
  exact hf s t

end

theorem rows16R2_encode : ∀ r ∈ rows16R2, r.Encodes halfWord := by
  simp only [rows16R2, List.forall_mem_cons]
  iterate 23 refine ⟨rowR2_encodes (fun _ _ => ⟨rfl, rfl⟩) rfl, ?_⟩
  refine ⟨rowRx_encodes (fun _ => ⟨rfl, rfl⟩) rfl, rowRz_encodes (fun _ => ⟨rfl, rfl⟩) rfl, ?_⟩
  exact ⟨rowRx_encodes (fun _ => ⟨rfl, rfl⟩) rfl, rowRx_encodes (fun _ => ⟨rfl, rfl⟩) rfl, List.forall_mem_nil _⟩

theorem rows16Imm_encode : ∀ r ∈ rows16Imm, r.Encodes halfWord := by
  simp only [rows16Imm, List.forall_mem_cons]
  iterate 2 refine ⟨rowR3_encodes (fun _ _ _ => ⟨rfl, rfl⟩) rfl, ?_⟩
  iterate 2 refine ⟨rowR3i_encodes (fun _ _ _ => ⟨rfl, rfl⟩) rfl, ?_⟩
  iterate 4 refine ⟨rowI8_encodes (fun _ _ => ⟨rfl, rfl⟩) rfl, ?_⟩
  iterate 2 refine ⟨rowSP7_encodes (fun _ => ⟨rfl, rfl⟩) rfl, ?_⟩
  iterate 6 refine ⟨rowXI5_encodes (fun _ _ => ⟨rfl, rfl⟩) rfl, ?_⟩
  iterate 3 refine ⟨rowXZI5_encodes (fun _ _ _ => ⟨rfl, rfl⟩) rfl, ?_⟩
  exact List.forall_mem_nil _

theorem rows16Mem_encode : ∀ r ∈ rows16Mem, r.Encodes halfWord := by
  simp only [rows16Mem, List.forall_mem_cons]
  iterate 3 refine ⟨rowXZI5_encodes (fun _ _ _ => ⟨rfl, rfl⟩) rfl, ?_⟩
  refine ⟨rowSPZI8_encodes (fun _ _ => ⟨rfl, rfl⟩) rfl, ?_⟩
  iterate 3 refine ⟨rowXZI5_encodes (fun _ _ _ => ⟨rfl, rfl⟩) rfl, ?_⟩
  refine ⟨rowSPZI8_encodes (fun _ _ => ⟨rfl, rfl⟩) rfl, ?_⟩
  refine ⟨rowLrw16_encodes (fun _ _ => ⟨rfl, rfl⟩) rfl, ?_⟩
  iterate 3 refine ⟨rowB10_encodes (fun _ => ⟨rfl, rfl⟩) rfl, ?_⟩
  iterate 2 refine ⟨rowList_encodes (fun _ _ => ⟨rfl, rfl⟩) rfl, ?_⟩
  iterate 5 refine ⟨rowFixed_encodes ⟨rfl, rfl⟩, ?_⟩
  exact List.forall_mem_nil _

theorem rows16_encode {r : Row 16} (hr : r ∈ rows16) : r.Encodes halfWord := by
  rcases List.mem_append.mp hr with hr | hr
  · rcases List.mem_append.mp hr with hr | hr
    · exact rows16R2_encode r hr
    · exact rows16Imm_encode r hr
  · exact rows16Mem_encode r hr

theorem rows32_encode : ∀ r ∈ rows32, r.Encodes encWord := by
  simp only [rows32, List.forall_mem_cons]
  refine ⟨rowLrw32_encodes (fun _ _ => ⟨rfl, rfl⟩) rfl, ?_⟩
  refine ⟨rowBr32_encodes (fun _ => ⟨rfl, rfl⟩) rfl, rowBsr32_encodes (fun _ => ⟨rfl, rfl⟩) rfl, ?_⟩
  iterate 6 refine ⟨rowLS12_encodes (fun _ _ _ => ⟨rfl, rfl⟩) rfl, ?_⟩
  refine ⟨rowMfcr_encodes (fun _ _ _ => ⟨rfl, rfl⟩) rfl, rowMtcr_encodes (fun _ _ _ => ⟨rfl, rfl⟩) rfl, ?_⟩
  iterate 3 refine ⟨rowSys5_encodes (fun _ => ⟨rfl, rfl⟩) rfl, ?_⟩
  refine ⟨rowTrap_encodes (fun _ => ⟨rfl, rfl⟩) rfl, rowSync_encodes (fun _ _ => ⟨rfl, rfl⟩) rfl, ?_⟩
  iterate 4 refine ⟨rowFixed_encodes ⟨rfl, rfl⟩, ?_⟩
  exact List.forall_mem_nil _

/-! ### Every well-formed instruction is read from its encoding by a row -/

/-- A 16-bit row reads the instruction from its encoding. -/
def ReadShort (i : Instr) : Prop := ∃ w, encode i = halfWord w ∧ ∃ r ∈ rows16, r.Reads w i

/-- A 32-bit row reads the instruction from its encoding. -/
def ReadLong (i : Instr) : Prop := ∃ w, encode i = encWord w ∧ ∃ r ∈ rows32, r.Reads w i

/-- The encoding says which format and which pattern to look for, and the list of rows has that row; where a field is a low register, the
instruction's being well-formed says that it is one. -/
theorem readShort_or_readLong (i : Instr) (hi : i.wellFormed = true) : ReadShort i ∨ ReadLong i := by
  cases i
  case addu16 z x | addc16 z x | subu16 z x | subc16 z x | mult16 z x | and16 z x | andn16 z x | or16 z x | xor16 z x | nor16 z x
      | lsl16 z x | lsr16 z x | asr16 z x | rotl16 z x | zextb16 z x | zexth16 z x | sextb16 z x | sexth16 z x | mov16 z x =>
    exact .inl ⟨_, rfl, _, by simp [rows16, rows16R2, operandBits], (rowR2_reads rfl _).mpr ⟨z, x, rfl, rfl⟩⟩
  case cmpne16 x y =>
    exact .inl ⟨_, rfl, _, by simp [rows16, rows16R2, operandBits],
      (rowR2_reads (f := fun y x => .cmpne16 x y) rfl _).mpr ⟨y, x, rfl, rfl⟩⟩
  case cmphs16 x y =>
    exact .inl ⟨_, rfl, _, by simp [rows16, rows16R2, operandBits],
      (rowR2_reads (f := fun y x => .cmphs16 x y) rfl _).mpr ⟨y, x, rfl, rfl⟩⟩
  case cmplt16 x y =>
    exact .inl ⟨_, rfl, _, by simp [rows16, rows16R2, operandBits],
      (rowR2_reads (f := fun y x => .cmplt16 x y) rfl _).mpr ⟨y, x, rfl, rfl⟩⟩
  case tst16 x y =>
    exact .inl ⟨_, rfl, _, by simp [rows16, rows16R2, operandBits],
      (rowR2_reads (f := fun y x => .tst16 x y) rfl _).mpr ⟨y, x, rfl, rfl⟩⟩
  case tstnbz16 x | jmp16 x | jsr16 x =>
    exact .inl ⟨_, rfl, _, by simp [rows16, rows16R2, operandBits, Reg.num], (rowRx_reads rfl _).mpr ⟨x, rfl, rfl⟩⟩
  case mvcv16 z =>
    exact .inl ⟨_, rfl, _, by simp [rows16, rows16R2, operandBits, Reg.num], (rowRz_reads rfl _).mpr ⟨z, rfl, rfl⟩⟩
  case addu16r3 z x y | subu16r3 z x y =>
    obtain ⟨hzx, hy⟩ := Bool.and_eq_true_iff.mp hi
    obtain ⟨hz, hx⟩ := Bool.and_eq_true_iff.mp hzx
    exact .inl ⟨_, rfl, _, by simp [rows16, rows16Imm, operandBits], (rowR3_reads rfl _).mpr ⟨⟨z, hz⟩, ⟨x, hx⟩, ⟨y, hy⟩, rfl, rfl⟩⟩
  case addi16r3 z x imm | subi16r3 z x imm =>
    obtain ⟨hz, hx⟩ := Bool.and_eq_true_iff.mp hi
    exact .inl ⟨_, rfl, _, by simp [rows16, rows16Imm, operandBits], (rowR3i_reads rfl _).mpr ⟨⟨z, hz⟩, ⟨x, hx⟩, imm, rfl, rfl⟩⟩
  case addi16 z imm | addi16rsp z imm | subi16 z imm | movi16 z imm =>
    exact .inl ⟨_, rfl, _, by simp [rows16, rows16Imm, operandBits], (rowI8_reads rfl _).mpr ⟨⟨z, hi⟩, imm, rfl, rfl⟩⟩
  case addi16sp imm | subi16sp imm =>
    exact .inl ⟨_, rfl, _, by simp [rows16, rows16Imm, operandBits], (rowSP7_reads rfl _).mpr ⟨imm, rfl, rfl⟩⟩
  case cmphsi16 r imm | cmplti16 r imm | cmpnei16 r imm | bclri16 r imm | bseti16 r imm | btsti16 r imm =>
    exact .inl ⟨_, rfl, _, by simp [rows16, rows16Imm, operandBits], (rowXI5_reads rfl _).mpr ⟨⟨r, hi⟩, imm, rfl, rfl⟩⟩
  case lsli16 z x imm | lsri16 z x imm | asri16 z x imm | ld16b z x imm | ld16h z x imm | ld16w z x imm | st16b z x imm | st16h z x imm
      | st16w z x imm =>
    obtain ⟨hz, hx⟩ := Bool.and_eq_true_iff.mp hi
    exact .inl ⟨_, rfl, _, by simp [rows16, rows16Imm, rows16Mem, operandBits],
      (rowXZI5_reads rfl _).mpr ⟨⟨z, hz⟩, ⟨x, hx⟩, imm, rfl, rfl⟩⟩
  case ld16wsp z imm | st16wsp z imm =>
    exact .inl ⟨_, rfl, _, by simp [rows16, rows16Mem, operandBits], (rowSPZI8_reads rfl _).mpr ⟨⟨z, hi⟩, imm, rfl, rfl⟩⟩
  case lrw16 z o =>
    exact .inl ⟨_, rfl, _, by simp [rows16, rows16Mem, operandBits], (rowLrw16_reads rfl _).mpr ⟨⟨z, hi⟩, o, rfl, rfl⟩⟩
  case br16 o | bt16 o | bf16 o =>
    exact .inl ⟨_, rfl, _, by simp [rows16, rows16Mem, operandBits], (rowB10_reads rfl _).mpr ⟨o, rfl, rfl⟩⟩
  case push16 r15 l | pop16 r15 l =>
    exact .inl ⟨_, rfl, _, by simp [rows16, rows16Mem, operandBits], (rowList_reads rfl _).mpr ⟨r15, l, of_decide_eq_true hi, rfl, rfl⟩⟩
  case ipush16 | ipop16 | nie16 | nir16 | bkpt16 =>
    exact .inl ⟨_, rfl, _, by simp [rows16, rows16Mem], rowFixed_reads.mpr ⟨rfl, rfl⟩⟩
  case lrw32 z o => exact .inr ⟨_, rfl, _, by simp [rows32, operandBits], (rowLrw32_reads rfl _).mpr ⟨z, o, rfl, rfl⟩⟩
  case br32 o => exact .inr ⟨_, rfl, _, by simp [rows32, operandBits], (rowBr32_reads rfl _).mpr ⟨o, rfl, rfl⟩⟩
  case bsr32 o => exact .inr ⟨_, rfl, _, by simp [rows32, operandBits], (rowBsr32_reads rfl _).mpr ⟨o, rfl, rfl⟩⟩
  case ld32b z x o | ld32h z x o | ld32w z x o | st32b z x o | st32h z x o | st32w z x o =>
    exact .inr ⟨_, rfl, _, by simp [rows32, operandBits], (rowLS12_reads rfl _).mpr ⟨z, x, o, rfl, rfl⟩⟩
  case mfcr32 z crx sel => exact .inr ⟨_, rfl, _, by simp [rows32, operandBits], (rowMfcr_reads rfl _).mpr ⟨z, crx, sel, rfl, rfl⟩⟩
  case mtcr32 x crz sel => exact .inr ⟨_, rfl, _, by simp [rows32, operandBits], (rowMtcr_reads rfl _).mpr ⟨x, crz, sel, rfl, rfl⟩⟩
  case psrset32 imm | psrclr32 imm | idly32 imm =>
    exact .inr ⟨_, rfl, _, by simp [rows32, operandBits], (rowSys5_reads rfl _).mpr ⟨imm, rfl, rfl⟩⟩
  case trap32 n => exact .inr ⟨_, rfl, _, by simp [rows32, operandBits], (rowTrap_reads rfl _).mpr ⟨n, rfl, rfl⟩⟩
  case sync32 s t => exact .inr ⟨_, rfl, _, by simp [rows32, operandBits], (rowSync_reads rfl _).mpr ⟨s, t, rfl, rfl⟩⟩
  case rte32 | wait32 | doze32 | stop32 =>
    exact .inr ⟨_, rfl, _, by simp [rows32], rowFixed_reads.mpr ⟨rfl, rfl⟩⟩

/-! ### Decoding and encoding undo each other -/

/-- The top two bits of a word that a row reads are the pattern's, when the row's mask holds them. -/
theorem Row.Reads.topBits {n : Nat} {r : Row n} {w : BitVec n} {i : Instr} (h : r.Reads w i) {k : Nat} (hm : r.mask.extractLsb' k 2 = 3#2) :
    w.extractLsb' k 2 = r.pat.extractLsb' k 2 := by
  rw [← h.2, BitVec.extractLsb'_and, hm]
  exact (BitVec.and_allOnes (w := 2)).symm

theorem rows16_topBits : ∀ r ∈ rows16, r.mask.extractLsb' 14 2 = 3#2 ∧ r.pat.extractLsb' 14 2 ≠ 3#2 := by decide

theorem rows32_topBits : ∀ r ∈ rows32, r.mask.extractLsb' 30 2 = 3#2 ∧ r.pat.extractLsb' 30 2 = 3#2 := by decide

/-- What a 16-bit row reads is a short first half-word (R151). -/
theorem isLong_of_rows16 {r : Row 16} (hr : r ∈ rows16) {w : Half} {i : Instr} (h : r.Reads w i) : isLong w = false := by
  obtain ⟨hm, hp⟩ := rows16_topBits r hr
  simpa [isLong, h.topBits hm] using hp

/-- The first half of what a 32-bit row reads is a long first half-word (R151). -/
theorem isLong_of_rows32 {r : Row 32} (hr : r ∈ rows32) {w : Word} {i : Instr} (h : r.Reads w i) : isLong (w.extractLsb' 16 16) = true := by
  obtain ⟨hm, hp⟩ := rows32_topBits r hr
  have hw : (w.extractLsb' 16 16).extractLsb' 14 2 = w.extractLsb' 30 2 := by
    obtain ⟨h0, h1, rfl⟩ := exists_append (a := 16) (b := 16) w
    rw [BitVec.extractLsb'_append_eq_left, BitVec.extractLsb'_append_eq_of_le (by decide)]
  simp [isLong, hw, h.topBits hm, hp]

/-- The row that decoding found. -/
theorem exists_row_of_decodeRows {n : Nat} {rows : List (Row n)} {w : BitVec n} {i : Instr} (h : decodeRows rows w = .ok i) :
    ∃ r ∈ rows, r.Reads w i := by
  unfold decodeRows at h
  split at h
  · next r hr => exact ⟨r, List.mem_of_find?_eq_some hr, h, by simpa using List.find?_some hr⟩
  · cases h

/-- The half-words of a word, put together. -/
theorem halves_append (w : Word) : w.extractLsb' 16 16 ++ w.extractLsb' 0 16 = w := BitVec.extractLsb'_append_extractLsb' (w := 16) (len := 16)

theorem encWord_append (h0 h1 : Half) : encWord (h0 ++ h1) = [h0, h1] := by
  rw [encWord, BitVec.extractLsb'_append_eq_left, BitVec.extractLsb'_append_eq_right]

theorem decodeHalves_of_rows16 {w h1 : Half} {i : Instr} {r : Row 16} (hr : r ∈ rows16) (h : r.Reads w i) : decodeHalves w h1 = .ok i := by
  rw [decodeHalves, isLong_of_rows16 hr h, if_neg Bool.false_ne_true, decodeRows_of_mem rows16_apart hr h.2, h.1]

theorem decodeHalves_of_rows32 {w : Word} {i : Instr} {r : Row 32} (hr : r ∈ rows32) (h : r.Reads w i) :
    decodeHalves (w.extractLsb' 16 16) (w.extractLsb' 0 16) = .ok i := by
  rw [decodeHalves, isLong_of_rows32 hr h, if_pos rfl, halves_append, decodeRows_of_mem rows32_apart hr h.2, h.1]

/-- The two bytes of a half-word, put together again in the same order. -/
theorem exists_bytesOfHalf (be : Bool) (h : Half) : ∃ b0 b1, bytesOfHalf be h = [b0, b1] ∧ halfOfBytes be b0 b1 = h := by
  have hb := halfOfBytes_bytes be h
  cases be
  · exact ⟨_, _, rfl, hb⟩
  · exact ⟨_, _, rfl, hb⟩

theorem decodeBytes_short {be : Bool} {b0 b1 : Byte} {rest : List Byte} (h : isLong (halfOfBytes be b0 b1) = false) :
    decodeBytes be (b0 :: b1 :: rest) = (decodeHalves (halfOfBytes be b0 b1) 0).map (fun i => (i, rest)) := by
  unfold decodeBytes
  exact if_neg (by simp [h])

theorem decodeBytes_long {be : Bool} {b0 b1 b2 b3 : Byte} {rest : List Byte} (h : isLong (halfOfBytes be b0 b1) = true) :
    decodeBytes be (b0 :: b1 :: b2 :: b3 :: rest) =
      (decodeHalves (halfOfBytes be b0 b1) (halfOfBytes be b2 b3)).map (fun i => (i, rest)) := by
  unfold decodeBytes
  exact if_pos h

/-- Settles O55: the row that decoded the half-words encodes what it reads. -/
theorem encodeUndoesDecode : Obligations.EncodeUndoesDecode := by
  intro h0 h1 i h
  unfold decodeHalves at h
  split at h
  · next hl =>
    obtain ⟨r, hr, hw⟩ := exists_row_of_decodeRows h
    rw [if_pos hl, ← encWord_append]
    exact rows32_encode r hr _ i hw
  · next hl =>
    obtain ⟨r, hr, hw⟩ := exists_row_of_decodeRows h
    rw [if_neg hl]
    exact rows16_encode hr _ i hw

/-- Settles O54: a row reads the encoding, no other row matches it (`decodeRows_of_mem`), and the bytes of each half-word read back. -/
theorem decodeUndoesEncode : Obligations.DecodeUndoesEncode := by
  intro i be rest hi
  rcases readShort_or_readLong i hi with ⟨w, he, r, hr, hw⟩ | ⟨w, he, r, hr, hw⟩
  · obtain ⟨b0, b1, hb, hh⟩ := exists_bytesOfHalf be w
    have hbytes : encodeBytes be i ++ rest = b0 :: b1 :: rest := by simp [encodeBytes, he, halfWord, hb]
    rw [hbytes, decodeBytes_short (by rw [hh, isLong_of_rows16 hr hw]), hh, decodeHalves_of_rows16 hr hw]
    rfl
  · obtain ⟨b0, b1, hb, hh⟩ := exists_bytesOfHalf be (w.extractLsb' 16 16)
    obtain ⟨b2, b3, hb', hh'⟩ := exists_bytesOfHalf be (w.extractLsb' 0 16)
    have hbytes : encodeBytes be i ++ rest = b0 :: b1 :: b2 :: b3 :: rest := by simp [encodeBytes, he, encWord, hb, hb']
    rw [hbytes, decodeBytes_long (by rw [hh, isLong_of_rows32 hr hw]), hh, hh', decodeHalves_of_rows32 hr hw]
    rfl

/-- Settles O53: each word is decoded by evaluation. -/
theorem specExampleWordsDecode : Obligations.SpecExampleWordsDecode := by
  unfold Obligations.SpecExampleWordsDecode
  decide

end Sys2Proof

/-! What a step does with the word at the PC (30_encoding.md R190, R191; 20_memory.md R106, R132): the fetch that fails, the word that is no
instruction, and the instruction that runs. -/

namespace Sys2Proof.Machine

section
variable {s t : State} {a : Word}

/-! ### Fetches that fail -/

theorem fetchHalf_fails (h : fetchFails s a) : fetchHalf a s = .raise vecAccess s := by
  unfold fetchHalf
  cases hm : mpuAllows .fetch s.psr.s a s
  · rfl
  · rcases h with h | ⟨ht, hb⟩
    · simp [hm] at h
    · simp [ht, busRead, slaveRead, hb, Access.bind, vecAccess]

/-- A fetch from the tightly coupled IP range: refused in supervisor mode (R114, D12), AccessError in user mode (assumption log 16). -/
theorem fetchHalf_tcip (h : tcipFetched s a) :
    fetchHalf a s = if s.psr.s = true then .refuse .tcipFetch else .raise vecAccess s := by
  simp only [fetchHalf, h.1, h.2]
  rfl

theorem fetchInstr_of_raise {vec : BitVec 8} (h : fetchHalf s.pc s = .raise vec t) : fetchInstr s = .raise vec t := by
  rw [fetchInstr, h]; rfl

theorem fetchInstr_of_refuse {r : Refusal} (h : fetchHalf s.pc s = .refuse r) : fetchInstr s = .refuse r := by
  rw [fetchInstr, h]; rfl

/-- After the first half-word of a long instruction comes a gap, and then the fetch of the second (R191, R150). -/
theorem fetchInstr_long (h : fetchable s s.pc) (hl : isLong (halfAt s s.pc) = true) :
    fetchInstr s = (fetchHalf (s.pc + 2#32) (landed 1 s)).bind (fun h1 s2 => .ok (decodeHalves (halfAt s s.pc) h1) s2) := by
  simp [fetchInstr, fetchHalf_fetchable h, Access.bind, hl, landed]

/-! ### How an instruction is run -/

theorem runInstruction_of_raise {vec : BitVec 8} (h : fetchInstr { s with nieShadow := false } = .raise vec t) :
    runInstruction s = takeException vec s.pc t := by
  simp [runInstruction, h]

theorem runInstruction_of_refuse {r : Refusal} (h : fetchInstr { s with nieShadow := false } = .refuse r) : runInstruction s = .refused r := by
  simp [runInstruction, h]

theorem runInstruction_of_error {e : DecodeError} (h : fetchInstr { s with nieShadow := false } = .ok (.error e) t) :
    runInstruction s = takeException vecIllegal s.pc t := by
  simp [runInstruction, h]

theorem runInstruction_of_ok {i : Instr} (h : fetchInstr { s with nieShadow := false } = .ok (.ok i) t) :
    runInstruction s = retire t.idlyCount (exec i (interleave t)) := by
  simp [runInstruction, h]

end

/-- Settles O41: the decoding, the fetch of the first half-word and the fetch of the second one, each in the state `u` in which it is made. -/
theorem illegalWordsAndFetchFaults : Obligations.IllegalWordsAndFetchFaults := by
  intro s u
  refine ⟨fun (hf : instrFetchable u) hd => ?_, fun (hf : fetchFails u u.pc) => ?_,
    fun (h1 : fetchable u u.pc) hl (hf : fetchFails (landed 1 u) (u.pc + 2#32)) => ?_, fun (ht : tcipFetched u u.pc) => ⟨fun hs => ?_, fun hs => ?_⟩,
    fun (h1 : fetchable u u.pc) hl (ht : tcipFetched (landed 1 u) (u.pc + 2#32)) => ⟨fun hs => ?_, fun hs => ?_⟩⟩
  · cases he : decodeHalves (halfAt u u.pc) (secondHalf u) with
    | ok i => exact absurd he (hd i)
    | error e => exact runInstruction_of_error (by rw [fetchInstr_fetchable hf, he]; rfl)
  · exact runInstruction_of_raise (fetchInstr_of_raise (fetchHalf_fails hf))
  · exact runInstruction_of_raise (by rw [fetchInstr_long h1 hl, fetchHalf_fails hf]; rfl)
  · exact runInstruction_of_refuse (fetchInstr_of_refuse ((fetchHalf_tcip ht).trans (if_pos hs)))
  · exact runInstruction_of_raise (fetchInstr_of_raise ((fetchHalf_tcip ht).trans (if_neg (ne_true_of_eq_false hs))))
  · exact runInstruction_of_refuse (by rw [fetchInstr_long h1 hl, (fetchHalf_tcip ht).trans (if_pos hs)]; rfl)
  · exact runInstruction_of_raise (by rw [fetchInstr_long h1 hl, (fetchHalf_tcip ht).trans (if_neg (ne_true_of_eq_false hs))]; rfl)

/-! ### What a step does -/

section
variable {s : State}

/-- The retirement of an instruction that ends in a state, or that is refused. -/
theorem retire_next (before : Nat) (t : State) : retire before (.next t) = .next (countIdly before t) := rfl

theorem retire_refused (before : Nat) (r : Refusal) : retire before (.refused r) = .refused r := rfl

theorem countIdly_eq (before : Nat) (t : State) :
    countIdly before t = if 0 < before ∧ t.debugMode = false ∧ t.hung = false then { t with idlyCount := t.idlyCount - 1 } else t := by
  simp [countIdly, and_assoc]

/-- The instruction at the PC is executed on the state that its fetch leaves. -/
theorem runInstruction_instrAt {i : Instr} (h : instrAt { s with nieShadow := false } i) :
    runInstruction s = retire s.idlyCount (exec i (atExec { s with nieShadow := false })) := by
  obtain ⟨hf, hd⟩ := h
  rw [runInstruction_of_ok ((fetchInstr_fetchable hf).trans (by rw [hd])), atExec]
  split <;> rfl

/-- A running core that takes no interrupt runs the instruction at the PC. -/
theorem step_noInterrupt (h : running s) (hn : pendingInterrupt (absorb s) = none) : step s = runInstruction (absorb s) := by
  rw [step_running h, coreCycle, hn]

section
variable (hr : (currentInput s).pins.reset = false) (hi : (absorb s).inReset = false) (hl : (absorb s).lockup = false)
  (hh : (absorb s).hung = false)
include hr hi hl hh

theorem step_debugMode (hd : (absorb s).debugMode = true) : step s = debugCycle (currentInput s) (absorb s) := by
  simp only [step, cycle, cycleWith, hr, hi, hl, hh, hd]
  rfl

theorem step_debugRequest (hd : (absorb s).debugMode = false) (hq : (currentInput s).debugRequest = true) (hc : s.cfg.hasDebug = true) :
    step s = .next { absorb s with debugMode := true, lowPower := .none } := by
  simp only [step, cycle, cycleWith, hr, hi, hl, hh, hd, hq, absorb_cfg, hc]
  rfl

end

theorem debugCycle_go {i : Input} (h : i.debugGo = true) : debugCycle i s = .next { s with debugMode := false } := by
  rw [debugCycle, if_pos h]

theorem debugCycle_idle {i : Input} (h : i.debugGo = false) (hn : i.debugInstr = none) : debugCycle i s = .next s := by
  simp [debugCycle, h, hn]

theorem debugCycle_fed {i : Input} {h0 h1 : Half} {j : Instr} (h : i.debugGo = false) (hf : i.debugInstr = some (h0, h1))
    (hd : decodeHalves h0 h1 = .ok j) : debugCycle i s = exec j s := by
  simp [debugCycle, h, hf, hd]

theorem debugCycle_illegal {i : Input} {h0 h1 : Half} {e : DecodeError} (h : i.debugGo = false) (hf : i.debugInstr = some (h0, h1))
    (hd : decodeHalves h0 h1 = .error e) : debugCycle i s = takeException vecIllegal s.pc s := by
  simp [debugCycle, h, hf, hd]

theorem currentInput_cons {i : Input} {rest : List Input} (h : s.inputs = i :: rest) : currentInput s = i := by
  simp [currentInput, h]

end

/-- Settles O52: each condition of the core as one equation of `step`, and the input's reach field by field. -/
theorem stepRunsTheInstruction : Obligations.StepRunsTheInstruction := by
  refine ⟨fun s i hr hn hi _ => ?_, fun s hr hi hl hh hd => ?_, fun s hr hi hl hh hd hq hc => ?_, fun s => ⟨fun _ _ => currentInput_cons, ?_⟩⟩
  · have hs := (step_noInterrupt hr hn).trans (runInstruction_instrAt hi)
    refine ⟨fun t ht => ?_, fun r ht => ?_⟩
    · rw [hs, ht, retire_next, countIdly_eq, absorb_idlyCount]
    · rw [hs, ht, retire_refused]
  · have hs := step_debugMode hr hi hl hh hd
    refine ⟨fun hg => hs.trans (debugCycle_go hg), fun hg hf => hs.trans (debugCycle_idle hg hf), fun h0 h1 hg hf => ⟨fun j hj => ?_, fun hj => ?_⟩⟩
    · exact hs.trans (debugCycle_fed hg hf hj)
    · cases he : decodeHalves h0 h1 with
      | ok j => exact absurd he (hj j)
      | error e => rw [hs, debugCycle_illegal hg hf he, absorb_pc]; rfl
  · exact ⟨step_debugRequest hr hi hl hh hd hq hc, rfl, rfl⟩
  · rw [← absorb_had, ← absorb_timer, ← absorb_vic]
    exact absorb_eq s

end Sys2Proof.Machine

/-! The statements of 40_arith.md: sums, differences and products as exact numbers modulo 2^32 (R200 to R215), and the carry chain as the exact
33-bit sum and difference (R202, R209). -/

namespace Sys2Proof.Machine

/-! ### What the shared ending of the instructions writes -/

section
variable {i : Instr} {r : Reg} {v x y : Word} {s t u : State} {n : Nat}

/-- An instruction that ends by writing one register is `writesReg`. -/
theorem writesReg_of_finish16 (h : exec i s = finish16 r v s) : writesReg i 2#32 r v s :=
  ⟨_, h, rfl, regWritten_congr (regWritten_writeReg r v s) rfl rfl, rfl, fun _ => rfl⟩

/-- The register write seen from a state before it with the same register file and mode. -/
theorem regWritten_congr_before (h : regWritten r v s u) (hr : s.regs = t.regs) (hm : s.psr.s = t.psr.s) : regWritten r v t u := by
  obtain ⟨hread, husp, hssp⟩ := h
  refine ⟨fun q => ?_, fun hs => ?_, fun hs => ?_⟩
  · rw [hread, readReg_congr q hr hm]
  · rw [husp (hm.trans hs), hr]
  · rw [hssp (hm.trans hs), hr]

/-- A write of C beside a register write (R202, R209) touches no register. -/
theorem regWritten_advance_setC (r : Reg) (v len : Word) (b : Bool) (s : State) :
    regWritten r v s (advance len (writeReg r v (setC b s))) :=
  regWritten_congr (regWritten_congr_before (regWritten_writeReg r v (setC b s)) rfl rfl) rfl rfl

/-! ### Operands and results as numbers -/

/-- An immediate biased by 1 as a number (R155 b). -/
theorem immO_eq {k : Nat} (f : BitVec k) : immO f = BitVec.ofNat 32 (f.toNat + 1) := by
  rw [immO, BitVec.ofNat_add, ← BitVec.ofNat_toNat]

/-- A word as a number, beside `immO_eq` and `immS_eq`: the register operand. -/
theorem word_eq_ofNat (x : Word) : x = BitVec.ofNat 32 x.toNat := by
  rw [BitVec.ofNat_toNat, BitVec.setWidth_eq]

/-- A sum, exact modulo 2^32: the second operand is given as a number, of which it holds the low 32 bits. -/
theorem writesReg_sum (h : exec i s = finish16 r (x + y) s) (hy : y = BitVec.ofNat 32 n) :
    writesReg i 2#32 r (BitVec.ofNat 32 (x.toNat + n)) s := by
  rw [BitVec.ofNat_add, ← word_eq_ofNat, ← hy]
  exact writesReg_of_finish16 h

/-- A difference, exact modulo 2^32 whatever its sign. -/
theorem writesReg_difference (h : exec i s = finish16 r (x - y) s) (hy : y = BitVec.ofNat 32 n) :
    writesReg i 2#32 r (BitVec.ofInt 32 (x.toNat - n)) s := by
  rw [Int.sub_eq_add_neg, BitVec.ofInt_add, BitVec.ofInt_neg, BitVec.ofInt_natCast, BitVec.ofInt_natCast, ← word_eq_ofNat,
    ← hy, ← BitVec.sub_eq_add_neg]
  exact writesReg_of_finish16 h

/-- R215: the product of unsigned words, of which the low 32 bits are kept. -/
theorem writesReg_product (h : exec i s = finish16 r (x * y) s) : writesReg i 2#32 r (BitVec.ofNat 32 (x.toNat * y.toNat)) s := by
  rw [BitVec.ofNat_mul, ← word_eq_ofNat, ← word_eq_ofNat]
  exact writesReg_of_finish16 h

end

/-! ### The carry chain (R202, R209) -/

/-- A sum of two words and a carry has 33 bits: the result's and C. -/
theorem addC_exact (x y : Word) (c : Bool) :
    (addCResult x y c).toNat + (if addCCarry x y c = true then 4294967296 else 0) = x.toNat + y.toNat + (if c = true then 1 else 0) := by
  have hx := x.isLt
  have hy := y.isLt
  have hs : addSum x y c = x.toNat + y.toNat + (if c = true then 1 else 0) := rfl
  have hb : addSum x y c < 2 * 4294967296 := by rw [hs]; split <;> omega
  rw [← hs]
  simp only [addCResult, addCCarry, BitVec.toNat_ofNat, decide_eq_true_eq]
  split <;> omega

/-- A difference of two words and a borrow is the result, less 2^32 when it is negative. -/
theorem subC_exact (x y : Word) (c : Bool) :
    ((subCResult x y c).toNat : Int) - (if subCCarry x y c = true then 0 else 4294967296) =
      x.toNat - y.toNat - (if c = true then 0 else 1) := by
  have hx := x.isLt
  have hy := y.isLt
  have hd : subDiff x y c = x.toNat - y.toNat - (if c = true then 0 else 1) := by cases c <;> rfl
  have hb : -4294967296 ≤ subDiff x y c ∧ subDiff x y c < 4294967296 := by rw [hd]; split <;> omega
  rw [← hd]
  simp only [subCResult, subCCarry, BitVec.toNat_ofInt, decide_eq_true_eq]
  split <;> omega

/-! ### The statements -/

/-- Settles O2: each instruction is `finish16` of a sum, a difference or a product of registers. -/
theorem addSubtractMultiplyResults : Obligations.AddSubtractMultiplyResults := by
  intro rz rx ry s
  have hx := word_eq_ofNat (readReg rx s)
  have hy := word_eq_ofNat (readReg ry s)
  exact ⟨writesReg_sum rfl hx, writesReg_sum rfl hy, writesReg_difference rfl hx, writesReg_difference rfl hy, writesReg_product rfl⟩

/-- Settles O3: the second operand of each form is a biased or a scaled immediate as a number. -/
theorem immediateAddSubtractResults : Obligations.ImmediateAddSubtractResults := by
  intro rz rx imm8 imm7 imm3 s
  exact ⟨writesReg_sum rfl (immO_eq imm8), writesReg_sum rfl (immO_eq imm3), writesReg_sum rfl (immS_eq 2 imm8),
    writesReg_sum rfl (immS_eq 2 imm7), writesReg_difference rfl (immO_eq imm8), writesReg_difference rfl (immO_eq imm3),
    writesReg_difference rfl (immS_eq 2 imm7)⟩

/-- Settles O4: both instructions write C, then the register; the sum and the difference are exact. -/
theorem carryChainResults : Obligations.CarryChainResults := by
  intro rz rx s
  exact ⟨⟨_, _, rfl, rfl, addC_exact .., regWritten_advance_setC .., rfl, fun _ => rfl⟩,
    ⟨_, _, rfl, rfl, subC_exact .., regWritten_advance_setC .., rfl, fun _ => rfl⟩⟩

end Sys2Proof.Machine

/-! The statements of 41_logic_shift.md: each result bit of the logic operations (R230 to R234), the shifts and the rotation (R240 to R247) and the
extensions (R250 to R253). -/

namespace Sys2Proof.Machine

/-- An instruction that ends by writing one register is `writesBits` of the bits that its result has. -/
theorem writesBits_of_finish16 {i : Instr} {r : Reg} {v : Word} {s : State} {f : Nat → Bool} (h : exec i s = finish16 r v s)
    (hv : ∀ k, k < 32 → v.getLsbD k = f k) : writesBits i 2#32 r f s :=
  ⟨v, hv, writesReg_of_finish16 h⟩

section
variable {k : Nat}

/-- A complement, at a bit that the word has. -/
theorem getLsbD_not_word (x : Word) (hk : k < 32) : (~~~x).getLsbD k = !x.getLsbD k := by
  rw [BitVec.getLsbD_not, decide_eq_true hk, Bool.true_and]

/-! ### Shifts and the rotation by any amount, those above 31 included -/

/-- R240 to R243: the amount that a register gives, as a number. -/
theorem shiftAmount_eq (x : Word) : shiftAmount x = x.toNat % 64 := by
  rw [shiftAmount, BitVec.extractLsb'_toNat, Nat.shiftRight_zero]

theorem getLsbD_shiftLeft (v : Word) (n : Nat) (hk : k < 32) : (shiftLeft v n).getLsbD k = (decide (n ≤ k) && v.getLsbD (k - n)) := by
  unfold shiftLeft
  split
  · simp only [BitVec.getLsbD_shiftLeft, hk, decide_true, Bool.true_and, ← decide_not, Nat.not_lt]
  · have hn : ¬n ≤ k := by omega
    simp [hn]

theorem getLsbD_shiftRight (v : Word) (n : Nat) : (shiftRight v n).getLsbD k = (decide (k + n < 32) && v.getLsbD (k + n)) := by
  by_cases hb : k + n < 32
  · have hn : n ≤ 31 := by omega
    simp [shiftRight, hn, hb, Nat.add_comm]
  · have hout : v.getLsbD (n + k) = false := v.getLsbD_of_ge _ (by omega)
    unfold shiftRight
    split <;> simp [hb, hout]

theorem getLsbD_shiftArith (v : Word) (n : Nat) (hk : k < 32) :
    (shiftArith v n).getLsbD k = if k + n < 32 then v.getLsbD (k + n) else v.getLsbD 31 := by
  unfold shiftArith
  split
  · rw [BitVec.getLsbD_sshiftRight, BitVec.msb_eq_getLsbD_last, decide_eq_false (Nat.not_le.mpr hk), Bool.not_false, Bool.true_and,
      Nat.add_comm]
  · have hb : ¬k + n < 32 := by omega
    rw [if_neg hb]
    cases v.getLsbD 31
    · simp
    · exact (BitVec.getLsbD_allOnes (v := 32)).trans (decide_eq_true hk)

/-- R243: below 32 the bits that leave at the top come back at the bottom; an amount above 31 clears. -/
theorem getLsbD_rotateLeft (v : Word) (n : Nat) (hk : k < 32) :
    (rotateLeft v n).getLsbD k = (decide (n < 32) && v.getLsbD ((k + (32 - n)) % 32)) := by
  unfold rotateLeft
  split
  next h0 => simp [h0, Nat.mod_eq_of_lt hk]
  next h0 =>
    split
    next h31 =>
      have hn : n < 32 := by omega
      rw [BitVec.getLsbD_or, BitVec.getLsbD_shiftLeft, BitVec.getLsbD_ushiftRight]
      by_cases hlow : k < n
      · have hsrc : (k + (32 - n)) % 32 = 32 - n + k := by omega
        simp only [hlow, hn, hsrc, decide_true, Bool.not_true, Bool.and_false, Bool.false_and, Bool.false_or, Bool.true_and]
      · have hsrc : (k + (32 - n)) % 32 = k - n := by omega
        have hout : v.getLsbD (32 - n + k) = false := v.getLsbD_of_ge _ (by omega)
        simp only [hlow, hk, hn, hsrc, hout, decide_true, decide_false, Bool.not_false, Bool.true_and, Bool.or_false]
    next h31 =>
      have hn : ¬n < 32 := by omega
      simp [hn]

/-! ### Extensions of the low bits -/

/-- R250, R251: the low `m` bits, and 0 above them. -/
theorem getLsbD_zeroExtend_low (x : Word) (m : Nat) (hk : k < 32) :
    ((x.extractLsb' 0 m).setWidth 32).getLsbD k = (decide (k < m) && x.getLsbD k) := by
  simp [hk]

/-- R252, R253: the low `m + 1` bits, and copies of the top one of them above. -/
theorem getLsbD_signExtend_low (x : Word) (m : Nat) (hk : k < 32) :
    ((x.extractLsb' 0 (m + 1)).signExtend 32).getLsbD k = if k < m + 1 then x.getLsbD k else x.getLsbD m := by
  rw [BitVec.getLsbD_signExtend, BitVec.msb_eq_getLsbD_last]
  by_cases hm : k < m + 1 <;> simp [hk, hm]

end

/-! ### The statements -/

/-- Settles O5: each instruction is `finish16` of the bitwise operation on the two operands. -/
theorem bitwiseResults : Obligations.BitwiseResults := by
  intro rz rx s
  refine ⟨writesBits_of_finish16 rfl fun k _ => BitVec.getLsbD_and, writesBits_of_finish16 rfl fun k hk => ?andn,
    writesBits_of_finish16 rfl fun k _ => BitVec.getLsbD_or, writesBits_of_finish16 rfl fun k _ => BitVec.getLsbD_xor,
    writesBits_of_finish16 rfl fun k hk => ?nor⟩
  case andn => rw [BitVec.getLsbD_and, getLsbD_not_word _ hk]
  case nor => rw [getLsbD_not_word _ hk, BitVec.getLsbD_or]

/-- Settles O6: each instruction is `finish16` of the shift by `shiftAmount`, the amount modulo 64. -/
theorem registerShiftResults : Obligations.RegisterShiftResults := by
  intro rz rx s
  simp only [← shiftAmount_eq]
  exact ⟨writesBits_of_finish16 rfl fun _ => getLsbD_shiftLeft _ _, writesBits_of_finish16 rfl fun _ _ => getLsbD_shiftRight _ _,
    writesBits_of_finish16 rfl fun _ => getLsbD_shiftArith _ _, writesBits_of_finish16 rfl fun _ => getLsbD_rotateLeft _ _⟩

/-- Settles O7: the shifts of O6 by an immediate amount. -/
theorem immediateShiftResults : Obligations.ImmediateShiftResults := by
  intro rz rx imm5 s
  exact ⟨writesBits_of_finish16 rfl fun _ => getLsbD_shiftLeft _ _, writesBits_of_finish16 rfl fun _ _ => getLsbD_shiftRight _ _,
    writesBits_of_finish16 rfl fun _ => getLsbD_shiftArith _ _⟩

/-- Settles O8: the low 8 or 16 bits of the operand, extended to a word. -/
theorem extensionResults : Obligations.ExtensionResults := by
  intro rz rx s
  exact ⟨writesBits_of_finish16 rfl fun _ => getLsbD_zeroExtend_low _ 8, writesBits_of_finish16 rfl fun _ => getLsbD_zeroExtend_low _ 16,
    writesBits_of_finish16 rfl fun _ => getLsbD_signExtend_low _ 7, writesBits_of_finish16 rfl fun _ => getLsbD_signExtend_low _ 15⟩

end Sys2Proof.Machine

/-! The statements of 42_compare_move_bit.md: what the compares and tests give C (R270 to R277, R287), the moves and single-bit operations (R280 to
R286) and the literal loads (R290, R291). -/

namespace Sys2Proof.Machine

/-! ### Immediates as numbers -/

/-- An unbiased immediate as a number (R155 a), beside `immO_eq` and `immS_eq`. -/
theorem immU_eq {n : Nat} (f : BitVec n) : immU f = BitVec.ofNat 32 f.toNat := (BitVec.ofNat_toNat 32 f).symm

theorem toNat_immU_five (f : BitVec 5) : (immU f).toNat = f.toNat := by
  have hf := f.isLt
  rw [immU_eq, BitVec.toNat_ofNat]
  omega

theorem toNat_immO_five (f : BitVec 5) : (immO f).toNat = f.toNat + 1 := by
  have hf := f.isLt
  rw [immO_eq, BitVec.toNat_ofNat]
  omega

/-- An IMM5 biased by 1 is at most 32, so it is the same number signed (R275). -/
theorem toInt_immO_five (f : BitVec 5) : (immO f).toInt = f.toNat + 1 := by
  have hf := f.isLt
  rw [BitVec.toInt_eq_toNat_of_lt (by rw [toNat_immO_five]; omega), toNat_immO_five]
  rfl

/-! ### What C says of the operands -/

section
variable {x y : Word}

theorem flagNe_iff : flagNe x y = true ↔ x ≠ y := bne_iff_ne

theorem flagHs_iff : flagHs x y = true ↔ y.toNat ≤ x.toNat := decide_eq_true_iff

theorem flagLt_iff : flagLt x y = true ↔ x.toInt < y.toInt := decide_eq_true_iff

/-- R276: two words have a bit in common when their conjunction has a bit. -/
theorem flagTst_iff : flagTst x y = true ↔ ∃ k, k < 32 ∧ x.getLsbD k = true ∧ y.getLsbD k = true := by
  rw [flagTst, bne_iff_ne, ne_eq, BitVec.eq_of_getLsbD_eq_iff]
  simp

/-- Byte `j` of a word as a number. -/
theorem byte_ne_zero_iff (j : Nat) : (x.extractLsb' (8 * j) 8 != 0#8) = true ↔ x.toNat / 256 ^ j % 256 ≠ 0 := by
  have hbase : 256 ^ j = 2 ^ (8 * j) := by rw [Nat.pow_mul]
  rw [bne_iff_ne, ne_eq, ← BitVec.toNat_inj, BitVec.extractLsb'_toNat, Nat.shiftRight_eq_div_pow, hbase]
  rfl

theorem flagNoByteZero_iff : flagNoByteZero x = true ↔ ∀ j, j < 4 → x.toNat / 256 ^ j % 256 ≠ 0 := by
  have hbytes : flagNoByteZero x = true ↔ ∀ j, j < 4 → (x.extractLsb' (8 * j) 8 != 0#8) = true := by
    simp only [flagNoByteZero, Bool.and_eq_true, Nat.forall_lt_succ_right, Nat.not_lt_zero, false_implies, implies_true, true_and]
    tauto
  simp only [hbytes, byte_ne_zero_iff]

end

/-! ### Single bits (R285, R286) -/

section
variable {k n : Nat}

theorem getLsbD_one_shift (hk : k < 32) : (1#32 <<< n).getLsbD k = decide (k = n) := by
  simp only [← BitVec.twoPow_eq, BitVec.getLsbD_twoPow]
  by_cases h : k = n
  · simp [← h, hk]
  · simp [h, Ne.symm h]

theorem getLsbD_clearBit (x : Word) (hk : k < 32) : (x &&& ~~~(1#32 <<< n)).getLsbD k = (x.getLsbD k && decide (k ≠ n)) := by
  rw [BitVec.getLsbD_and, getLsbD_not_word _ hk, getLsbD_one_shift hk, decide_not]

theorem getLsbD_setBit (x : Word) (hk : k < 32) : (x ||| 1#32 <<< n).getLsbD k = (x.getLsbD k || decide (k = n)) := by
  rw [BitVec.getLsbD_or, getLsbD_one_shift hk]

end

/-! ### What the shared endings do -/

section
variable {i : Instr} {len : Word} {z : Size} {rz : Reg} {a : Word} {s : State}

/-- An instruction that ends by writing C is `setsC` of what C says. -/
theorem setsC_of_finishC16 {c : Bool} {p : Prop} (h : exec i s = finishC16 c s) (hc : c = true ↔ p) : setsC i p s :=
  ⟨_, h, rfl, hc, rfl, fun _ => rfl⟩

/-- An instruction that loads from memory writes the datum to its register. -/
theorem writesReg_of_loadAt (h : exec i s = loadAt len z rz a s) (hr : readable s a) : writesReg i len rz (datum s z a) s :=
  ⟨_, h.trans (loadAt_readable hr), rfl, regWritten_congr (regWritten_writeReg rz _ s) rfl rfl, rfl, fun _ => rfl⟩

/-- An instruction that loads from a platform device: the register gets the answer's low bytes, or ERROR is AccessError (R131, R132). -/
theorem readsDevice_of_loadAt (h : exec i s = loadAt len z rz a s) (hm : mpuAllows .read s.psr.s a s = true) (hd : isDevice s a) :
    readsDevice i len z rz a s := by
  rw [loadAt, dataRead_device hm hd] at h
  unfold readsDevice
  cases hr : deviceReply s z a false 0#32 with
  | none => rw [hr] at h; exact h
  | some d =>
    rw [hr] at h
    exact ⟨_, h, regWritten_congr (regWritten_congr_before (regWritten_writeReg rz _ (answered s)) rfl rfl) rfl rfl, rfl⟩

end

/-! ### The statements -/

/-- Settles O9: each instruction is `finishC16` of a flag, and each flag is a condition on the operands as numbers or bits. -/
theorem compareAndTestFlags : Obligations.CompareAndTestFlags := by
  intro rx ry imm5 s x y
  refine ⟨setsC_of_finishC16 rfl flagNe_iff, setsC_of_finishC16 rfl ?cmpnei, setsC_of_finishC16 rfl flagHs_iff,
    setsC_of_finishC16 rfl ?cmphsi, setsC_of_finishC16 rfl flagLt_iff, setsC_of_finishC16 rfl ?cmplti,
    setsC_of_finishC16 rfl flagTst_iff, setsC_of_finishC16 rfl flagNoByteZero_iff, setsC_of_finishC16 rfl Iff.rfl⟩
  case cmpnei => rw [flagNe_iff, ne_eq, ← BitVec.toNat_inj, toNat_immU_five]
  case cmphsi => rw [flagHs_iff, toNat_immO_five]
  case cmplti => rw [flagLt_iff, toInt_immO_five]

/-- Settles O10: each instruction is `finish16` of a register, an immediate, the complement of C, or a register with one bit changed. -/
theorem moveAndBitResults : Obligations.MoveAndBitResults := by
  intro rz rx imm8 imm5 s
  rw [← immU_eq]
  exact ⟨writesReg_of_finish16 rfl, writesReg_of_finish16 rfl, writesReg_of_finish16 rfl,
    writesBits_of_finish16 rfl fun _ => getLsbD_clearBit _, writesBits_of_finish16 rfl fun _ => getLsbD_setBit _⟩

/-- Settles O15: both literal loads are `loadAt` of the literal's address, which memory or a platform device answers. -/
theorem literalLoadResults : Obligations.LiteralLoadResults := by
  intro rz o7 o16 s
  have l16 := exec_lrw16 rz s o7
  have l32 := exec_lrw32 rz s o16
  exact ⟨writesReg_of_loadAt l16, writesReg_of_loadAt l32, readsDevice_of_loadAt l16, readsDevice_of_loadAt l32⟩

end Sys2Proof.Machine

/-! The statements of 43_branch.md: where the branches go (R300 to R303), and the call and the register jumps with the link register (R305 to
R307). -/

namespace Sys2Proof.Machine

/-! ### Targets as numbers -/

/-- A branch offset as a number: twice the signed field (R155 d). -/
theorem branchOffset_eq {n : Nat} (f : BitVec n) : branchOffset f = BitVec.ofInt 32 (2 * f.toInt) := by
  rw [branchOffset, BitVec.signExtend, BitVec.toInt_append_zero, pow_one]

/-- An address with bit 0 dropped is twice its half (R32). -/
theorem evenAddr_eq (a : Word) : evenAddr a = BitVec.ofNat 32 (2 * (a.toNat / 2)) := by
  have h : evenAddr a = alignDown .half a := rfl
  rw [h, alignDown_eq]
  congr 1
  simp only [sizeBytes]
  omega

/-! ### What the shared endings do -/

section
variable {i : Instr} {s : State}

/-- An instruction that only moves the PC is `goesTo`. -/
theorem goesTo_of_setPc {a : Word} (h : exec i s = .next { s with pc := a }) : goesTo i a s :=
  ⟨_, h, rfl, rfl, fun _ => rfl⟩

theorem goesTo_of_advance {len : Word} (h : exec i s = .next (advance len s)) : goesTo i (pcAfter s len) s :=
  goesTo_of_setPc h

theorem goesTo_of_branchTo {n : Nat} {f : BitVec n} (h : exec i s = .next (branchTo f s)) :
    goesTo i (s.pc + BitVec.ofInt 32 (2 * f.toInt)) s := by
  rw [← branchOffset_eq]
  exact goesTo_of_setPc h

theorem goesTo_of_jumpTo {a : Word} (h : exec i s = .next (jumpTo a s)) : goesTo i (BitVec.ofNat 32 (2 * (a.toNat / 2))) s := by
  rw [← evenAddr_eq]
  exact goesTo_of_setPc h

/-- An instruction that writes the link register and moves the PC is a call (R305, R307). -/
theorem calls_of_writeReg_setPc {ret a : Word} (h : exec i s = .next { writeReg .r15 ret s with pc := a }) :
    ∃ t, exec i s = .next t ∧ t.pc = a ∧ regWritten .r15 ret s t ∧ sameButRegs s t ∧ sameMemory s t :=
  ⟨_, h, rfl, regWritten_congr (regWritten_writeReg .r15 ret s) rfl rfl, rfl, fun _ => rfl⟩

/-! ### The conditional branches (R302, R303) -/

theorem exec_bt16_taken (hc : s.psr.c = true) (o : BitVec 10) : exec (.bt16 o) s = .next (branchTo o s) :=
  congrArg Host.Outcome.next (if_pos hc)

theorem exec_bt16_notTaken (hc : ¬s.psr.c = true) (o : BitVec 10) : exec (.bt16 o) s = .next (advance 2#32 s) :=
  congrArg Host.Outcome.next (if_neg hc)

theorem exec_bf16_taken (hc : ¬s.psr.c = true) (o : BitVec 10) : exec (.bf16 o) s = .next (branchTo o s) :=
  congrArg Host.Outcome.next (if_neg hc)

theorem exec_bf16_notTaken (hc : s.psr.c = true) (o : BitVec 10) : exec (.bf16 o) s = .next (advance 2#32 s) :=
  congrArg Host.Outcome.next (if_pos hc)

end

/-! ### The statements -/

/-- Settles O11: BR16 and BR32 are `branchTo`; BT16 and BF16 are `branchTo` or `advance`, by C. -/
theorem branchTargets : Obligations.BranchTargets := by
  intro o10 o16 s t10 t16
  refine ⟨goesTo_of_branchTo rfl, goesTo_of_branchTo rfl, ?bt16, ?bf16⟩
  case bt16 =>
    split
    next hc => exact goesTo_of_branchTo (exec_bt16_taken hc o10)
    next hc => exact goesTo_of_advance (exec_bt16_notTaken hc o10)
  case bf16 =>
    split
    next hc => exact goesTo_of_advance (exec_bf16_notTaken hc o10)
    next hc => exact goesTo_of_branchTo (exec_bf16_taken hc o10)

/-- Settles O12: the calls write R15 and move the PC, JMP16 moves the PC only; JSR16's target is what RX read before R15 was written. -/
theorem callsAndJumps : Obligations.CallsAndJumps := by
  intro o26 rx s
  refine ⟨?bsr32, goesTo_of_jumpTo rfl, ?jsr16⟩
  case bsr32 =>
    rw [← branchOffset_eq]
    exact calls_of_writeReg_setPc rfl
  case jsr16 =>
    rw [← evenAddr_eq]
    exact calls_of_writeReg_setPc rfl

end Sys2Proof.Machine

/-! The statements of 44_load_store.md: the loads (R325 to R331) and the stores (R335 to R341) of `LoadStore`, on memory and on a platform
device. -/

namespace Sys2Proof.Machine

/-- A store into the bytes PC + 2 to PC + 7 is refused once its address is known (R148). -/
theorem storeAt_inStream {len : Word} {z : Size} {rz : Reg} {a : Word} {s : State} (h : streamStore s z a) :
    storeAt len z rz a s = .refused .prefetchWindowStore := by
  rw [storeAt, dataWrite_inStream h]; rfl

namespace LoadStore

variable {ld st : Instr} {len : Word} {z : Size} {rz base : Reg} {disp : Nat} {s : State}

theorem loadsFromDevice (h : LoadStore ld st len z rz base disp s) : loadsFromDevice ld len z rz base disp s := fun _ ha =>
  readsDevice_of_loadAt (h.load.trans (loadTo_some ha))

theorem refusedInStream (h : LoadStore ld st len z rz base disp s) : refusedInStream st z base disp s := fun _ ha hin =>
  h.store.trans ((storeFrom_some ha).trans (storeAt_inStream hin))

theorem storesToDevice (h : LoadStore ld st len z rz base disp s) : storesToDevice st len z rz base disp s := by
  intro a ha hm hd hp
  have hst := h.store.trans (storeFrom_some ha)
  rw [storeAt, dataWrite_device hm hd hp] at hst
  cases hr : deviceReply s z a true (lowData z (readReg rz s)) with
  | some d => rw [hr] at hst; exact hst
  | none => rw [hr] at hst; exact hst

end LoadStore

/-! ### The statements -/

/-- Settles O13: each load form is a `LoadStore`, whose load reads memory (`loadsFrom`) or a platform device (`loadsFromDevice`). -/
theorem loadResults : Obligations.LoadResults := by
  intro rz rx o5 o8 o12 s
  have b16 := loadStore16b rz rx s o5
  have b32 := loadStore32b rz rx s o12
  have h16 := loadStore16h rz rx s o5
  have h32 := loadStore32h rz rx s o12
  have w16 := loadStore16w rz rx s o5
  have wsp := loadStore16wsp rz s o8
  have w32 := loadStore32w rz rx s o12
  exact ⟨b16.loadsFrom, b32.loadsFrom, h16.loadsFrom, h32.loadsFrom, w16.loadsFrom, wsp.loadsFrom, w32.loadsFrom,
    b16.loadsFromDevice, b32.loadsFromDevice, h16.loadsFromDevice, h32.loadsFromDevice, w16.loadsFromDevice, wsp.loadsFromDevice,
    w32.loadsFromDevice⟩

/-- Settles O14: each store form is a `LoadStore`, whose store writes memory (`storesTo`), is refused in the instruction stream
(`refusedInStream`), or goes to a platform device (`storesToDevice`). -/
theorem storeResults : Obligations.StoreResults := by
  intro rz rx o5 o8 o12 s
  have b16 := loadStore16b rz rx s o5
  have b32 := loadStore32b rz rx s o12
  have h16 := loadStore16h rz rx s o5
  have h32 := loadStore32h rz rx s o12
  have w16 := loadStore16w rz rx s o5
  have wsp := loadStore16wsp rz s o8
  have w32 := loadStore32w rz rx s o12
  exact ⟨b16.storesTo, b32.storesTo, h16.storesTo, h32.storesTo, w16.storesTo, wsp.storesTo, w32.storesTo,
    b16.refusedInStream, b32.refusedInStream, h16.refusedInStream, h32.refusedInStream, w16.refusedInStream, wsp.refusedInStream,
    w32.refusedInStream,
    b16.storesToDevice, b32.storesToDevice, h16.storesToDevice, h32.storesToDevice, w16.storesToDevice, wsp.storesToDevice,
    w32.storesToDevice⟩

end Sys2Proof.Machine

/-! Support for the statements of 45_stack_multi.md. What a pushed and a popped stack frame is, and how an instruction that pushes or pops ends. -/

namespace Sys2Proof.Machine

/-! ### The gaps between the words (R150) -/

@[simp] theorem landed_regs (k : Nat) (s : State) : (landed k s).regs = s.regs := by rw [landed_eq]
@[simp] theorem landed_psr (k : Nat) (s : State) : (landed k s).psr = s.psr := by rw [landed_eq]

@[simp] theorem readReg_landed (q : Reg) (k : Nat) (s : State) : readReg q (landed k s) = readReg q s :=
  readReg_congr q (landed_regs k s) (congrArg Psr.s (landed_psr k s))

/-- Gaps that write no byte of `n` words are fewer gaps that write none. -/
theorem gapsMiss_mono {s : State} {j k n : Nat} {a : Word} (hjk : j ≤ k) (h : gapsMiss s k n a) : gapsMiss s j n a :=
  fun ws hws => h ws (List.take_subset_take_left _ hjk hws)

/-- The gaps after the first `j` are those of a state that has used up `j`. -/
theorem gapsMiss_drop {s t : State} {j k n : Nat} {a : Word} (ht : t.between = s.between.drop j) (h : gapsMiss s (j + k) n a) :
    gapsMiss t k n a := fun ws hws => by
  refine h ws ?_
  rw [List.take_add]
  exact List.mem_append_right _ (ht ▸ hws)

/-- A word of which the gaps write no byte reads as before them. -/
theorem wordAt_landed {s : State} {a : Word} {k m n : Nat} (hk : k < n) (hn : n ≤ 1000) (h : gapsMiss s m n a) :
    wordAt (landed m s) a k = wordAt s a k := by
  induction m generalizing s with
  | zero => rfl
  | succ m ih =>
    have first : gapsMiss s 1 n a := gapsMiss_mono (Nat.succ_pos m) h
    have rest : gapsMiss (interleave s) m n a := gapsMiss_drop (by simp) (Nat.add_comm m 1 ▸ h)
    exact (ih rest).trans (wordAt_interleave hk hn first)

/-- A stored word still stands in memory after as many further gaps, when none of them writes the words. -/
theorem wordAt_landed_of_wordsStored {s t : State} {vs : List Word} {a : Word} {k : Nat} (hl : vs.length ≤ 1000)
    (hst : wordsStored (vs.length - 1) s t vs a) (hb : t.between = s.between.drop (vs.length - 1))
    (hq : gapsMiss s (2 * (vs.length - 1)) vs.length a) (hk : k < vs.length) : wordAt (landed k t) a k = vs.getD k 0#32 := by
  have before : gapsMiss s (vs.length - 1) vs.length a := gapsMiss_mono (by omega) hq
  have after : gapsMiss t k vs.length a := gapsMiss_drop hb (gapsMiss_mono (by omega) hq)
  exact (wordAt_landed hk hl after).trans (hst.1 before k hk)

/-! ### Several registers written at once -/

/-- Register writes change the register file only. -/
theorem writeRegs_eq (l : List (Reg × Word)) (s : State) : writeRegs l s = { s with regs := (writeRegs l s).regs } := by
  induction l generalizing s with
  | nil => rfl
  | cons p l ih => exact ih (writeReg p.1 p.2 s)

@[simp] theorem writeRegs_psr (l : List (Reg × Word)) (s : State) : (writeRegs l s).psr = s.psr := by rw [writeRegs_eq]

/-- A register that does not exist reads 0 (R21). -/
theorem readReg_absent {q : Reg} (h : implemented q = false) (s : State) : readReg q s = 0#32 := by
  cases q with
  | r9 | r10 | r11 | r12 => rfl
  | r0 | r1 | r2 | r3 | r4 | r5 | r6 | r7 | r8 | r13 | r14 | r15 => cases h

/-- A register that is not in the list keeps its value. -/
theorem readReg_writeRegs_of_notMem {q : Reg} {regs : List Reg} (h : q ∉ regs) (vs : List Word) (s : State) :
    readReg q (writeRegs (regs.zip vs) s) = readReg q s := by
  induction regs generalizing vs s with
  | nil => rfl
  | cons r regs ih =>
    obtain ⟨hr, hq⟩ := List.ne_and_not_mem_of_not_mem_cons h
    cases vs with
    | nil => rfl
    | cons v vs => rw [List.zip_cons_cons, writeRegs, ih hq, readReg_writeReg, if_neg fun hc => hr hc.1]

/-- Register `k` of a list without repetitions holds value `k`, when it exists. -/
theorem readReg_writeRegs_of_getElem? {q : Reg} {regs : List Reg} {vs : List Word} (hn : regs.Nodup) (hl : vs.length = regs.length) {k : Nat}
    (hk : regs[k]? = some q) (s : State) :
    readReg q (writeRegs (regs.zip vs) s) = if implemented q = true then vs.getD k 0#32 else 0#32 := by
  induction regs generalizing vs k s with
  | nil => cases hk
  | cons r regs ih =>
    obtain ⟨hr, hn⟩ := List.nodup_cons.mp hn
    cases vs with
    | nil => cases hl
    | cons v vs =>
      rw [List.zip_cons_cons, writeRegs]
      cases k with
      | zero =>
        obtain rfl : r = q := Option.some.inj hk
        rw [readReg_writeRegs_of_notMem hr, readReg_writeReg]
        cases hi : implemented r with
        | true => simp
        | false => simpa using readReg_absent hi s
      | succ k => exact ih hn (Nat.succ.inj hl) hk _

/-- Register writes leave the other mode's stack pointer. -/
theorem writeRegs_otherStack (l : List (Reg × Word)) (s : State) :
    (s.psr.s = true → (writeRegs l s).regs.usp = s.regs.usp) ∧ (s.psr.s = false → (writeRegs l s).regs.ssp = s.regs.ssp) := by
  induction l generalizing s with
  | nil => exact ⟨fun _ => rfl, fun _ => rfl⟩
  | cons p l ih =>
    obtain ⟨hu, hs⟩ := writeReg_otherStack p.1 p.2 s
    obtain ⟨ihu, ihs⟩ := ih (writeReg p.1 p.2 s)
    exact ⟨fun h => (ihu h).trans (hu h), fun h => (ihs h).trans (hs h)⟩

/-- Two register files are equal when every register reads the same and the other mode's stack pointer is the same. -/
theorem regs_eq_of_readReg {s t : State} (hm : t.psr.s = s.psr.s) (hr : ∀ q, readReg q t = readReg q s)
    (hu : s.psr.s = true → t.regs.usp = s.regs.usp) (hs : s.psr.s = false → t.regs.ssp = s.regs.ssp) : t.regs = s.regs := by
  have pointers : t.regs.ssp = s.regs.ssp ∧ t.regs.usp = s.regs.usp := by
    have h14 := hr .r14
    cases h : s.psr.s with
    | true => exact ⟨by simpa [readReg, hm, h] using h14, hu h⟩
    | false => exact ⟨hs h, by simpa [readReg, hm, h] using h14⟩
  obtain ⟨hssp, husp⟩ := pointers
  calc t.regs = ⟨readReg .r0 t, readReg .r1 t, readReg .r2 t, readReg .r3 t, readReg .r4 t, readReg .r5 t, readReg .r6 t, readReg .r7 t,
        readReg .r8 t, readReg .r13 t, readReg .r15 t, t.regs.ssp, t.regs.usp⟩ := rfl
    _ = s.regs := by simp only [hr, hssp, husp]; rfl

/-! ### The supervisor stack pointer (R21) -/

section
variable {s : State}

theorem readReg_sp_supervisor (hs : s.psr.s = true) : readReg .r14 s = s.regs.ssp := if_pos hs

theorem writeReg_sp_supervisor (hs : s.psr.s = true) (v : Word) : writeReg .r14 v s = { s with regs := { s.regs with ssp := v } } :=
  congrArg (fun g => { s with regs := g }) (if_pos hs)

end

/-! ### The state after a push -/

/-- The state after words are pushed: they stand below SP, and SP is lowered to the first of them. -/
def pushed (vs : List Word) (s : State) : State :=
  { writeReg .r14 (readReg .r14 s - wordsBytes vs.length) s with
    mem := (storedState vs (readReg .r14 s - wordsBytes vs.length) s).mem
    between := s.between.drop (vs.length - 1) }

section
variable {vs : List Word} {s : State}

theorem pushWords_eq_pushed (ha : (readReg .r14 s).toNat % 4 = 0)
    (hw : wordsWritable s vs.length (readReg .r14 s - wordsBytes vs.length)) : pushWords vs s = .ok () (pushed vs s) := by
  rw [pushWords_writable vs s ha hw, storedState_eq]
  rfl

theorem pushed_supervisor (hs : s.psr.s = true) (vs : List Word) : pushed vs s = { s with
    regs := { s.regs with ssp := readReg .r14 s - wordsBytes vs.length }
    mem := (pushed vs s).mem
    between := s.between.drop (vs.length - 1) } := by
  rw [pushed, writeReg_sp_supervisor hs]

theorem regWritten_pushed {t : State} (hr : t.regs = (pushed vs s).regs) (hp : t.psr.s = s.psr.s) :
    regWritten .r14 (readReg .r14 s - wordsBytes vs.length) s t :=
  regWritten_congr (regWritten_writeReg .r14 _ s) hr hp

theorem wordsStored_pushed {t : State} (hl : vs.length ≤ 1000) (hm : t.mem = (pushed vs s).mem) (hc : t.cfg = s.cfg) :
    wordsStored (vs.length - 1) s t vs (readReg .r14 s - wordsBytes vs.length) :=
  wordsStored_storedState hl hm hc

end

/-! ### The state after a pop -/

/-- The state after words are popped into registers. -/
def popped (regs : List Reg) (s : State) : State :=
  popRegs regs (wordsAt s regs.length (readReg .r14 s)) (landed (regs.length - 1) s)

section
variable {regs : List Reg} {s : State}

/-- A pop changes the register file, and memory where the gaps write it. -/
theorem popped_eq (regs : List Reg) (s : State) : popped regs s = { landed (regs.length - 1) s with regs := (popped regs s).regs } := by
  have h := writeRegs_eq (regs.zip (wordsAt s regs.length (readReg .r14 s))) (landed (regs.length - 1) s)
  rw [popped, popRegs, h]
  rfl

theorem popped_psr (regs : List Reg) (s : State) : (popped regs s).psr = s.psr := by
  rw [popped_eq]
  exact landed_psr _ s

theorem byteAt_popped {x : Word} (h : gapsSpare s (regs.length - 1) x) : byteAt (popped regs s) x = byteAt s x := by
  rw [popped_eq]
  exact landed_byte _ s x h

theorem readReg_popped_sp (regs : List Reg) (s : State) :
    readReg .r14 (popped regs s) = readReg .r14 s + wordsBytes regs.length := by
  rw [popped, popRegs, readReg_writeReg, if_pos ⟨rfl, rfl⟩, readReg_landed]

theorem readReg_popped_of_notMem {q : Reg} (hq : q ∉ regs) (h14 : q ≠ .r14) : readReg q (popped regs s) = readReg q s := by
  rw [popped, popRegs, readReg_writeReg, if_neg fun hc => h14 hc.1, readReg_writeRegs_of_notMem hq, readReg_landed]

/-- Register `k` of the list holds word `k`, read after `k` gaps. -/
theorem readReg_popped_of_getElem? {q : Reg} {k : Nat} (hn : regs.Nodup) (h14 : .r14 ∉ regs) (hk : regs[k]? = some q) :
    readReg q (popped regs s) = if implemented q = true then wordAt (landed k s) (readReg .r14 s) k else 0#32 := by
  obtain ⟨hlt, hget⟩ := List.getElem?_eq_some_iff.mp hk
  have hq : q ≠ .r14 := fun e => h14 (e ▸ hget ▸ List.getElem_mem hlt)
  rw [popped, popRegs, readReg_writeReg, if_neg fun hc => hq hc.1, readReg_writeRegs_of_getElem? hn (wordsAt_length _ _ _) hk,
    wordsAt_getD _ _ _ _ hlt]

theorem popped_otherStack (regs : List Reg) (s : State) :
    (s.psr.s = true → (popped regs s).regs.usp = s.regs.usp) ∧ (s.psr.s = false → (popped regs s).regs.ssp = s.regs.ssp) := by
  obtain ⟨hu, hs⟩ := writeRegs_otherStack (regs.zip (wordsAt s regs.length (readReg .r14 s))) (landed (regs.length - 1) s)
  obtain ⟨hu', hs'⟩ := writeReg_otherStack .r14 (readReg .r14 (landed (regs.length - 1) s) + wordsBytes regs.length)
    (writeRegs (regs.zip (wordsAt s regs.length (readReg .r14 s))) (landed (regs.length - 1) s))
  rw [writeRegs_psr, landed_psr] at hu' hs'
  rw [landed_psr, landed_regs] at hu hs
  exact ⟨fun h => (hu' h).trans (hu h), fun h => (hs' h).trans (hs h)⟩

/-- The registers that IPOP16 does not name, SP apart, are as before (R355). -/
theorem popped_contextRegs (s : State) : (popped contextRegs s).regs = { (popped contextRegs s).regs with
    r4 := s.regs.r4, r5 := s.regs.r5, r6 := s.regs.r6, r7 := s.regs.r7, r8 := s.regs.r8, r15 := s.regs.r15 } :=
  calc (popped contextRegs s).regs = { (popped contextRegs s).regs with
          r4 := readReg .r4 (popped contextRegs s), r5 := readReg .r5 (popped contextRegs s), r6 := readReg .r6 (popped contextRegs s)
          r7 := readReg .r7 (popped contextRegs s), r8 := readReg .r8 (popped contextRegs s), r15 := readReg .r15 (popped contextRegs s) } := rfl
    _ = { (popped contextRegs s).regs with
          r4 := readReg .r4 s, r5 := readReg .r5 s, r6 := readReg .r6 s, r7 := readReg .r7 s, r8 := readReg .r8 s, r15 := readReg .r15 s } := by
      simp (disch := decide) only [readReg_popped_of_notMem]

/-- A pop restores the register file from which SP was lowered by as many words, when they are what the listed registers held. -/
theorem popped_regs_of_pushed {t : State} (hn : regs.Nodup) (h14 : .r14 ∉ regs) (hp : t.psr.s = s.psr.s)
    (hw : regWritten .r14 (readReg .r14 s - wordsBytes regs.length) s t)
    (hword : ∀ k q, regs[k]? = some q → wordAt (landed k t) (readReg .r14 t) k = readReg q s) : (popped regs t).regs = s.regs := by
  obtain ⟨hreads, husp, hssp⟩ := hw
  obtain ⟨husp', hssp'⟩ := popped_otherStack regs t
  have restored (q : Reg) : readReg q (popped regs t) = readReg q s := by
    by_cases hmem : q ∈ regs
    case pos =>
      obtain ⟨k, hk⟩ := List.mem_iff_getElem?.mp hmem
      rw [readReg_popped_of_getElem? hn h14 hk, hword k q hk]
      cases hi : implemented q with
      | true => rfl
      | false => exact (readReg_absent hi s).symm
    case neg =>
      by_cases hq : q = .r14
      case pos =>
        have hlow : readReg .r14 t = readReg .r14 s - wordsBytes regs.length := hreads .r14
        rw [hq, readReg_popped_sp, hlow]
        exact BitVec.sub_add_cancel _ _
      case neg => rw [readReg_popped_of_notMem hmem hq, hreads, if_neg fun hc => hq hc.1]
  refine regs_eq_of_readReg (by rw [popped_psr, hp]) restored (fun h => ?_) fun h => ?_
  · exact (husp' (hp.trans h)).trans (husp h)
  · exact (hssp' (hp.trans h)).trans (hssp h)

end

/-! ### How an instruction that pushes or pops ends -/

section
variable {i : Instr} {s : State} {vs : List Word} {n : Nat}

theorem pushInStream_of_exec {k : Unit → State → Result} (hi : exec i s = complete s.pc (pushWords vs s) k)
    (ha : (readReg .r14 s).toNat % 4 = 0) (j : Nat) : pushInStream i vs j s := fun hj hw hd => by
  rw [hi, pushWords_inStream j vs s ha hj hw hd]
  rfl

theorem pushFails_of_exec {k : Unit → State → Result} (hi : exec i s = complete s.pc (pushWords vs s) k)
    (ha : (readReg .r14 s).toNat % 4 = 0) (hl : vs.length ≤ 1000) (j : Nat) : pushFails i vs j s := by
  unfold pushFails
  intro base hj hw hd
  have hlen : (vs.take j).length = j := List.length_take_of_le (Nat.le_of_lt hj)
  have hframe := storedPart_frame (vs.take j) base s
  have hstored := wordsStored_storedPart (vs.take j) base s (by omega)
  rw [hlen] at hframe hstored
  refine ⟨storedPart (vs.take j) base s, ?_, hframe, hstored⟩
  have hraise : pushWords vs s = .raise vecAccess (storedPart (vs.take j) base s) := by
    rw [pushWords, multiAccess_aligned _ ha, wordsBytes, storeWords_fails j vs base s hj hw hd]
    rfl
  rw [hi, hraise]
  rfl

theorem popFails_of_exec {k : List Word → State → Result} (hi : exec i s = complete s.pc (popWords n s) k)
    (ha : (readReg .r14 s).toNat % 4 = 0) (j : Nat) : popFails i n j s := fun hj hr hd => by
  rw [hi, popWords, multiAccess_aligned _ ha, loadWords_fails j n _ s hj hr hd]
  rfl

/-- A push whose words can all be written completes, two bytes on (R350, R354, R358). -/
theorem exec_push_completes (hi : exec i s = complete s.pc (pushWords vs s) fun _ t => .next (advance 2#32 t))
    (ha : (readReg .r14 s).toNat % 4 = 0) (hl : vs.length ≤ 1000)
    (hw : wordsWritable s vs.length (readReg .r14 s - wordsBytes vs.length)) :
    ∃ t, exec i s = .next t ∧ t.pc = pcAfter s 2#32 ∧ regWritten .r14 (readReg .r14 s - wordsBytes vs.length) s t ∧
      t = { s with regs := t.regs, mem := t.mem, between := s.between.drop (vs.length - 1), pc := t.pc } ∧
      wordsStored (vs.length - 1) s t vs (readReg .r14 s - wordsBytes vs.length) := by
  refine ⟨advance 2#32 (pushed vs s), ?_, rfl, regWritten_pushed rfl rfl, rfl, wordsStored_pushed hl rfl rfl⟩
  rw [hi, pushWords_eq_pushed ha hw]
  rfl

end

/-! ### The meaning of each of the six instructions -/

section
variable {s : State}

theorem exec_push16 (r15 : Bool) (l : BitVec 4) (s : State) : exec (.push16 r15 l) s =
    complete s.pc (pushWords ((regList r15 l).map fun r => readReg r s) s) fun _ t => .next (advance 2#32 t) := rfl

theorem exec_pop16 (r15 : Bool) (l : BitVec 4) (s : State) : exec (.pop16 r15 l) s =
    complete s.pc (popWords (regList r15 l).length s) fun vs t =>
      .next (jumpTo (readReg .r15 (popRegs (regList r15 l) vs t)) (popRegs (regList r15 l) vs t)) := rfl

theorem exec_ipush16 (hn : s.cfg.hasNestAccel = true) : exec .ipush16 s =
    complete s.pc (pushWords [s.regs.r0, s.regs.r1, s.regs.r2, s.regs.r3, 0#32, s.regs.r13] s) fun _ t => .next (advance 2#32 t) :=
  needsNestAccel_present hn _

theorem exec_ipop16 (hn : s.cfg.hasNestAccel = true) : exec .ipop16 s =
    complete s.pc (popWords 6 s) fun vs t => .next (advance 2#32 (popRegs contextRegs vs t)) :=
  needsNestAccel_present hn _

theorem exec_nie16 (hn : s.cfg.hasNestAccel = true) (hs : s.psr.s = true) : exec .nie16 s =
    complete s.pc (pushWords [psrWord s.epsr, s.epc] s) fun _ t =>
      .next (advance 2#32 { t with psr := { t.psr with ee := true, ie := true }, nieShadow := true }) :=
  (needsNestAccel_present hn _).trans (privileged_supervisor hs _)

theorem exec_nir16 (hn : s.cfg.hasNestAccel = true) (hs : s.psr.s = true) : exec .nir16 s =
    complete s.pc (popWords 2 s) fun vs t => .next (returnFromException
      { writeReg .r14 (readReg .r14 t + 8#32) t with epsr := psrOfWord (vs.getD 0 0#32), epc := vs.getD 1 0#32 }) :=
  (needsNestAccel_present hn _).trans (privileged_supervisor hs _)

theorem regList_nodup (r15 : Bool) (l : BitVec 4) : (regList r15 l).Nodup := by
  revert r15 l
  decide

theorem sp_notMem_regList (r15 : Bool) (l : BitVec 4) : .r14 ∉ regList r15 l := by
  revert r15 l
  decide

theorem regList_map_length_le (r15 : Bool) (l : BitVec 4) (f : Reg → Word) : ((regList r15 l).map f).length ≤ 1000 := by
  have := regList_length r15 l
  rw [List.length_map]
  omega

/-- A push of a list completes when its words can be written (R350). -/
theorem exec_push16_completes {r15 : Bool} {l : BitVec 4} (ha : (readReg .r14 s).toNat % 4 = 0)
    (hw : wordsWritable s (regList r15 l).length (readReg .r14 s - wordsBytes (regList r15 l).length)) :
    ∃ t, exec (.push16 r15 l) s = .next t ∧ t.pc = pcAfter s 2#32 ∧
      regWritten .r14 (readReg .r14 s - wordsBytes (regList r15 l).length) s t ∧
      t = { s with regs := t.regs, mem := t.mem, between := s.between.drop ((regList r15 l).length - 1), pc := t.pc } ∧
      wordsStored ((regList r15 l).length - 1) s t ((regList r15 l).map fun r => readReg r s)
        (readReg .r14 s - wordsBytes (regList r15 l).length) := by
  have h := exec_push_completes (exec_push16 r15 l s) ha (regList_map_length_le r15 l _)
  rw [List.length_map] at h
  exact h hw

/-- A pop of a list whose words can be read answers the popped state, at the address in R15. -/
theorem exec_pop16_readable {r15 : Bool} {l : BitVec 4} (ha : (readReg .r14 s).toNat % 4 = 0)
    (hr : wordsReadable s (regList r15 l).length (readReg .r14 s)) : exec (.pop16 r15 l) s =
      .next (jumpTo (readReg .r15 (popped (regList r15 l) s)) (popped (regList r15 l) s)) := by
  rw [exec_pop16, popWords_readable _ s ha hr]
  rfl

end

end Sys2Proof.Machine

/-! The statements of 45_stack_multi.md (R350 to R360). -/

namespace Sys2Proof.Machine

/-- Settles O20: the push of the list's registers completes (`exec_push16_completes`) or is refused at a word in the instruction stream. -/
theorem pushStoresTheList : Obligations.PushStoresTheList := by
  intro r15 l s regs base ha
  exact ⟨exec_push16_completes ha, pushInStream_of_exec (exec_push16 r15 l s) ha⟩

/-- Settles O21: what each register reads in the popped state. -/
theorem popLoadsTheListAndReturns : Obligations.PopLoadsTheListAndReturns := by
  intro r15 l s regs ha hr
  obtain ⟨husp, hssp⟩ := popped_otherStack (regList r15 l) s
  refine ⟨_, exec_pop16_readable ha hr, ?listed, ?sp, ?others, husp, hssp, ?pc, ?frame, ?memory⟩
  case listed => exact fun k _ q hk => readReg_popped_of_getElem? (regList_nodup r15 l) (sp_notMem_regList r15 l) hk
  case sp => exact readReg_popped_sp (regList r15 l) s
  case others => exact fun q hq h14 => readReg_popped_of_notMem hq h14
  case pc => rfl
  case frame => exact congrArg (jumpTo _) (popped_eq (regList r15 l) s)
  case memory => exact fun x hx => byteAt_popped hx

/-- Settles O22: the failing word raises AccessError, for the three that push (`pushFails_of_exec`) and the three that pop
(`popFails_of_exec`). -/
theorem multiWordAccessError : Obligations.MultiWordAccessError := by
  intro r15 l j s ha
  refine ⟨pushFails_of_exec (exec_push16 r15 l s) ha (regList_map_length_le r15 l _) j, popFails_of_exec (exec_pop16 r15 l s) ha j,
    fun hn => ⟨pushFails_of_exec (exec_ipush16 hn) ha (by simp) j, popFails_of_exec (exec_ipop16 hn) ha j, fun hs => ?nested⟩⟩
  case nested => exact ⟨pushFails_of_exec (exec_nie16 hn hs) ha (by simp) j, popFails_of_exec (exec_nir16 hn hs) ha j⟩

/-- Settles O23: IPUSH16 is a push like PUSH16's; after IPOP16 the six registers hold the words popped and the others are as before. -/
theorem interruptContextSaveRestore : Obligations.InterruptContextSaveRestore := by
  intro s hn ha
  refine ⟨exec_push_completes (exec_ipush16 hn) ha (by simp), pushInStream_of_exec (exec_ipush16 hn) ha, fun hr => ?pop⟩
  case pop =>
    have hexec : exec .ipop16 s = .next (advance 2#32 (popped contextRegs s)) := by
      rw [exec_ipop16 hn, popWords_readable 6 s ha hr]
      rfl
    have loaded {q : Reg} {k : Nat} (hk : contextRegs[k]? = some q) := readReg_popped_of_getElem? (s := s) (by decide) (by decide) hk
    obtain ⟨husp, hssp⟩ := popped_otherStack contextRegs s
    refine ⟨_, hexec, ?pc, fun x hx => byteAt_popped hx, ?frame, husp, hssp, loaded (k := 0) rfl, loaded (k := 1) rfl, loaded (k := 2) rfl,
      loaded (k := 3) rfl, loaded (k := 5) rfl, readReg_popped_sp contextRegs s⟩
    case pc =>
      rw [popped_eq, landed_eq]
      rfl
    case frame =>
      have hregs := congrArg (fun g => { landed 5 s with regs := g }) (popped_contextRegs s)
      exact congrArg (fun t => { t with pc := nextPc 2#32 (popped contextRegs s) }) ((popped_eq contextRegs s).trans hregs)

/-- Settles O24: in supervisor mode the pushed state lowers SSP. -/
theorem nestingEntry : Obligations.NestingEntry := by
  intro s hn hs ha
  have hsp := readReg_sp_supervisor hs
  rw [← hsp] at ha ⊢
  refine ⟨fun hw => ?completes, pushInStream_of_exec (exec_nie16 hn hs) ha⟩
  case completes =>
    have hexec := exec_nie16 hn hs
    rw [pushWords_eq_pushed (vs := [psrWord s.epsr, s.epc]) ha hw] at hexec
    refine ⟨_, hexec, wordsStored_pushed (vs := [psrWord s.epsr, s.epc]) (by simp) rfl rfl, ?_⟩
    exact congrArg (fun t => advance 2#32 { t with psr := { t.psr with ee := true, ie := true }, nieShadow := true })
      (pushed_supervisor hs [psrWord s.epsr, s.epc])

/-- Settles O25: the exception return of the EPSR and EPC that were popped; PSR's fields are those of the word by definition. -/
theorem nestingReturn : Obligations.NestingReturn := by
  intro s hn hs ha hr
  have hsp := readReg_sp_supervisor hs
  rw [← hsp] at ha hr ⊢
  refine ⟨?exec, rfl, rfl, rfl, rfl, rfl, rfl, rfl⟩
  case exec =>
    have hs' : (landed 1 s).psr.s = true := by rw [landed_psr, hs]
    rw [exec_nir16 hn hs, popWords_readable 2 s ha hr, complete_ok, wordsAt_getD _ _ _ _ (by decide), wordsAt_getD _ _ _ _ (by decide),
      writeReg_sp_supervisor hs', readReg_landed]
    rfl

/-- Settles O26: the words that PUSH16 stored (O20) are those that POP16 loads (O21), since no gap writes the frame; so every register reads
what it read before the push. -/
theorem popUndoesPush : Obligations.PopUndoesPush := by
  intro r15 l s t n base ha hw hr hq hpush
  obtain ⟨t', hpush', -, hsp, hframe, hstored⟩ := exec_push16_completes ha hw
  obtain rfl : t = t' := Host.Outcome.next.inj (hpush.symm.trans hpush')
  have hpsr : t.psr = s.psr := by rw [hframe]
  have hbase : readReg .r14 t = base := hsp.1 .r14
  have hat : (readReg .r14 t).toNat % 4 = 0 := by
    rw [hbase]
    simp only [base, BitVec.toNat_sub, BitVec.toNat_ofNat]
    omega
  have hrt : wordsReadable t n (readReg .r14 t) := by
    rw [hbase, hframe]
    exact fun k hk => (readable_congr rfl rfl rfl rfl rfl).mpr (hr k hk)
  have hwords {k : Nat} {q : Reg} (hk : (regList r15 l)[k]? = some q) : wordAt (landed k t) (readReg .r14 t) k = readReg q s := by
    have hkn : k < n := (List.getElem?_eq_some_iff.mp hk).1
    have hlen : ((regList r15 l).map fun r => readReg r s).length = n := List.length_map _
    rw [← hlen] at hq hkn
    have hbetween : t.between = s.between.drop (((regList r15 l).map fun r => readReg r s).length - 1) := by rw [hframe, hlen]
    rw [hbase, wordAt_landed_of_wordsStored (regList_map_length_le r15 l _) (by rw [hlen]; exact hstored) hbetween hq hkn,
      List.getD_eq_getElem?_getD, List.getElem?_map, hk]
    rfl
  have hregs : (popped (regList r15 l) t).regs = s.regs :=
    popped_regs_of_pushed (regList_nodup r15 l) (sp_notMem_regList r15 l) (congrArg Psr.s hpsr) hsp fun _ _ => hwords
  refine ⟨_, exec_pop16_readable hat hrt, hregs, ?pc, congrArg (jumpTo _) (popped_eq (regList r15 l) t)⟩
  case pc => exact congrArg (fun g : Regs => evenAddr g.r15) hregs

end Sys2Proof.Machine

/-! The statements of 46_system.md: control-register moves (R370, R371), the bits that PSRSET32 and PSRCLR32 reach (R374, R375), exception
return (R376), SYNC32 and IDLY32 (R380, R385), low-power entry (R382 to R384), and privilege and presence (R388, R190). -/

namespace Sys2Proof.Machine

/-! ### The words of the control registers, field by field (R42, R55, R57, R58, R62) -/

/-- R42: the fields of PSR stand at their places, and its reserved bits read 0. -/
theorem psrWord_fields (p : Psr) : let w := psrWord p
    w.getLsbD 31 = p.s ∧ w.extractLsb' 16 8 = p.vec ∧ w.getLsbD 9 = p.mm ∧ w.getLsbD 8 = p.ee ∧ w.getLsbD 7 = p.ic ∧
      w.getLsbD 6 = p.ie ∧ w.getLsbD 0 = p.c ∧ w &&& 0x7F00FC3E#32 = 0#32 := by
  rw [psrWord]
  refine ⟨?_, ?vec, ?_, ?_, ?_, ?_, ?_, ?reserved⟩
  case vec =>
    repeat rw [BitVec.extractLsb'_append_eq_of_le (by decide)]
    exact lowByte_append _ p.vec
  case reserved =>
    have mask : 0x7F00FC3E#32 = 0#1 ++ BitVec.allOnes 7 ++ 0#8 ++ BitVec.allOnes 6 ++ 0#1 ++ 0#1 ++ 0#1 ++ 0#1 ++ BitVec.allOnes 5 ++ 0#1 := by
      decide
    rw [mask, BitVec.and_append]
    simp only [BitVec.and_append, BitVec.and_zero, BitVec.zero_and]
    decide
  all_goals
    repeat rw [BitVec.getLsbD_append]
    simp

/-- R55: the fields of CCR stand at their places, and its reserved bits read 0. -/
theorem ccrWord_fields (s : State) : let w := ccrWord s
    w.getLsbD 0 = s.mpuOn ∧ w.getLsbD 7 = s.cfg.bigEndian ∧ w.extractLsb' 8 3 = s.cfg.sck ∧ w.getLsbD 13 = s.cfg.beV2 ∧
      w &&& 0xFFFFD87E#32 = 0#32 := by
  rw [ccrWord]
  refine ⟨?_, ?_, ?sck, ?_, ?reserved⟩
  case sck =>
    repeat rw [BitVec.extractLsb'_append_eq_of_le (by decide)]
    exact (BitVec.extractLsb'_append_eq_of_add_le (by decide)).trans BitVec.extractLsb'_eq_self
  case reserved =>
    have mask : 0xFFFFD87E#32 = BitVec.allOnes 18 ++ 0#1 ++ BitVec.allOnes 2 ++ 0#3 ++ 0#1 ++ BitVec.allOnes 5 ++ 1#1 ++ 0#1 := by decide
    rw [mask, BitVec.and_append]
    simp only [BitVec.and_append, BitVec.and_zero, BitVec.zero_and]
    decide
  all_goals
    repeat rw [BitVec.getLsbD_append]
    simp

/-- R62: IAE is CHR's bit 4, and every other bit reads 0. -/
theorem chrWord_fields (b : Bool) : (chrWord b).getLsbD 4 = b ∧ chrWord b &&& 0xFFFFFFEF#32 = 0#32 := by
  cases b <;> decide

/-- R57: the bits of CAPR that exist: NXn is bit n, APn bits 9 + 2 n and 8 + 2 n, Sn bit 24 + n. -/
theorem getLsbD_caprMask {regions j : Nat} (hr : regions ≤ 8) (hj : j < 32) : (caprMask regions).getLsbD j =
    decide ((if j < 8 then j else if j < 24 then (j - 8) / 2 else j - 24) < regions) := by
  have ones (n i : Nat) (hi : i < 32) : (~~~(BitVec.allOnes 32 <<< n)).getLsbD i = decide (i < n) := by
    rw [BitVec.getLsbD_not, BitVec.getLsbD_shiftLeft, BitVec.getLsbD_allOnes]
    have hin : i - n < 32 := by omega
    simp [hi, hin]
  simp only [caprMask, BitVec.getLsbD_or, BitVec.getLsbD_shiftLeft, hj, decide_true, Bool.true_and]
  rw [ones _ _ hj, ones _ _ (by omega), ones _ _ (by omega), Bool.eq_iff_iff]
  simp only [Bool.or_eq_true, Bool.and_eq_true, Bool.not_eq_true', decide_eq_true_eq, decide_eq_false_iff_not]
  split
  · omega
  · split <;> omega

/-! ### Control-register moves (R370, R371) -/

section
variable {s : State}

theorem controlReg_psr (c : Config) : controlReg c 0 0 = some .psr := rfl

theorem controlReg_epsr (c : Config) : controlReg c 2 0 = some .epsr := rfl

theorem controlReg_epc (c : Config) : controlReg c 4 0 = some .epc := rfl

theorem controlReg_cpuidr (c : Config) : controlReg c 13 0 = some .cpuidr := rfl

theorem controlReg_vbr {c : Config} (h : c.hasVbr = true) : controlReg c 1 0 = some .vbr := if_pos h

theorem controlReg_capr {c : Config} (h : 0 < c.mpuRegions.val) : controlReg c 19 0 = some .capr := if_pos (decide_eq_true h)

theorem controlReg_prsr {c : Config} (h : 0 < c.mpuRegions.val) : controlReg c 21 0 = some .prsr := if_pos (decide_eq_true h)

theorem readControl_of_some {n sel : BitVec 5} {r : ControlReg} (h : controlReg s.cfg n sel = some r) :
    readControl n sel s = readControlReg r s := by
  rw [readControl, h]

theorem readControl_of_none {n sel : BitVec 5} (h : controlReg s.cfg n sel = none) : readControl n sel s = 0#32 := by
  rw [readControl, h]

/-- R58: the number that PRSR reads. -/
theorem readControl_prsr (h : 0 < s.cfg.mpuRegions.val) : readControl 21 0 s = s.prsr.setWidth 32 := by
  rw [readControl_of_some (controlReg_prsr h), BitVec.setWidth_eq_append (by decide)]
  rfl

/-- R59: PACR reads the region that PRSR selects. -/
theorem readControl_pacr (h : s.prsr.toNat < s.cfg.mpuRegions.val) {k : Fin 8} (hk : k.val = s.prsr.toNat) :
    readControl 20 0 s = pacrWord (s.pacr.get k) := by
  have hsel : selectedRegion s = k := Fin.ext hk.symm
  rw [readControl_of_some (controlReg_pacr (Nat.zero_lt_of_lt h)), readControlReg, if_pos (selectedExists_iff.mpr h), hsel]

/-- R58: PACR of a region that does not exist reads 0. -/
theorem readControl_pacr_absent (hm : 0 < s.cfg.mpuRegions.val) (h : s.cfg.mpuRegions.val ≤ s.prsr.toNat) : readControl 20 0 s = 0#32 := by
  rw [readControl_of_some (controlReg_pacr hm), readControlReg, if_neg (by rw [selectedExists_iff]; omega)]

/-- A 32-bit instruction that ends by writing a register is `writesReg` of what it writes. -/
theorem writesReg_of_finish32 {i : Instr} {r : Reg} {v : Word} (h : exec i s = finish32 (writeReg r v s)) : writesReg i 4#32 r v s :=
  ⟨_, h, rfl, regWritten_congr (regWritten_writeReg r v s) rfl rfl, rfl, fun _ => rfl⟩

/-- In supervisor mode MTCR32 to an implemented control register is that register's own write (R371). -/
theorem exec_mtcr32_some (h : s.psr.s = true) {n sel : BitVec 5} {r : ControlReg} (hr : controlReg s.cfg n sel = some r) (rx : Reg) :
    exec (.mtcr32 rx n sel) s = writeControlReg r (readReg rx s) s :=
  (exec_mtcr32_supervisor h rx n sel).trans (writeControl_of_some hr _)

/-- In supervisor mode MTCR32 to a control register that is not implemented only goes on (R41). -/
theorem exec_mtcr32_none (h : s.psr.s = true) {n sel : BitVec 5} (hr : controlReg s.cfg n sel = none) (rx : Reg) :
    exec (.mtcr32 rx n sel) s = finish32 s :=
  (exec_mtcr32_supervisor h rx n sel).trans (writeControl_of_none hr _)

end

/-! ### Exception return (R376, R491) -/

/-- Leaving the handler of a vector below 32 signals nothing to the VIC. -/
theorem vicExit_below {vec : BitVec 8} (h : vec.toNat < 32) (v : Vic) : vicExit vec v = v := if_pos h

/-- Leaving vector 32 + n reaches active bit n, and the threshold's enable when the threshold names that vector. -/
theorem vicExit_interrupt {vec : BitVec 8} (h : 32 ≤ vec.toNat) (v : Vic) : vicExit vec v =
    { v with active := v.active &&& ~~~(sourceBit (vec.toNat - 32)), thrEn := v.thrEn && !(v.thrVec == 0#1 ++ vec) } :=
  if_neg (Nat.not_lt.mpr h)

/-- VIC_IPTR's nine-bit vector names an eight-bit one when the numbers agree (R493). -/
theorem thrVec_names_iff (x : BitVec 9) (vec : BitVec 8) : (x == 0#1 ++ vec) = true ↔ x.toNat = vec.toNat := by
  rw [beq_iff_eq, ← BitVec.toNat_inj, BitVec.toNat_append]
  simp

/-! ### Privilege and presence (R388, R190) -/

theorem needsNestAccel_absent {s : State} (h : s.cfg.hasNestAccel = false) (r : Result) :
    needsNestAccel s r = takeException vecIllegal s.pc s := if_neg (by simp [h])

/-! ### IDLY32 (R385) -/

section
variable {s : State}

theorem exec_idly32_starts (h : s.idlyCount = 0) (imm5 : BitVec 5) :
    exec (.idly32 imm5) s = finish32 { setC false s with idlyCount := nextIdly (imm5.toNat + 1) s } := if_pos h

theorem exec_idly32_inside (h : s.idlyCount ≠ 0) (imm5 : BitVec 5) : exec (.idly32 imm5) s = finish32 s := if_neg h

end

/-! ### The statements -/

/-- Settles O27: MFCR32 writes `readControl`, which for each number is the word of the register that `controlReg` names. -/
theorem controlRegisterReads : Obligations.ControlRegisterReads := by
  intro rz s hs
  refine ⟨fun n sel => writesReg_of_finish32 (exec_mfcr32_supervisor hs rz n sel), psrWord_fields s.psr,
    fun hv => readControl_of_some (controlReg_vbr hv), rfl, psrWord_fields s.epsr, rfl, rfl, ccrWord_fields s, fun hm => ?mpu,
    chrWord_fields s.iae, rfl, fun _ _ => readControl_of_none⟩
  case mpu =>
    exact ⟨readControl_of_some (controlReg_capr hm), readControl_prsr hm, fun h _ hk => readControl_pacr h hk, readControl_pacr_absent hm⟩

/-- Settles O28: each of these registers' own write stores fields of the value and goes on; CAPR's mask is that of the regions that exist. -/
theorem controlRegisterWrites : Obligations.ControlRegisterWrites := by
  intro rx s hs v done
  refine ⟨⟨rfl, rfl, rfl, rfl, rfl, rfl, rfl⟩, exec_mtcr32_some hs (controlReg_psr _) rx, fun hv => exec_mtcr32_some hs (controlReg_vbr hv) rx,
    exec_mtcr32_some hs (controlReg_epsr _) rx, exec_mtcr32_some hs (controlReg_epc _) rx, exec_mtcr32_some hs (controlReg_cpuidr _) rx,
    fun hm => ⟨?capr, ?prsr⟩, exec_mtcr32_some hs (controlReg_usp _) rx, fun _ _ hn => exec_mtcr32_none hs hn rx⟩
  case capr =>
    refine ⟨{ s with capr := v &&& caprMask s.cfg.mpuRegions.val }, exec_mtcr32_some hs (controlReg_capr hm) rx, rfl, fun j hj => ?_⟩
    rw [BitVec.getLsbD_and, getLsbD_caprMask (Nat.lt_succ_iff.mp s.cfg.mpuRegions.isLt) hj]
  case prsr => exact exec_mtcr32_some hs (controlReg_prsr hm) rx

/-- Settles O33: RTE32 is the operation `returnFromException` (whose name keeps this theorem out of `Machine` itself), and its VIC is `vicExit` of
the vector that PSR held. -/
theorem System.returnFromException : Obligations.ReturnFromException := by
  intro s hs
  refine ⟨_, privileged_supervisor hs _, rfl, fun h => vicExit_below h s.vic, fun h => ?interrupt⟩
  case interrupt =>
    rw [returnFromException_vic, vicExit_interrupt h]
    refine ⟨rfl, fun k hk => getLsbD_clearBit _ hk, ?thrEn⟩
    case thrEn => rw [Bool.and_eq_true, Bool.not_eq_true', ← Bool.not_eq_true, thrVec_names_iff]

/-- Settles O37: the presence check comes before the privilege check in NIE16 and NIR16, and each other instruction has at most one of them. -/
theorem privilegeAndPresence : Obligations.PrivilegeAndPresence := by
  intro i s
  refine ⟨fun hp hs hn => ?privilege, fun hi hn => ?presence⟩
  case privilege =>
    cases i with
    | mfcr32 | mtcr32 | psrset32 | psrclr32 | rte32 | stop32 | wait32 | doze32 => exact privileged_user hs _
    | nie16 | nir16 => exact (needsNestAccel_present (hn rfl) _).trans (privileged_user hs _)
    | _ => cases hp
  case presence =>
    cases i with
    | nie16 | nir16 | ipush16 | ipop16 => exact needsNestAccel_absent hn _
    | _ => cases hi

/-- Settles O32: the model's `or` with an operand bit sets exactly when that bit is 1, and its `and` with the complement clears then. -/
theorem psrBitOperations : Obligations.PsrBitOperations := by
  intro imm5 s hs
  have sets (old sel : Bool) : (if sel = true then true else old) = (old || sel) := by cases sel <;> simp
  have clears (old sel : Bool) : (if sel = true then false else old) = (old && !sel) := by cases sel <;> simp
  rw [sets, sets, clears, clears]
  exact ⟨privileged_supervisor hs _, privileged_supervisor hs _⟩

/-- Settles O35: SYNC32, and IDLY32 inside a sequence, are `advance`. -/
theorem syncAndIdly : Obligations.SyncAndIdly := fun _ _ imm5 _ =>
  ⟨goesTo_of_advance rfl, fun h => exec_idly32_starts h imm5, fun h => goesTo_of_advance (exec_idly32_inside h imm5)⟩

/-- Settles O36: each of the three is `sleep` of its mode, which supervisor mode lets through. -/
theorem lowPowerEntry : Obligations.LowPowerEntry := fun _ hs =>
  ⟨privileged_supervisor hs _, privileged_supervisor hs _, privileged_supervisor hs _⟩

end Sys2Proof.Machine

/-! Support for the statements of 60_exceptions.md (R440, R441). What an instruction can reach in user mode: the state of the user until an exception
is entered, and none of the protected registers after it. -/

namespace Sys2Proof.Machine

/-- Everything but what the user's instructions work on: the registers, the PC, C, memory, the gaps that are left, the IDLY32 count, debug mode, the
wait for a slave that never answers, and the number of the next free value. -/
def sameButUser (s t : State) : Prop :=
  t = { s with
    regs := t.regs, pc := t.pc, psr := { s.psr with c := t.psr.c }, mem := t.mem, between := t.between
    idlyCount := t.idlyCount, debugMode := t.debugMode, hung := t.hung, freeCount := t.freeCount }

/-- The registers that neither a user's instruction nor the exception it enters reaches (R440, R441). -/
def sameProtected (s t : State) : Prop :=
  t.vbr = s.vbr ∧ t.mpuOn = s.mpuOn ∧ t.capr = s.capr ∧ t.pacr = s.pacr ∧ t.prsr = s.prsr ∧ t.iae = s.iae ∧ t.regs.ssp = s.regs.ssp

/-- Still in user mode, with nothing changed outside the user's state. -/
structure UserKept (s t : State) : Prop where
  user : t.psr.s = false
  ssp : t.regs.ssp = s.regs.ssp
  frame : sameButUser s t

/-- What an instruction executed in user mode ends in: an exception has been entered, or nothing outside the user's state has changed. -/
def UserConfined (s t : State) : Prop :=
  sameProtected s t ∧ ((t.psr.s = true ∧ t.psr.ee = false ∧ t.psr.ie = false) ∨ sameButUser s t)

section
variable {s t u : State}

/-! ### Changes within the user's state -/

theorem sameButUser.trans (h : sameButUser s t) (h' : sameButUser t u) : sameButUser s u := by
  unfold sameButUser at *
  rw [h', h]

theorem UserKept.refl (hs : s.psr.s = false) : UserKept s s := ⟨hs, rfl, rfl⟩

theorem UserKept.step (h : UserKept s t) (hf : sameButUser t u) (hr : u.regs.ssp = t.regs.ssp) : UserKept s u where
  user := by rw [hf]; exact h.user
  ssp := hr.trans h.ssp
  frame := h.frame.trans hf

/-- In user mode a register write reaches the user's stack pointer, never the supervisor's (R21). -/
theorem UserKept.writeReg (h : UserKept s t) (r : Reg) (v : Word) : UserKept s (writeReg r v t) :=
  h.step rfl ((writeReg_otherStack r v t).2 h.user)

theorem UserKept.writeRegs (h : UserKept s t) (l : List (Reg × Word)) : UserKept s (writeRegs l t) := by
  induction l generalizing t with
  | nil => exact h
  | cons p l ih => exact ih (h.writeReg p.1 p.2)

theorem UserKept.popRegs (h : UserKept s t) (regs : List Reg) (vs : List Word) : UserKept s (popRegs regs vs t) :=
  (h.writeRegs _).writeReg _ _

theorem UserKept.advance (h : UserKept s t) (n : Word) : UserKept s (advance n t) := h.step rfl rfl

theorem UserKept.jumpTo (h : UserKept s t) (a : Word) : UserKept s (jumpTo a t) := h.step rfl rfl

theorem UserKept.branchTo {n : Nat} (h : UserKept s t) (f : BitVec n) : UserKept s (branchTo f t) := h.step rfl rfl

theorem UserKept.setC (h : UserKept s t) (b : Bool) : UserKept s (setC b t) := h.step rfl rfl

theorem UserKept.nextFree (h : UserKept s t) : UserKept s (nextFree t) := h.step rfl rfl

theorem UserKept.setHung (h : UserKept s t) : UserKept s { t with hung := true } := h.step rfl rfl

theorem UserKept.setDebugMode (h : UserKept s t) : UserKept s { t with debugMode := true } := h.step rfl rfl

theorem UserKept.wordGap (h : UserKept s t) (more : Nat) : UserKept s (wordGap more t) := by
  unfold Machine.wordGap
  split
  · exact h
  · exact h.step rfl rfl

/-! ### Accesses in user mode -/

theorem slaveRead_userKept (h : UserKept s t) (k : SlaveKind) (f sup : Bool) (d : Option (BitVec 4)) (z : Size) (a : Word) :
    (slaveRead k f sup d z a t).leaves (UserKept s) := by
  unfold slaveRead
  cases k with
  | memory => exact h
  | device => simp only []; split <;> exact h.nextFree
  | busError => exact h
  | silent => exact h

theorem slaveWrite_userKept (h : UserKept s t) (k : SlaveKind) (f sup : Bool) (d : Option (BitVec 4)) (z : Size) (a v : Word) :
    (slaveWrite k f sup d z a v t).leaves (UserKept s) := by
  unfold slaveWrite
  cases k with
  | memory => exact h.step rfl rfl
  | device => simp only []; split <;> exact h.nextFree
  | busError => exact h
  | silent => exact h

/-- No user access reaches a register of the tightly coupled IP (R113). -/
theorem dataRead_userKept (h : UserKept s t) (f : Bool) (z : Size) (a : Word) : (dataRead f t.psr.s z a t).leaves (UserKept s) := by
  have user {p : Prop} (hs : t.psr.s = true) : p := by rw [h.user] at hs; cases hs
  rcases dataRead_cases f t.psr.s z a t with ⟨_, e⟩ | ⟨_, _, _, e⟩ | ⟨_, _, hs, _⟩ | ⟨_, _, hs, _⟩ | ⟨_, _, e⟩
  · rw [e]; exact h
  · rw [e]; exact h
  · exact user hs
  · exact user hs
  · rw [e]; exact slaveRead_userKept h _ _ _ _ _ _

theorem dataWrite_userKept (h : UserKept s t) (z : Size) (a v : Word) : (dataWrite z a v t).leaves (UserKept s) := by
  have user {p : Prop} (hs : t.psr.s = true) : p := by rw [h.user] at hs; cases hs
  rcases dataWrite_cases z a v t with ⟨_, e⟩ | ⟨_, _, _, e⟩ | ⟨_, _, hs, _⟩ | ⟨_, _, hs, _⟩ | ⟨_, _, _, e⟩ | ⟨_, _, _, e⟩
  · rw [e]; exact h
  · rw [e]; exact h
  · exact user hs
  · exact user hs
  · rw [e]; trivial
  · rw [e]; exact slaveWrite_userKept h _ _ _ _ _ _ _

theorem load_userKept (h : UserKept s t) (z : Size) (a : Word) : (load z a t).leaves (UserKept s) := by
  unfold load
  split
  · exact h
  · exact dataRead_userKept h _ _ _

theorem store_userKept (h : UserKept s t) (z : Size) (a v : Word) : (store z a v t).leaves (UserKept s) := by
  unfold store
  split
  · exact h
  · exact dataWrite_userKept h _ _ _

theorem loadWords_userKept (h : UserKept s t) (n : Nat) (a : Word) : (loadWords n a t).leaves (UserKept s) := by
  induction n generalizing a t with
  | zero => exact h
  | succ n ih => exact leaves_bind (dataRead_userKept h _ _ _) fun _ _ hu => leaves_bind (ih (hu.wordGap n) _) fun _ _ hw => hw

theorem storeWords_userKept (h : UserKept s t) (vs : List Word) (a : Word) : (storeWords vs a t).leaves (UserKept s) := by
  induction vs generalizing a t with
  | nil => exact h
  | cons v vs ih => exact leaves_bind (dataWrite_userKept h _ _ _) fun _ _ hu => ih (hu.wordGap _) _

theorem multiAccess_userKept {α : Type} (h : UserKept s t) {x : Access α} (hx : x.leaves (UserKept s)) :
    (multiAccess t x).leaves (UserKept s) := by
  unfold multiAccess
  split
  · exact h
  · exact hx

theorem pushWords_userKept (h : UserKept s t) (vs : List Word) : (pushWords vs t).leaves (UserKept s) :=
  multiAccess_userKept h (leaves_bind (storeWords_userKept h vs _) fun _ _ hu => hu.writeReg _ _)

theorem popWords_userKept (h : UserKept s t) (n : Nat) : (popWords n t).leaves (UserKept s) :=
  multiAccess_userKept h (loadWords_userKept h n _)

/-! ### How an instruction ends in user mode -/

theorem UserKept.confined (h : UserKept s t) : UserConfined s t := by
  refine ⟨?_, .inr h.frame⟩
  rw [h.frame]
  exact ⟨rfl, rfl, rfl, rfl, rfl, rfl, h.ssp⟩

/-- Taking an exception leaves every protected register (R410). -/
theorem sameButEntry.protected (h : sameButEntry s t) : sameProtected s t := by
  rw [h]
  exact ⟨rfl, rfl, rfl, rfl, rfl, rfl, rfl⟩

theorem sameProtected.trans (h : sameProtected s t) (h' : sameProtected t u) : sameProtected s u := by
  obtain ⟨hvbr, hon, hcapr, hpacr, hprsr, hiae, hssp⟩ := h
  obtain ⟨hvbr', hon', hcapr', hpacr', hprsr', hiae', hssp'⟩ := h'
  exact ⟨hvbr'.trans hvbr, hon'.trans hon, hcapr'.trans hcapr, hpacr'.trans hpacr, hprsr'.trans hprsr, hiae'.trans hiae, hssp'.trans hssp⟩

theorem takeException_userConfined (h : UserKept s t) (vec : BitVec 8) (ret : Word) : leadsTo (UserConfined s) (takeException vec ret t) :=
  leadsTo_of_forall fun _ hu =>
    have ⟨hframe, hmode⟩ := takeException_frame hu
    ⟨h.confined.1.trans hframe.protected, .inl hmode⟩

theorem complete_userConfined {α : Type} {x : Access α} (hx : x.leaves (UserKept s)) {ret : Word} {k : α → State → Result}
    (hk : ∀ v t, UserKept s t → leadsTo (UserKept s) (k v t)) : leadsTo (UserConfined s) (complete ret x k) :=
  complete_leadsTo hx (fun vec _ ht => takeException_userConfined ht vec ret) (fun _ ht => ht.setHung.confined)
    fun v t ht => leadsTo_mono (hk v t ht) fun _ hu => hu.confined

theorem privileged_userConfined (h : UserKept s s) (k : Result) : leadsTo (UserConfined s) (privileged s k) := by
  rw [privileged_user h.user]
  exact takeException_userConfined h _ _

theorem needsNestAccel_userConfined (h : UserKept s s) {k : Result} (hk : leadsTo (UserConfined s) k) :
    leadsTo (UserConfined s) (needsNestAccel s k) := by
  unfold needsNestAccel
  split
  · exact hk
  · exact takeException_userConfined h _ _

theorem finish16_userConfined (h : UserKept s t) {r : Reg} {v : Word} : leadsTo (UserConfined s) (finish16 r v t) :=
  ((h.writeReg r v).advance _).confined

theorem finishC16_userConfined (h : UserKept s t) {b : Bool} : leadsTo (UserConfined s) (finishC16 b t) := ((h.setC b).advance _).confined

theorem finish32_userConfined (h : UserKept s t) : leadsTo (UserConfined s) (finish32 t) := (h.advance _).confined

/-- A conditional branch, taken or not. -/
theorem ite_userConfined {p : Prop} [Decidable p] (ht : UserKept s t) (hu : UserKept s u) :
    leadsTo (UserConfined s) (.next (if p then t else u)) := by
  split
  · exact ht.confined
  · exact hu.confined

theorem execBkpt16_userConfined (h : UserKept s s) : leadsTo (UserConfined s) (execBkpt16 s) := by
  unfold execBkpt16
  split
  · exact h.setDebugMode.confined
  · exact takeException_userConfined h _ _

theorem execIdly32_userConfined (h : UserKept s s) (imm5 : BitVec 5) : leadsTo (UserConfined s) (execIdly32 imm5 s) := by
  unfold execIdly32
  split
  · exact finish32_userConfined (h.step rfl rfl)
  · exact finish32_userConfined h

/-- Every instruction executed in user mode stays within the user's state or enters an exception. -/
theorem exec_userConfined (h : UserKept s s) (i : Instr) : leadsTo (UserConfined s) (exec i s) := by
  cases i with
  | addc16 | subc16 => exact finish16_userConfined (h.setC _)
  | addu16 | addu16r3 | addi16 | addi16r3 | addi16rsp | addi16sp | subu16 | subu16r3 | subi16 | subi16r3 | subi16sp | mult16
  | and16 | andn16 | or16 | xor16 | nor16 | lsl16 | lsr16 | asr16 | rotl16 | lsli16 | lsri16 | asri16
  | zextb16 | zexth16 | sextb16 | sexth16 | mov16 | movi16 | mvcv16 | bclri16 | bseti16 => exact finish16_userConfined h
  | cmpne16 | cmpnei16 | cmphs16 | cmphsi16 | cmplt16 | cmplti16 | tst16 | tstnbz16 | btsti16 => exact finishC16_userConfined h
  | lrw16 | lrw32 => exact complete_userConfined (dataRead_userKept h _ _ _) fun _ _ ht => (ht.writeReg _ _).advance _
  | br16 f | br32 f => exact (h.branchTo f).confined
  | bt16 f => exact ite_userConfined (h.branchTo f) (h.advance _)
  | bf16 f => exact ite_userConfined (h.advance _) (h.branchTo f)
  | bsr32 f => exact ((h.writeReg _ _).branchTo f).confined
  | jmp16 => exact (h.jumpTo _).confined
  | jsr16 => exact ((h.writeReg _ _).jumpTo _).confined
  | ld16b | ld32b | ld16h | ld32h | ld16w | ld16wsp | ld32w =>
    exact complete_userConfined (load_userKept h _ _) fun _ _ ht => (ht.writeReg _ _).advance _
  | st16b | st32b | st16h | st32h | st16w | st16wsp | st32w =>
    exact complete_userConfined (store_userKept h _ _ _) fun _ _ ht => ht.advance _
  | push16 => exact complete_userConfined (pushWords_userKept h _) fun _ _ ht => ht.advance _
  | pop16 => exact complete_userConfined (popWords_userKept h _) fun _ _ ht => (ht.popRegs _ _).jumpTo _
  | ipush16 => exact needsNestAccel_userConfined h (complete_userConfined (pushWords_userKept h _) fun _ _ ht => ht.advance _)
  | ipop16 => exact needsNestAccel_userConfined h (complete_userConfined (popWords_userKept h _) fun _ _ ht => (ht.popRegs _ _).advance _)
  | nie16 | nir16 => exact needsNestAccel_userConfined h (privileged_userConfined h _)
  | mfcr32 | mtcr32 | psrset32 | psrclr32 | rte32 | wait32 | doze32 | stop32 => exact privileged_userConfined h _
  | trap32 => exact takeException_userConfined h _ _
  | bkpt16 => exact execBkpt16_userConfined h
  | sync32 => exact finish32_userConfined h
  | idly32 imm5 => exact execIdly32_userConfined h imm5

end

/-- Settles O59: `UserConfined` of what the instruction ends in, one case for each instruction. -/
theorem userModeConfinement : Obligations.UserModeConfinement :=
  fun i _ _ hs ht => leadsTo_next (exec_userConfined (.refl hs) i) ht

end Sys2Proof.Machine

/-! The statements of 60_exceptions.md and 70_reset_and_hazards.md about entering exceptions (R410 to R413, R420 to R422), interrupts (R430 to R433),
sleep (R540) and reset (R415, R550, R551). -/

namespace Sys2Proof.Machine

/-! ### The vector (R412, R421) -/

theorem toNat_zero_append {m n : Nat} (x : BitVec n) : (0#m ++ x).toNat = x.toNat := by
  simp [BitVec.toNat_append]

/-- R412: an entry's address as a number; the table lies below 2^32, so nothing wraps. -/
theorem vectorAddr_toNat (vec : BitVec 8) (s : State) :
    (vectorAddr vec s).toNat = (if s.cfg.hasVbr = true then 1024 * s.vbr.toNat else 0) + 4 * vec.toNat := by
  have hbase : (vbrWord s.vbr).toNat = 1024 * s.vbr.toNat := by
    rw [vbrWord, BitVec.toNat_append, BitVec.toNat_ofNat, Nat.shiftLeft_eq]
    simp [Nat.mul_comm]
  have hoff : ((0#24 ++ vec : Word) <<< 2).toNat = 4 * vec.toNat := by
    have hv := vec.isLt
    rw [BitVec.toNat_shiftLeft, toNat_zero_append, Nat.shiftLeft_eq]
    omega
  have hvbr := s.vbr.isLt
  have hvec := vec.isLt
  rw [vectorAddr, tableBase, BitVec.toNat_add, hoff]
  split
  · rw [hbase]; omega
  · rw [BitVec.toNat_ofNat]; omega

/-- R421: while EE = 0 every exception but an interrupt is UnrecoverableError. -/
theorem effectiveVector_eq (vec : BitVec 8) (s : State) :
    effectiveVector vec s = if vec.toNat < 32 ∧ s.psr.ee = false then 8#8 else vec := by
  simp [effectiveVector, vecUnrecoverable]

section
variable {s : State} {vec : BitVec 8}

theorem effectiveVector_enabled (h : s.psr.ee = true) (vec : BitVec 8) : effectiveVector vec s = vec := by
  simp [effectiveVector, h]

theorem effectiveVector_interrupt (h : 32 ≤ vec.toNat) (s : State) : effectiveVector vec s = vec := by
  simp [effectiveVector, Nat.not_lt.mpr h]

/-- An exception is entered with its own vector while EE = 1. -/
theorem takeException_entered_enabled (ret : Word) (he : s.psr.ee = true) (h : vectorReadable vec s) :
    ∃ t, takeException vec ret s = .next t ∧ entered vec ret s t := by
  have hv := effectiveVector_enabled he vec
  have ht := takeException_entered (vec := vec) ret (by rwa [hv])
  rwa [hv] at ht

/-- An interrupt is entered with its own vector. -/
theorem takeException_entered_interrupt (ret : Word) (hv : 32 ≤ vec.toNat) (h : vectorReadable vec s) :
    ∃ t, takeException vec ret s = .next t ∧ entered vec ret s t := by
  have hv := effectiveVector_interrupt hv s
  have ht := takeException_entered (vec := vec) ret (by rwa [hv])
  rwa [hv] at ht

/-! ### A vector that cannot be read (R413) -/

/-- A supervisor's data read that the MPU denies or the bus answers with ERROR. -/
theorem dataRead_fails_supervisor {f : Bool} {z : Size} {a : Word}
    (h : mpuAllows .read true a s = false ∨ (inTcip s a = false ∧ slaveAt s.cfg a = .busError)) :
    dataRead f true z a s = .raise vecAccess s := by
  unfold dataRead
  cases hm : mpuAllows .read true a s
  · rfl
  · rcases h with h | ⟨ht, hb⟩
    · simp [hm] at h
    · simp [ht, busRead, slaveRead, hb, vecAccess]

theorem vectorFails_congr {t : State} (hc : t.cfg = s.cfg) (hon : t.mpuOn = s.mpuOn) (hcapr : t.capr = s.capr) (hpacr : t.pacr = s.pacr)
    (hv : t.vbr = s.vbr) : vectorFails vec t ↔ vectorFails vec s := by
  simp only [vectorFails, vectorAddr_congr vec hc hv, inTcip, hc, mpuAllows_congr .read true _ hc hon hcapr hpacr]

/-- A vector that cannot be read, after one gap (R150). -/
theorem readVector_fails (h : vectorFails vec s) : readVector vec s = .raise vecAccess (interleave s) :=
  dataRead_fails_supervisor ((vectorFails_congr rfl rfl rfl rfl rfl).mpr h)

theorem enterUnrecoverable_readable (h : vectorReadable 8#8 s) :
    enterUnrecoverable s = .next (jumpTo (vectorWord 8#8 (interleave s)) (interleave s)) := by
  rw [enterUnrecoverable, vecUnrecoverable, readVector_readable h]

theorem enterUnrecoverable_fails (h : vectorFails 8#8 s) : enterUnrecoverable s = .next { interleave s with lockup := true } := by
  rw [enterUnrecoverable, vecUnrecoverable, readVector_fails h]

/-- What UnrecoverableError is entered from when the vector of the first entry fails. -/
def vectorFaulted (vec : BitVec 8) (ret : Word) (s : State) : State :=
  saveAndSwitch 8#8 ret (interleave (saveAndSwitch (effectiveVector vec s) ret (breakIdly s)))

theorem vectorFaulted_eq (vec : BitVec 8) (ret : Word) (s : State) :
    let first : Psr := { s.psr with s := true, vec := effectiveVector vec s, ee := false, ie := false, c := entryC s }
    vectorFaulted vec ret s = { interleave s with idlyCount := idlyAfter s 0, epsr := first, epc := ret, psr := { first with vec := 8#8 } } := by
  rw [vectorFaulted, breakIdly_eq]
  rfl

theorem takeException_fails {ret : Word} (h : vectorFails (effectiveVector vec s) s) :
    takeException vec ret s = enterUnrecoverable (vectorFaulted vec ret s) := by
  have hf : vectorFails (effectiveVector vec s) (saveAndSwitch (effectiveVector vec s) ret (breakIdly s)) := by
    rw [breakIdly_eq]
    exact (vectorFails_congr rfl rfl rfl rfl rfl).mpr h
  simp only [takeException, effectiveVector_breakIdly, readVector_fails hf]
  rfl

/-! ### Interrupts (R430 to R433) -/

theorem interruptsOpen_iff (s : State) : interruptsOpen s = true ↔
    s.psr.ie = true ∧ s.psr.ee = true ∧ s.idlyCount = 0 ∧ (s.nieShadow = false ∨ (s.psr.ic = true ∧ atInterruptible s = true)) := by
  simp only [interruptsOpen, Bool.and_eq_true, Bool.or_eq_true, Bool.not_eq_true', decide_eq_true_eq, and_assoc]

theorem interruptsOpen_of_holdOffOpen (hie : s.psr.ie = true) (hee : s.psr.ee = true) (hidly : s.idlyCount = 0) (h : holdOffOpen s) :
    interruptsOpen s = true :=
  (interruptsOpen_iff s).mpr ⟨hie, hee, hidly, h.imp_right fun ⟨hic, hi⟩ => ⟨hic, atInterruptible_of hi⟩⟩

/-- No instruction is at a PC that cannot be fetched. -/
theorem atInterruptible_fetchFails (h : fetchFails s s.pc) : atInterruptible s = false := by
  simp [atInterruptible, fetchInstr_of_raise (fetchHalf_fails h)]

/-- The hold-off after NIE16 keeps an interrupt out (R359, R432). -/
theorem interruptsOpen_of_heldOff (h : heldOff s) : interruptsOpen s = false := by
  rw [← Bool.not_eq_true, interruptsOpen_iff]
  rintro ⟨_, _, _, hopen⟩
  obtain ⟨hnie, hheld⟩ := h
  rcases hopen with hopen | ⟨hic, hat⟩
  · rw [hnie] at hopen; cases hopen
  · rcases hheld with hheld | hheld | ⟨hf, hi⟩
    · rw [hheld] at hic; cases hic
    · rw [atInterruptible_fetchFails hheld] at hat; cases hat
    · rw [atInterruptible_not hf hi] at hat; cases hat

theorem interruptRequest_vic (h : s.cfg.vicSize ≠ .absent) : interruptRequest s = vicRequest s.vic := if_neg h

theorem interruptRequest_external (h : s.cfg.vicSize = .absent) :
    interruptRequest s = if s.pins.extInt = true then some s.pins.extVec else none := if_pos h

theorem coreCycle_interrupt (hopen : interruptsOpen s = true) (hreq : interruptRequest s = some vec) : coreCycle s = takeInterrupt vec s := by
  simp [coreCycle, pendingInterrupt, hopen, hreq]

theorem coreCycle_closed (hopen : interruptsOpen s = false) : coreCycle s = runInstruction s := by
  simp [coreCycle, pendingInterrupt, hopen]

theorem coreCycle_noRequest (hreq : interruptRequest s = none) : coreCycle s = runInstruction s := by
  simp [coreCycle, pendingInterrupt, hreq]

/-- The VIC requests a vector from 32 up (R482). -/
theorem vicRequest_ge {v : Vic} (h : vicRequest v = some vec) : 32 ≤ vec.toNat := by
  obtain ⟨n, _, rfl⟩ := vicRequest_pending h
  rw [sourceVector, BitVec.toNat_ofNat]
  omega

theorem takeInterrupt_ge (h : 32 ≤ vec.toNat) : takeInterrupt vec s = takeException vec s.pc
    { s with vic := if s.cfg.vicSize = .absent then s.vic else vicAcknowledge vec s.vic, nieShadow := false } :=
  if_neg (Nat.not_lt.mpr h)

theorem takeInterrupt_vic (hv : s.cfg.vicSize ≠ .absent) (h : 32 ≤ vec.toNat) :
    takeInterrupt vec s = takeException vec s.pc { s with vic := vicAcknowledge vec s.vic, nieShadow := false } := by
  rw [takeInterrupt_ge h, if_neg hv]

theorem takeInterrupt_external (hv : s.cfg.vicSize = .absent) (h : 32 ≤ vec.toNat) :
    takeInterrupt vec s = takeException vec s.pc { s with nieShadow := false } := by
  rw [takeInterrupt_ge h, if_pos hv]

theorem takeInterrupt_below (h : vec.toNat < 32) : takeInterrupt vec s = .refused .badInterruptVector := if_pos h

/-- R491: acknowledging a vector clears its source's pending bit and sets its active bit. -/
theorem vicAcknowledge_bits (vec : BitVec 8) (v : Vic) {k : Nat} (hk : k < 32) :
    (vicAcknowledge vec v).pending.getLsbD k = (v.pending.getLsbD k && decide (k ≠ vec.toNat - 32)) ∧
      (vicAcknowledge vec v).active.getLsbD k = (v.active.getLsbD k || decide (k = vec.toNat - 32)) :=
  ⟨getLsbD_clearBit _ hk, getLsbD_setBit _ hk⟩

/-! ### Sleep, the stuck state and reset -/

/-- R486: the wake-up request is a source that is pending and enabled for wake-up. -/
theorem vicWake_iff (v : Vic) : vicWake v = true ↔ ∃ k, k < 32 ∧ v.pending.getLsbD k = true ∧ v.wakeup.getLsbD k = true :=
  flagTst_iff

theorem wakeRequest_vic (h : s.cfg.vicSize ≠ .absent) : wakeRequest s = vicWake s.vic := if_neg h

theorem wakeRequest_external (h : s.cfg.vicSize = .absent) : wakeRequest s = s.pins.intRaw := if_pos h

theorem sleepCycle_wakes (h : wakeRequest s = true) : sleepCycle s = .next { s with lowPower := .none } := if_pos h

theorem sleepCycle_sleeps (h : wakeRequest s = false) : sleepCycle s = .next s := if_neg (ne_true_of_eq_false h)

/-- A sleeping core with no debug request looks at its wake-up request only. -/
theorem step_sleeping (hr : (currentInput s).pins.reset = false) (hi : (absorb s).inReset = false) (hl : (absorb s).lockup = false)
    (hh : (absorb s).hung = false) (hd : (absorb s).debugMode = false) (hp : (absorb s).lowPower ≠ .none)
    (hq : ((currentInput s).debugRequest && s.cfg.hasDebug) = false) : step s = sleepCycle (absorb s) := by
  simp only [step, cycle, cycleWith, hr, hi, hl, hh, hd, absorb_cfg, hq, if_pos hp]
  rfl

/-- A stuck or waiting core only lets time pass. -/
theorem step_stuck (hs : s.lockup = true ∨ s.hung = true) (hi : s.inReset = false) (hr : (currentInput s).pins.reset = false) :
    step s = .next (absorb s) := by
  have hs : (s.lockup || s.hung) = true := by rwa [Bool.or_eq_true]
  simp only [step, cycle, cycleWith, hr, absorb_inReset, hi, absorb_lockup, absorb_hung, hs]
  rfl

theorem step_releaseReset (hr : (currentInput s).pins.reset = false) (hi : (absorb s).inReset = true) :
    step s = releaseReset (absorb s) := by
  simp only [step, cycle, cycleWith, hr, hi]
  rfl

theorem releaseReset_memory (hm : mpuAllows .read true 0#32 s = true) (h : isMemory s 0#32) :
    releaseReset s = .next (jumpTo (datum s .word 0#32) { s with inReset := false }) := by
  have hd : dataRead true true .word 0 { s with inReset := false } = .ok (datum s .word 0#32) { s with inReset := false } :=
    dataRead_memory (s := { s with inReset := false }) hm h
  rw [releaseReset, readResetVector, hd]

theorem releaseReset_fails
    (h : mpuAllows .read true 0#32 s = false ∨ (inTcip s 0#32 = false ∧ slaveAt s.cfg 0#32 = .busError)) :
    releaseReset s = resetVectorFault { s with inReset := false } := by
  have hd : dataRead true true .word 0 { s with inReset := false } = .raise vecAccess { s with inReset := false } :=
    dataRead_fails_supervisor (s := { s with inReset := false }) h
  rw [releaseReset, readResetVector, hd]

/-- After a failing read of the reset vector: UnrecoverableError with free EPSR and EPC, before or after a failing read of vector 8 (R551). -/
def resetFaulted (s t : State) : Prop :=
  t = { landed 1 s with
    inReset := false, epsr := t.epsr, epc := t.epc, freeCount := t.freeCount, pc := t.pc, lockup := t.lockup
    psr := { s.psr with s := true, vec := 8#8, ee := false, ie := false } }

theorem resetVectorFault_readable (h : vectorReadable 8#8 s) : ∃ t, resetVectorFault { s with inReset := false } = .next t ∧
    resetFaulted s t ∧ t.lockup = s.lockup ∧ t.pc = vectorWord 8#8 (landed 1 s) &&& 0xFFFFFFFE#32 :=
  ⟨_, enterUnrecoverable_readable ((vectorReadable_congr rfl rfl rfl rfl rfl).mpr h), rfl, rfl, rfl⟩

theorem resetVectorFault_fails (h : vectorFails 8#8 s) : ∃ t, resetVectorFault { s with inReset := false } = .next t ∧
    resetFaulted s t ∧ t.lockup = true ∧ t.pc = s.pc :=
  ⟨_, enterUnrecoverable_fails ((vectorFails_congr rfl rfl rfl rfl rfl).mpr h), rfl, rfl, rfl⟩

end

/-! ### The statements -/

/-- Settles O39: the sum of the base and four times the vector. -/
theorem vectorTableAddress : Obligations.VectorTableAddress := vectorAddr_toNat

/-- Settles O38: the vector entered is `effectiveVector`, and `takeException_entered` says what its entry does. -/
theorem exceptionEntry : Obligations.ExceptionEntry := by
  intro vec ret s v h
  have hv : effectiveVector vec s = v := effectiveVector_eq vec s
  rw [← hv] at h ⊢
  exact takeException_entered ret h

/-- Settles O34: both instructions are `takeException` of their vector at their own address, and FDB makes BKPT16 a switch to debug mode. -/
theorem trapAndBreakpointEntry : Obligations.TrapAndBreakpointEntry := by
  intro n s
  refine ⟨fun he v hv hr => ?trap, fun hfdb he hr => ?breakpoint, fun hfdb => if_pos hfdb⟩
  case trap =>
    have hvec : v = vecTrap n := by
      have hn := n.isLt
      apply BitVec.eq_of_toNat_eq
      rw [hv, vecTrap, BitVec.toNat_add, toNat_zero_append, BitVec.toNat_ofNat]
      omega
    rw [hvec] at hr ⊢
    exact takeException_entered_enabled s.pc he hr
  case breakpoint =>
    have hexec : exec .bkpt16 s = takeException 7#8 s.pc s := if_neg (ne_true_of_eq_false hfdb)
    rw [hexec]
    exact takeException_entered_enabled s.pc he hr

/-- Settles O40: UnrecoverableError is entered from `vectorFaulted`, in which vector 8 reads or fails as it does in the first state. -/
theorem vectorFault : Obligations.VectorFault := by
  intro vec ret s v c first hf
  have hv : effectiveVector vec s = v := effectiveVector_eq vec s
  have he := vectorFaulted_eq vec ret s
  rw [hv] at he
  rw [takeException_fails (by rwa [hv]), he]
  refine ⟨fun h => ?_, fun h => ?_⟩
  · exact enterUnrecoverable_readable ((vectorReadable_congr rfl rfl rfl rfl rfl).mpr h)
  · exact enterUnrecoverable_fails ((vectorFails_congr rfl rfl rfl rfl rfl).mpr h)

/-- Settles O42: a running core is `coreCycle`, which takes the interrupt that is requested at this boundary, if any. -/
theorem interruptEntry : Obligations.InterruptEntry := by
  intro s vec hr a
  have hstep : step s = coreCycle a := step_running hr
  rw [hstep]
  refine ⟨fun hie hee hidly hhold hvic hreq hread => ?vic, fun hie hee hidly hhold hvic hext => ?external, fun h => ?none⟩
  case vic =>
    rw [coreCycle_interrupt (interruptsOpen_of_holdOffOpen hie hee hidly hhold) ((interruptRequest_vic hvic).trans hreq),
      takeInterrupt_vic hvic (vicRequest_ge hreq)]
    obtain ⟨t, ht, hentered⟩ := takeException_entered_interrupt (s := { a with vic := vicAcknowledge vec a.vic, nieShadow := false })
      a.pc (vicRequest_ge hreq) ((vectorReadable_congr rfl rfl rfl rfl rfl).mpr hread)
    exact ⟨t, vicAcknowledge vec a.vic, ht, hentered, rfl, fun _ hk => vicAcknowledge_bits vec a.vic hk⟩
  case external =>
    rw [coreCycle_interrupt (interruptsOpen_of_holdOffOpen hie hee hidly hhold) ((interruptRequest_external hvic).trans (if_pos hext))]
    refine ⟨fun hge hread => ?_, takeInterrupt_below⟩
    rw [takeInterrupt_external hvic hge]
    exact takeException_entered_interrupt a.pc hge ((vectorReadable_congr rfl rfl rfl rfl rfl).mpr hread)
  case none =>
    have closed (hn : ¬interruptsOpen a = true) : coreCycle a = runInstruction a := coreCycle_closed (Bool.eq_false_iff.mpr hn)
    rw [interruptsOpen_iff] at closed
    rcases h with h | h | h | h | ⟨hvic, hreq⟩ | ⟨hvic, hext⟩
    · exact closed fun ho => by rw [h] at ho; cases ho.1
    · exact closed fun ⟨_, hee, _⟩ => by rw [h] at hee; cases hee
    · exact closed fun ⟨_, _, hidly, _⟩ => h hidly
    · exact coreCycle_closed (interruptsOpen_of_heldOff h)
    · exact coreCycle_noRequest ((interruptRequest_vic hvic).trans hreq)
    · exact coreCycle_noRequest ((interruptRequest_external hvic).trans (if_neg (ne_true_of_eq_false hext)))

/-- Settles O48: the step is `sleepCycle`, whose wake-up request is the VIC's or the raw pin. -/
theorem sleepAndWake : Obligations.SleepAndWake := by
  intro s a hr hi hl hh hd hp hq
  rw [step_sleeping hr hi hl hh hd hp hq]
  refine ⟨fun hv => ?vic, fun hv => ?external, absorb_pc s, absorb_regs s, absorb_psr s, ?pads⟩
  case vic =>
    have hw : wakeRequest a = vicWake a.vic := wakeRequest_vic (by rwa [absorb_cfg])
    refine ⟨fun h => sleepCycle_wakes (hw.trans ((vicWake_iff _).mpr h)), fun h => sleepCycle_sleeps (hw.trans ?_)⟩
    rw [← Bool.not_eq_true, vicWake_iff]
    rintro ⟨k, hk, hpend, hwake⟩
    rw [h k hk hpend] at hwake
    cases hwake
  case external =>
    have hw : wakeRequest a = a.pins.intRaw := wakeRequest_external (by rwa [absorb_cfg])
    exact ⟨fun h => sleepCycle_wakes (hw.trans h), fun h => sleepCycle_sleeps (hw.trans h)⟩
  case pads =>
    simp only [padJdbPm, padDbgB]
    rw [hd, if_neg hp]
    decide

/-- Settles O51: the step is `absorb`, which leaves each of these fields. -/
theorem stuckUntilReset : Obligations.StuckUntilReset := fun s hs hi hr =>
  ⟨step_stuck hs hi hr, absorb_lockup s, absorb_hung s, absorb_pc s, absorb_regs s, absorb_psr s⟩

/-- Settles O50: the asserted input is `hardReset`, the release reads the word at address 0, and its fault enters vector 8 or the stuck state. -/
theorem resetSequence : Obligations.ResetSequence := by
  intro s a failed
  refine ⟨fun hr => ⟨hardReset a, step_reset hr, registersReset_resetRegisters a, rfl, rfl, rfl⟩, fun hr hi => ?release⟩
  case release =>
    rw [step_releaseReset hr hi]
    refine ⟨releaseReset_memory, fun hfail => ?fault⟩
    have hfailed : failed = resetFaulted a := by
      funext t
      rw [resetFaulted, show a.psr = s.psr from absorb_psr s]
    rw [releaseReset_fails hfail, hfailed]
    exact ⟨resetVectorFault_readable, resetVectorFault_fails⟩

end Sys2Proof.Machine

/-! The statements of 60_exceptions.md about CoreTim's ticks (R473) and the VIC's sampling and arbitration (R477, R490, R495). -/

namespace Sys2Proof.Machine

/-! ### The timer (R473) -/

section
variable {t : CoreTim}

theorem timerTick_disabled (h : t.enable = false) : timerTick t = t := by
  simp [timerTick, h]

theorem timerTick_zero (h : t.enable = true) (h0 : t.current = 0#24) : timerTick t = { t with current := t.reload } := by
  simp [timerTick, h, h0]

theorem timerTick_counts (h : t.enable = true) (h0 : t.current ≠ 0#24) :
    timerTick t = { t with current := t.current - 1#24, countflag := t.countflag || decide (t.current = 1#24) } := by
  have hone : (t.current - 1 == 0#24) = decide (t.current = 1#24) := by
    rw [Bool.eq_iff_iff, beq_iff_eq, decide_eq_true_iff, BitVec.ofNat_eq_ofNat, ← BitVec.toNat_inj, ← BitVec.toNat_inj]
    have := t.current.isLt
    simp only [BitVec.toNat_sub, BitVec.toNat_ofNat]
    omega
  have hz : ¬t.current = 0 := h0
  simp only [timerTick, h, if_true, if_neg hz, hone]
  rfl

/-- The last of `n + 1` ticks comes after `n`. -/
theorem timerTicks_succ_last (n : Nat) (t : CoreTim) : timerTicks (n + 1) t = timerTick (timerTicks n t) := by
  induction n generalizing t with
  | zero => rfl
  | succ n ih => exact ih (timerTick t)

/-- Fewer ticks than CURRENT only count down. -/
theorem timerTicks_countdown (h : t.enable = true) {k : Nat} (hk : k < t.current.toNat) :
    timerTicks k t = { t with current := t.current - BitVec.ofNat 24 k } := by
  have hc := t.current.isLt
  induction k with
  | zero => simp [timerTicks]
  | succ k ih =>
    have hleft : (t.current - BitVec.ofNat 24 k).toNat = t.current.toNat - k := by
      rw [BitVec.toNat_sub, BitVec.toNat_ofNat]
      omega
    have hne0 : t.current - BitVec.ofNat 24 k ≠ 0#24 := by rw [ne_eq, ← BitVec.toNat_inj, hleft, BitVec.toNat_ofNat]; omega
    have hne1 : t.current - BitVec.ofNat 24 k ≠ 1#24 := by rw [ne_eq, ← BitVec.toNat_inj, hleft, BitVec.toNat_ofNat]; omega
    rw [timerTicks_succ_last, ih (by omega), timerTick_counts (t := { t with current := t.current - BitVec.ofNat 24 k }) h hne0]
    simp [hne1, BitVec.ofNat_add, sub_sub]

/-- As many ticks as CURRENT end at 0 and set COUNTFLAG. -/
theorem timerTicks_expires (h : t.enable = true) (h0 : t.current ≠ 0#24) :
    timerTicks t.current.toNat t = { t with current := 0#24, countflag := true } := by
  obtain ⟨n, hn⟩ : ∃ n, t.current.toNat = n + 1 := Nat.exists_eq_succ_of_ne_zero (by rwa [ne_eq, ← BitVec.toNat_inj] at h0)
  have hc := t.current.isLt
  have hone : t.current - BitVec.ofNat 24 n = 1#24 := by
    apply BitVec.eq_of_toNat_eq
    rw [BitVec.toNat_sub, BitVec.toNat_ofNat, BitVec.toNat_ofNat]
    omega
  rw [hn, timerTicks_succ_last, timerTicks_countdown h (by omega), hone,
    timerTick_counts (t := { t with current := 1#24 }) h (by decide : 1#24 ≠ 0#24)]
  simp

end

/-! ### Sampling (R477, R482, R490) -/

/-- The bits of the sources that exist. -/
theorem getLsbD_vicMask (c : Config) {n : Nat} (hn : n < 32) : (vicMask c).getLsbD n = decide (n < c.vicSize.count) := by
  have hi : n - c.vicSize.count < 32 := by omega
  rw [vicMask, getLsbD_not_word _ hn, BitVec.getLsbD_shiftLeft, BitVec.getLsbD_allOnes]
  simp [hn, hi]

/-- A source's line: its pin, or CoreTim's request on the source it is connected to. -/
theorem getLsbD_vicLines (s : State) {n : Nat} (hn : n < 32) : (vicLines s).getLsbD n =
    (s.pins.irq.getLsbD n || (s.cfg.hasCoreTim && s.timer.countflag && s.timer.tickint && decide (n = s.cfg.coretIrq.val))) := by
  rw [vicLines, BitVec.getLsbD_or, timerRequest, ← Bool.and_assoc]
  split
  · next h => rw [sourceBit, getLsbD_one_shift hn, h, Bool.true_and]
  · next h => rw [BitVec.ofNat_eq_ofNat, BitVec.getLsbD_zero, Bool.eq_false_iff.mpr h, Bool.false_and]

/-! ### The most urgent source (R495) -/

/-- A source of a set with the smallest (priority number, source number). -/
def mostUrgent (v : Vic) (set : Word) (n : Fin 32) : Prop :=
  set.getLsbD n.val = true ∧ ∀ m : Fin 32, set.getLsbD m.val = true →
    (v.prio.get n).toNat < (v.prio.get m).toNat ∨ ((v.prio.get n).toNat = (v.prio.get m).toNat ∧ n.val ≤ m.val)

theorem mostUrgent.unique {v : Vic} {set : Word} {n m : Fin 32} (hn : mostUrgent v set n) (hm : mostUrgent v set m) : n = m := by
  have hnm := hn.2 m hm.1
  have hmn := hm.2 n hn.1
  omega

/-- The first hit in a list is before every other one in the list's order. -/
theorem findSome?_first {α β : Type} {r : α → α → Prop} {f : α → Option β} {l : List α} (hl : l.Pairwise r) {b : β}
    (h : l.findSome? f = some b) : ∃ a, f a = some b ∧ ∀ m ∈ l, (f m).isSome = true → m = a ∨ r a m := by
  obtain ⟨before, a, after, rfl, ha, hbefore⟩ := List.findSome?_eq_some_iff.mp h
  refine ⟨a, ha, fun m hm hp => ?_⟩
  rcases List.mem_append.mp hm with hm | hm
  · rw [hbefore m hm] at hp; cases hp
  · rcases List.mem_cons.mp hm with rfl | hm
    · exact .inl rfl
    · exact .inr ((List.pairwise_cons.mp (List.pairwise_append.mp hl).2.1).1 m hm)

theorem find?_first {α : Type} {r : α → α → Prop} {p : α → Bool} {l : List α} (hl : l.Pairwise r) {a : α} (h : l.find? p = some a) :
    p a = true ∧ ∀ m ∈ l, p m = true → m = a ∨ r a m := by
  rw [List.find?_eq_findSome?_guard] at h
  obtain ⟨b, hb, hfirst⟩ := findSome?_first hl h
  obtain ⟨rfl, hp⟩ := Option.guard_eq_some_iff.mp hb
  exact ⟨hp, fun m hm hpm => hfirst m hm (by rwa [Option.isSome_guard])⟩

theorem mem_sources (n : Fin 32) : n ∈ sources := by
  revert n; decide

theorem sources_rising : sources.Pairwise (· < ·) := by decide

/-- The search by priority, then by number, finds the most urgent source. -/
theorem mostUrgent_of_bestSource {v : Vic} {set : Word} {n : Fin 32} (h : bestSource v set = some n) : mostUrgent v set n := by
  obtain ⟨p, hp, hfirst⟩ := findSome?_first (r := (· < ·)) (by decide) h
  obtain ⟨hn, hless⟩ := find?_first sources_rising hp
  rw [Bool.and_eq_true, beq_iff_eq] at hn
  obtain ⟨hset, rfl⟩ := hn
  refine ⟨hset, fun m hm => ?_⟩
  have every (q : BitVec 2) : q ∈ [0#2, 1#2, 2#2, 3#2] := by revert q; decide
  have hsome : (sources.find? fun k => set.getLsbD k.val && v.prio.get k == v.prio.get m).isSome = true :=
    List.find?_isSome.mpr ⟨m, mem_sources m, by simp [hm]⟩
  rcases hfirst _ (every _) hsome with heq | hlt
  · refine .inr ⟨by rw [heq], ?_⟩
    rcases hless m (mem_sources m) (by simp [hm, heq]) with rfl | hlt
    · exact le_rfl
    · exact le_of_lt hlt
  · exact .inl hlt

/-- The search fails only for a set without sources. -/
theorem bestSource_eq_none_iff (v : Vic) (set : Word) : bestSource v set = none ↔ ∀ n : Fin 32, set.getLsbD n.val = false := by
  have every (q : BitVec 2) : q ∈ [0#2, 1#2, 2#2, 3#2] := by revert q; decide
  rw [bestSource, List.findSome?_eq_none_iff]
  refine ⟨fun h n => ?_, fun h q _ => List.find?_eq_none.mpr fun n _ => by rw [h n, Bool.false_and]; decide⟩
  have hn := List.find?_eq_none.mp (h (v.prio.get n) (every _)) n (mem_sources n)
  simpa using hn

theorem bestSource_eq_some_iff (v : Vic) (set : Word) (n : Fin 32) : bestSource v set = some n ↔ mostUrgent v set n := by
  refine ⟨mostUrgent_of_bestSource, fun h => ?_⟩
  cases hb : bestSource v set with
  | none => exact absurd h.1 (Bool.eq_false_iff.mp ((bestSource_eq_none_iff v set).mp hb n))
  | some m => rw [(mostUrgent_of_bestSource hb).unique h]

/-- A priority is above the current one when it is above that of every active source (decision D25). -/
theorem lt_currentPrio_iff (v : Vic) (p : BitVec 2) :
    p.toNat < currentPrio v ↔ ∀ m : Fin 32, v.active.getLsbD m.val = true → p.toNat < (v.prio.get m).toNat := by
  unfold currentPrio
  cases hb : bestSource v v.active with
  | none =>
    have hnone := (bestSource_eq_none_iff v v.active).mp hb
    exact ⟨fun _ m hm => absurd hm (Bool.eq_false_iff.mp (hnone m)), fun _ => p.isLt⟩
  | some n =>
    obtain ⟨hn, hless⟩ := mostUrgent_of_bestSource hb
    refine ⟨fun hp m hm => ?_, fun h => h n hn⟩
    have := hless m hm
    simp only [] at hp
    omega

/-- R495: a vector is requested for the most urgent candidate, when it is above every active source and the threshold. -/
theorem vicRequest_eq_some_iff (v : Vic) (vec : BitVec 8) : vicRequest v = some vec ↔ ∃ n : Fin 32, vec = sourceVector n ∧
    mostUrgent v (vicCandidates v) n ∧ (v.prio.get n).toNat < currentPrio v ∧ (v.thrEn = false ∨ v.prio.get n < v.thrPrio) := by
  unfold vicRequest
  cases hb : bestSource v (vicCandidates v) with
  | none =>
    refine ⟨nofun, fun ⟨n, _, hn, _⟩ => ?_⟩
    rw [(bestSource_eq_some_iff v _ n).mpr hn] at hb
    cases hb
  | some n =>
    have hn := mostUrgent_of_bestSource hb
    simp only [Option.ite_none_right_eq_some, Bool.and_eq_true, Bool.or_eq_true, Bool.not_eq_true', decide_eq_true_eq, Option.some.injEq]
    constructor
    · rintro ⟨⟨hprio, hthr⟩, rfl⟩
      exact ⟨n, rfl, hn, hprio, hthr⟩
    · rintro ⟨m, rfl, hm, hprio, hthr⟩
      obtain rfl := hn.unique hm
      exact ⟨⟨hprio, hthr⟩, rfl⟩

theorem eq_sourceVector_iff (vec : BitVec 8) (n : Fin 32) : vec = sourceVector n ↔ vec.toNat = 32 + n.val := by
  rw [← BitVec.toNat_inj, sourceVector, BitVec.toNat_ofNat, Nat.mod_eq_of_lt (by omega)]

theorem getLsbD_vicCandidates (v : Vic) (n : Fin 32) : (vicCandidates v).getLsbD n.val = true ↔
    v.pending.getLsbD n.val = true ∧ v.enable.getLsbD n.val = true ∧ v.active.getLsbD n.val = false := by
  rw [vicCandidates, BitVec.getLsbD_and, BitVec.getLsbD_and, getLsbD_not_word _ n.isLt]
  simp [and_assoc]

/-! ### The statements -/

/-- Settles O47: a round is the tick that loads RELOAD, the ticks that count down, and the one that expires. -/
theorem timerRound : Obligations.TimerRound := by
  refine ⟨fun _ _ => ⟨rfl, rfl⟩, fun _ => timerTick_disabled, fun _ => timerTick_zero, fun _ => timerTick_counts, fun t he h0 hr => ?_⟩
  have hload (k : Nat) : timerTicks (k + 1) t = timerTicks k { t with current := t.reload } := by rw [timerTicks, timerTick_zero he h0]
  have hexpires : timerTicks (t.reload.toNat + 1) t = { t with countflag := true } := by
    rw [hload, timerTicks_expires (t := { t with current := t.reload }) he hr, ← h0]
  have hcount {k : Nat} (hk : k < t.reload.toNat) : timerTicks (k + 1) t = { t with current := t.reload - BitVec.ofNat 24 k } :=
    (hload k).trans (timerTicks_countdown (t := { t with current := t.reload }) he hk)
  refine ⟨fun k hk => ?_, fun k hk => by rw [hcount hk], hexpires⟩
  rcases Nat.lt_or_eq_of_le hk with hk | rfl
  · have hlt := t.reload.isLt
    rw [hcount hk, BitVec.toNat_sub, BitVec.toNat_ofNat]
    omega
  · rw [hexpires, h0, Nat.sub_self]
    rfl

/-- Settles O44: one bit of `vicSample` of the lines. -/
theorem vicSampling : Obligations.VicSampling := by
  intro s n hn line pulse here
  have hline : (vicLines s).getLsbD n = line := getLsbD_vicLines s hn
  have hhere : (vicMask s.cfg).getLsbD n = here := getLsbD_vicMask s.cfg hn
  refine ⟨?pending, ?latch, rfl⟩
  case pending =>
    simp only [sampleVic, vicSample, BitVec.getLsbD_or, BitVec.getLsbD_and, getLsbD_not_word _ hn, hline, hhere]
    cases hp : pulse <;> simp [pulse, hp, Bool.and_assoc, Bool.and_comm]
  case latch =>
    rw [sampleVic, vicSample, BitVec.getLsbD_and, hline, hhere, Bool.and_comm]

/-- Settles O43: the request as a property of the most urgent candidate, with each of its parts as numbers and bits. -/
theorem vicArbitration : Obligations.VicArbitration := by
  intro v vec cand prio
  simp only [vicRequest_eq_some_iff, eq_sourceVector_iff, mostUrgent, getLsbD_vicCandidates, lt_currentPrio_iff, BitVec.lt_def, and_assoc, cand, prio]

end Sys2Proof.Machine

/-! The statement about the registers of the tightly coupled IP (60_exceptions.md R470 to R476, R482 to R493, R525 to R533): which register stands at
an address, the words of the registers field by field, and the transfers of the debug unit. -/

namespace Sys2Proof.Machine

/-! ### Which register stands at an address (R470, R483, R525) -/

section
variable {s : State} {a : Word} {r : TcipReg}

theorem tcipReg_timer {c : Config} (h : c.hasCoreTim = true) (hl : timerMap.lookup a = some r) : tcipReg c a = some r := by
  simp [tcipReg, h, hl]

theorem vicSize_count_pos {v : VicSize} (h : v ≠ .absent) : 0 < v.count := by
  cases v with
  | absent => exact absurd rfl h
  | int4 | int8 | int16 | int24 | int32 => decide

theorem tcipReg_vic {c : Config} (h : c.vicSize ≠ .absent) (ht : timerMap.lookup a = none) (hl : vicMap.lookup a = some r) :
    tcipReg c a = some r := by
  simp [tcipReg, vicSize_count_pos h, ht, hl]

theorem tcipReg_debug {c : Config} (h : c.hasDebug = true) (ht : timerMap.lookup a = none) (hv : vicMap.lookup a = none)
    (hl : debugMap.lookup a = some r) : tcipReg c a = some r := by
  simp [tcipReg, h, ht, hv, hl]

theorem tcipRead_of_tcipReg (h : tcipReg s.cfg a = some r) : tcipRead a s = readTcipReg r s := by
  rw [tcipRead, h]

theorem tcipWrite_of_tcipReg (h : tcipReg s.cfg a = some r) (v : Word) : tcipWrite a v s = writeTcipReg r v s := by
  rw [tcipWrite, h]

/-- VIC_IPRk stands at 0xE000E400 + 4 k. -/
theorem tcipReg_vicIpr {c : Config} (h : c.vicSize ≠ .absent) (k : Fin 8) :
    tcipReg c (0xE000E400#32 + BitVec.ofNat 32 (4 * k.val)) = some (.vicIpr k) :=
  tcipReg_vic h (by revert k; decide) (by revert k; decide)

end

/-! ### The VIC's registers (R482 to R493) -/

/-- R484 to R487: a set register sets the bits of sources that exist. -/
theorem getLsbD_setSources (c : Config) (x w : Word) {k : Nat} (hk : k < 32) :
    (x ||| (w &&& vicMask c)).getLsbD k = (x.getLsbD k || (w.getLsbD k && decide (k < c.vicSize.count))) := by
  rw [BitVec.getLsbD_or, BitVec.getLsbD_and, getLsbD_vicMask c hk]

/-- R484 to R487: a clear register clears the bits written as 1. -/
theorem getLsbD_clearSources (x w : Word) {k : Nat} (hk : k < 32) : (x &&& ~~~w).getLsbD k = (x.getLsbD k && !w.getLsbD k) := by
  rw [BitVec.getLsbD_and, getLsbD_not_word _ hk]

theorem and_vicMask_eq_zero_iff (c : Config) (w : Word) :
    w &&& vicMask c = 0#32 ↔ ∀ k, k < 32 → decide (k < c.vicSize.count) = true → w.getLsbD k = false := by
  rw [BitVec.eq_of_getLsbD_eq_iff]
  refine forall₂_congr fun k hk => ?_
  rw [BitVec.getLsbD_and, getLsbD_vicMask c hk, BitVec.getLsbD_zero, Bool.and_eq_false_imp, ← Bool.not_eq_true, imp_not_comm, Bool.not_eq_true]

section
variable {s : State} {w : Word}

/-- R488: a write of VIC_IABR without a 1 for a source clears every active bit. -/
theorem writeIabr_clears (h : ∀ k, k < 32 → decide (k < s.cfg.vicSize.count) = true → w.getLsbD k = false) :
    ∃ e, writeTcipReg .vicIabr w s = .ok () { s with vic := { s.vic with active := e } } ∧
      ∀ k, k < 32 → decide (k < s.cfg.vicSize.count) = true → e.getLsbD k = false :=
  ⟨s.vic.active &&& w, if_pos ((and_vicMask_eq_zero_iff _ _).mpr h), fun k hk hc => by rw [BitVec.getLsbD_and, h k hk hc, Bool.and_false]⟩

/-- R488, U11: one with a 1 for a source is refused. -/
theorem writeIabr_refused (h : ∃ k, k < 32 ∧ decide (k < s.cfg.vicSize.count) = true ∧ w.getLsbD k = true) :
    writeTcipReg .vicIabr w s = .refuse .iabrWriteOne := by
  refine if_neg fun h0 => ?_
  obtain ⟨k, hk, hc, hw⟩ := h
  rw [(and_vicMask_eq_zero_iff _ _).mp h0 k hk hc] at hw
  cases hw

end

/-- Setting a priority touches priorities only. -/
theorem setPrio_eq (count : Nat) (n : Fin 32) (p : BitVec 2) (v : Vic) : setPrio count n p v = { v with prio := (setPrio count n p v).prio } := by
  unfold setPrio
  split <;> rfl

theorem setPrio_get (count : Nat) (n m : Fin 32) (p : BitVec 2) (v : Vic) :
    (setPrio count n p v).prio.get m = if m = n ∧ n.val < count then p else v.prio.get m := by
  unfold setPrio
  split
  · next h => simp only [Vector.get_eq_getElem, Vector.getElem_set, Fin.ext_iff, eq_comm, h, and_true]
  · next h => simp only [h, and_false, if_false]

theorem vicWriteIpr_eq (count : Nat) (k : Fin 8) (w : Word) (v : Vic) :
    vicWriteIpr count k w v = { v with prio := (vicWriteIpr count k w v).prio } := by
  unfold vicWriteIpr
  rw [setPrio_eq, setPrio_eq, setPrio_eq, setPrio_eq]

/-- A source is field `j` of VIC_IPRk for its quotient and remainder by 4. -/
theorem eq_iprSource {k : Fin 8} {n : Fin 32} (h : n.val / 4 = k.val) :
    ∃ j : Fin 4, n.val % 4 = j.val ∧ n = iprSource k j :=
  ⟨⟨n.val % 4, Nat.mod_lt _ (by decide)⟩, rfl, Fin.ext (by simp only [iprSource]; omega)⟩

theorem iprSource_inj {k : Fin 8} {i j : Fin 4} : iprSource k i = iprSource k j ↔ i = j := by
  simp [iprSource, Fin.ext_iff]

/-- R489: VIC_IPRk gives its four sources their priorities, where they exist. -/
theorem vicWriteIpr_get (count : Nat) (k : Fin 8) (w : Word) (v : Vic) (n : Fin 32) : (vicWriteIpr count k w v).prio.get n =
    if n.val / 4 = k.val ∧ decide (n.val < count) = true then w.extractLsb' (8 * (n.val % 4) + 6) 2 else v.prio.get n := by
  simp only [vicWriteIpr, setPrio_get, decide_eq_true_eq]
  by_cases hk : n.val / 4 = k.val
  · obtain ⟨j, hj, rfl⟩ := eq_iprSource hk
    simp only [hk, hj, true_and, iprSource_inj]
    fin_cases j <;> simp
  · have hne (j : Fin 4) : n ≠ iprSource k j := by
      rintro rfl
      exact hk (by simp only [iprSource]; omega)
    simp [hk, hne]

/-- R489: the fields of VIC_IPRk. -/
theorem vicIpr_fields (k : Fin 8) (v : Vic) : let w := vicIpr k v
    w.extractLsb' 6 2 = v.prio.get (iprSource k 0) ∧ w.extractLsb' 14 2 = v.prio.get (iprSource k 1) ∧
      w.extractLsb' 22 2 = v.prio.get (iprSource k 2) ∧ w.extractLsb' 30 2 = v.prio.get (iprSource k 3) := by
  rw [vicIpr]
  refine ⟨?_, ?_, ?_, ?top⟩
  case top =>
    repeat rw [BitVec.extractLsb'_append_eq_of_le (by decide)]
    exact BitVec.extractLsb'_eq_self
  all_goals
    repeat rw [BitVec.extractLsb'_append_eq_of_le (by decide)]
    exact (BitVec.extractLsb'_append_eq_of_add_le (by decide)).trans BitVec.extractLsb'_eq_self

theorem vicIpr_reserved (k : Fin 8) (v : Vic) : vicIpr k v &&& 0x3F3F3F3F#32 = 0#32 := by
  have mask : 0x3F3F3F3F#32 = 0#2 ++ BitVec.allOnes 6 ++ 0#2 ++ BitVec.allOnes 6 ++ 0#2 ++ BitVec.allOnes 6 ++ 0#2 ++ BitVec.allOnes 6 := by
    decide
  rw [vicIpr, mask, BitVec.and_append]
  simp only [BitVec.and_append, BitVec.and_zero, BitVec.zero_and]
  decide

theorem vicIpr_get {k : Fin 8} (v : Vic) {n : Fin 32} (h : n.val / 4 = k.val) :
    (vicIpr k v).extractLsb' (8 * (n.val % 4) + 6) 2 = v.prio.get n := by
  obtain ⟨h0, h1, h2, h3⟩ := vicIpr_fields k v
  obtain ⟨j, hj, rfl⟩ := eq_iprSource h
  rw [hj]
  fin_cases j
  · exact h0
  · exact h1
  · exact h2
  · exact h3

/-- R493: the fields of VIC_IPTR. -/
theorem vicIptr_fields (v : Vic) : let w := vicIptr v
    w.getLsbD 31 = v.thrEn ∧ w.extractLsb' 8 9 = v.thrVec ∧ w.extractLsb' 6 2 = v.thrPrio ∧ w &&& 0x7FFE003F#32 = 0#32 := by
  rw [vicIptr]
  refine ⟨?enable, ?_, ?_, ?reserved⟩
  case enable =>
    repeat rw [BitVec.getLsbD_append]
    simp
  case reserved =>
    have mask : 0x7FFE003F#32 = 0#1 ++ BitVec.allOnes 14 ++ 0#9 ++ 0#2 ++ BitVec.allOnes 6 := by decide
    rw [mask, BitVec.and_append]
    simp only [BitVec.and_append, BitVec.and_zero, BitVec.zero_and]
    decide
  all_goals
    repeat rw [BitVec.extractLsb'_append_eq_of_le (by decide)]
    exact (BitVec.extractLsb'_append_eq_of_add_le (by decide)).trans BitVec.extractLsb'_eq_self

/-- R492: the fields of VIC_ISR. -/
theorem vicIsr_fields (active : BitVec 8) (v : Vic) : let w := vicIsr active v
    w.extractLsb' 0 9 = active.setWidth 9 ∧ w.extractLsb' 12 9 = vectPending v ∧ w &&& 0xFFE00E00#32 = 0#32 := by
  rw [vicIsr]
  refine ⟨?vector, ?pending, ?reserved⟩
  case vector =>
    rw [BitVec.setWidth_eq_append (by decide)]
    exact (BitVec.extractLsb'_append_eq_of_add_le (by decide)).trans BitVec.extractLsb'_eq_self
  case pending =>
    repeat rw [BitVec.extractLsb'_append_eq_of_le (by decide)]
    exact (BitVec.extractLsb'_append_eq_of_add_le (by decide)).trans BitVec.extractLsb'_eq_self
  case reserved =>
    have mask : 0xFFE00E00#32 = BitVec.allOnes 11 ++ 0#9 ++ BitVec.allOnes 3 ++ (0#1 ++ 0#8) := by decide
    rw [mask, BitVec.and_append]
    simp only [BitVec.and_append, BitVec.and_zero, BitVec.zero_and]
    decide

/-- R492: VECTPENDING names the most urgent source that is pending and enabled (decision D25). -/
theorem vectPending_toNat {v : Vic} {n : Fin 32} (hp : v.pending.getLsbD n.val = true) (he : v.enable.getLsbD n.val = true)
    (h : ∀ m : Fin 32, v.pending.getLsbD m.val = true → v.enable.getLsbD m.val = true →
      v.prio.get n < v.prio.get m ∨ (v.prio.get n = v.prio.get m ∧ n.val ≤ m.val)) : (vectPending v).toNat = 32 + n.val := by
  have hn : mostUrgent v (v.pending &&& v.enable) n := by
    simp only [mostUrgent, BitVec.getLsbD_and, Bool.and_eq_true, BitVec.toNat_inj]
    exact ⟨⟨hp, he⟩, fun m ⟨hpm, hem⟩ => h m hpm hem⟩
  rw [vectPending, (bestSource_eq_some_iff _ _ n).mpr hn, BitVec.toNat_ofNat]
  omega

theorem vectPending_none {v : Vic} (h : ∀ n : Fin 32, v.pending.getLsbD n.val = true → v.enable.getLsbD n.val = false) :
    vectPending v = 0#9 := by
  have hnone : bestSource v (v.pending &&& v.enable) = none := by
    refine (bestSource_eq_none_iff _ _).mpr fun n => ?_
    rw [BitVec.getLsbD_and, Bool.and_eq_false_imp]
    exact h n
  rw [vectPending, hnone]
  rfl

/-! ### The timer's registers (R471, R476) -/

/-- R471: the fields of CORET_CSR. -/
theorem coretCsr_fields (c : Config) (t : CoreTim) : let w := coretCsr c t
    w.getLsbD 16 = t.countflag ∧ w.getLsbD 2 = (t.clksource || !c.hasRefClk) ∧ w.getLsbD 1 = t.tickint ∧ w.getLsbD 0 = t.enable ∧
      w &&& 0xFFFEFFF8#32 = 0#32 := by
  rw [coretCsr, clkSource]
  generalize (t.clksource || !c.hasRefClk) = clk
  cases t.countflag <;> cases clk <;> cases t.tickint <;> cases t.enable <;> decide

/-- R476: the fields of CORET_CALIB. -/
theorem coretCalib_fields (c : Config) : let w := coretCalib c
    w.getLsbD 31 = c.calib.getLsbD 25 ∧ w.getLsbD 30 = c.calib.getLsbD 24 ∧ w.extractLsb' 0 24 = c.calib.extractLsb' 0 24 ∧
      w &&& 0x3F000000#32 = 0#32 := by
  rw [coretCalib]
  refine ⟨?_, ?_, ?tenms, ?reserved⟩
  case tenms => exact (BitVec.extractLsb'_append_eq_of_add_le (by decide)).trans BitVec.extractLsb'_eq_self
  case reserved =>
    have mask : 0x3F000000#32 = 0#2 ++ BitVec.allOnes 6 ++ 0#24 := by decide
    rw [mask, BitVec.and_append]
    simp only [BitVec.and_append, BitVec.and_zero, BitVec.zero_and]
    decide
  all_goals
    repeat rw [BitVec.getLsbD_append]
    simp

/-! ### The debug unit's control registers (R525, R531) -/

section
variable {s : State} {w : Word}

/-- R525: two contents of HCR that differ in no bit but DDAE. -/
theorem hcr_differs_iff (x y : Word) : (x ^^^ y) &&& ~~~(1#32 <<< 29) = 0#32 ↔ ∀ k, k < 32 → k ≠ 29 → x.getLsbD k = y.getLsbD k := by
  rw [BitVec.eq_of_getLsbD_eq_iff]
  refine forall₂_congr fun k hk => ?_
  rw [getLsbD_clearBit _ hk, BitVec.getLsbD_xor, BitVec.getLsbD_zero]
  by_cases hk29 : k = 29 <;> simp [hk29]

theorem writeHcr_ddae (h : ∀ k, k < 32 → k ≠ 29 → w.getLsbD k = s.had.hcr.getLsbD k) :
    writeHcr w s = .ok () { s with had := { s.had with hcr := w } } :=
  if_neg (by rw [(hcr_differs_iff _ _).mpr h]; decide)

theorem writeHcr_refused (h : ∃ k, k < 32 ∧ k ≠ 29 ∧ w.getLsbD k ≠ s.had.hcr.getLsbD k) : writeHcr w s = .refuse .hadEffectUnknown := by
  refine if_pos (bne_iff_ne.mpr fun h0 => ?_)
  obtain ⟨k, hk, hk29, hne⟩ := h
  exact hne ((hcr_differs_iff _ _).mp h0 k hk hk29)

theorem writeHadCsr_zero (h : w = 0#32) : writeHadCsr w s = .ok () { s with had := { s.had with csr := 0, fdb := false } } := if_pos h

theorem writeHadCsr_same (h : w = s.had.csr) (h0 : w ≠ 0#32) : writeHadCsr w s = .ok () s := (if_neg h0).trans (if_pos h)

theorem writeHadCsr_refused (h : w ≠ s.had.csr) (h0 : w ≠ 0#32) : writeHadCsr w s = .refuse .hadEffectUnknown := (if_neg h0).trans (if_neg h)

/-- R531: the known fields of DACSR stand at their places, whatever the free bits around them are (N23). -/
theorem dacsr_fields (size mode : BitVec 3) (f : Word) : let w := (0#25 ++ size ++ 0#1 ++ mode) ||| (f &&& ~~~dacsrKnown)
    w.extractLsb' 0 3 = mode ∧ w.extractLsb' 4 3 = size := by
  have hmode : (~~~dacsrKnown).extractLsb' 0 3 = 0#3 := by decide
  have hsize : (~~~dacsrKnown).extractLsb' 4 3 = 0#3 := by decide
  simp only [BitVec.extractLsb'_or, BitVec.extractLsb'_and, hmode, hsize, BitVec.and_zero, BitVec.or_zero]
  refine ⟨(BitVec.extractLsb'_append_eq_of_add_le (by decide)).trans BitVec.extractLsb'_eq_self, ?_⟩
  repeat rw [BitVec.extractLsb'_append_eq_of_le (by decide)]
  exact (BitVec.extractLsb'_append_eq_of_add_le (by decide)).trans BitVec.extractLsb'_eq_self

theorem readDacsr_fields (s : State) :
    ∃ r f, readDacsr s = .ok r { s with freeCount := f } ∧ r.extractLsb' 0 3 = s.had.mode ∧ r.extractLsb' 4 3 = s.had.size := by
  unfold readDacsr
  simp only []
  split
  · have hknown := dacsr_fields s.had.size s.had.mode 0#32
    simp only [BitVec.zero_and, BitVec.or_zero] at hknown
    exact ⟨_, s.freeCount, rfl, hknown⟩
  · exact ⟨_, s.freeCount + 1, rfl, dacsr_fields _ _ _⟩

/-- R531: mode and size are stored; PROT and DATA PHASE are 0 or free (assumption log 51). -/
theorem writeDacsr_legal (hm : (w.extractLsb' 0 3).toNat < 2) (hz : (w.extractLsb' 4 3).toNat < 3) : ∃ p d f, writeDacsr w s =
    .ok () { s with
      had := { s.had with mode := w.extractLsb' 0 3, size := w.extractLsb' 4 3, prot := p, dataPhase := d }, freeCount := f } := by
  have hlegal : ¬(2 ≤ (w.extractLsb' 0 3).toNat || 3 ≤ (w.extractLsb' 4 3).toNat) = true := by
    simp only [Bool.or_eq_true, decide_eq_true_eq]
    omega
  rw [writeDacsr, if_neg hlegal]
  simp only []
  split
  · exact ⟨0, false, s.freeCount, rfl⟩
  · exact ⟨_, _, s.freeCount + 1, rfl⟩

theorem writeDacsr_reserved (h : 2 ≤ (w.extractLsb' 0 3).toNat ∨ 3 ≤ (w.extractLsb' 4 3).toNat) : writeDacsr w s = .refuse .ddmaReserved :=
  if_pos (by simpa only [Bool.or_eq_true, decide_eq_true_eq] using h)

end

/-! ### The debug unit's transfers (R530 to R533) -/

/-- R531: the value of TRANS SIZE for a size. -/
def transSize (z : Size) : BitVec 3 :=
  match z with
  | .byte => 0#3
  | .half => 1#3
  | .word => 2#3

section
variable {s : State} {w : Word} {z : Size}

/-- A transfer can start: DDAE is set, the last one is done, and DACSR and DATR ask for an aligned one of a legal mode. -/
structure DdmaReady (z : Size) (s : State) : Prop where
  ddae : s.had.hcr.getLsbD 29 = true
  idle : s.had.busy = false
  mode : s.had.mode.toNat < 2
  size : s.had.size = transSize z
  aligned : s.had.datr.toNat % sizeBytes z = 0

theorem DdmaReady.start (h : DdmaReady z s) (transfer : Size → Word → State → Access Unit) :
    ddmaStart s transfer = transfer z s.had.datr (nextFree s) := by
  have hplan : ddmaPlan s.had = .ok z := by
    have hmode : ¬2 ≤ s.had.mode.toNat := Nat.not_le.mpr h.mode
    simp only [ddmaPlan, h.size]
    cases z <;> exact if_neg hmode
  have haddr : ddmaAddr s.had.datr z = some s.had.datr := by
    have hlow : misaligned z s.had.datr = false := by rw [← Bool.not_eq_true, misaligned_iff, not_not]; exact h.aligned
    exact if_pos (by simpa [misaligned] using hlow)
  have hdropped : ddmaDropped s = false := by rw [ddmaDropped, h.idle, Bool.false_and]
  rw [ddmaStart, hplan]
  simp only [hdropped, haddr]
  rfl

theorem DdmaReady.setDarwr (h : DdmaReady z s) (w : Word) : DdmaReady z { s with had := { s.had with darwr := w } } := { h with }

/-- Off the tightly coupled IP range the system bus answers. -/
theorem ddmaSlave_bus {a : Word} (h : inTcip s a = false) : ddmaSlave s.cfg a = slaveAt s.cfg a := if_neg (ne_true_of_eq_false h)

theorem writeDarwr_off (h : s.had.hcr.getLsbD 29 = false) : writeDarwr w s = .ok () { s with had := { s.had with darwr := w } } :=
  if_neg (ne_true_of_eq_false h)

theorem writeDarwr_on (h : s.had.hcr.getLsbD 29 = true) : writeDarwr w s = ddmaWrite { s with had := { s.had with darwr := w } } := if_pos h

theorem readDarwr_dataPhase (h : s.had.dataPhase = true) :
    readDarwr s = .ok s.had.darwr { s with had := { s.had with dataPhase := false } } := if_pos h

theorem readDarwr_off (h : s.had.hcr.getLsbD 29 = false) (hd : s.had.dataPhase = false) : readDarwr s = .ok s.had.darwr s :=
  (if_neg (ne_true_of_eq_false hd)).trans (if_neg (ne_true_of_eq_false h))

theorem readDarwr_on (h : s.had.hcr.getLsbD 29 = true) (hd : s.had.dataPhase = false) :
    readDarwr s = (ddmaRead s).bind fun _ t => .ok s.had.darwr t :=
  (if_neg (ne_true_of_eq_false hd)).trans (if_pos h)

theorem Had.idle {d : Had} (h : d.busy = false) : { d with busy := false } = d := by
  cases d
  cases h
  rfl

/-- A transfer that finds TRANS BUSY clear leaves it clear. -/
theorem ddmaWriteDone_idle (h : s.had.busy = false) :
    ddmaWriteDone z s = { s with had := { s.had with error := false, datr := ddmaNextAddr s.had z } } := by
  show { s with had := { { s.had with busy := false } with error := false, datr := ddmaNextAddr s.had z } } = _
  rw [Had.idle h]

theorem ddmaFailed_idle (h : s.had.busy = false) : ddmaFailed s = { s with had := { s.had with error := true } } := by
  show { s with had := { { s.had with busy := false } with error := true } } = _
  rw [Had.idle h]

/-- After a read transfer with DATA PHASE clear it says whether the transfer was a single one. -/
theorem ddmaReadDone_idle (h : s.had.busy = false) (hd : s.had.dataPhase = false) (d : Word) :
    ddmaReadDone z d s = { s with
      freeCount := s.freeCount + 1
      had := { s.had with
        darwr := ddmaDatum z d (Config.freeWord s.freeCount), error := false, datr := ddmaNextAddr s.had z
        dataPhase := decide (s.had.mode = 0#3) } } := by
  have hphase : (s.had.dataPhase || s.had.mode == 0#3) = decide (s.had.mode = 0#3) := by rw [hd, Bool.false_or, beq_eq_decide]
  show { s with
    freeCount := s.freeCount + 1
    had := { { s.had with busy := false } with
      darwr := ddmaDatum z d (Config.freeWord s.freeCount), error := false, datr := ddmaNextAddr s.had z
      dataPhase := s.had.dataPhase || s.had.mode == 0#3 } } = _
  rw [Had.idle h, hphase]

/-- R533: a write transfer stores DARWR's low bytes at DATR. -/
theorem DdmaReady.write_memory (h : DdmaReady z s) (hm : isMemory s s.had.datr) : ∃ f, writeDarwr w s = .ok () { s with
    mem := memStore s.cfg.bigEndian z s.had.datr w s.mem, freeCount := f
    had := { s.had with darwr := w, error := false, datr := ddmaNextAddr s.had z } } := by
  have hslave : ddmaSlave s.cfg s.had.datr = .memory := (ddmaSlave_bus hm.1).trans hm.2
  refine ⟨s.freeCount + 1, ?_⟩
  rw [writeDarwr_on h.ddae, ddmaWrite, (h.setDarwr w).start]
  simp only [nextFree_cfg, hslave, slaveWrite, ddmaDone]
  exact congrArg (Access.ok _) (ddmaWriteDone_idle h.idle)

/-- R531: a write transfer that the bus answers with ERROR sets TRANS ERROR. -/
theorem DdmaReady.write_error (h : DdmaReady z s) (ht : inTcip s s.had.datr = false) (hb : slaveAt s.cfg s.had.datr = .busError) :
    ∃ f, writeDarwr w s = .ok () { s with had := { s.had with darwr := w, error := true }, freeCount := f } := by
  have hslave : ddmaSlave s.cfg s.had.datr = .busError := (ddmaSlave_bus ht).trans hb
  refine ⟨s.freeCount + 1, ?_⟩
  rw [writeDarwr_on h.ddae, ddmaWrite, (h.setDarwr w).start]
  simp only [nextFree_cfg, hslave, slaveWrite, ddmaDone]
  exact congrArg (Access.ok _) (ddmaFailed_idle h.idle)

/-- R533: a read transfer puts the datum at DATR into DARWR's low bits, after the old content is answered. -/
theorem DdmaReady.read_memory (h : DdmaReady z s) (hm : isMemory s s.had.datr) (hd : s.had.dataPhase = false) :
    ∃ d f, (∀ k, k < 8 * sizeBytes z → d.getLsbD k = (datum s z s.had.datr).getLsbD k) ∧
      readDarwr s = .ok s.had.darwr { s with
        freeCount := f
        had := { s.had with darwr := d, error := false, datr := ddmaNextAddr s.had z, dataPhase := decide (s.had.mode = 0#3) } } := by
  have hslave : ddmaSlave s.cfg s.had.datr = .memory := (ddmaSlave_bus hm.1).trans hm.2
  refine ⟨ddmaDatum z (datum s z s.had.datr) (Config.freeWord (s.freeCount + 1)), s.freeCount + 2, fun k => ddmaDatum_low z _ _, ?_⟩
  rw [readDarwr_on h.ddae hd, ddmaRead, h.start]
  simp only [nextFree_cfg, hslave, slaveRead, ddmaDone, Access.bind]
  exact congrArg (Access.ok _) (ddmaReadDone_idle (s := nextFree s) h.idle hd _)

/-- R531: a read transfer that the bus answers with ERROR. -/
theorem DdmaReady.read_error (h : DdmaReady z s) (ht : inTcip s s.had.datr = false) (hb : slaveAt s.cfg s.had.datr = .busError)
    (hd : s.had.dataPhase = false) :
    ∃ f, readDarwr s = .ok s.had.darwr { s with freeCount := f, had := { s.had with error := true } } := by
  have hslave : ddmaSlave s.cfg s.had.datr = .busError := (ddmaSlave_bus ht).trans hb
  refine ⟨s.freeCount + 1, ?_⟩
  rw [readDarwr_on h.ddae hd, ddmaRead, h.start]
  simp only [nextFree_cfg, hslave, slaveRead, ddmaDone, Access.bind]
  exact congrArg (Access.ok _) (ddmaFailed_idle h.idle)

/-- DARWR's content plays no part in what transfer DACSR asks for. -/
theorem ddmaPlan_darwr (d : Had) (w : Word) : ddmaPlan { d with darwr := w } = ddmaPlan d := rfl

/-- R531, U20: a transfer of a reserved mode or size is refused. -/
theorem writeDarwr_reserved (h : s.had.hcr.getLsbD 29 = true) (hr : 2 ≤ s.had.mode.toNat ∨ 3 ≤ s.had.size.toNat) :
    writeDarwr w s = .refuse .ddmaReserved := by
  have hplan : ddmaPlan s.had = .error .ddmaReserved := by
    unfold ddmaPlan
    cases hz : ddmaSize s.had.size with
    | none => rfl
    | some z =>
      have hsize : s.had.size.toNat < 3 := by
        unfold ddmaSize at hz
        split at hz
        · next e => rw [e]; decide
        · next e => rw [e]; decide
        · next e => rw [e]; decide
        · cases hz
      exact if_pos (by omega)
  simp only [writeDarwr_on h, ddmaWrite, ddmaStart, ddmaPlan_darwr, hplan]

end

/-! ### The statement -/

/-- Settles O45: the register that stands at each address, and its own read and write. -/
theorem deviceRegisterAccess : Obligations.DeviceRegisterAccess := by
  intro s w
  refine ⟨fun hv => ?vic, fun ht => ?timer, fun hd => ?debug⟩
  case vic =>
    have rd {a : Word} {r : TcipReg} : timerMap.lookup a = none ∧ vicMap.lookup a = some r → tcipRead a s = readTcipReg r s :=
      fun ⟨ht, hl⟩ => tcipRead_of_tcipReg (tcipReg_vic hv ht hl)
    have wr {a : Word} {r : TcipReg} : timerMap.lookup a = none ∧ vicMap.lookup a = some r → tcipWrite a w s = writeTcipReg r w s :=
      fun ⟨ht, hl⟩ => tcipWrite_of_tcipReg (tcipReg_vic hv ht hl) w
    intro ok here
    refine ⟨⟨_, wr (r := .vicIser) (by decide), fun _ => getLsbD_setSources _ _ _⟩,
      ⟨_, wr (r := .vicIcer) (by decide), fun _ => getLsbD_clearSources _ _⟩,
      ⟨_, wr (r := .vicIwer) (by decide), fun _ => getLsbD_setSources _ _ _⟩,
      ⟨_, wr (r := .vicIwdr) (by decide), fun _ => getLsbD_clearSources _ _⟩,
      ⟨_, wr (r := .vicIspr) (by decide), fun _ => getLsbD_setSources _ _ _⟩,
      ⟨_, wr (r := .vicIcpr) (by decide), fun _ => getLsbD_clearSources _ _⟩,
      fun h => ?iabrClears, fun h => (wr (r := .vicIabr) (by decide)).trans (writeIabr_refused h),
      fun k => ⟨_, ?iprWrite, vicWriteIpr_get _ k w s.vic⟩,
      fun k => ⟨_, tcipRead_of_tcipReg (tcipReg_vicIpr hv k), vicIpr_reserved k s.vic, fun _ => vicIpr_get s.vic⟩,
      wr (r := .vicIptr) (by decide), ⟨_, rd (r := .vicIptr) (by decide), vicIptr_fields s.vic⟩,
      ?isr, wr (r := .vicIsr) (by decide),
      rd (r := .vicIser) (by decide), rd (r := .vicIcer) (by decide), rd (r := .vicIwer) (by decide), rd (r := .vicIwdr) (by decide),
      rd (r := .vicIspr) (by decide), rd (r := .vicIcpr) (by decide), rd (r := .vicIabr) (by decide)⟩
    case iabrClears =>
      obtain ⟨e, he, hbits⟩ := writeIabr_clears h
      exact ⟨e, (wr (r := .vicIabr) (by decide)).trans he, hbits⟩
    case iprWrite =>
      refine (tcipWrite_of_tcipReg (tcipReg_vicIpr hv k) w).trans ?_
      rw [writeTcipReg, vicWriteIpr_eq]
    case isr =>
      obtain ⟨hactive, hpending, hreserved⟩ := vicIsr_fields s.psr.vec s.vic
      refine ⟨_, rd (r := .vicIsr) (by decide), hactive, hreserved, fun n hp he h => ?_, fun h => ?_⟩
      · rw [hpending, vectPending_toNat hp he h]
      · rw [hpending, vectPending_none h]
  case timer =>
    have rd {a : Word} {r : TcipReg} (hl : timerMap.lookup a = some r) : tcipRead a s = readTcipReg r s :=
      tcipRead_of_tcipReg (tcipReg_timer ht hl)
    have wr {a : Word} {r : TcipReg} (hl : timerMap.lookup a = some r) : tcipWrite a w s = writeTcipReg r w s :=
      tcipWrite_of_tcipReg (tcipReg_timer ht hl) w
    have widen (x : BitVec 24) : 0#8 ++ x = x.setWidth 32 := (BitVec.setWidth_eq_append (by decide)).symm
    rw [← widen, ← widen]
    exact ⟨⟨_, rd (r := .coretCsr) (by decide), coretCsr_fields s.cfg s.timer⟩, wr (r := .coretCsr) (by decide),
      rd (r := .coretRvr) (by decide), wr (r := .coretRvr) (by decide), rd (r := .coretCvr) (by decide), wr (r := .coretCvr) (by decide),
      ⟨_, rd (r := .coretCalib) (by decide), coretCalib_fields s.cfg⟩, wr (r := .coretCalib) (by decide)⟩
  case debug =>
    have rd {a : Word} {r : TcipReg} :
        timerMap.lookup a = none ∧ vicMap.lookup a = none ∧ debugMap.lookup a = some r → tcipRead a s = readTcipReg r s :=
      fun ⟨ht, hv, hl⟩ => tcipRead_of_tcipReg (tcipReg_debug hd ht hv hl)
    have wr {a : Word} {r : TcipReg} :
        timerMap.lookup a = none ∧ vicMap.lookup a = none ∧ debugMap.lookup a = some r → tcipWrite a w s = writeTcipReg r w s :=
      fun ⟨ht, hv, hl⟩ => tcipWrite_of_tcipReg (tcipReg_debug hd ht hv hl) w
    have rdDarwr : tcipRead 0xE00110E8#32 s = readDarwr s := rd (r := .darwr) (by decide)
    have wrDarwr : tcipWrite 0xE00110E8#32 w s = writeDarwr w s := wr (r := .darwr) (by decide)
    have rdDacsr : tcipRead 0xE00110E0#32 s = readDacsr s := rd (r := .dacsr) (by decide)
    have wrDacsr : tcipWrite 0xE00110E0#32 w s = writeDacsr w s := wr (r := .dacsr) (by decide)
    have wrHcr : tcipWrite 0xE0011034#32 w s = writeHcr w s := wr (r := .hcr) (by decide)
    have wrCsr : tcipWrite 0xE0011054#32 w s = writeHadCsr w s := wr (r := .hadCsr) (by decide)
    intro ok start size nextAddr
    simp only [ok, rdDarwr, wrDarwr, rdDacsr, wrDacsr, wrHcr, wrCsr]
    refine ⟨rd (r := .hcr) (by decide), rd (r := .hsr) (by decide), wr (r := .hsr) (by decide), rd (r := .hadCsr) (by decide),
      writeHcr_ddae, writeHcr_refused, writeHadCsr_same, writeHadCsr_zero, writeHadCsr_refused,
      rd (r := .datr) (by decide), wr (r := .datr) (by decide), readDacsr_fields s, writeDacsr_legal, writeDacsr_reserved,
      fun h => ⟨writeDarwr_off h, readDarwr_off h⟩, readDarwr_dataPhase, fun z hz hs ha => ?transfer, writeDarwr_reserved⟩
    case transfer =>
      obtain ⟨hddae, hidle, hmode⟩ := hs
      have ready : DdmaReady z s := ⟨hddae, hidle, hmode, hz, ha⟩
      exact ⟨fun hm => ⟨ready.write_memory hm, ready.read_memory hm⟩, fun ht hb => ⟨ready.write_error ht hb, ready.read_error ht hb⟩⟩

end Sys2Proof.Machine
